-- ==== Sys2Proof/Word.lean ====
section
/-! DEFINITION. Word types of the Fospan 4226: bytes on the wire, 16-bit tags, 32-bit signatures and frame numbers. -/

namespace Sys2Proof

/-- One byte of a request frame or an answer frame (R195). -/
abbrev Byte := BitVec 8

/-- An update tag, 0 to 65535 (R105). -/
abbrev Tag := BitVec 16

/-- A signature or a wrapping signature sum (R2, R109; `+` is the 32-bit wrapping sum). -/
abbrev Signature := BitVec 32

/-- A frame number, a 32-bit wrapping count (R55). -/
abbrev FrameNo := BitVec 32

/-- One raw count of the sense front end, 0 to 4095 (R127). -/
abbrev RawCount := BitVec 12

end Sys2Proof
end

