-- ==== Sys2Proof/Config.lean ====
section
/-! DEFINITION. What is fixed in the part: its two panels and three client ports, the geometry of section 0.5,
the defaults of R43 and R145, the identification of R192. The manual leaves no result of a command without a
value, so there is no free value here. -/

namespace Sys2Proof

/-- The two panels (section 0.1). -/
inductive Panel where
  | cluster
  | centre
  deriving DecidableEq, Repr

/-- The three client ports (R182). -/
inductive Port where
  | cp0
  | cp1
  | cp2
  deriving DecidableEq, Repr

namespace Config

/-- Row groups of a panel, numbered from 0 (section 0.5). -/
def rowGroups : Panel → Nat
  | .cluster => 90
  | .centre => 150

/-- Transmit rows of the centre panel (section 0.5). -/
def transmitRows : Nat := 15

/-- Receive columns of the centre panel (section 0.5). -/
def receiveColumns : Nat := 24

/-- Records of the contract table (R1). -/
def records : Nat := 64

/-- Default slot count S (R43). -/
def defaultSlots : Panel → Nat
  | .cluster => 100
  | .centre => 180

/-- Default slot period in microseconds (R43). -/
def defaultSlotPeriod : Panel → Nat
  | .cluster => 167
  | .centre => 93

/-- Default late grace (R43). -/
def defaultGrace : Nat := 4

/-- Default backlight period, and default duty, equal to it (R43). -/
def defaultBacklight : Panel → Nat
  | .cluster => 10
  | .centre => 12

/-- Default touch threshold (R145). -/
def defaultTouchThreshold : Nat := 60

/-- Default threshold of a fault bank (R181). -/
def defaultFaultThreshold : Nat := 16

/-- Slot periods of the start limit (R47). -/
def startLimit : Nat := 64

/-- Vendor code (R192). -/
def vendorCode : Nat := 0x4F52

/-- Part code (R192). -/
def partCode : Nat := 0x4226

/-- Revision (R192). -/
def revision : Nat := 3

/-- Kind byte of a request transaction (R195). -/
def requestKind : Byte := 0xA5

/-- Kind byte of an answer transaction (R195). -/
def answerKind : Byte := 0x5A

/-- The fill byte (R195). -/
def fillByte : Byte := 0xFF

end Config
end Sys2Proof
end

