-- ==== Sys2Proof/Syntax.lean ====
section
/-! DEFINITION. The commands of the block: one constructor for each row of spec/opcode_table.json. -/

namespace Sys2Proof

/-- One command: one indivisible event of the part (spec/95). A request row carries the port whose request in
hand its owner takes; the request's parameters are the bytes in hand, as received (R183, R196). -/
inductive Instr where
  /-- COLD_RESET: the reading of the two strap pins, or `none` with the pins unconnected (R65, R187). -/
  | coldReset (strap : Option (BitVec 2))
  /-- REQUEST_TRANSACTION: the bytes the client sent after the kind byte 0xA5 (R183, R195). -/
  | requestTransaction (port : Port) (frame : List Byte)
  /-- ANSWER_TRANSACTION: how many bytes the client clocks after the kind byte 0x5A (R186, R195). -/
  | answerTransaction (port : Port) (clocked : Nat)
  /-- UNKNOWN_KIND_TRANSACTION: every byte the client sent; the first names no kind, or there is none (R182). -/
  | unknownKindTransaction (port : Port) (bytes : List Byte)
  | openContract (port : Port)
  | amend (port : Port)
  | suspend (port : Port)
  | resume (port : Port)
  | retire (port : Port)
  | lookup (port : Port)
  | find (port : Port)
  | list (port : Port)
  | update (port : Port)
  | panelUp (port : Port)
  | panelDown (port : Port)
  | panelConfig (port : Port)
  | panelStatus (port : Port)
  | backlight (port : Port)
  | touchConfig (port : Port)
  | recalibrate (port : Port)
  | contacts (port : Port)
  | faultRead (port : Port)
  | faultClear (port : Port)
  | faultControl (port : Port)
  | ackCritical (port : Port)
  | inject (port : Port)
  | identify (port : Port)
  | notices (port : Port)
  | setAttention (port : Port)
  | warmReset (port : Port)
  /-- SLOT_BOUNDARY: the end of a slot period of the panel (R53). -/
  | slotBoundary (panel : Panel)
  /-- ORDER_TIMEOUT: the panel link's part of that boundary alone (R96). -/
  | orderTimeout (panel : Panel)
  /-- START_LIMIT_EXPIRY: the panel's start limit timer has reached 64 slot periods (R49). -/
  | startLimitExpiry (panel : Panel)
  /-- READY from the panel's timing controller (R89). -/
  | ready (panel : Panel)
  /-- DONE from the panel's timing controller (R89). -/
  | done (panel : Panel) (rowGroup : Nat) (signature : Signature)
  /-- FAULT from the panel's timing controller (R89). -/
  | fault (panel : Panel) (code : Byte)
  /-- COMPLETION_CREDIT: the contract manager takes the oldest completion handed on for the panel (R103, R110). -/
  | completionCredit (panel : Panel)
  /-- SENSE_COMPLETE: the 24 raw counts of the burst that ends (R127, R135). -/
  | senseComplete (counts : Vector RawCount 24)
  /-- HALT: the panel's timeline engine takes the halt handed to it (R51). -/
  | halt (panel : Panel)
  deriving DecidableEq, Repr

end Sys2Proof
end

