-- ==== Sys2Proof/Decode.lean ====
section
/-! DEFINITION. Decoding a command from a word of the table. No row of spec/opcode_table.json gives bits (its
"fields" are all empty), so no word spells a command. The frames a client writes are judged in
Machine/Operands.lean and Machine/Ports.lean, as the part judges them (R183). -/

namespace Sys2Proof

/-- The command that `nbits` bits `w` spell by spec/opcode_table.json: none, since the table gives no row any bits. -/
def decodeTableWord (_nbits _w : Nat) : Option Instr := none

end Sys2Proof
end

