-- ==== Sys2Proof/Machine/State.lean ====
section
/-! DEFINITION. The state of the part, block by block, with the names of spec/, and its value after cold reset.
`State` is the part and the queue of waiting commands. -/

namespace Sys2Proof.Machine

/-! ### One value for each panel, port and bank -/

/-- One value for each panel: the two timeline engines, the two panel links, and so on. -/
structure PerPanel (α : Type) where
  cluster : α
  centre : α
  deriving DecidableEq, Repr

/-- One value for each client port. -/
structure PerPort (α : Type) where
  cp0 : α
  cp1 : α
  cp2 : α
  deriving DecidableEq, Repr

/-- The four fault banks (R164). -/
inductive Bank where
  | cluster
  | centre
  | touch
  | core
  deriving DecidableEq, Repr

/-- One value for each fault bank. -/
structure PerBank (α : Type) where
  cluster : α
  centre : α
  touch : α
  core : α
  deriving DecidableEq, Repr

/-! ### Client ports (Chapter 10) -/

/-- The 26 requests of Table 11-1. -/
inductive RequestName where
  | openContract | amend | suspend | resume | retire | lookup | find | list | update
  | panelUp | panelDown | panelConfig | panelStatus | backlight
  | touchConfig | recalibrate | contacts
  | faultRead | faultClear | faultControl | ackCritical | inject
  | identify | notices | setAttention | warmReset
  deriving DecidableEq, Repr

/-- A request in hand: which request, and its parameter bytes as received (R183, R196). -/
structure Request where
  name : RequestName
  params : List Byte
  deriving DecidableEq, Repr

/-- The status codes of Table 11-2. -/
inductive Status where
  | ok | staged | notReady | noRequest | badFrame | unknownRequest | badArg | badHandle
  | notOwner | notFeeder | noAuthority | badState | noRoom | noBudget | conflict | busy | nothingPending
  deriving DecidableEq, Repr

/-- An answer frame before its encoding: status, dropped flag and payload (R185, R195). -/
structure Answer where
  status : Status
  dropped : Bool
  payload : List Byte
  deriving DecidableEq, Repr

/-- The port states of R182. -/
inductive PortState where
  | idle
  | working
  | answered
  deriving DecidableEq, Repr

/-- The roles of R187. -/
inductive Role where
  | safety
  | display
  deriving DecidableEq, Repr

/-- The notice set of a port (R189). Bit n of a member set is the member of number n; a kind with members is
pending exactly while its set is not empty. -/
structure NoticeSet where
  contract : BitVec 64
  zone : BitVec 64
  contacts : Bool
  panel : BitVec 2
  fault : BitVec 4
  threshold : BitVec 4
  critical : BitVec 2
  deriving DecidableEq, Repr

/-- A set of the seven notice kinds, by the kind bits of Table 11-8. -/
abbrev KindSet := BitVec 7

/-- The state of one client port (R182). Its role and its attention line are computed (R187, R190). -/
structure ClientPort where
  state : PortState
  inHand : Option Request
  held : Option Answer
  dropped : Bool
  noticeSet : NoticeSet
  mask : KindSet
  deriving DecidableEq, Repr

/-! ### The contract table (Chapter 1) -/

/-- The contract states of R5. -/
inductive ContractState where
  | free
  | staged
  | live
  | suspended
  | stale
  | retiring
  deriving DecidableEq, Repr

/-- The contract classes, of rank 0 to 3 in this order (R2). -/
inductive ContractClass where
  | telltale
  | gauge
  | info
  | ambient
  deriving DecidableEq, Repr

/-- A band: first and last row group (R2). -/
structure Band where
  first : Nat
  last : Nat
  deriving DecidableEq, Repr

/-- A touch zone (R2). -/
structure Zone where
  firstCol : Nat
  lastCol : Nat
  debounce : Nat
  divisor : Nat
  deriving DecidableEq, Repr

/-- The amendable parameters of a contract; a staged amendment is a full set of them (R2, R11). -/
structure Params where
  band : Band
  cls : ContractClass
  period : Nat
  latency : Option Nat
  checking : Bool
  zone : Option Zone
  oneShot : Bool
  deriving DecidableEq, Repr

/-- A pending update (R2, R106). -/
structure PendingUpdate where
  tag : Tag
  sig : Option Signature
  age : Nat
  deriving DecidableEq, Repr

/-- The frame accumulation (R109). -/
structure Accumulation where
  groups : Nat
  sum : Signature
  tag : Option Tag
  expected : Option Signature
  deriving DecidableEq, Repr

/-- The state of a present touch zone (R2). -/
inductive ZoneState where
  | idle
  | pressed (contact : Nat)
  deriving DecidableEq, Repr

/-- One record of the contract table (R2). Its number is its position. Owner and feeder have two bits, so that a
record that fails its check can be read with a port number of 3 (R26). `checkGood` says whether the check code
agrees with the fields. -/
structure Record where
  generation : BitVec 8
  state : ContractState
  owner : BitVec 2
  feeder : BitVec 2
  panel : Panel
  params : Params
  confirmed : Option Signature
  pending : Option PendingUpdate
  lastServed : Option Tag
  zoneState : Option ZoneState
  stagedAmendment : Option Params
  suspendMark : Bool
  resumeMark : Bool
  age : Nat
  lateMark : Bool
  lateFrames : Nat
  fallback : Bool
  accum : Accumulation
  lateness : Nat
  lastRefresh : Option FrameNo
  checkGood : Bool
  deriving DecidableEq, Repr

/-! ### Timeline engines, plans and panel links (Chapters 3 to 5) -/

/-- The panel states of R45. -/
inductive PanelState where
  | down
  | starting
  | running
  | halted
  deriving DecidableEq, Repr

/-- The stop policies of R58. -/
inductive StopPolicy where
  | hold
  | dark
  | blank
  deriving DecidableEq, Repr

/-- The configuration of a panel apart from its duty (R43). -/
structure PanelConfig where
  slots : Nat
  slotPeriod : Nat
  grace : Nat
  policy : StopPolicy
  blPeriod : Nat
  deriving DecidableEq, Repr

/-- The two kinds of order (R88, R91). -/
inductive OrderKind where
  | drive
  | fallback
  deriving DecidableEq, Repr

/-- What a plan entry does: its kind with the fields present for it (R68). -/
inductive EntryKind where
  | drive (rowGroup : Nat) (cause : Nat)
  | fallback (rowGroup : Nat) (cause : Nat)
  | sense (row : Nat)
  | guard
  | idle
  | closing
  deriving DecidableEq, Repr

/-- The outcomes of a plan entry (R68, R70). -/
inductive EntryOutcome where
  | pending
  | done
  | timedOut
  | disturbed
  | abandoned
  deriving DecidableEq, Repr

/-- A plan entry; its slot is its position (R68). -/
structure Entry where
  kind : EntryKind
  outcome : EntryOutcome
  deriving DecidableEq, Repr

/-- An item of the placed-contract list (R71). -/
structure Placed where
  handle : Nat
  kind : OrderKind
  band : Band
  captureSlot : Option Nat
  deriving DecidableEq, Repr

/-- A frame plan (R67). -/
structure Plan where
  entries : List Entry
  placed : List Placed
  carried : Option EntryOutcome
  deriving DecidableEq, Repr

/-- The plan summary of R64: entries of each kind, and entries holding each outcome. -/
structure PlanSummary where
  drive : Nat
  fallback : Nat
  sense : Nat
  guard : Nat
  idle : Nat
  closing : Nat
  pending : Nat
  done : Nat
  timedOut : Nat
  disturbed : Nat
  abandoned : Nat
  deriving DecidableEq, Repr

/-- One timeline engine (R43, R45, R52, R53, R55, R60, R64, R67). `haltHanded`: a halt has been handed to it by
critical escalation and is still to be taken (R172). `lastSummary`: the summary of the last plan, kept when that
plan is cleared. -/
structure Engine where
  state : PanelState
  cfg : PanelConfig
  duty : Nat
  stagedDuty : Nat
  output : Bool
  frame : FrameNo
  slot : Option Nat
  startLeft : Option Nat
  critical : Bool
  haltHanded : Bool
  plan : Option Plan
  lastSummary : Option PlanSummary
  deriving DecidableEq, Repr

/-- An order in flight (R91). -/
structure Order where
  rowGroup : Nat
  kind : OrderKind
  slot : Nat
  deriving DecidableEq, Repr

/-- A panel link: the in-flight order list, oldest first, and the consecutive-timeout count (R91, R97). -/
structure Link where
  orders : List Order
  timeouts : Nat
  deriving DecidableEq, Repr

/-- A completion handed on by a panel link (R103); its panel is where it is kept. -/
structure Completion where
  rowGroup : Nat
  sig : Signature
  kind : OrderKind
  slot : Nat
  deriving DecidableEq, Repr

/-- What the contract manager keeps of one panel's completions: those handed on and not yet credited, oldest
first, and the placed-contract list of a plan that a teardown cleared meanwhile (R103, R110). -/
structure CreditQueue where
  completions : List Completion
  keptPlaced : Option (List Placed)
  deriving DecidableEq, Repr

/-! ### Touch sense engine and contact tracker (Chapters 7 and 8) -/

/-- The touch states of R128. -/
inductive TouchState where
  | idle
  | scanning
  | suspended
  deriving DecidableEq, Repr

/-- The sense placements of R74. -/
inductive Placement where
  | lead
  | split
  deriving DecidableEq, Repr

/-- The touch configuration (R128, R141). -/
structure TouchConfig where
  threshold : Nat
  placement : Placement
  deriving DecidableEq, Repr

/-- A set of transmit rows: bit t is row t. -/
abbrev RowSet := BitVec 15

/-- The result of a SCANNED row: 24 raw counts and 24 deltas (R132). -/
structure RowResult where
  raw : List Nat
  deltas : List Nat
  deriving DecidableEq, Repr

/-- A touch frame in progress (R132). `results` has one place for each transmit row; a row of the row set with no
result is NEEDED. -/
structure TouchFrame where
  rows : RowSet
  results : List (Option RowResult)
  threshold : Nat
  placement : Placement
  deriving DecidableEq, Repr

/-- A burst running (R134): its transmit row, the slot of its entry, its judgement, and whether the touch frame it
was started in is no longer the touch frame in progress (R135). -/
structure Burst where
  row : Nat
  slot : Nat
  disturbed : Bool
  lost : Bool
  deriving DecidableEq, Repr

/-- The contact states of R151. -/
inductive ContactState where
  | touchdown
  | held
  | lifted
  deriving DecidableEq, Repr

/-- A contact record (R151). -/
structure Contact where
  id : Nat
  state : ContactState
  x : Nat
  y : Nat
  strength : Nat
  framesHeld : Nat
  zone : Option Nat
  deriving DecidableEq, Repr

/-- A press candidate (R147). -/
structure PressCandidate where
  handle : Nat
  contact : Nat
  run : Nat
  deriving DecidableEq, Repr

/-- The touch sense engine with its contact tracker (R128, R147). Maps hold one list of 24 values for each of the
15 transmit rows; `candidates` has one slot for each contract number. -/
structure Touch where
  state : TouchState
  scanSet : RowSet
  baselines : List (List Nat)
  calibrated : RowSet
  cfg : TouchConfig
  frame : Option TouchFrame
  resultRow : Nat
  resultCounts : List Nat
  deltaMap : List (List Nat)
  completed : BitVec 16
  burst : Option Burst
  contacts : List Contact
  candidates : List (Option PressCandidate)
  deriving DecidableEq, Repr

/-! ### Fault monitor (Chapter 9) -/

/-- The fault classes, in ascending order of severity (R164). -/
inductive FaultClass where
  | corrected
  | contained
  | critical
  deriving DecidableEq, Repr

/-- The scopes of a claim (R164). -/
inductive FaultScope where
  | contract
  | panel
  | part
  deriving DecidableEq, Repr

/-- The sixteen fault codes of R166. -/
inductive FaultCode where
  | late | staleContract | telltaleMiss | sigMismatch | planShort | orderTimeout | linkLoss | panelFault
  | startFail | senseDisturbed | senseDeferred | contactOverflow | calFail | frameCheck | portOverrun | tableCheck
  deriving DecidableEq, Repr

/-- A fault record (R165); the slot that holds one has valid yes. -/
structure FaultRecord where
  cls : FaultClass
  code : FaultCode
  scope : FaultScope
  panel : Option Panel
  handle : Option Nat
  detail : Byte
  frame : FrameNo
  overflow : Bool
  injected : Bool
  deriving DecidableEq, Repr

/-- A fault bank (R164). Bit 0 of the report mask is CORRECTED, bit 1 CONTAINED, bit 2 CRITICAL (section 11.2). -/
structure FaultBank where
  record : Option FaultRecord
  enabled : Bool
  mask : BitVec 3
  threshold : Nat
  count : Nat
  deriving DecidableEq, Repr

/-- The fault monitor: four banks and the inject enable (R164). -/
structure FaultMonitor where
  banks : PerBank FaultBank
  injectEnable : Bool
  deriving DecidableEq, Repr

/-! ### What the part sends -/

/-- The messages a panel link sends (R88). STOP carries true for BLANK and false for HOLD. -/
inductive LinkMessage where
  | start
  | drive (rowGroup : Nat)
  | fallback (rowGroup : Nat)
  | sense (row : Nat)
  | stop (blank : Bool)
  deriving DecidableEq, Repr

/-- Something the part sends while it takes a command: a message on a panel's link, or the bytes a client clocks
out of a port in one transaction. -/
inductive Output where
  | link (panel : Panel) (message : LinkMessage)
  | bytes (port : Port) (sent : List Byte)
  deriving DecidableEq, Repr

/-! ### The part and the state -/

/-- Everything the part holds. `out` is the model's own: what was sent during the last command. -/
structure Part where
  ports : PerPort ClientPort
  strap : Port
  table : List Record
  engines : PerPanel Engine
  links : PerPanel Link
  credits : PerPanel CreditQueue
  touch : Touch
  faults : FaultMonitor
  out : List Output
  deriving DecidableEq, Repr

/-- The machine: the part and the commands waiting, first in first out. -/
structure State where
  part : Part
  pending : List Instr
  deriving DecidableEq, Repr

/-- Why the machine may stop: never. The spec gives the part no event that stops it, so there is no constructor;
nobody raises one (safe). -/
inductive Fault
  deriving DecidableEq, Repr

/-- Why the machine may refuse a command. -/
inductive Refusal where
  /-- Raised by an arm of `exec` for a row that has no meaning yet; no arm raises it in this model (safe: the
  machine would stop where the hardware goes on). -/
  | notModelled (mnemonic : String)
  deriving DecidableEq, Repr

/-! ### The state after cold reset -/

/-- An empty notice set. -/
def NoticeSet.empty : NoticeSet :=
  { contract := 0, zone := 0, contacts := false, panel := 0, fault := 0, threshold := 0, critical := 0 }

/-- A client port after cold reset (R194). -/
def ClientPort.reset : ClientPort :=
  { state := .idle, inHand := none, held := none, dropped := false, noticeSet := NoticeSet.empty,
    mask := BitVec.allOnes 7 }

/-- The cleared frame accumulation (R109). -/
def Accumulation.cleared : Accumulation := { groups := 0, sum := 0, tag := none, expected := none }

/-- The parameters of a FREE record (R6). -/
def Params.ofFree : Params :=
  { band := { first := 0, last := 0 }, cls := .telltale, period := 1, latency := none, checking := false,
    zone := none, oneShot := false }

/-- A FREE record of the given generation: every other field as R6 gives it, the check code recomputed. -/
def Record.freeWith (generation : BitVec 8) : Record :=
  { generation := generation, state := .free, owner := 0, feeder := 0, panel := .cluster, params := Params.ofFree,
    confirmed := none, pending := none, lastServed := none, zoneState := none, stagedAmendment := none,
    suspendMark := false, resumeMark := false, age := 0, lateMark := false, lateFrames := 0, fallback := false,
    accum := Accumulation.cleared, lateness := 0, lastRefresh := none, checkGood := true }

/-- A timeline engine after cold reset (R43, R65). -/
def Engine.reset (p : Panel) : Engine :=
  { state := .down,
    cfg := { slots := Config.defaultSlots p, slotPeriod := Config.defaultSlotPeriod p,
             grace := Config.defaultGrace, policy := .dark, blPeriod := Config.defaultBacklight p },
    duty := Config.defaultBacklight p, stagedDuty := Config.defaultBacklight p, output := false, frame := 0,
    slot := none, startLeft := none, critical := false, haltHanded := false, plan := none, lastSummary := none }

/-- A panel link after cold reset (R104). -/
def Link.reset : Link := { orders := [], timeouts := 0 }

/-- No completion is waiting after cold reset. -/
def CreditQueue.reset : CreditQueue := { completions := [], keptPlaced := none }

/-- A 15 by 24 map of zeros. -/
def Touch.zeroMap : List (List Nat) := List.replicate 15 (List.replicate 24 0)

/-- The touch sense engine after cold reset (R145, R162). -/
def Touch.reset : Touch :=
  { state := .idle, scanSet := 0, baselines := Touch.zeroMap, calibrated := 0,
    cfg := { threshold := Config.defaultTouchThreshold, placement := .lead }, frame := none,
    resultRow := 0, resultCounts := List.replicate 24 0, deltaMap := Touch.zeroMap, completed := 0,
    burst := none, contacts := [], candidates := List.replicate 64 none }

/-- A fault bank after cold reset (R181). -/
def FaultBank.reset : FaultBank :=
  { record := none, enabled := true, mask := BitVec.allOnes 3, threshold := Config.defaultFaultThreshold, count := 0 }

/-- The part after a cold reset at which the strap gave the safety port (R27, R65, R104, R145, R181, R187, R194). -/
def Part.reset (strap : Port) : Part :=
  { ports := { cp0 := ClientPort.reset, cp1 := ClientPort.reset, cp2 := ClientPort.reset },
    strap := strap,
    table := List.replicate 64 (Record.freeWith 0),
    engines := { cluster := Engine.reset .cluster, centre := Engine.reset .centre },
    links := { cluster := Link.reset, centre := Link.reset },
    credits := { cluster := CreditQueue.reset, centre := CreditQueue.reset },
    touch := Touch.reset,
    faults := { banks := { cluster := FaultBank.reset, centre := FaultBank.reset, touch := FaultBank.reset,
                           core := FaultBank.reset },
                injectEnable := false },
    out := [] }

/-- The machine right after cold reset, with the strap pins unconnected (R187) and no command waiting. DESIGN
CHOICE: the reading of the strap is an input; a COLD_RESET command takes any. -/
def State.reset : State := { part := Part.reset .cp2, pending := [] }

end Sys2Proof.Machine
end

