-- ==== Sys2Proof/Machine/Ops.lean ====
section
/-! DEFINITION. The named operations over the state that every block shares: reading and writing one panel's,
port's or bank's share, notices (R189), answers (R185), fault claims with their escalation (R167 to R175),
contract records with their check (R3, R6, R26), messages on a link (R90). Each operation is one update of the
part, so that what it leaves alone is plain. -/

namespace Sys2Proof

/-- The number of a client port. -/
def Port.num : Port → Nat
  | .cp0 => 0
  | .cp1 => 1
  | .cp2 => 2

/-- The number of a client port as a record holds it. -/
def Port.bits : Port → BitVec 2
  | .cp0 => 0
  | .cp1 => 1
  | .cp2 => 2

/-- The client port of a number, where there is one. -/
def Port.ofNat? : Nat → Option Port
  | 0 => some .cp0
  | 1 => some .cp1
  | 2 => some .cp2
  | _ => none

/-- The number of a panel (Table 11-4). -/
def Panel.num : Panel → Nat
  | .cluster => 0
  | .centre => 1

/-- The panel of a number, where there is one (Table 11-4). -/
def Panel.ofNat? : Nat → Option Panel
  | 0 => some .cluster
  | 1 => some .centre
  | _ => none

namespace Machine

/-! ### One panel's, port's or bank's share -/

def PerPanel.get {α : Type} (x : PerPanel α) : Panel → α
  | .cluster => x.cluster
  | .centre => x.centre

def PerPanel.set {α : Type} (x : PerPanel α) (p : Panel) (v : α) : PerPanel α :=
  match p with
  | .cluster => { x with cluster := v }
  | .centre => { x with centre := v }

def PerPanel.modify {α : Type} (x : PerPanel α) (p : Panel) (f : α → α) : PerPanel α := x.set p (f (x.get p))

def PerPanel.map {α : Type} (x : PerPanel α) (f : α → α) : PerPanel α :=
  { cluster := f x.cluster, centre := f x.centre }

def PerPort.get {α : Type} (x : PerPort α) : Port → α
  | .cp0 => x.cp0
  | .cp1 => x.cp1
  | .cp2 => x.cp2

def PerPort.set {α : Type} (x : PerPort α) (p : Port) (v : α) : PerPort α :=
  match p with
  | .cp0 => { x with cp0 := v }
  | .cp1 => { x with cp1 := v }
  | .cp2 => { x with cp2 := v }

def PerPort.modify {α : Type} (x : PerPort α) (p : Port) (f : α → α) : PerPort α := x.set p (f (x.get p))

def PerPort.mapEach {α : Type} (x : PerPort α) (f : Port → α → α) : PerPort α :=
  { cp0 := f .cp0 x.cp0, cp1 := f .cp1 x.cp1, cp2 := f .cp2 x.cp2 }

def PerBank.get {α : Type} (x : PerBank α) : Bank → α
  | .cluster => x.cluster
  | .centre => x.centre
  | .touch => x.touch
  | .core => x.core

def PerBank.set {α : Type} (x : PerBank α) (k : Bank) (v : α) : PerBank α :=
  match k with
  | .cluster => { x with cluster := v }
  | .centre => { x with centre := v }
  | .touch => { x with touch := v }
  | .core => { x with core := v }

def Part.port (b : Part) (p : Port) : ClientPort := b.ports.get p
def Part.engine (b : Part) (p : Panel) : Engine := b.engines.get p
def Part.link (b : Part) (p : Panel) : Link := b.links.get p
def Part.credit (b : Part) (p : Panel) : CreditQueue := b.credits.get p
def Part.bank (b : Part) (k : Bank) : FaultBank := b.faults.banks.get k

def Part.modPort (p : Port) (f : ClientPort → ClientPort) (b : Part) : Part :=
  { b with ports := b.ports.modify p f }

def Part.modEngine (p : Panel) (f : Engine → Engine) (b : Part) : Part :=
  { b with engines := b.engines.modify p f }

def Part.modLink (p : Panel) (f : Link → Link) (b : Part) : Part :=
  { b with links := b.links.modify p f }

def Part.modCredit (p : Panel) (f : CreditQueue → CreditQueue) (b : Part) : Part :=
  { b with credits := b.credits.modify p f }

def Part.modTouch (f : Touch → Touch) (b : Part) : Part := { b with touch := f b.touch }

def FaultMonitor.setBank (k : Bank) (v : FaultBank) (m : FaultMonitor) : FaultMonitor :=
  { m with banks := m.banks.set k v }

def Part.setBank (k : Bank) (v : FaultBank) (b : Part) : Part := { b with faults := b.faults.setBank k v }

/-- The role of a port: the port whose number the strap gave is the safety port (R187). -/
def Part.role (b : Part) (p : Port) : Role := if p = b.strap then .safety else .display

/-- The panel fault bank of a panel (R164, R166). -/
def Bank.ofPanel : Panel → Bank
  | .cluster => .cluster
  | .centre => .centre

/-! ### Notices (R189) -/

/-- A notice to raise: its kind, with the member it names (R189). -/
inductive Notice where
  | contract (number : Nat)
  | zone (number : Nat)
  | contacts
  | panel (p : Panel)
  | fault (k : Bank)
  | threshold (k : Bank)
  | critical (p : Panel)
  deriving DecidableEq, Repr

/-- The number of a bank (R164). -/
def Bank.num : Bank → Nat
  | .cluster => 0
  | .centre => 1
  | .touch => 2
  | .core => 3

/-- The bank of a number, where there is one (R164). -/
def Bank.ofNat? : Nat → Option Bank
  | 0 => some .cluster
  | 1 => some .centre
  | 2 => some .touch
  | 3 => some .core
  | _ => none

/-- The set of `w` numbers whose one member is n. -/
def bitOf (w n : Nat) : BitVec w := 1#w <<< n

/-- Raising a notice adds its member to the kind's set; a member already present changes nothing (R189). -/
def NoticeSet.add (s : NoticeSet) : Notice → NoticeSet
  | .contract n => { s with contract := s.contract ||| bitOf 64 n }
  | .zone n => { s with zone := s.zone ||| bitOf 64 n }
  | .contacts => { s with contacts := true }
  | .panel p => { s with panel := s.panel ||| bitOf 2 p.num }
  | .fault k => { s with fault := s.fault ||| bitOf 4 k.num }
  | .threshold k => { s with threshold := s.threshold ||| bitOf 4 k.num }
  | .critical p => { s with critical := s.critical ||| bitOf 2 p.num }

def ClientPort.raise (k : Notice) (q : ClientPort) : ClientPort := { q with noticeSet := q.noticeSet.add k }

/-- Raising a notice where a condition holds. -/
def ClientPort.raiseIf (c : Bool) (k : Notice) (q : ClientPort) : ClientPort := if c then q.raise k else q

/-- A notice at one port. -/
def Part.raiseAt (p : Port) (k : Notice) (b : Part) : Part := b.modPort p (ClientPort.raise k)

/-- A notice at every port. -/
def Part.raiseAll (k : Notice) (b : Part) : Part :=
  { b with ports := b.ports.mapEach fun _ q => q.raise k }

/-- A notice at each port of which a condition holds. -/
def Part.raiseWhere (c : Port → Bool) (k : Notice) (b : Part) : Part :=
  { b with ports := b.ports.mapEach fun p q => q.raiseIf (c p) k }

/-! ### Answers (R185) -/

/-- What an owner answers: a status and a payload. -/
structure Reply where
  status : Status
  payload : List Byte
  deriving DecidableEq, Repr

/-- An answer with no payload. -/
def Reply.bare (s : Status) : Reply := { status := s, payload := [] }

/-- The owner's answer is placed: the port enters ANSWERED, the answer carries the dropped mark as it stands, and
the mark is cleared (R185). -/
def ClientPort.place (r : Reply) (q : ClientPort) : ClientPort :=
  { q with state := .answered, inHand := none, dropped := false,
           held := some { status := r.status, dropped := q.dropped, payload := r.payload } }

def Part.place (p : Port) (r : Reply) (b : Part) : Part := b.modPort p (ClientPort.place r)

/-! ### Fault claims (R165 to R175) -/

/-- A claim as the detecting block gives it (R166). -/
structure Claim where
  code : FaultCode
  cls : FaultClass
  scope : FaultScope
  panel : Option Panel
  handle : Option Nat
  detail : Byte
  deriving DecidableEq, Repr

/-- The rank of a class, ascending in severity (R164); also its number in Table 11-4. -/
def FaultClass.rank : FaultClass → Nat
  | .corrected => 0
  | .contained => 1
  | .critical => 2

/-- A class is reported where the report mask names it (R164, section 11.2). -/
def FaultBank.reports (k : FaultBank) (c : FaultClass) : Bool := k.mask.getLsbD c.rank

/-- Whether a claim of a class brings the corrected count to the threshold (R169). -/
def FaultBank.reachesThreshold (k : FaultBank) (c : FaultClass) : Bool :=
  c == .corrected && k.count + 1 == k.threshold

/-- The corrected count after a claim of a class (R169). -/
def FaultBank.countAfter (k : FaultBank) (c : FaultClass) : Nat :=
  if c = .corrected then (if k.count + 1 = k.threshold then 0 else k.count + 1) else k.count

/-- The record made from a claim (R170). -/
def FaultRecord.ofClaim (c : Claim) (frame : FrameNo) (overflow injected : Bool) : FaultRecord :=
  { cls := c.cls, code := c.code, scope := c.scope, panel := c.panel, handle := c.handle, detail := c.detail,
    frame := frame, overflow := overflow, injected := injected }

/-- Placing a claim in a record slot: an empty slot stores it; a claim of strictly higher class replaces the record
with the overflow mark set; any other leaves the record and sets its overflow mark (R170). -/
def FaultBank.placed (k : FaultBank) (c : Claim) (frame : FrameNo) (injected : Bool) : FaultRecord :=
  match k.record with
  | none => FaultRecord.ofClaim c frame false injected
  | some r =>
    if r.cls.rank < c.cls.rank then FaultRecord.ofClaim c frame true injected else { r with overflow := true }

/-- Steps 2 and 3 of a claim on its bank (R169, R170). -/
def FaultBank.take (k : FaultBank) (c : Claim) (frame : FrameNo) (injected : Bool) : FaultBank :=
  { k with count := k.countAfter c.cls, record := some (k.placed c frame injected) }

/-- The contract-scope escalation on a panel: while RUNNING a clear flag is set, and a set flag hands a halt; in
any other state nothing but the notice follows (R174). -/
def Engine.escalateContract (e : Engine) : Engine :=
  { e with critical := e.critical || e.state == .running,
           haltHanded := e.haltHanded || (e.state == .running && e.critical) }

/-- A halt is handed to a timeline engine (R172). -/
def Engine.handHalt (e : Engine) : Engine := { e with haltHanded := true }

/-- What a critical escalation does to the timeline engines, by scope (R172 to R175). -/
def escalate (c : Claim) (es : PerPanel Engine) : PerPanel Engine :=
  match c.scope, c.panel with
  | .contract, some p => es.modify p Engine.escalateContract
  | .panel, some p => es.modify p Engine.handHalt
  | .part, _ => es.map Engine.handHalt
  | .contract, none => es
  | .panel, none => es

/-- Whether an escalation acts on a panel, and so names it in the CRITICAL notice (R172 to R175). -/
def Claim.concerns (c : Claim) (p : Panel) : Bool := c.scope == .part || c.panel == some p

/-- Whether a claim is escalated: CRITICAL and not injected (R172). -/
def Claim.escalates (c : Claim) (injected : Bool) : Bool := c.cls == .critical && !injected

/-- The notices a claim raises at the safety port: THRESHOLD and FAULT by the bank's mask where the bank takes part,
CRITICAL where the claim is escalated (R169, R171, R172). -/
def Claim.notify (c : Claim) (k : Bank) (bank : FaultBank) (takes injected : Bool) (q : ClientPort) : ClientPort :=
  ((((q.raiseIf (takes && bank.reachesThreshold c.cls && bank.reports c.cls) (.threshold k)).raiseIf
    (takes && bank.reports c.cls) (.fault k)).raiseIf
    (c.escalates injected && c.concerns .cluster) (.critical .cluster)).raiseIf
    (c.escalates injected && c.concerns .centre) (.critical .centre))

/-- The fault monitor takes a claim at a bank (R167): a disabled bank takes no part unless the claim is injected
(R168, R180), the frame number is that of the panel named, or of the cluster panel. -/
def Part.claimAs (injected : Bool) (k : Bank) (c : Claim) (b : Part) : Part :=
  { b with
    faults := if (b.bank k).enabled || injected then b.faults.setBank k
        ((b.bank k).take c (b.engine (c.panel.getD .cluster)).frame injected) else b.faults
    ports := b.ports.modify b.strap (c.notify k (b.bank k) ((b.bank k).enabled || injected) injected)
    engines := if c.escalates injected then escalate c b.engines else b.engines }

/-- A claim made by a block of the part. -/
def Part.claim (k : Bank) (c : Claim) (b : Part) : Part := b.claimAs false k c

/-! ### Contract records (R1 to R7, R26) -/

/-- The handle of a record (R3). -/
def Record.handle (r : Record) (number : Nat) : Nat := r.generation.toNat * 64 + number

/-- The record of a number. -/
def Part.record (b : Part) (n : Nat) : Record := b.table.getD n (Record.freeWith 0)

/-- Writing a record recomputes its check code (R2, R26). -/
def Part.setRecord (n : Nat) (r : Record) (b : Part) : Part :=
  { b with table := b.table.set n { r with checkGood := true } }

/-- A record that becomes FREE: its generation advances, everything else is cleared (R3, R6). -/
def Record.freed (r : Record) : Record := Record.freeWith (r.generation + 1)

/-- A CONTRACT notice naming a record at its owner and feeder ports, apart from the port that sent the request
(R7). -/
def Part.contractNotice (n : Nat) (r : Record) (sender : Option Port) (b : Part) : Part :=
  b.raiseWhere (fun p => (p.bits == r.owner || p.bits == r.feeder) && some p != sender) (.contract n)

/-- The blocks that read a record, by the detail of TABLE_CHECK (R166). -/
inductive Reader where
  | request
  | turnClaim
  | planBuilding
  | accounting
  | scanSet
  | tracker
  | teardown
  deriving DecidableEq, Repr

/-- The detail of TABLE_CHECK (R166). -/
def Reader.detail : Reader → Byte
  | .request => 1
  | .turnClaim => 2
  | .planBuilding => 3
  | .accounting => 4
  | .scanSet => 5
  | .tracker => 6
  | .teardown => 7

/-- The claim of R26 for a record as read. -/
def tableCheckClaim (who : Reader) (n : Nat) (r : Record) : Claim :=
  { code := .tableCheck, cls := .critical, scope := .part, panel := some r.panel, handle := some (r.handle n),
    detail := who.detail }

/-- Reading a record verifies its check code: a record that fails is freed, its owner port as read gets a CONTRACT
notice unless the record was FREE, and TABLE_CHECK is claimed (R26). -/
def Part.verify (who : Reader) (n : Nat) (b : Part) : Part :=
  let r := b.record n
  if r.checkGood then b
  else
    ((b.setRecord n r.freed).raiseWhere (fun p => p.bits == r.owner && r.state != .free) (.contract n)).claim .core
      (tableCheckClaim who n r)

/-- The record numbers, ascending (R1). -/
def recordNumbers : List Nat := List.range 64

/-- Reading the whole table, in ascending record number. -/
def Part.verifyAll (who : Reader) (b : Part) : Part := recordNumbers.foldl (fun b n => b.verify who n) b

/-- A record becomes FREE, with a CONTRACT notice at its owner and feeder, apart from the sender (R6, R7). -/
def Part.freeContract (n : Nat) (sender : Option Port) (b : Part) : Part :=
  (b.setRecord n (b.record n).freed).contractNotice n (b.record n) sender

/-- The press candidate of a contract number is emptied (R159). -/
def Part.emptyCandidate (n : Nat) (b : Part) : Part :=
  { b with touch := { b.touch with candidates := b.touch.candidates.set n none } }

/-- A press candidate emptied where a condition holds. -/
def Part.emptyCandidateIf (c : Bool) (n : Nat) (b : Part) : Part := if c then b.emptyCandidate n else b

/-- A CONTRACT notice where a condition holds. -/
def Part.contractNoticeIf (c : Bool) (n : Nat) (r : Record) (sender : Option Port) (b : Part) : Part :=
  if c then b.contractNotice n r sender else b

/-! ### Panel links and panel states -/

/-- A message sent on a panel's link, after those sent before it (R90). -/
def Part.send (p : Panel) (m : LinkMessage) (b : Part) : Part := { b with out := b.out ++ [.link p m] }

/-- A change of a panel's state raises a PANEL notice naming the panel at every port (R45). -/
def Part.enterState (p : Panel) (st : PanelState) (b : Part) : Part :=
  (b.modEngine p fun e => { e with state := st }).raiseAll (.panel p)

/-- Where a contract's entry is: an entry of the current plan takes an outcome (R70). -/
def Plan.setOutcome (slot : Nat) (o : EntryOutcome) (pl : Plan) : Plan :=
  { pl with entries := pl.entries.modify slot fun e => { e with outcome := o } }

def Part.setOutcome (p : Panel) (slot : Nat) (o : EntryOutcome) (b : Part) : Part :=
  b.modEngine p fun e => { e with plan := e.plan.map (Plan.setOutcome slot o) }

/-! ### Counting and ordering helpers -/

/-- A saturating count (section 0.7). -/
def satInc (max n : Nat) : Nat := if n < max then n + 1 else n

/-- The ceiling of a quotient (section 0.7). -/
def ceilDiv (n d : Nat) : Nat := (n + d - 1) / d

/-- Insertion into an ordered list, before every element that does not come strictly before the new one. -/
def insertBy {α : Type} (before : α → α → Bool) (x : α) : List α → List α
  | [] => [x]
  | y :: ys => if before y x then y :: insertBy before x ys else x :: y :: ys

/-- A list put in order; elements neither of which comes before the other keep their order. -/
def sortBy {α : Type} (before : α → α → Bool) : List α → List α
  | [] => []
  | x :: xs => insertBy before x (sortBy before xs)

/-! ### One command on the state -/

/-- A command's effect on the part: the sent list starts empty, and the queue is left alone. -/
def State.take (f : Part → Part) (s : State) : Host.Outcome State Fault Refusal :=
  .next { s with part := f { s.part with out := [] } }

/-- The owner takes the request in hand at a port, where the port is WORKING on that request, and its answer is
placed (R183, R185). A port that holds no such request has nothing to take. -/
def Part.serve (name : RequestName) (p : Port) (f : List Byte → Part → Part × Reply) (b : Part) : Part :=
  match (b.port p).state, (b.port p).inHand with
  | .working, some rq =>
    if rq.name = name then
      let res := f rq.params b
      res.1.place p res.2
    else b
  | _, _ => b

end Machine
end Sys2Proof
end

