-- ==== Sys2Proof/Machine/Operands.lean ====
section
/-! DEFINITION. The operands of the requests: the parameter bytes of Table 11-1, read as their owners read them
(R183, R196). `none` stands for an enumeration byte that Table 11-4 does not give, a set bit that no layout names,
or a field outside its owning rule's range: the BAD_ARG of R196. -/

namespace Sys2Proof.Machine

/-! ### Values of more than one byte, most significant byte first (R195) -/

def be16 (hi lo : Byte) : Nat := hi.toNat * 256 + lo.toNat

def be32 (a b c d : Byte) : Nat := ((a.toNat * 256 + b.toNat) * 256 + c.toNat) * 256 + d.toNat

/-! ### Enumerations (Table 11-4) -/

def ContractClass.ofNat? : Nat → Option ContractClass
  | 0 => some .telltale
  | 1 => some .gauge
  | 2 => some .info
  | 3 => some .ambient
  | _ => none

/-- The rank of a class, which is also its number (R2, Table 11-4). -/
def ContractClass.rank : ContractClass → Nat
  | .telltale => 0
  | .gauge => 1
  | .info => 2
  | .ambient => 3

def StopPolicy.ofNat? : Nat → Option StopPolicy
  | 0 => some .hold
  | 1 => some .dark
  | 2 => some .blank
  | _ => none

def Placement.ofNat? : Nat → Option Placement
  | 0 => some .lead
  | 1 => some .split
  | _ => none

def FaultClass.ofNat? : Nat → Option FaultClass
  | 0 => some .corrected
  | 1 => some .contained
  | 2 => some .critical
  | _ => none

def FaultScope.ofNat? : Nat → Option FaultScope
  | 0 => some .contract
  | 1 => some .panel
  | 2 => some .part
  | _ => none

def FaultCode.ofNat? : Nat → Option FaultCode
  | 1 => some .late
  | 2 => some .staleContract
  | 3 => some .telltaleMiss
  | 4 => some .sigMismatch
  | 5 => some .planShort
  | 6 => some .orderTimeout
  | 7 => some .linkLoss
  | 8 => some .panelFault
  | 9 => some .startFail
  | 10 => some .senseDisturbed
  | 11 => some .senseDeferred
  | 12 => some .contactOverflow
  | 13 => some .calFail
  | 14 => some .frameCheck
  | 15 => some .portOverrun
  | 16 => some .tableCheck
  | _ => none

/-- A byte that must be 0 or 1. -/
def boolOf? (b : Byte) : Option Bool :=
  match b.toNat with
  | 0 => some false
  | 1 => some true
  | _ => none

/-! ### Handles (R3) -/

/-- The handle at the head of the parameters. Parameters too short to hold one give a value that names no record;
the length check of R183 keeps them out. -/
def handleOf : List Byte → Nat
  | hi :: lo :: _ => be16 hi lo
  | _ => 65535

/-! ### OPEN and AMEND (R9, R11) -/

/-- The ranges of R9 for the parameters of a contract on a panel. -/
def Params.inRange (p : Panel) (q : Params) : Bool :=
  decide (q.band.first ≤ q.band.last) && decide (q.band.last < Config.rowGroups p) && decide (1 ≤ q.period) &&
    (q.cls != .telltale || q.checking) &&
    (match q.zone with
      | none => true
      | some z =>
        p == .centre && decide (z.firstCol ≤ z.lastCol) && decide (z.lastCol ≤ 1919) &&
          decide (1 ≤ z.debounce ∧ z.debounce ≤ 7) && decide (1 ≤ z.divisor ∧ z.divisor ≤ 8))

/-- The amendable parameters as OPEN and AMEND carry them: L is absent when its byte is 0 (R196), the zone fields are
read when bit 2 of the flags is 1, bits 3 to 7 of the flags are unnamed. -/
def paramsOf (p : Panel) (first last cls per lat flags z1h z1l z2h z2l deb dv : Byte) : Option Params :=
  match ContractClass.ofNat? cls.toNat with
  | none => none
  | some c =>
    let q : Params :=
      { band := { first := first.toNat, last := last.toNat }, cls := c, period := per.toNat,
        latency := if lat.toNat = 0 then none else some lat.toNat,
        checking := flags.getLsbD 0, oneShot := flags.getLsbD 1,
        zone := if flags.getLsbD 2 then
            some { firstCol := be16 z1h z1l, lastCol := be16 z2h z2l, debounce := deb.toNat, divisor := dv.toNat }
          else none }
    if flags.toNat < 8 && q.inRange p then some q else none

/-- The arguments of an OPEN that pass the checks of R9. -/
structure OpenArgs where
  panel : Panel
  feeder : Port
  params : Params
  deriving DecidableEq, Repr

def openArgs : List Byte → Option OpenArgs
  | [pn, first, last, cls, per, lat, flags, fd, z1h, z1l, z2h, z2l, deb, dv] =>
    match Panel.ofNat? pn.toNat, Port.ofNat? fd.toNat with
    | some p, some f =>
      match paramsOf p first last cls per lat flags z1h z1l z2h z2l deb dv with
      | some q => some { panel := p, feeder := f, params := q }
      | none => none
    | _, _ => none
  | _ => none

/-- The class byte of an AMEND, before its range is checked (R11). -/
def amendClassByte (ps : List Byte) : Nat := (ps.getD 4 0).toNat

/-- The parameters of an AMEND of a contract on a panel, where they pass the ranges of R9 (R11). -/
def amendParams (p : Panel) : List Byte → Option Params
  | [_, _, first, last, cls, per, lat, flags, z1h, z1l, z2h, z2l, deb, dv] =>
    paramsOf p first last cls per lat flags z1h z1l z2h z2l deb dv
  | _ => none

/-! ### FIND, LIST, UPDATE (R24, R25, R105) -/

/-- FIND: a panel and a row-group range within it (R24). -/
def findArgs : List Byte → Option (Panel × Band)
  | [pn, first, last] =>
    match Panel.ofNat? pn.toNat with
    | some p =>
      if first.toNat ≤ last.toNat ∧ last.toNat < Config.rowGroups p then
        some (p, { first := first.toNat, last := last.toNat })
      else none
    | none => none
  | _ => none

/-- LIST: a port number (R25). -/
def listArgs : List Byte → Option Port
  | [pt] => Port.ofNat? pt.toNat
  | _ => none

/-- The tag and the signature an UPDATE carries; bit 0 of the update flags is its presence, the other bits are
unnamed (R105, R196). -/
def updateArgs : List Byte → Option (Tag × Option Signature)
  | [_, _, th, tl, flags, a, b, c, d] =>
    if flags.toNat < 2 then
      some (BitVec.ofNat 16 (be16 th tl), if flags.getLsbD 0 then some (BitVec.ofNat 32 (be32 a b c d)) else none)
    else none
  | _ => none

/-! ### Panel requests (R44, R47, R50, R62, R64) -/

/-- A request whose one parameter is a panel. -/
def panelArg : List Byte → Option Panel
  | [pn] => Panel.ofNat? pn.toNat
  | _ => none

/-- The ranges of R43 for the fields PANEL_CONFIG carries. -/
def PanelConfig.inRange (c : PanelConfig) : Bool :=
  decide (32 ≤ c.slots ∧ c.slots ≤ 192) && decide (20 ≤ c.slotPeriod ∧ c.slotPeriod ≤ 1000) &&
    decide (1 ≤ c.grace ∧ c.grace ≤ 15) && decide (2 ≤ c.blPeriod ∧ c.blPeriod ≤ c.slots)

/-- PANEL_CONFIG: a panel and a whole configuration apart from the duty, in range (R44). -/
def panelConfigArgs : List Byte → Option (Panel × PanelConfig)
  | [pn, s, perHi, perLo, gr, pol, bl] =>
    match Panel.ofNat? pn.toNat, StopPolicy.ofNat? pol.toNat with
    | some p, some sp =>
      let c : PanelConfig :=
        { slots := s.toNat, slotPeriod := be16 perHi perLo, grace := gr.toNat, policy := sp, blPeriod := bl.toNat }
      if c.inRange then some (p, c) else none
    | _, _ => none
  | _ => none

/-- BACKLIGHT: a panel and a duty; the duty is judged against the panel's period (R62). -/
def backlightArgs : List Byte → Option (Panel × Nat)
  | [pn, duty] =>
    match Panel.ofNat? pn.toNat with
    | some p => some (p, duty.toNat)
    | none => none
  | _ => none

/-! ### Touch and fault requests (R141, R176 to R180), attention (R190) -/

def touchConfigArgs : List Byte → Option TouchConfig
  | [th, tl, pl] =>
    match Placement.ofNat? pl.toNat with
    | some q =>
      if 1 ≤ be16 th tl ∧ be16 th tl ≤ 1023 then some { threshold := be16 th tl, placement := q } else none
    | none => none
  | _ => none

/-- A request whose one parameter is a bank. -/
def bankArg : List Byte → Option Bank
  | [k] => Bank.ofNat? k.toNat
  | _ => none

/-- The arguments of FAULT_CONTROL (R179). -/
structure FaultControlArgs where
  bank : Bank
  enable : Bool
  mask : BitVec 3
  threshold : Nat
  injectEnable : Bool
  deriving DecidableEq, Repr

/-- FAULT_CONTROL: bits 3 to 7 of the report mask are unnamed, the threshold is 1 to 255 (R179, R196). -/
def faultControlArgs : List Byte → Option FaultControlArgs
  | [k, en, mask, th, inj] =>
    match Bank.ofNat? k.toNat, boolOf? en, boolOf? inj with
    | some bk, some e, some i =>
      if mask.toNat < 8 ∧ 1 ≤ th.toNat then
        some { bank := bk, enable := e, mask := BitVec.ofNat 3 mask.toNat, threshold := th.toNat, injectEnable := i }
      else none
    | _, _, _ => none
  | _ => none

/-- INJECT: the bank, and the claim it makes, whose panel and handle are absent (R180). -/
def injectArgs : List Byte → Option (Bank × Claim)
  | [k, cls, code, scope, detail] =>
    match Bank.ofNat? k.toNat, FaultClass.ofNat? cls.toNat, FaultCode.ofNat? code.toNat,
      FaultScope.ofNat? scope.toNat with
    | some bk, some c, some cd, some sc =>
      some (bk, { code := cd, cls := c, scope := sc, panel := none, handle := none, detail := detail })
    | _, _, _, _ => none
  | _ => none

/-- SET_ATTENTION: a set of kinds; bit 7 is unnamed (R190, Table 11-8). -/
def attentionArgs : List Byte → Option KindSet
  | [ks] => if ks.toNat < 128 then some (BitVec.ofNat 7 ks.toNat) else none
  | _ => none

end Sys2Proof.Machine
end

