-- ==== Sys2Proof/Machine/Flags.lean ====
section
/-! DEFINITION. The flag bits the part shows: the pending kinds of a notice set and the attention line (R189, R190),
and the flags bytes of the records of section 11.5. -/

namespace Sys2Proof.Machine

/-- The number whose binary digits, least significant first, are a list of bits. -/
def bitsToNat : List Bool → Nat
  | [] => 0
  | b :: bs => b.toNat + 2 * bitsToNat bs

/-- A byte from its bits, bit 0 first. -/
def flagByte (bs : List Bool) : Byte := BitVec.ofNat 8 (bitsToNat bs)

/-- Which kinds of a notice set are pending, by the kind bits of Table 11-8; a kind with members is pending exactly
while its set is not empty (R189). -/
def NoticeSet.pendingKinds (s : NoticeSet) : KindSet :=
  BitVec.ofNat 7 (bitsToNat
    [s.contract != 0, s.zone != 0, s.contacts, s.panel != 0, s.fault != 0, s.threshold != 0, s.critical != 0])

/-- The attention line: asserted while the notice set holds a pending kind that the mask contains (R190). -/
def ClientPort.attention (q : ClientPort) : Bool := q.noticeSet.pendingKinds &&& q.mask != 0

/-- The presence flags of the lookup record, offset 9 (Table 11-5). -/
def Record.presenceFlags (r : Record) : Byte :=
  flagByte [r.params.checking, r.params.oneShot, r.confirmed.isSome, r.pending.isSome,
    (r.pending.bind PendingUpdate.sig).isSome, r.lastServed.isSome, r.params.zone.isSome, r.stagedAmendment.isSome]

/-- Whether a zone state is PRESSED. -/
def ZoneState.isPressed : Option ZoneState → Bool
  | some (.pressed _) => true
  | _ => false

/-- The marks of the lookup record, offset 10 (Table 11-5). -/
def Record.markFlags (r : Record) : Byte :=
  flagByte [r.suspendMark, r.resumeMark, r.lateMark, r.fallback, r.lastRefresh.isSome, ZoneState.isPressed r.zoneState]

/-- The record flags of FAULT_READ, offset 0 (Table 11-7); all 0 for an empty slot. -/
def FaultBank.recordFlags (k : FaultBank) : Byte :=
  match k.record with
  | none => 0
  | some r => flagByte [true, r.overflow, r.injected, r.panel.isSome, r.handle.isSome]

end Sys2Proof.Machine
end

