-- ==== Sys2Proof/Machine/Formats.lean ====
section
/-! DEFINITION. The bytes of answers: status and request codes (Tables 11-1 and 11-2), the answer frame with its
check byte (R195), and the payload layouts of section 11.5. -/

namespace Sys2Proof.Machine

/-! ### Bytes -/

/-- The low byte of a number. -/
def byte1 (n : Nat) : List Byte := [BitVec.ofNat 8 n]

/-- Two bytes, most significant first (R195). -/
def byte2 (n : Nat) : List Byte := [BitVec.ofNat 8 (n / 256), BitVec.ofNat 8 n]

/-- Four bytes, most significant first (R195). -/
def byte4 (n : Nat) : List Byte :=
  [BitVec.ofNat 8 (n / 16777216), BitVec.ofNat 8 (n / 65536), BitVec.ofNat 8 (n / 256), BitVec.ofNat 8 n]

/-- The 8-bit sum of bytes (R183, R195). -/
def byteSum (bs : List Byte) : Byte := bs.foldl (· + ·) 0

/-! ### Codes -/

/-- Table 11-2. -/
def Status.code : Status → Byte
  | .ok => 0x00
  | .staged => 0x01
  | .notReady => 0x02
  | .noRequest => 0x03
  | .badFrame => 0x10
  | .unknownRequest => 0x11
  | .badArg => 0x12
  | .badHandle => 0x13
  | .notOwner => 0x14
  | .notFeeder => 0x15
  | .noAuthority => 0x16
  | .badState => 0x17
  | .noRoom => 0x18
  | .noBudget => 0x19
  | .conflict => 0x1A
  | .busy => 0x1B
  | .nothingPending => 0x1C

/-- The request of a request code (Table 11-1). -/
def RequestName.ofCode? (c : Byte) : Option RequestName :=
  match c.toNat with
  | 0x10 => some .openContract
  | 0x11 => some .amend
  | 0x12 => some .suspend
  | 0x13 => some .resume
  | 0x14 => some .retire
  | 0x15 => some .lookup
  | 0x16 => some .find
  | 0x17 => some .list
  | 0x20 => some .update
  | 0x30 => some .panelUp
  | 0x31 => some .panelDown
  | 0x32 => some .panelConfig
  | 0x33 => some .panelStatus
  | 0x34 => some .backlight
  | 0x40 => some .touchConfig
  | 0x41 => some .recalibrate
  | 0x42 => some .contacts
  | 0x50 => some .faultRead
  | 0x51 => some .faultClear
  | 0x52 => some .faultControl
  | 0x53 => some .ackCritical
  | 0x54 => some .inject
  | 0x60 => some .identify
  | 0x61 => some .notices
  | 0x62 => some .setAttention
  | 0x63 => some .warmReset
  | _ => none

/-- The number of parameter bytes a request takes (Table 11-1). -/
def RequestName.length : RequestName → Nat
  | .openContract => 14
  | .amend => 14
  | .suspend => 2
  | .resume => 2
  | .retire => 2
  | .lookup => 2
  | .find => 3
  | .list => 1
  | .update => 9
  | .panelUp => 1
  | .panelDown => 1
  | .panelConfig => 7
  | .panelStatus => 1
  | .backlight => 2
  | .touchConfig => 3
  | .recalibrate => 0
  | .contacts => 0
  | .faultRead => 1
  | .faultClear => 1
  | .faultControl => 5
  | .ackCritical => 1
  | .inject => 5
  | .identify => 0
  | .notices => 0
  | .setAttention => 1
  | .warmReset => 0

/-- The safety-only requests of R188. -/
def RequestName.safetyOnly : RequestName → Bool
  | .panelUp | .panelDown | .panelConfig | .touchConfig | .faultClear | .faultControl | .ackCritical | .inject
  | .warmReset => true
  | .openContract | .amend | .suspend | .resume | .retire | .lookup | .find | .list | .update | .panelStatus
  | .backlight | .recalibrate | .contacts | .faultRead | .identify | .notices | .setAttention => false

/-! ### Enumerations as numbers (Table 11-4) -/

def ContractState.code : ContractState → Nat
  | .free => 0
  | .staged => 1
  | .live => 2
  | .suspended => 3
  | .stale => 4
  | .retiring => 5

def PanelState.code : PanelState → Nat
  | .down => 0
  | .starting => 1
  | .running => 2
  | .halted => 3

def StopPolicy.code : StopPolicy → Nat
  | .hold => 0
  | .dark => 1
  | .blank => 2

def TouchState.code : TouchState → Nat
  | .idle => 0
  | .scanning => 1
  | .suspended => 2

def ContactState.code : ContactState → Nat
  | .touchdown => 0
  | .held => 1
  | .lifted => 2

def FaultScope.code : FaultScope → Nat
  | .contract => 0
  | .panel => 1
  | .part => 2

def FaultCode.code : FaultCode → Nat
  | .late => 1
  | .staleContract => 2
  | .telltaleMiss => 3
  | .sigMismatch => 4
  | .planShort => 5
  | .orderTimeout => 6
  | .linkLoss => 7
  | .panelFault => 8
  | .startFail => 9
  | .senseDisturbed => 10
  | .senseDeferred => 11
  | .contactOverflow => 12
  | .calFail => 13
  | .frameCheck => 14
  | .portOverrun => 15
  | .tableCheck => 16

/-! ### Frames (R195) -/

/-- A frame's check byte makes the 8-bit sum of the whole frame 0 (R195). -/
def withCheck (bs : List Byte) : List Byte := bs ++ [-(byteSum bs)]

/-- The answer frame: status, flags with the dropped flag in bit 0, length, payload, check byte (R195). -/
def Answer.frame (a : Answer) : List Byte :=
  withCheck ([a.status.code, flagByte [a.dropped], BitVec.ofNat 8 a.payload.length] ++ a.payload)

/-- The bytes sent in an answer transaction: the fill byte during the kind byte, then as much of the frame as the
client clocks, then fill bytes (R186, R195). -/
def clockOut (frame : List Byte) (clocked : Nat) : List Byte :=
  Config.fillByte :: (frame.take clocked ++ List.replicate (clocked - frame.length) Config.fillByte)

/-- The fill bytes sent while the client sends n bytes (R195). -/
def fillBytes (n : Nat) : List Byte := List.replicate n Config.fillByte

/-! ### Records (section 11.5) -/

/-- The zone fields of a lookup record; 0 when there is no zone (R196). -/
def zoneBytes : Option Zone → List Byte
  | none => byte2 0 ++ byte2 0 ++ byte1 0 ++ byte1 0
  | some z => byte2 z.firstCol ++ byte2 z.lastCol ++ byte1 z.debounce ++ byte1 z.divisor

/-- The pressing contact's id, 0 unless PRESSED (Table 11-5). -/
def ZoneState.presser : Option ZoneState → Nat
  | some (.pressed k) => k
  | _ => 0

/-- The contract lookup record, 40 bytes (Table 11-5). -/
def Record.lookupBytes (r : Record) : List Byte :=
  byte1 r.state.code ++ byte1 r.owner.toNat ++ byte1 r.feeder.toNat ++ byte1 r.panel.num ++
  byte1 r.params.band.first ++ byte1 r.params.band.last ++ byte1 r.params.cls.rank ++ byte1 r.params.period ++
  byte1 (r.params.latency.getD 0) ++ [r.presenceFlags, r.markFlags] ++
  byte4 ((r.confirmed.map BitVec.toNat).getD 0) ++
  byte2 ((r.pending.map fun u => u.tag.toNat).getD 0) ++
  byte4 (((r.pending.bind PendingUpdate.sig).map BitVec.toNat).getD 0) ++
  byte1 ((r.pending.map PendingUpdate.age).getD 0) ++
  byte2 ((r.lastServed.map BitVec.toNat).getD 0) ++
  zoneBytes r.params.zone ++ byte1 (ZoneState.presser r.zoneState) ++
  byte1 r.age ++ byte1 r.lateFrames ++ byte1 r.accum.groups ++ byte2 r.lateness ++
  byte4 ((r.lastRefresh.map BitVec.toNat).getD 0)

/-- The FIND and LIST payload: the count, then the handles (Table 11-3). -/
def handleListBytes (hs : List Nat) : List Byte := byte1 hs.length ++ hs.flatMap byte2

/-- One contact record, 11 bytes (Table 11-6). -/
def Contact.bytes (c : Contact) : List Byte :=
  byte1 c.id ++ byte1 c.state.code ++ byte2 c.x ++ byte2 c.y ++ byte2 c.strength ++ byte1 c.framesHeld ++
  byte2 (c.zone.getD 0xFFFF)

/-- The CONTACTS payload (Table 11-6). -/
def Touch.contactsBytes (t : Touch) : List Byte :=
  byte1 t.state.code ++ byte2 t.scanSet.toNat ++ byte2 t.calibrated.toNat ++ byte2 t.completed.toNat ++
  byte1 t.contacts.length ++ t.contacts.flatMap Contact.bytes

/-- Offsets 1 to 11 of FAULT_READ: the record, or zeros and an absent handle for an empty slot (Table 11-7). -/
def FaultBank.recordBytes (k : FaultBank) : List Byte :=
  match k.record with
  | none => byte1 0 ++ byte1 0 ++ byte1 0 ++ byte1 0 ++ byte2 0xFFFF ++ byte1 0 ++ byte4 0
  | some r =>
    byte1 r.cls.rank ++ byte1 r.code.code ++ byte1 r.scope.code ++ byte1 ((r.panel.map Panel.num).getD 0) ++
    byte2 (r.handle.getD 0xFFFF) ++ [r.detail] ++ byte4 r.frame.toNat

/-- The FAULT_READ payload, 17 bytes (Table 11-7). -/
def FaultBank.readBytes (k : FaultBank) (injectEnable : Bool) : List Byte :=
  [k.recordFlags] ++ k.recordBytes ++ byte1 k.enabled.toNat ++ byte1 k.mask.toNat ++ byte1 k.threshold ++
  byte1 k.count ++ byte1 injectEnable.toNat

/-- A member set of 64 contracts, 8 bytes: bit (n mod 8) of byte floor(n / 8) for contract n (Table 11-8). -/
def memberBytes (s : BitVec 64) : List Byte :=
  (List.range 8).map fun i => BitVec.ofNat 8 (s.toNat / 2 ^ (8 * i))

/-- The NOTICES payload, 21 bytes (Table 11-8). -/
def NoticeSet.bytes (s : NoticeSet) : List Byte :=
  byte1 s.pendingKinds.toNat ++ memberBytes s.contract ++ memberBytes s.zone ++ byte1 s.panel.toNat ++
  byte1 s.fault.toNat ++ byte1 s.threshold.toNat ++ byte1 s.critical.toNat

/-- The plan summary, offsets 18 to 28 of PANEL_STATUS; zeros when there is none (Table 11-9). -/
def summaryBytes : Option PlanSummary → List Byte
  | none => List.replicate 11 0
  | some m =>
    byte1 m.drive ++ byte1 m.fallback ++ byte1 m.sense ++ byte1 m.guard ++ byte1 m.idle ++ byte1 m.closing ++
    byte1 m.pending ++ byte1 m.done ++ byte1 m.timedOut ++ byte1 m.disturbed ++ byte1 m.abandoned

/-- Entries of a plan that meet a condition. -/
def Plan.count (c : Entry → Bool) (pl : Plan) : Nat := pl.entries.countP c

/-- The plan summary of R64. -/
def Plan.summary (pl : Plan) : PlanSummary :=
  { drive := pl.count fun e => match e.kind with | .drive _ _ => true | _ => false
    fallback := pl.count fun e => match e.kind with | .fallback _ _ => true | _ => false
    sense := pl.count fun e => match e.kind with | .sense _ => true | _ => false
    guard := pl.count fun e => e.kind == .guard
    idle := pl.count fun e => e.kind == .idle
    closing := pl.count fun e => e.kind == .closing
    pending := pl.count fun e => e.outcome == .pending
    done := pl.count fun e => e.outcome == .done
    timedOut := pl.count fun e => e.outcome == .timedOut
    disturbed := pl.count fun e => e.outcome == .disturbed
    abandoned := pl.count fun e => e.outcome == .abandoned }

/-- The summary PANEL_STATUS reports: of the plan held, else of the last plan held (R64). -/
def Engine.summary (e : Engine) : Option PlanSummary :=
  match e.plan with
  | some pl => some pl.summary
  | none => e.lastSummary

/-- The PANEL_STATUS flags, offset 9 (Table 11-9). -/
def Engine.statusFlags (e : Engine) : Byte :=
  flagByte [e.output, e.critical, e.slot.isSome, e.startLeft.isSome, e.summary.isSome]

/-- The PANEL_STATUS payload, 29 bytes (Table 11-9). -/
def Engine.statusBytes (e : Engine) (l : Link) : List Byte :=
  byte1 e.state.code ++ byte1 e.cfg.slots ++ byte2 e.cfg.slotPeriod ++ byte1 e.cfg.grace ++
  byte1 e.cfg.policy.code ++ byte1 e.cfg.blPeriod ++ byte1 e.duty ++ byte1 e.stagedDuty ++ [e.statusFlags] ++
  byte4 e.frame.toNat ++ byte1 (e.slot.getD 0) ++ byte1 (e.startLeft.getD 0) ++ byte1 l.orders.length ++
  byte1 l.timeouts ++ summaryBytes e.summary

end Sys2Proof.Machine
end

