-- ==== Sys2Proof/Machine/Admission.lean ====
section
/-! DEFINITION. Admission and budget (Chapter 2): the next-turn view and its choices, load, touch reserve, drive
budget, exclusivity, fit, and the first check that fails. -/

namespace Sys2Proof.Machine

/-! ### The next-turn view (R29, R38) -/

/-- An amendment changes the class to or from TELLTALE (R20, R38). -/
def classCrosses (a b : ContractClass) : Bool := a != b && (a == .telltale || b == .telltale)

/-- A staged amendment of a STALE contract that the turn would drop (R20). -/
def Record.turnDrops (r : Record) (a : Params) : Bool := r.state == .stale && classCrosses r.params.cls a.cls

/-- Whether a record is in its panel's next-turn view (R29). -/
def Record.inView (r : Record) : Bool := r.state != .free && r.state != .retiring

/-- The parameters the next-turn view takes for a record in it (R29). -/
def Record.viewParams (r : Record) : Params :=
  match r.stagedAmendment with
  | none => r.params
  | some a => if r.turnDrops a then r.params else a

/-- A two-way contract: LIVE or STALE, with a staged amendment that changes its class to or from TELLTALE (R38). -/
def Record.twoWay (r : Record) : Bool :=
  (r.state == .live || r.state == .stale) &&
    (match r.stagedAmendment with
      | none => false
      | some a => classCrosses r.params.cls a.cls)

/-- The parameter sets admission judges a record under: a two-way contract's present ones and then its amendment,
any other's those of the view (R38). -/
def Record.viewOptions (r : Record) : List Params :=
  if r.twoWay then r.params :: r.stagedAmendment.toList else [r.viewParams]

/-- A view: contract numbers, ascending, each with the parameters taken for it. -/
abbrev View := List (Nat × Params)

/-- The numbered records of a table. -/
def numbered (table : List Record) : List (Nat × Record) := recordNumbers.zip table

/-- The records of a panel's next-turn view, ascending (R29). -/
def viewRecords (p : Panel) (table : List Record) : List (Nat × Record) :=
  (numbered table).filter fun nr => nr.2.panel == p && nr.2.inView

/-- The next-turn view of a panel (R29). -/
def viewOf (p : Panel) (table : List Record) : View := (viewRecords p table).map fun nr => (nr.1, nr.2.viewParams)

/-- Every choice of one parameter set for each record: the lowest-numbered record varies slowest, present parameters
come before an amendment (R38). -/
def choicesOf : List (Nat × Record) → List View
  | [] => [[]]
  | (n, r) :: rest => r.viewOptions.flatMap fun q => (choicesOf rest).map fun v => (n, q) :: v

/-! ### Load, reserve and budget (R31 to R33) -/

/-- The number of row groups in a band (R31). -/
def Band.size (d : Band) : Nat := d.last + 1 - d.first

/-- Two bands share a row group. -/
def Band.meets (a b : Band) : Bool := decide (a.first ≤ b.last) && decide (b.first ≤ a.last)

/-- A band contains a row group. -/
def Band.has (d : Band) (g : Nat) : Bool := decide (d.first ≤ g) && decide (g ≤ d.last)

/-- The smaller of P and L, or P when L is absent (R31). -/
def Params.bound (q : Params) : Nat :=
  match q.latency with
  | none => q.period
  | some l => min q.period l

/-- The load of a contract in units of 1/64 slot per frame (R31). -/
def Params.load (q : Params) : Nat := ceilDiv (q.band.size * 64) q.bound

/-- A band shares a row group with transmit row t (R32, R129). -/
def Band.onRow (d : Band) (t : Nat) : Bool := d.meets { first := 10 * t, last := 10 * t + 9 }

/-- The transmit rows, ascending. -/
def transmitRowNumbers : List Nat := List.range 15

/-- The zones of a view. -/
def View.zones (v : View) : List Zone := v.filterMap fun nq => nq.2.zone

/-- The number of distinct transmit rows under the zones of a view (R32). -/
def View.rowCount (v : View) : Nat :=
  (transmitRowNumbers.filter fun t => v.any fun nq => nq.2.zone.isSome && nq.2.band.onRow t).length

/-- The least divisor of zones; 8, the greatest divisor, when there are none. -/
def leastDivisor (zs : List Zone) : Nat := zs.foldl (fun d z => min d z.divisor) 8

/-- The touch reserve (R32); 0 on the cluster panel. -/
def View.reserve (p : Panel) (v : View) : Nat :=
  match p with
  | .cluster => 0
  | .centre => if v.rowCount = 0 then 0 else ceilDiv v.rowCount (leastDivisor v.zones) + 2

/-- The sum of loads of a view (R33). -/
def View.loadSum (v : View) : Nat := (v.map fun nq => nq.2.load).sum

/-- The slots a frame of S slots leaves for drive (R33, R35). -/
def View.driveSlots (p : Panel) (slots : Nat) (v : View) : Nat := slots - 1 - v.reserve p

/-- The drive budget (R33). -/
def View.budget (p : Panel) (slots : Nat) (v : View) : Nat := v.driveSlots p slots * 64

/-- Every contract of a view fits (R35). -/
def View.fits (p : Panel) (slots : Nat) (v : View) : Bool :=
  v.all fun nq => decide (nq.2.band.size ≤ v.driveSlots p slots)

/-- The sum of loads is within the budget (R33). -/
def View.withinBudget (p : Panel) (slots : Nat) (v : View) : Bool := decide (v.loadSum ≤ v.budget p slots)

/-! ### TELLTALE exclusivity (R34) -/

/-- Two contracts that exclusivity forbids to stand together: bands that share a row group, one of them TELLTALE. -/
def Params.forbids (a b : Params) : Bool := (a.cls == .telltale || b.cls == .telltale) && a.band.meets b.band

/-- A contract of a view stands against another of it. -/
def View.inConflict (v : View) (nq : Nat × Params) : Bool := v.any fun m => m.1 != nq.1 && m.2.forbids nq.2

/-- Exclusivity holds in a view (R34). -/
def View.exclusive (v : View) : Bool := v.all fun nq => !v.inConflict nq

/-- The contract that a CONFLICT names: the lowest-numbered of the view in conflict, other than the subject of the
request (R34). -/
def View.conflicting (subject : Nat) (v : View) : Nat :=
  ((v.filter fun nq => nq.1 != subject && v.inConflict nq).map Prod.fst).headD subject

/-! ### The judgement (R36 to R41) -/

/-- Why a request is refused at checks 4 to 6 (R36, R39): CONFLICT with a contract's number, or NO_BUDGET with the
check that failed (LOAD when `load`, else FIT) and its figures. -/
inductive Objection where
  | conflict (number : Nat)
  | noBudget (load : Bool) (reserve budget sum : Nat)
  deriving DecidableEq, Repr

/-- The figures of a NO_BUDGET on a view (R39). -/
def View.figures (p : Panel) (slots : Nat) (load : Bool) (v : View) : Objection :=
  .noBudget load (v.reserve p) (v.budget p slots) v.loadSum

/-- Checks 5 and 6 on one choice (R36, R41). -/
def View.budgetObjection (p : Panel) (slots : Nat) (v : View) : Option Objection :=
  if !v.fits p slots then some (v.figures p slots false)
  else if !v.withinBudget p slots then some (v.figures p slots true)
  else none

/-- Checks 4 to 6 on one choice, for a request about a contract (R36). -/
def View.objection (p : Panel) (slots subject : Nat) (v : View) : Option Objection :=
  if !v.exclusive then some (.conflict (v.conflicting subject)) else v.budgetObjection p slots

/-- The first objection to a resulting table, over every choice in the order of R38, for an OPEN or AMEND of the
contract `subject` on a panel of S slots (R36 to R38). -/
def admissionObjection (p : Panel) (slots subject : Nat) (table : List Record) : Option Objection :=
  (choicesOf (viewRecords p table)).findSome? fun v => v.objection p slots subject

/-- The first objection to a proposed S (R38, R41). -/
def configObjection (p : Panel) (slots : Nat) (table : List Record) : Option Objection :=
  (choicesOf (viewRecords p table)).findSome? fun v => v.budgetObjection p slots

/-- The answer to a request met by an objection (R39, Table 11-3). -/
def Objection.reply (table : List Record) : Objection → Reply
  | .conflict n =>
    { status := .conflict, payload := byte2 ((table.getD n (Record.freeWith 0)).handle n) }
  | .noBudget load reserve budget sum =>
    { status := .noBudget, payload := byte1 load.toNat ++ byte1 reserve ++ byte2 budget ++ byte4 sum }

end Sys2Proof.Machine
end

