-- ==== Sys2Proof/Machine/Accounting.lean ====
section
/-! DEFINITION. Refresh accounting (Chapter 6) and the contract manager's part of a frame turn (R18 to R21): capture,
credit, the judgement of a completed refresh, aging and breach. -/

namespace Sys2Proof.Machine

/-! ### Capture (R108) -/

/-- A listed contract still stands: the record bears the handle the list keeps and is LIVE or STALE (R108, R110). -/
def Record.standsAs (r : Record) (n : Nat) (x : Placed) : Bool :=
  r.handle n == x.handle && (r.state == .live || r.state == .stale)

/-- The capture of a record: the tag of the pending update, and the signature a refresh should show (R108). -/
def Record.captured (r : Record) : Record :=
  { r with accum := { r.accum with
      tag := r.pending.map PendingUpdate.tag
      expected := match r.pending with
        | some u => if r.params.checking then u.sig else r.confirmed
        | none => r.confirmed } }

/-- Capture for one item of the placed-contract list: its record is read and verified first (R26, R108). -/
def Part.captureOne (x : Placed) (b : Part) : Part :=
  let n := x.handle % 64
  let b := b.verify .accounting n
  if (b.record n).standsAs n x then b.setRecord n (b.record n).captured else b

/-- The captures made when the order of a slot is issued: every contract of kind DRIVE whose capture slot it is
(R71, R108). Where several have it, they are read and captured in the order of the placed-contract list: DESIGN CHOICE,
log 28, as the manual gives no order. -/
def Part.captures (p : Panel) (slot : Nat) (b : Part) : Part :=
  match (b.engine p).plan with
  | none => b
  | some pl =>
    (pl.placed.filter fun x => x.kind == .drive && x.captureSlot == some slot).foldl (fun b x => b.captureOne x) b

/-! ### The judgement of a completed refresh (R111 to R120) -/

/-- What a completed refresh was worth. `served`: the update served, with its tag; `newer`: the captured update is
on the glass and a newer one waits; `unchanged`: the confirmed content again; `firstSight`: the sum becomes the
reference; `fallbackDone`: a FALLBACK refresh; `plain`: no checking and nothing pending. -/
inductive Verdict where
  | served (tag : Tag)
  | newer (tag : Tag)
  | unchanged
  | firstSight
  | plain
  | fallbackDone
  | mismatch
  deriving DecidableEq, Repr

/-- The pending update is still the captured one: same tag, and its signature is the captured expected one (R113). -/
def capturedStillPending (pending : Option PendingUpdate) (tag : Tag) (expected : Signature) : Bool :=
  match pending with
  | some u => u.tag == tag && u.sig == some expected
  | none => false

/-- The judgement of a completed DRIVE refresh of a contract with signature checking, when its sum does not show
what was captured (R114). -/
def Record.secondLook (r : Record) : Verdict :=
  match r.pending with
  | some u => if u.sig = some r.accum.sum then .served u.tag else .mismatch
  | none => if r.confirmed = none then .firstSight else .mismatch

/-- The judgement of a completed refresh of a contract placed with a kind (R112 to R118). -/
def Record.judge (r : Record) (kind : OrderKind) : Verdict :=
  match kind with
  | .fallback => .fallbackDone
  | .drive =>
    if !r.params.checking then
      match r.pending with
      | some u => .served u.tag
      | none => .plain
    else if r.accum.expected = some r.accum.sum then
      match r.accum.tag with
      | some t => if capturedStillPending r.pending t r.accum.sum then .served t else .newer t
      | none => .unchanged
    else r.secondLook

/-- A verdict that ends fallback: the refresh matched by R113, or by newer content already drawn (R119). A contract
without checking is judged by neither. -/
def Record.leavesFallback (r : Record) : Verdict → Bool
  | .served _ | .newer _ | .unchanged => r.params.checking
  | .firstSight | .plain | .fallbackDone | .mismatch => false

/-- The effects of every credited refresh (R111): age, last refresh frame, late mark, and the return to LIVE. -/
def Record.credited (r : Record) (v : Verdict) (frame : FrameNo) : Record :=
  { r with
    age := 0, lastRefresh := some frame, lateMark := false, lateFrames := 0
    state := if r.state = .stale ∧ (r.fallback = false ∨ r.leavesFallback v = true) then .live else r.state
    fallback := r.fallback && !r.leavesFallback v }

/-- The effects a verdict has on the record (R111 to R119). The confirmed signature of a contract without checking
stays absent. -/
def Record.applyVerdict (r : Record) (v : Verdict) (frame : FrameNo) : Record :=
  match v with
  | .served t =>
    { r.credited v frame with
      pending := none, lastServed := some t
      confirmed := if r.params.checking then some r.accum.sum else r.confirmed }
  | .newer t => { r.credited v frame with lastServed := some t, confirmed := some r.accum.sum }
  | .unchanged => r.credited v frame
  | .plain => r.credited v frame
  | .firstSight => { r.credited v frame with confirmed := some r.accum.sum }
  | .fallbackDone => { r with age := 0, lastRefresh := some frame }
  | .mismatch =>
    { r with
      fallback := r.fallback || r.params.cls == .telltale
      state := if r.state = .live then .stale else r.state }

/-- The record a RETIRE or a one-shot completion leaves in RETIRING: both marks and any staged amendment dropped,
fallback and late marks cleared (R16, R120). -/
def Record.retired (r : Record) : Record :=
  { r with state := .retiring, suspendMark := false, resumeMark := false, stagedAmendment := none,
           fallback := false, lateMark := false }

/-- A verdict serves a pending update (R120). -/
def Verdict.serves : Verdict → Bool
  | .served _ => true
  | .newer _ | .unchanged | .firstSight | .plain | .fallbackDone | .mismatch => false

/-- The claim of a mismatched refresh (R115). -/
def mismatchClaim (p : Panel) (n : Nat) (r : Record) (rowGroup : Nat) : Claim :=
  { code := .sigMismatch, cls := if r.params.cls = .telltale then .critical else .contained, scope := .contract,
    panel := some p, handle := some (r.handle n), detail := BitVec.ofNat 8 rowGroup }

/-- The record's effects of a verdict, with a CONTRACT notice where its state changes (R111 to R119). -/
def Part.recordVerdict (p : Panel) (n : Nat) (v : Verdict) (b : Part) : Part :=
  let r := b.record n
  let r' := r.applyVerdict v (b.engine p).frame
  (b.setRecord n r').contractNoticeIf (r'.state != r.state) n r none

/-- A one-shot contract whose update was served ends: RETIRING while its panel is RUNNING, FREE otherwise (R120). -/
def Part.endOneShot (p : Panel) (n : Nat) (b : Part) : Part :=
  let r := b.record n
  if (b.engine p).state = .running then (b.setRecord n r.retired).contractNotice n r none else b.freeContract n none

/-- A completed refresh is judged: the record's effects and notice, then a mismatch's claim or a one-shot contract's
end (R111 to R120). -/
def Part.judgeRefresh (p : Panel) (n : Nat) (kind : OrderKind) (rowGroup : Nat) (b : Part) : Part :=
  let r := b.record n
  let v := r.judge kind
  let b := b.recordVerdict p n v
  if v = .mismatch then b.claim (Bank.ofPanel p) (mismatchClaim p n r rowGroup)
  else if v.serves && r.params.oneShot then b.endOneShot p n
  else b

/-! ### Credit (R110) -/

/-- One row group credited: one more group done, its signature added to the wrapping sum (R110). -/
def Record.credit (r : Record) (sig : Signature) : Record :=
  { r with accum := { r.accum with groups := r.accum.groups + 1, sum := r.accum.sum + sig } }

/-- A completion credited to one item of the placed-contract list: its record is read and verified; a contract that
still stands gets the credit, and a band that is then complete is judged at once (R110). -/
def Part.creditOne (p : Panel) (c : Completion) (x : Placed) (b : Part) : Part :=
  let n := x.handle % 64
  let b := b.verify .accounting n
  if (b.record n).standsAs n x then
    let b := b.setRecord n ((b.record n).credit c.sig)
    if (b.record n).accum.groups = x.band.size then b.judgeRefresh p n x.kind c.rowGroup else b
  else b

/-- The placed-contract list a completion is credited by: the plan's, or the list kept from a plan that a teardown
cleared (R110). -/
def Part.creditList (p : Panel) (b : Part) : List Placed :=
  match (b.engine p).plan with
  | some pl => pl.placed
  | none => (b.credit p).keptPlaced.getD []

/-- The listed contracts in whose plan scope a row group lies, in ascending contract number (R71, R110). -/
def scopeOf (g : Nat) (xs : List Placed) : List Placed :=
  sortBy (fun x y => decide (x.handle % 64 < y.handle % 64)) (xs.filter fun x => x.band.has g)

/-- The oldest completion of a panel leaves the queue; a kept list is discarded with the last one (R110). -/
def CreditQueue.pop (q : CreditQueue) : CreditQueue :=
  { completions := q.completions.tail,
    keptPlaced := if q.completions.length ≤ 1 then none else q.keptPlaced }

/-- The contract manager takes the oldest completion handed on for a panel, where there is one (R110). -/
def Part.creditOldest (p : Panel) (b : Part) : Part :=
  match (b.credit p).completions with
  | [] => b
  | c :: _ =>
    (scopeOf c.rowGroup (b.creditList p)).foldl (fun b x => b.creditOne p c x) b |>.modCredit p CreditQueue.pop

/-- Takes `k` completions. -/
def Part.creditMany (p : Panel) : Nat → Part → Part
  | 0, b => b
  | k + 1, b => Part.creditMany p k (b.creditOldest p)

/-- The contract manager takes every completion handed on for a panel, as it does before a turn claim (R103). -/
def Part.creditAll (p : Panel) (b : Part) : Part := b.creditMany p (b.credit p).completions.length

/-! ### The turn claim, steps 1 to 5 (R18 to R21, R57, R121) -/

/-- What the steps of a turn claim make of one record: the record, whether its age was set to P at this turn, and
whether its owner and feeder get a CONTRACT notice. -/
structure TurnResult where
  record : Record
  fresh : Bool
  notify : Bool
  deriving DecidableEq, Repr

/-- Step 1: a RETIRING contract becomes FREE (R19). -/
def TurnResult.free (t : TurnResult) : TurnResult :=
  if t.record.state = .retiring then { t with record := t.record.freed, notify := true } else t

/-- A contract's age set to P (R18). -/
def Record.agedToP (r : Record) : Record := { r with age := r.params.period }

/-- The record of a promoted, resumed or restarted contract (R19, R21, R57). -/
def Record.cleared (r : Record) : Record := { r with accum := Accumulation.cleared }

/-- Step 2: a STAGED contract becomes LIVE with age P, late mark clear, accumulation cleared (R19). -/
def TurnResult.promote (t : TurnResult) : TurnResult :=
  if t.record.state = .staged then
    { record := { t.record.agedToP.cleared with state := .live, lateMark := false }, fresh := true, notify := true }
  else t

/-- An amendment changes the band or the signature checking (R12, R20). -/
def Params.changesContent (q a : Params) : Bool := q.band != a.band || q.checking != a.checking

/-- The zone state after the zone of a contract was set (R12, R20). -/
def zoneStateFor (z : Option Zone) : Option ZoneState := z.map fun _ => .idle

/-- The parameters of an amendment put in force (R12, R20): a changed band or checking drops the pending update and
the confirmed signature, a changed zone starts idle. -/
def Record.withParams (r : Record) (a : Params) : Record :=
  { r with
    params := a
    pending := if r.params.changesContent a then none else r.pending
    confirmed := if r.params.changesContent a then none else r.confirmed
    zoneState := if r.params.zone = a.zone then r.zoneState else zoneStateFor a.zone }

/-- A staged amendment taken at the turn (R20). -/
def Record.takeAmendment (r : Record) (a : Params) : Record :=
  let r' := { r.withParams a with stagedAmendment := none }
  let r' := if r.params.changesContent a then r'.agedToP else r'
  if r.params.cls ≠ .telltale ∧ a.cls = .telltale then { r' with lateMark := false, lateFrames := 0 } else r'

/-- Step 3: a LIVE, STALE or SUSPENDED contract takes its staged amendment, or drops it where a STALE contract would
change its class to or from TELLTALE (R20). -/
def TurnResult.amend (t : TurnResult) : TurnResult :=
  match t.record.stagedAmendment with
  | none => t
  | some a =>
    if t.record.state = .live ∨ t.record.state = .stale ∨ t.record.state = .suspended then
      if t.record.turnDrops a then
        { t with record := { t.record with stagedAmendment := none }, notify := true }
      else
        { record := t.record.takeAmendment a, fresh := t.fresh || t.record.params.changesContent a, notify := true }
    else t

/-- A SUSPENDED contract resumed (R21). Its press state starts from IDLE, whatever it was when the contract was suspended
(R159). DEDUCED, log 29: R159 does not say at which moment, and the model takes the turn that resumes it, as for a zone
changed at a turn. -/
def Record.resumed (r : Record) : Record :=
  { r.agedToP with state := .live, resumeMark := false, zoneState := r.zoneState.map fun _ => .idle }

/-- Step 4: the request marks are taken (R21). -/
def TurnResult.marks (t : TurnResult) : TurnResult :=
  let r := t.record
  if (r.state = .live ∨ r.state = .stale) ∧ r.suspendMark = true then
    if r.state = .stale ∧ r.fallback = true then { t with record := { r with suspendMark := false } }
    else
      { t with
        record := { r.cleared with state := .suspended, suspendMark := false, lateMark := false, lateFrames := 0 },
        notify := true }
  else if r.state = .suspended ∧ r.resumeMark = true then
    { record := r.resumed, fresh := true, notify := true }
  else t

/-- The restart mark, at the end of step 4 of the first turn of a run: every LIVE and STALE contract has its age set
to P and its accumulation cleared (R57). -/
def TurnResult.restart (first : Bool) (t : TurnResult) : TurnResult :=
  if first = true ∧ (t.record.state = .live ∨ t.record.state = .stale) then
    { t with record := t.record.agedToP.cleared, fresh := true }
  else t

/-- A pending update one turn older (R121). -/
def PendingUpdate.aged (u : PendingUpdate) : PendingUpdate := { u with age := satInc 255 u.age }

/-- Step 5: the accumulation of a LIVE or STALE contract is cleared, and one whose age was not set to P at this turn
is aged with its pending update (R121). -/
def TurnResult.age (t : TurnResult) : TurnResult :=
  if t.record.state = .live ∨ t.record.state = .stale then
    if t.fresh then { t with record := t.record.cleared }
    else
      { t with record := { t.record.cleared with age := satInc 255 t.record.age,
                                                 pending := t.record.pending.map PendingUpdate.aged } }
  else t

/-- Steps 1 to 5 of the turn claim on one record of the panel (R18). -/
def Record.turn (first : Bool) (r : Record) : TurnResult :=
  let t : TurnResult := { record := r, fresh := false, notify := false }
  ((((t.free.promote).amend).marks).restart first).age

/-- A staged amendment that changes the zone empties the press candidate when it is taken (R159). -/
def Record.turnChangesZone (r : Record) : Bool :=
  match r.stagedAmendment with
  | none => false
  | some a =>
    (r.state == .live || r.state == .stale || r.state == .suspended) && !r.turnDrops a && r.params.zone != a.zone

/-- The turn resumes a contract (R21). -/
def Record.turnResumes (r : Record) : Bool := r.state == .suspended && r.resumeMark

/-- Steps 1 to 5 of the turn claim on one record number. The notice goes to the owner and feeder the record had. -/
def Part.turnOne (p : Panel) (first : Bool) (n : Nat) (b : Part) : Part :=
  let r := b.record n
  if r.panel = p ∧ r.state ≠ .free then
    let t := r.turn first
    ((b.setRecord n t.record).emptyCandidateIf (r.turnChangesZone || r.turnResumes) n).contractNoticeIf t.notify n r none
  else b

/-- Whether steps 1 to 5 age a record of the panel, so that step 6 checks it for breach (R121, R122). -/
def Record.agedAtTurn (p : Panel) (first : Bool) (r : Record) : Bool :=
  r.panel == p && r.state != .free && !(r.turn first).fresh &&
    ((r.turn first).record.state == .live || (r.turn first).record.state == .stale)

/-! ### Step 6: breach (R122 to R125) -/

/-- The period bound is breached (R122). -/
def Record.periodBreached (r : Record) : Bool := decide (r.params.period < r.age)

/-- The latency bound is breached: an update is pending, L is present and the pending age exceeds it (R122). -/
def Record.latencyBreached (r : Record) : Bool :=
  match r.pending, r.params.latency with
  | some u, some l => decide (l < u.age)
  | _, _ => false

def Record.breached (r : Record) : Bool := r.periodBreached || r.latencyBreached

/-- 1 period, 2 latency, 3 both (R125). -/
def Record.breachDetail (r : Record) : Byte := flagByte [r.periodBreached, r.latencyBreached]

/-- A claim of step 6 (R125). -/
def breachClaim (code : FaultCode) (cls : FaultClass) (p : Panel) (n : Nat) (r : Record) (detail : Byte) : Claim :=
  { code := code, cls := cls, scope := .contract, panel := some p, handle := some (r.handle n), detail := detail }

/-- The first breach of a TELLTALE contract (R122). -/
def Record.missed (r : Record) : Record :=
  { r with fallback := true, state := .stale, lateness := satInc 65535 r.lateness }

/-- The first breach of a contract of another class (R123). -/
def Record.firstLate (r : Record) : Record :=
  { r with lateMark := true, lateFrames := 0, lateness := satInc 65535 r.lateness }

/-- A continuing breach: one more late frame (R124). -/
def Record.stillLate (r : Record) : Record := { r with lateFrames := satInc 16 r.lateFrames }

/-- Step 6 on one record that step 5 aged (R122 to R125). -/
def Part.breachOne (p : Panel) (n : Nat) (b : Part) : Part :=
  let r := b.record n
  if !r.breached then b
  else if r.params.cls = .telltale then
    if r.fallback then b
    else
      let b := (b.setRecord n r.missed).contractNotice n r none
      b.claim (Bank.ofPanel p) (breachClaim .telltaleMiss .critical p n r r.breachDetail)
  else if !r.lateMark then
    (b.setRecord n r.firstLate).claim (Bank.ofPanel p) (breachClaim .late .corrected p n r r.breachDetail)
  else
    let r' := r.stillLate
    if r.state = .live ∧ (b.engine p).cfg.grace < r'.lateFrames then
      let b := (b.setRecord n { r' with state := .stale }).contractNotice n r none
      b.claim (Bank.ofPanel p) (breachClaim .staleContract .contained p n r (BitVec.ofNat 8 r'.lateFrames))
    else b.setRecord n r'

/-- The turn claim of a panel: the table is read and verified, steps 1 to 5 are taken over the panel's records, then
step 6 in ascending contract number (R18, R26, R125). -/
def Part.turnClaim (p : Panel) (first : Bool) (b : Part) : Part :=
  let b := b.verifyAll .turnClaim
  let aged := recordNumbers.filter fun n => (b.record n).agedAtTurn p first
  let b := recordNumbers.foldl (fun b n => b.turnOne p first n) b
  aged.foldl (fun b n => b.breachOne p n) b

end Sys2Proof.Machine
end

