-- ==== Sys2Proof/Machine/Tracker.lean ====
section
/-! DEFINITION. The contact tracker (Chapter 8): peaks, the contact table, zone association, press and release, and
the tracking event. -/

namespace Sys2Proof.Machine

/-- The difference of two numbers. -/
def absDiff (a b : Nat) : Nat := (a - b) + (b - a)

/-- The receive columns, ascending. -/
def columnNumbers : List Nat := List.range 24

/-- What a completed touch frame hands to the tracker (R148). -/
structure HandOver where
  map : List (List Nat)
  threshold : Nat
  rows : RowSet
  calibrated : RowSet
  deriving DecidableEq, Repr

/-! ### Peaks (R149, R150) -/

/-- The delta a node counts with: 0 when its row is outside the row set or uncalibrated (R149). -/
def HandOver.delta (h : HandOver) (t c : Nat) : Nat :=
  if h.rows.getLsbD t && h.calibrated.getLsbD t then (h.map.getD t []).getD c 0 else 0

/-- The columns c − 1, c and c + 1 that lie on the panel. -/
def columnsAround (c : Nat) : List Nat := columnNumbers.filter fun k => decide (absDiff k c ≤ 1)

/-- The neighbours of a node that come before it in row-major order (R149). -/
def neighboursBefore (t c : Nat) : List (Nat × Nat) :=
  (if t = 0 then [] else (columnsAround c).map fun k => (t - 1, k)) ++ (if c = 0 then [] else [(t, c - 1)])

/-- The neighbours of a node that come after it in row-major order (R149). -/
def neighboursAfter (t c : Nat) : List (Nat × Nat) :=
  (if c + 1 < 24 then [(t, c + 1)] else []) ++ (if t + 1 < 15 then (columnsAround c).map fun k => (t + 1, k) else [])

/-- A node is a peak (R149). -/
def HandOver.isPeak (h : HandOver) (t c : Nat) : Bool :=
  h.rows.getLsbD t && h.calibrated.getLsbD t && decide (h.threshold ≤ h.delta t c) &&
    (neighboursAfter t c).all (fun n => decide (h.delta n.1 n.2 ≤ h.delta t c)) &&
    (neighboursBefore t c).all (fun n => decide (h.delta n.1 n.2 < h.delta t c))

/-- A peak with its position and strength (R150). -/
structure Peak where
  row : Nat
  x : Nat
  y : Nat
  strength : Nat
  deriving DecidableEq, Repr

/-- One coordinate of a peak: the centre of its node moved by the quotient truncated toward zero, clamped (R150). -/
def peakCoordinate (index low self high max : Nat) : Nat :=
  min max ((80 * (index : Int) + 40 + (80 * ((high : Int) - low)).tdiv (low + self + high)).toNat)

/-- The position and strength of the peak at a node (R150). -/
def HandOver.peak (h : HandOver) (t c : Nat) : Peak :=
  let left := if c = 0 then 0 else h.delta t (c - 1)
  let right := if c + 1 < 24 then h.delta t (c + 1) else 0
  let up := if t = 0 then 0 else h.delta (t - 1) c
  let down := if t + 1 < 15 then h.delta (t + 1) c else 0
  { row := t, x := peakCoordinate c left (h.delta t c) right 1919, y := peakCoordinate t up (h.delta t c) down 1199,
    strength := h.delta t c }

/-- The peaks of a delta map, in row-major order (R149). -/
def HandOver.peaks (h : HandOver) : List Peak :=
  transmitRowNumbers.flatMap fun t => (columnNumbers.filter fun c => h.isPeak t c).map fun c => h.peak t c

/-- The peaks in the order they are taken: descending strength, then row-major (R152). -/
def HandOver.orderedPeaks (h : HandOver) : List Peak := sortBy (fun a b => decide (b.strength < a.strength)) h.peaks

/-! ### The contact table (R151 to R154) -/

/-- An existing record during matching, with whether a peak has matched it (R152). -/
structure Tracked where
  contact : Contact
  matched : Bool
  deriving DecidableEq, Repr

/-- The distance of a peak from a contact record (R152). -/
def Peak.distance (k : Peak) (c : Contact) : Nat := absDiff k.x c.x + absDiff k.y c.y

/-- The unmatched record at the least distance from a peak, the lowest id among equals, with that distance. The
records stand in ascending id (R152). -/
def nearest (k : Peak) : List Tracked → Option (Nat × Nat)
  | [] => none
  | e :: es =>
    if e.matched then nearest k es
    else
      match nearest k es with
      | none => some (k.distance e.contact, e.contact.id)
      | some (d, i) => if d < k.distance e.contact then some (d, i) else some (k.distance e.contact, e.contact.id)

/-- A record that a peak matches becomes HELD with the peak's position and strength (R152). -/
def Contact.matchWith (k : Peak) (c : Contact) : Contact :=
  { c with state := .held, x := k.x, y := k.y, strength := k.strength, framesHeld := satInc 255 c.framesHeld }

/-- Peaks taken one at a time: each matches the nearest unmatched record within 160, or waits (R152). -/
def matchPeaks : List Peak → List Tracked → List Tracked × List Peak
  | [], es => (es, [])
  | k :: ks, es =>
    match nearest k es with
    | some (d, i) =>
      if d ≤ 160 then
        matchPeaks ks (es.map fun e =>
          if e.contact.id = i then { contact := e.contact.matchWith k, matched := true } else e)
      else
        let r := matchPeaks ks es
        (r.1, k :: r.2)
    | none =>
      let r := matchPeaks ks es
      (r.1, k :: r.2)

/-- An existing record left unmatched becomes LIFTED, its zone absent (R153). -/
def Tracked.settle (e : Tracked) : Contact :=
  if e.matched then e.contact else { e.contact with state := .lifted, zone := none }

/-- The lowest id that no record carries (R153). -/
def freeId (cs : List Contact) : Nat := ((List.range 16).filter fun i => cs.all fun c => c.id != i).headD 0

/-- A new record for a peak (R153). -/
def Contact.ofPeak (id : Nat) (k : Peak) : Contact :=
  { id := id, state := .touchdown, x := k.x, y := k.y, strength := k.strength, framesHeld := 0, zone := none }

/-- Unmatched peaks touch down while the table holds fewer than ten records; the others are dropped, in order
(R153). -/
def touchDown : List Contact → List Peak → List Contact × List Peak
  | cs, [] => (cs, [])
  | cs, k :: ks =>
    if cs.length < 10 then
      touchDown (insertBy (fun a b => decide (a.id < b.id)) (Contact.ofPeak (freeId cs) k) cs) ks
    else
      let r := touchDown cs ks
      (r.1, k :: r.2)

/-- Step 2 of the tracking event: the contact table brought up to date, with the peaks dropped (R152, R153). -/
def updateContacts (peaks : List Peak) (cs : List Contact) : List Contact × List Peak :=
  let existing := (cs.filter fun c => c.state != .lifted).map fun c => ({ contact := c, matched := false } : Tracked)
  let m := matchPeaks peaks existing
  touchDown (m.1.map Tracked.settle) m.2

/-- The claim for a dropped peak (R154). -/
def overflowClaim (k : Peak) : Claim :=
  { code := .contactOverflow, cls := .corrected, scope := .panel, panel := some .centre, handle := none,
    detail := BitVec.ofNat 8 k.row }

/-! ### Zones (R155 to R159) -/

/-- A zone contract: a centre contract that is not FREE and whose touch zone is present (R155). -/
def Record.isZoneContract (r : Record) : Bool := r.state != .free && r.panel == .centre && r.params.zone.isSome

/-- A candidate zone: a zone contract that is LIVE, STALE or RETIRING (R155). -/
def Record.isCandidateZone (r : Record) : Bool :=
  r.isZoneContract && (r.state == .live || r.state == .stale || r.state == .retiring)

/-- The zone's rectangle holds a pixel: x in its column span, y in the pixel rows of the band (R155). -/
def Record.zoneHolds (r : Record) (x y : Nat) : Bool :=
  match r.params.zone with
  | none => false
  | some z =>
    decide (z.firstCol ≤ x) && decide (x ≤ z.lastCol) && decide (8 * r.params.band.first ≤ y) &&
      decide (y ≤ 8 * r.params.band.last + 7)

/-- The candidate zone that holds a position: best class rank, then lowest number (R156). -/
def zoneAt (table : List Record) (x y : Nat) : Option Nat :=
  ((sortBy (fun a b => decide (a.2.params.cls.rank < b.2.params.cls.rank))
    ((numbered table).filter fun nr => nr.2.isCandidateZone && nr.2.zoneHolds x y)).map
      fun nr => nr.2.handle nr.1).head?

/-- Step 3: the zone of a TOUCHDOWN or HELD record is decided afresh (R156). -/
def Contact.associate (table : List Record) (c : Contact) : Contact :=
  if c.state = .lifted then c else { c with zone := zoneAt table c.x c.y }

/-- The contacts associated with a zone (R157). -/
def associated (handle : Nat) (cs : List Contact) : List Contact :=
  cs.filter fun c => c.state != .lifted && c.zone == some handle

/-- The leading contact: greatest strength, then lowest id; the contacts stand in ascending id (R157). -/
def leading (cs : List Contact) : Option Contact := (sortBy (fun a b => decide (b.strength < a.strength)) cs).head?

/-- The press candidate after step 4 for a candidate zone with its associated contacts (R157). -/
def PressCandidate.next (handle : Nat) (cs : List Contact) (before : Option PressCandidate) : Option PressCandidate :=
  match leading cs with
  | none => none
  | some l =>
    match before with
    | none => some { handle := handle, contact := l.id, run := 1 }
    | some k =>
      if cs.any fun c => c.id == k.contact then some { k with run := satInc 7 k.run }
      else some { handle := handle, contact := l.id, run := 1 }

/-- The zone state after step 4 for a candidate zone (R157, R158). -/
def ZoneState.next (debounce : Nat) (cs : List Contact) (k : Option PressCandidate) (before : Option ZoneState) :
    Option ZoneState :=
  match before with
  | some (.pressed c) =>
    if cs.isEmpty then some .idle
    else if cs.any fun x => x.id == c then some (.pressed c)
    else
      match k with
      | some k' => some (.pressed k'.contact)
      | none => some (.pressed c)
  | z =>
    match k with
    | some k' => if debounce ≤ k'.run then some (.pressed k'.contact) else z
    | none => z

/-- A press candidate whose handle differs from the record's present handle is emptied first (R157). -/
def PressCandidate.current (handle : Nat) : Option PressCandidate → Option PressCandidate
  | some k => if k.handle = handle then some k else none
  | none => none

/-- The press candidate of a contract number. -/
def Touch.candidate (t : Touch) (n : Nat) : Option PressCandidate := t.candidates.getD n none

def Touch.setCandidate (n : Nat) (k : Option PressCandidate) (t : Touch) : Touch :=
  { t with candidates := t.candidates.set n k }

/-- A zone state reset without notice: IDLE where it stood PRESSED (R159, R162). -/
def Record.releaseQuietly (r : Record) : Record :=
  if ZoneState.isPressed r.zoneState then { r with zoneState := some .idle } else r

/-- The debounce of a record's zone. -/
def Record.debounce (r : Record) : Nat := (r.params.zone.map Zone.debounce).getD 0

/-- Step 4 for one contract number: a candidate zone follows R157 and R158, with a ZONE notice at its owner when its
state changes (R160); any other zone contract drops its press state without notice (R159). -/
def Part.pressOne (n : Nat) (b : Part) : Part :=
  let r := b.record n
  let h := r.handle n
  let k := PressCandidate.current h (b.touch.candidate n)
  if r.isCandidateZone then
    let cs := associated h b.touch.contacts
    let k' := PressCandidate.next h cs k
    let z := ZoneState.next r.debounce cs k' r.zoneState
    let b := b.modTouch (Touch.setCandidate n k')
    if z = r.zoneState then b
    else (b.setRecord n { r with zoneState := z }).raiseWhere (fun p => p.bits == r.owner) (.zone n)
  else if r.isZoneContract then
    let b := b.modTouch (Touch.setCandidate n none)
    if ZoneState.isPressed r.zoneState then b.setRecord n r.releaseQuietly else b
  else b.modTouch (Touch.setCandidate n k)

/-! ### The tracking event (R148, R160) -/

/-- What of a contact record a CONTACTS notice reports: a change of strength or frames held alone is none (R160). -/
def Contact.visible (c : Contact) : Nat × ContactState × Nat × Nat × Option Nat := (c.id, c.state, c.x, c.y, c.zone)

/-- A port owns a zone contract that is not FREE (R142, R160). -/
def ownsZone (table : List Record) (p : Port) : Bool := table.any fun r => r.isZoneContract && r.owner == p.bits

def Touch.setContacts (cs : List Contact) (t : Touch) : Touch := { t with contacts := cs }

/-- Steps 1 and 2: the peaks are found and the contact table brought up to date, with a claim for each peak dropped
(R149 to R154). -/
def Part.takePeaks (h : HandOver) (b : Part) : Part :=
  let step2 := updateContacts h.orderedPeaks b.touch.contacts
  step2.2.foldl (fun b k => b.claim .touch (overflowClaim k)) (b.modTouch (Touch.setContacts step2.1))

/-- Each contact associated afresh with the zones of a table (R156). -/
def Touch.associate (table : List Record) (t : Touch) : Touch :=
  { t with contacts := t.contacts.map (Contact.associate table) }

/-- Step 3 on the table as it stands (R156). -/
def Part.associateZones (b : Part) : Part := b.modTouch (Touch.associate b.table)

/-- Step 3: every record is read and verified, and each contact associated afresh (R155, R156). -/
def Part.associateContacts (b : Part) : Part := (b.verifyAll .tracker).associateZones

/-- Step 4: press and release, in ascending contract number (R157 to R159). -/
def Part.updatePresses (b : Part) : Part := recordNumbers.foldl (fun b n => b.pressOne n) b

/-- Step 5: a CONTACTS notice at each port owning a zone contract, where the table changed (R160). -/
def Part.noticeContacts (before : List Contact) (b : Part) : Part :=
  if b.touch.contacts.map Contact.visible = before.map Contact.visible then b
  else b.raiseWhere (fun p => ownsZone b.table p) .contacts

/-- The tracking event (R148): peaks, contact table with the claims of dropped peaks, zone association, press states,
notices. -/
def Part.track (h : HandOver) (b : Part) : Part :=
  (((b.takePeaks h).associateContacts).updatePresses).noticeContacts b.touch.contacts

end Sys2Proof.Machine
end

