-- ==== Sys2Proof/Machine/Touch.lean ====
section
/-! DEFINITION. The touch sense engine (Chapter 7): scan set, touch frames, bursts and their filing, calibration,
completion and drift, suspension and reset. -/

namespace Sys2Proof.Machine

/-! ### Touch frames (R132, R133) -/

/-- The rows of a touch frame still NEEDED, ascending (R132). -/
def TouchFrame.needed (f : TouchFrame) : List Nat :=
  transmitRowNumbers.filter fun t => f.rows.getLsbD t && (f.results.getD t none).isNone

/-- A burst whose touch frame is abandoned or completed belongs to no touch frame in progress (R133, R135). -/
def Touch.loseBurst (t : Touch) : Option Burst := t.burst.map fun u => { u with lost := true }

/-- A touch frame is started on the scan set, every row NEEDED, with the touch configuration as it stands (R132). -/
def Touch.startFrame (t : Touch) : Touch :=
  { t with
    burst := t.loseBurst
    frame := some { rows := t.scanSet, results := List.replicate 15 none, threshold := t.cfg.threshold,
                    placement := t.cfg.placement } }

/-- A touch frame in progress is abandoned (R133). -/
def Touch.abandon (t : Touch) : Touch := { t with burst := t.loseBurst, frame := none }

/-! ### The scan set (R129, R130) -/

/-- A record brings rows into the scan set: a LIVE or STALE centre contract with a zone (R129). -/
def Record.scans (r : Record) : Bool :=
  r.panel == .centre && (r.state == .live || r.state == .stale) && r.params.zone.isSome

/-- The scan set of a table (R129). -/
def scanSetOf (table : List Record) : RowSet :=
  BitVec.ofNat 15 (bitsToNat (transmitRowNumbers.map fun t => table.any fun r => r.scans && r.params.band.onRow t))

/-- A new scan set is compared with the one held: rows that enter or leave are marked uncalibrated, and the touch
frame in progress is continued, started or abandoned (R130). -/
def Touch.takeScanSet (new : RowSet) (t : Touch) : Touch :=
  let t' := { t with scanSet := new, calibrated := t.calibrated &&& ~~~(t.scanSet ^^^ new) }
  if new = 0 then { t'.abandon with state := .idle }
  else if t.state = .scanning ∧ new = t.scanSet then t'
  else { t'.startFrame with state := .scanning }

/-- The scan set recomputed from the table as it stands (R129, R130). -/
def Part.compareScanSet (b : Part) : Part := b.modTouch (Touch.takeScanSet (scanSetOf b.table))

/-- Step 3 of a centre turn: every record is read and verified (R26, R129). -/
def Part.recomputeScanSet (b : Part) : Part := (b.verifyAll .scanSet).compareScanSet

/-- D_now: the least divisor among the zones of the LIVE and STALE centre contracts (R74, R131). -/
def divisorNow (table : List Record) : Nat := leastDivisor ((table.filter Record.scans).filterMap fun r => r.params.zone)

/-- The rows the plan may sense: those still needed while SCANNING, none otherwise (R74, R131). -/
def Touch.neededRows (t : Touch) : List Nat :=
  match t.state, t.frame with
  | .scanning, some f => f.needed
  | _, _ => []

/-- The placement in force for the touch frame in progress (R74). -/
def Touch.placementNow (t : Touch) : Placement := (t.frame.map TouchFrame.placement).getD t.cfg.placement

/-! ### Filing a burst (R135 to R138) -/

/-- A claim at the TOUCH bank about a transmit row (R136, R137). -/
def rowClaim (code : FaultCode) (cls : FaultClass) (row : Nat) : Claim :=
  { code := code, cls := cls, scope := .panel, panel := some .centre, handle := none, detail := BitVec.ofNat 8 row }

/-- A row result written into the touch frame in progress (R137, R138). -/
def Touch.setResult (row : Nat) (x : RowResult) (t : Touch) : Touch :=
  { t with frame := t.frame.map fun f => { f with results := f.results.set row (some x) } }

/-- A raw count at the end of the converter's range (R137). -/
def atRangeEnd (n : Nat) : Bool := n == 0 || n == 4095

/-- A good calibration burst: the baselines are the raw counts, the row is calibrated, its deltas are 0 (R137). -/
def Touch.calibrate (row : Nat) (counts : List Nat) (t : Touch) : Touch :=
  { t with baselines := t.baselines.set row counts, calibrated := t.calibrated ||| bitOf 15 row }
    |>.setResult row { raw := counts, deltas := List.replicate 24 0 }

/-- A measurement burst: each delta is the baseline less the raw count, or 0 (R138). -/
def Touch.measure (row : Nat) (counts : List Nat) (t : Touch) : Touch :=
  t.setResult row { raw := counts, deltas := List.zipWith (fun base raw => base - raw) (t.baselines.getD row []) counts }

/-! ### Completion and drift (R139, R140) -/

/-- The node delta map of a completed touch frame: 0 outside its row set (R139). -/
def TouchFrame.deltaMap (f : TouchFrame) : List (List Nat) :=
  transmitRowNumbers.map fun t =>
    if f.rows.getLsbD t then ((f.results.getD t none).map RowResult.deltas).getD (List.replicate 24 0)
    else List.replicate 24 0

/-- A TOUCHDOWN or HELD contact lies within a Chebyshev distance of 1 of a node (R140). -/
def nearContact (cs : List Contact) (t c : Nat) : Bool :=
  cs.any fun k => k.state != .lifted && decide (max (absDiff (k.y / 80) t) (absDiff (k.x / 80) c) ≤ 1)

/-- A baseline moved one count toward a raw count (R140). -/
def stepToward (raw base : Nat) : Nat := if raw < base then base - 1 else if base < raw then base + 1 else base

/-- The baselines after drift: in the rows of the touch frame, where twice the delta is below the threshold and no
held contact is near (R140). -/
def Touch.drift (f : TouchFrame) (t : Touch) : Touch :=
  { t with
    baselines := transmitRowNumbers.map fun row =>
      let base := t.baselines.getD row []
      match f.rows.getLsbD row, f.results.getD row none with
      | true, some x =>
        columnNumbers.map fun c =>
          if 2 * x.deltas.getD c 0 < f.threshold ∧ nearContact t.contacts row c = false then
            stepToward (x.raw.getD c 0) (base.getD c 0)
          else base.getD c 0
      | _, _ => base }

/-- Step 1 of a completion: the node delta map is written (R139). -/
def Touch.writeMap (f : TouchFrame) (t : Touch) : Touch := { t with deltaMap := f.deltaMap }

/-- What step 2 of a completion hands to the tracker: the map, threshold and row set of the touch frame, and the
calibrated marks as they stand (R139). -/
def Touch.handOver (f : TouchFrame) (t : Touch) : HandOver :=
  { map := f.deltaMap, threshold := f.threshold, rows := f.rows, calibrated := t.calibrated }

/-- Steps 4 and 5 of a completion: one more completed, and a new touch frame (R139). -/
def Touch.nextFrame (t : Touch) : Touch := { t with completed := t.completed + 1 }.startFrame

/-- The completion of a touch frame, in the order of R139: delta map, tracking event, drift, completed count, new
touch frame. -/
def Part.completeFrame (f : TouchFrame) (b : Part) : Part :=
  (((b.modTouch (Touch.writeMap f)).track (b.touch.handOver f)).modTouch (Touch.drift f)).modTouch Touch.nextFrame

/-- A good burst that leaves no row NEEDED completes the touch frame (R139). -/
def Part.completeIfDone (b : Part) : Part :=
  match b.touch.frame with
  | some f => if f.needed.isEmpty then b.completeFrame f else b
  | none => b

/-- A calibration burst (R137). -/
def Part.fileCalibration (row : Nat) (counts : List Nat) (b : Part) : Part :=
  if counts.any atRangeEnd then b.claim .touch (rowClaim .calFail .contained row)
  else (b.modTouch (Touch.calibrate row counts)).completeIfDone

/-- A measurement burst (R138). -/
def Part.fileMeasurement (row : Nat) (counts : List Nat) (b : Part) : Part :=
  (b.modTouch (Touch.measure row counts)).completeIfDone

/-- A burst that is not disturbed is filed against the touch frame in progress, or discarded (R135). -/
def Part.fileGood (u : Burst) (counts : List Nat) (b : Part) : Part :=
  if u.lost || !(b.touch.neededRows.contains u.row) then b
  else if b.touch.calibrated.getLsbD u.row then b.fileMeasurement u.row counts
  else b.fileCalibration u.row counts

/-- The result array takes the counts of the burst that ends (R135). -/
def Touch.endBurst (u : Burst) (counts : List Nat) (t : Touch) : Touch :=
  { t with burst := none, resultRow := u.row, resultCounts := counts }

/-- A burst that ends is filed by the first case of R135 that holds, and the plan's entry takes its outcome. -/
def Part.fileBurst (u : Burst) (counts : List Nat) (b : Part) : Part :=
  if u.disturbed then
    (b.setOutcome .centre u.slot .disturbed).claim .touch (rowClaim .senseDisturbed .corrected u.row)
  else (b.setOutcome .centre u.slot .done).fileGood u counts

/-- Sense complete (R135), where a burst runs. -/
def Part.senseComplete (counts : List Nat) (b : Part) : Part :=
  match b.touch.burst with
  | none => b
  | some u => (b.modTouch (Touch.endBurst u counts)).fileBurst u counts

/-! ### Requests, teardown and warm reset (R142, R143, R146, R162) -/

/-- RECALIBRATE: every row uncalibrated, baselines kept; a touch frame in progress is abandoned and a new one
started (R142). -/
def Touch.recalibrate (t : Touch) : Touch :=
  let t := { t with calibrated := 0 }
  if t.state = .scanning then t.abandon.startFrame else t

/-- The contact table and the press candidates emptied (R162). -/
def Touch.emptyContacts (t : Touch) : Touch := { t with contacts := [], candidates := List.replicate 64 none }

/-- Teardown of the centre panel: SUSPENDED, the touch frame discarded, the burst stopped, contacts emptied (R143). -/
def Touch.suspend (t : Touch) : Touch := { t.emptyContacts with state := .suspended, frame := none, burst := none }

/-- Warm reset: IDLE with an empty scan set and every row uncalibrated (R146). -/
def Touch.warmReset (t : Touch) : Touch :=
  { t.emptyContacts with state := .idle, frame := none, burst := none, scanSet := 0, calibrated := 0 }

end Sys2Proof.Machine
end

