-- ==== Sys2Proof/Machine/Planning.lean ====
section
/-! DEFINITION. Frame planning (Chapter 4): edge slots, sense walks, the due set and its order, placement, and the
plan built at step 4 of a turn. -/

namespace Sys2Proof.Machine

/-! ### Backlight switching (R60, R61) -/

/-- The backlight level of slot j (R60). -/
def levelAt (period duty j : Nat) : Bool := decide (j % period < duty)

/-- Slot j is an edge slot of a frame that begins with the output at a level (R61). -/
def isEdge (period duty : Nat) (before : Bool) (j : Nat) : Bool :=
  if j = 0 then (decide (0 < duty) && decide (duty < period)) || levelAt period duty 0 != before
  else decide (0 < duty) && decide (duty < period) && (j % period == 0 || j % period == duty)

/-! ### Sense walks (R75 to R78) -/

/-- What a walk placed: the slots of SENSE entries, the slots of sense IDLEs, and how many entries it could not
place. -/
structure Walk where
  sense : List Nat
  idle : List Nat
  left : Nat
  deriving DecidableEq, Repr

/-- A sense walk over slots without an entry, taken upward, with the candidates held since its last SENSE entry
(R75). Sense placement comes first in the build, so every slot before the closing one is without an entry. -/
def senseWalk (edge : Nat → Bool) : List Nat → Nat → List Nat → Walk
  | _, 0, _ => { sense := [], idle := [], left := 0 }
  | [], k, _ => { sense := [], idle := [], left := k }
  | j :: js, k + 1, held =>
    if edge j then senseWalk edge js (k + 1) (held ++ [j])
    else
      let w := senseWalk edge js k []
      { sense := j :: w.sense, idle := held ++ w.idle, left := w.left }

/-- The slots from a first slot up to a bound slot, which is not used (R75). -/
def slotsFrom (first bound : Nat) : List Nat := (List.range bound).filter fun j => decide (first ≤ j)

/-- The sense entries of a plan: SENSE slots ascending, sense IDLEs, the GUARD's slot, entries deferred. -/
structure SensePlan where
  sense : List Nat
  idle : List Nat
  guard : Option Nat
  deferred : Nat
  deriving DecidableEq, Repr

/-- LEAD placement: one walk from slot 0 (R76). -/
def leadPlacement (edge : Nat → Bool) (slots k : Nat) : SensePlan :=
  let w := senseWalk edge (slotsFrom 0 (slots - 1)) k []
  { sense := w.sense, idle := w.idle, guard := none, deferred := w.left }

/-- SPLIT placement: two walks, the second from slot M = floor(S / 2) behind a GUARD at M − 1 (R77). -/
def splitPlacement (edge : Nat → Bool) (slots k : Nat) : SensePlan :=
  let m := slots / 2
  let w1 := senseWalk edge (slotsFrom 0 (m - 1)) (ceilDiv k 2) []
  let w2 := senseWalk edge (slotsFrom m (slots - 1)) (k - ceilDiv k 2 + w1.left) []
  { sense := w1.sense ++ w2.sense, idle := w1.idle ++ w2.idle,
    guard := if w2.sense.isEmpty then none else some (m - 1), deferred := w2.left }

def sensePlacement (pl : Placement) (edge : Nat → Bool) (slots k : Nat) : SensePlan :=
  match pl with
  | .lead => leadPlacement edge slots k
  | .split => splitPlacement edge slots k

/-- The sense demand of a centre plan (R74). -/
def senseDemand (needed : List Nat) (divisor : Nat) : Nat := min needed.length (ceilDiv needed.length divisor)

/-- A plan while it is built: one place for each slot. -/
abbrev Draft := List (Option EntryKind)

/-- The draft with its CLOSING entry and its sense entries; SENSE entries take the needed rows in ascending order
(R73, R78). -/
def draftOf (slots : Nat) (sp : SensePlan) (needed : List Nat) : Draft :=
  let rows := sp.sense.zip needed
  (List.range slots).map fun j =>
    if j + 1 = slots then some .closing
    else
      match rows.find? fun sr => sr.1 == j with
      | some sr => some (.sense sr.2)
      | none => if sp.idle.contains j then some .idle else if sp.guard = some j then some .guard else none

/-! ### The due set and its order (R80, R81) -/

/-- A contract is in the due set of a panel's plan (R80). -/
def Record.isDue (p : Panel) (r : Record) : Bool :=
  r.panel == p && (r.state == .live || r.state == .stale) &&
    (r.pending.isSome || decide (r.params.period ≤ r.age) || r.fallback)

/-- The slack of a contract (R81). -/
def Record.slack (r : Record) : Int :=
  let byPeriod := (r.params.period : Int) - r.age
  match r.pending, r.params.latency with
  | some u, some l => min byPeriod ((l : Int) - u.age)
  | _, _ => byPeriod

/-- One contract goes before another: fallback marks first, in ascending number; then ascending slack, class rank,
number (R81). -/
def dueBefore (a b : Nat × Record) : Bool :=
  if a.2.fallback || b.2.fallback then
    if a.2.fallback && b.2.fallback then decide (a.1 < b.1) else a.2.fallback
  else if a.2.slack = b.2.slack then
    if a.2.params.cls.rank = b.2.params.cls.rank then decide (a.1 < b.1)
    else decide (a.2.params.cls.rank < b.2.params.cls.rank)
  else decide (a.2.slack < b.2.slack)

/-- The due set in its order (R80, R81). -/
def dueSet (p : Panel) (table : List Record) : List (Nat × Record) :=
  sortBy dueBefore ((numbered table).filter fun nr => nr.2.isDue p)

/-! ### Placement (R82 to R85) -/

/-- The row group an entry carries (R69). -/
def EntryKind.group? : EntryKind → Option Nat
  | .drive g _ => some g
  | .fallback g _ => some g
  | .sense _ => none
  | .guard => none
  | .idle => none
  | .closing => none

/-- The row groups of a band, ascending. -/
def Band.groups (d : Band) : List Nat := (List.range d.size).map fun i => d.first + i

/-- A draft carries a row group. -/
def Draft.carries (dr : Draft) (g : Nat) : Bool := dr.any fun e => (e.bind EntryKind.group?) == some g

/-- The row groups of a band that no entry yet carries (R82). -/
def Draft.missing (dr : Draft) (d : Band) : List Nat := d.groups.filter fun g => !Draft.carries dr g

/-- The number of free slots (R82). -/
def Draft.free (dr : Draft) : Nat := dr.countP Option.isNone

/-- Entries given to the free slots in ascending slot order (R82). -/
def fillFree : Draft → List EntryKind → Draft
  | [], _ => []
  | e :: es, [] => e :: es
  | none :: es, k :: ks => some k :: fillFree es ks
  | some e :: es, k :: ks => some e :: fillFree es (k :: ks)

/-- A placed contract's entries are FALLBACK when it carries the fallback mark and holds no pending update, DRIVE in
every other case (R83). -/
def Record.placedKind (r : Record) : OrderKind :=
  if r.fallback && r.pending.isNone then .fallback else .drive

/-- The entry of a kind for a row group and causing contract (R68). -/
def entryOf (kind : OrderKind) (n g : Nat) : EntryKind :=
  match kind with
  | .drive => .drive g n
  | .fallback => .fallback g n

/-- The lowest slot of a DRIVE entry that carries a row group of a band (R71). -/
def captureSlotOf (d : Band) (dr : Draft) : Option Nat :=
  dr.findIdx? fun e =>
    match e with
    | some (.drive g _) => d.has g
    | _ => false

/-- A build in progress: the draft, the placed-contract list, and the contracts skipped, in order. -/
structure Build where
  draft : Draft
  placed : List Placed
  skipped : List Nat
  deriving DecidableEq, Repr

/-- The list entry of a contract placed in a draft (R71). -/
def placedEntry (n : Nat) (r : Record) (dr : Draft) : Placed :=
  { handle := r.handle n, kind := r.placedKind, band := r.params.band,
    captureSlot := match r.placedKind with
      | .drive => captureSlotOf r.params.band dr
      | .fallback => none }

/-- A due contract is placed or skipped whole (R82 to R84). -/
def Build.take (x : Build) (nr : Nat × Record) : Build :=
  let missing := Draft.missing x.draft nr.2.params.band
  if missing.length ≤ Draft.free x.draft then
    let dr := fillFree x.draft (missing.map fun g => entryOf nr.2.placedKind nr.1 g)
    { x with draft := dr, placed := x.placed ++ [placedEntry nr.1 nr.2 dr] }
  else { x with skipped := x.skipped ++ [nr.2.handle nr.1] }

/-- The due contracts placed one by one (R73). -/
def placeAll (dr : Draft) (due : List (Nat × Record)) : Build :=
  due.foldl Build.take { draft := dr, placed := [], skipped := [] }

/-- A finished draft: every slot still without an entry is IDLE, and every entry is PENDING (R70, R85). -/
def Draft.finish (dr : Draft) : List Entry := dr.map fun e => { kind := e.getD .idle, outcome := .pending }

/-! ### The carried outcome and the build (R72, R73) -/

/-- The outcome of an entry that issued an order. -/
def Entry.orderOutcome (e : Entry) : Option EntryOutcome :=
  match e.kind with
  | .drive _ _ => some e.outcome
  | .fallback _ _ => some e.outcome
  | _ => none

/-- The outcome of a plan's entry of a slot, where that entry issued an order. -/
def Plan.orderOutcomeAt (pl : Plan) (slot : Nat) : Option EntryOutcome := pl.entries[slot]?.bind Entry.orderOutcome

/-- The carried outcome of a new centre plan: that of slot S − 2 of the old plan (R72). -/
def carriedOutcome (p : Panel) (old : Option Plan) : Option EntryOutcome :=
  match p with
  | .cluster => none
  | .centre => old.bind fun pl => pl.orderOutcomeAt (pl.entries.length - 2)

/-- The sense entries a panel's plan gets (R73): none on the cluster panel. -/
def Part.sensePlanFor (p : Panel) (edge : Nat → Bool) (slots : Nat) (b : Part) : SensePlan :=
  match p with
  | .cluster => { sense := [], idle := [], guard := none, deferred := 0 }
  | .centre =>
    sensePlacement b.touch.placementNow edge slots (senseDemand b.touch.neededRows (divisorNow b.table))

/-- The claim for sense entries that could not be placed; its detail is the lowest needed row given none (R78). -/
def deferredClaim (row : Nat) : Claim :=
  { code := .senseDeferred, cls := .corrected, scope := .panel, panel := some .centre, handle := none,
    detail := BitVec.ofNat 8 row }

/-- The claim for skipped contracts: the first handle, and how many (R84). -/
def shortClaim (p : Panel) (first count : Nat) : Claim :=
  { code := .planShort, cls := .corrected, scope := .contract, panel := some p, handle := some first,
    detail := BitVec.ofNat 8 count }

/-- The claim for sense entries that could not be placed, where there are any (R78). -/
def Part.claimDeferred (sp : SensePlan) (b : Part) : Part :=
  if sp.deferred = 0 then b else b.claim .touch (deferredClaim (b.touch.neededRows.getD sp.sense.length 0))

/-- The claim for the contracts a plan skipped, where there are any (R84). -/
def Part.claimShort (p : Panel) (skipped : List Nat) (b : Part) : Part :=
  match skipped with
  | [] => b
  | h :: _ => b.claim (Bank.ofPanel p) (shortClaim p h skipped.length)

/-- Step 4 of a turn: the plan of the new frame is built, with its claims, and replaces the old plan (R67, R73). The
output level just before the turn bears on slot 0 (R61). -/
def Part.buildPlan (p : Panel) (b : Part) : Part :=
  let e := b.engine p
  let sp := b.sensePlanFor p (isEdge e.cfg.blPeriod e.duty e.output) e.cfg.slots
  let needed := b.touch.neededRows
  let b := (b.claimDeferred sp).verifyAll .planBuilding
  let x := placeAll (draftOf e.cfg.slots sp needed) (dueSet p b.table)
  (b.claimShort p x.skipped).modEngine p fun e' =>
    { e' with
      plan := some { entries := Draft.finish x.draft, placed := x.placed, carried := carriedOutcome p e.plan } }

end Sys2Proof.Machine
end

