-- ==== Sys2Proof/Machine/Timeline.lean ====
section
/-! DEFINITION. The panel timelines (Chapter 3) with their panel links (Chapter 5): stop policy, teardown, timeouts,
orders and bursts of a slot, the slot boundary and the frame turn. -/

namespace Sys2Proof.Machine

/-! ### Stop policies (R58, R59) -/

/-- The STOP a policy sends (R58). -/
def StopPolicy.message : StopPolicy → LinkMessage
  | .hold => .stop false
  | .dark => .stop false
  | .blank => .stop true

/-- The backlight output a policy leaves (R58). -/
def StopPolicy.outputAfter (level : Bool) : StopPolicy → Bool
  | .hold => level
  | .dark => false
  | .blank => false

/-- The backlight output set as the stop policy in force prescribes (R58). -/
def Engine.stopOutput (e : Engine) : Engine := { e with output := e.cfg.policy.outputAfter e.output }

/-- One application of the stop policy: one STOP, and the output set (R59). -/
def Part.applyStop (p : Panel) (b : Part) : Part :=
  (b.send p (b.engine p).cfg.policy.message).modEngine p Engine.stopOutput

/-! ### Teardown (R46, R101, R143, R162) -/

/-- The plan entries of orders in flight take ABANDONED (R101). -/
def Plan.abandon (orders : List Order) (pl : Plan) : Plan :=
  orders.foldl (fun pl o => pl.setOutcome o.slot .abandoned) pl

/-- What a teardown makes of the timeline engine, with the orders it abandons: slot counter and timer stopped, plan
cleared with its summary kept, flag clear (R46, R64). -/
def Engine.stopRun (orders : List Order) (e : Engine) : Engine :=
  { e with
    slot := none, startLeft := none, critical := false, plan := none
    lastSummary := match e.plan with
      | some pl => some (pl.abandon orders).summary
      | none => e.lastSummary }

/-- The placed-contract list of a plan that a teardown clears is kept while completions handed on before are still
to be credited (R110). -/
def CreditQueue.keep (plan : Option Plan) (q : CreditQueue) : CreditQueue :=
  { q with
    keptPlaced := match plan with
      | some pl => if q.completions.isEmpty then none else some pl.placed
      | none => q.keptPlaced }

/-- The panel's RETIRING contracts become FREE, with their notices (R22). -/
def Part.freeRetiring (p : Panel) (b : Part) : Part :=
  recordNumbers.foldl
    (fun b n => if (b.record n).panel = p ∧ (b.record n).state = .retiring then b.freeContract n none else b) b

/-- Every PRESSED zone contract of the centre panel is set to IDLE, without notice (R162). -/
def Part.releaseZones (b : Part) : Part :=
  recordNumbers.foldl
    (fun b n =>
      if (b.record n).isZoneContract ∧ ZoneState.isPressed (b.record n).zoneState then
        b.setRecord n (b.record n).releaseQuietly
      else b) b

/-- What a teardown of the centre panel does to touch (R143, R162). -/
def Part.suspendTouch (p : Panel) (b : Part) : Part :=
  match p with
  | .cluster => b
  | .centre => (b.modTouch Touch.suspend).releaseZones

/-- A teardown without its reading of the contract table: the engine stopped, the orders abandoned, the stop policy
applied, the new state entered (R46). -/
def Part.stopPanel (p : Panel) (st : PanelState) (b : Part) : Part :=
  let orders := (b.link p).orders
  let plan := (b.engine p).plan
  ((((b.modEngine p (Engine.stopRun orders)).modLink p fun _ => Link.reset).modCredit p (CreditQueue.keep plan)).applyStop
    p).enterState p st

/-- A panel teardown into DOWN or HALTED (R46): the table is read with each record verified (R26). -/
def Part.teardown (p : Panel) (st : PanelState) (b : Part) : Part :=
  ((((b.verifyAll .teardown).stopPanel p st).freeRetiring p).suspendTouch p)

/-- RUNNING or STARTING, the states a teardown leaves (R46). -/
def PanelState.active : PanelState → Bool
  | .running | .starting => true
  | .down | .halted => false

/-! ### Timeouts (R96 to R98) -/

/-- The contract that caused an entry (R68). -/
def EntryKind.cause? : EntryKind → Option Nat
  | .drive _ n => some n
  | .fallback _ n => some n
  | .sense _ => none
  | .guard => none
  | .idle => none
  | .closing => none

/-- The handle of the contract that caused a slot's entry, as the placed-contract list holds it (R96). -/
def Plan.causeHandle (slot : Nat) (pl : Plan) : Option Nat :=
  match pl.entries[slot]?.bind fun x => x.kind.cause? with
  | some n => (pl.placed.find? fun x => x.handle % 64 == n).map Placed.handle
  | none => none

/-- The claim of a timeout (R96). -/
def timeoutClaim (p : Panel) (handle : Option Nat) (o : Order) : Claim :=
  { code := .orderTimeout, cls := .corrected, scope := .panel, panel := some p, handle := handle,
    detail := BitVec.ofNat 8 o.rowGroup }

/-- The claim of a link loss (R97). -/
def lossClaim (p : Panel) (o : Order) : Claim :=
  { code := .linkLoss, cls := .critical, scope := .panel, panel := some p, handle := none,
    detail := BitVec.ofNat 8 o.rowGroup }

/-- An order leaves the list, and the consecutive-timeout count rises, to 3 at most (R96, R97). -/
def Link.timeOut (o : Order) (l : Link) : Link := { orders := l.orders.erase o, timeouts := satInc 3 l.timeouts }

/-- LINK_LOSS where a timeout brings the count from 2 to 3 (R97). -/
def Part.claimLoss (p : Panel) (o : Order) (before : Nat) (b : Part) : Part :=
  if before = 2 then b.claim (Bank.ofPanel p) (lossClaim p o) else b

/-- The timeout of one order (R96, R97). -/
def Part.timeoutOrder (p : Panel) (o : Order) (b : Part) : Part :=
  let handle := (b.engine p).plan.bind (Plan.causeHandle o.slot)
  (((b.modLink p (Link.timeOut o)).setOutcome p o.slot .timedOut).claim (Bank.ofPanel p)
    (timeoutClaim p handle o)).claimLoss p o (b.link p).timeouts

/-- The orders that time out at the boundary that ends slot j: those issued before it (R96). -/
def Link.overdue (j : Nat) (l : Link) : List Order := l.orders.filter fun o => decide (o.slot < j)

/-- The panel link takes the end of the panel's slot (R53, R96). -/
def Part.linkEndOfSlot (p : Panel) (b : Part) : Part :=
  match (b.engine p).slot with
  | none => b
  | some j => ((b.link p).overdue j).foldl (fun b o => b.timeoutOrder p o) b

/-! ### The start of a slot (R53, R60, R92, R134) -/

/-- The message of an order (R88). -/
def OrderKind.message (g : Nat) : OrderKind → LinkMessage
  | .drive => .drive g
  | .fallback => .fallback g

/-- An order is sent and enters the list (R92). -/
def Part.issue (p : Panel) (kind : OrderKind) (g slot : Nat) (b : Part) : Part :=
  (b.send p (kind.message g)).modLink p fun l =>
    { l with orders := l.orders ++ [{ rowGroup := g, kind := kind, slot := slot }] }

/-- The split run's first slot M, where the plan has a GUARD at M − 1 (R72, R77). -/
def Plan.splitStart (pl : Plan) : Option Nat :=
  let m := pl.entries.length / 2
  if (pl.entries[m - 1]?.map Entry.kind) = some .guard then some m else none

/-- The outcome of the shielded order of the sense run that holds a slot (R72, R134). -/
def Plan.shielded (slot : Nat) (pl : Plan) : Option EntryOutcome :=
  match pl.splitStart with
  | some m => if m ≤ slot then pl.orderOutcomeAt (m - 2) else pl.carried
  | none => pl.carried

/-- A burst starts in a slot: SENSE is sent, and the burst is judged (R134). -/
def Part.startBurst (p : Panel) (pl : Plan) (row slot : Nat) (b : Part) : Part :=
  (b.send p (.sense row)).modTouch fun t =>
    { t with burst := some { row := row, slot := slot, disturbed := pl.shielded slot == some .timedOut,
                             lost := t.frame.isNone } }

/-- The entry of the slot that begins is carried out by its kind (R53, R70). -/
def Part.carryOut (p : Panel) (slot : Nat) (b : Part) : Part :=
  match (b.engine p).plan with
  | none => b
  | some pl =>
    match pl.entries[slot]?.map Entry.kind with
    | none => b
    | some (.drive g _) => (b.issue p .drive g slot).captures p slot
    | some (.fallback g _) => b.issue p .fallback g slot
    | some (.sense row) => b.startBurst p pl row slot
    | some .guard => b.setOutcome p slot .done
    | some .idle => b.setOutcome p slot .done
    | some .closing => b.setOutcome p slot .done

/-- The slot counter and the backlight output at the start of a slot (R53, R60). -/
def Engine.enterSlot (j : Nat) (e : Engine) : Engine :=
  { e with slot := some j, output := levelAt e.cfg.blPeriod e.duty j }

/-- A slot begins (R53). -/
def Part.startSlot (p : Panel) (j : Nat) (b : Part) : Part := (b.modEngine p (Engine.enterSlot j)).carryOut p j

/-! ### The frame turn (R54 to R57) and the slot boundary (R53) -/

/-- The beginning of a turn: the frame number, then step 1 (R55, R56). -/
def Engine.beginTurn (e : Engine) : Engine := { e with frame := e.frame + 1, duty := e.stagedDuty }

/-- Step 3, on the centre panel only (R56). -/
def Part.rescan (p : Panel) (b : Part) : Part :=
  match p with
  | .cluster => b
  | .centre => b.recomputeScanSet

/-- A frame turn, `first` at the first turn of a run (R56, R57). -/
def Part.frameTurn (p : Panel) (first : Bool) (b : Part) : Part :=
  ((((b.modEngine p Engine.beginTurn).turnClaim p first).rescan p).buildPlan p).startSlot p 0

/-- No burst runs. -/
def Touch.stopBurst (t : Touch) : Touch := { t with burst := none }

/-- A burst still running at the centre panel's boundary has no sense complete (R135). -/
def Part.dropBurst (p : Panel) (b : Part) : Part :=
  match p with
  | .cluster => b
  | .centre => b.modTouch Touch.stopBurst

/-- The boundary that ends slot j of a RUNNING panel: the link takes the end of the slot, and the next slot begins,
or the turn is taken with every completion of the frame credited first (R53, R54, R103). -/
def Part.endSlot (p : Panel) (j : Nat) (b : Part) : Part :=
  let b := (b.dropBurst p).linkEndOfSlot p
  if j + 1 < (b.engine p).cfg.slots then b.startSlot p (j + 1) else (b.creditAll p).frameTurn p false

/-- A slot boundary; with the counter stopped, no boundary occurs (R53). -/
def Part.slotBoundary (p : Panel) (b : Part) : Part :=
  match (b.engine p).state, (b.engine p).slot with
  | .running, some j => b.endSlot p j
  | _, _ => b

/-- The panel link's part of a slot boundary alone (R96). -/
def Part.orderTimeout (p : Panel) (b : Part) : Part :=
  if (b.engine p).state = .running then b.linkEndOfSlot p else b

end Sys2Proof.Machine
end

