-- ==== Sys2Proof/Machine/Clock.lean ====
section
/-! DEFINITION. What passes while no command waits: the start limit timers count their slot periods down (R47, R64).
DESIGN CHOICE, log 4. -/

namespace Sys2Proof.Machine

/-- A start limit timer one slot period on; a stopped one stays stopped, one that has run out stays at 0 (R47, R49). -/
def Engine.tick (e : Engine) : Engine := { e with startLeft := e.startLeft.map fun n => n - 1 }

/-- An idle step: both timers that run count one slot period, and nothing is sent. -/
def Part.idle (b : Part) : Part := { b with engines := b.engines.map Engine.tick, out := [] }

def State.idle (s : State) : State := { s with part := s.part.idle }

end Sys2Proof.Machine
end

