-- ==== Sys2Proof/Machine/ContractRequests.lean ====
section
/-! DEFINITION. The requests the contract manager owns: OPEN, AMEND, SUSPEND, RESUME, RETIRE, LOOKUP, FIND, LIST
(Chapter 1, Chapter 2) and UPDATE (R105). -/

namespace Sys2Proof.Machine

/-! ### The handle check (R3, R4, R26) -/

/-- The named record is read, and verified, where the handle names one (R3, R4, R26). -/
def Part.readHandle (h : Nat) (b : Part) : Part := if h < 16384 then b.verify .request (h % 64) else b

/-- Step 1 of R4 passes: the handle names a record that is not FREE and bears its generation. -/
def Part.honours (h : Nat) (b : Part) : Bool :=
  decide (h < 16384) && (b.record (h % 64)).state != .free && (b.record (h % 64)).handle (h % 64) == h

/-- A request that bears a handle: step 1 of R4, then the request's own steps on the record number. -/
def Part.onHandle (ps : List Byte) (f : Nat → Part → Part × Reply) (b : Part) : Part × Reply :=
  let h := handleOf ps
  let b := b.readHandle h
  if b.honours h then f (h % 64) b else (b, Reply.bare .badHandle)

/-- A contract is owned by a port. -/
def Record.ownedBy (r : Record) (p : Port) : Bool := r.owner == p.bits

/-- A TELLTALE class asked for by a display port (R8). -/
def Part.lacksTelltale (p : Port) (c : ContractClass) (b : Part) : Bool := c == .telltale && b.role p == .display

/-! ### OPEN (R9, R10, R36) -/

/-- The lowest-numbered FREE record (R9). -/
def freeRecord (table : List Record) : Option Nat := table.findIdx? fun r => r.state == .free

/-- The record of a new contract (R10); the generation stands. -/
def Record.opened (p : Port) (a : OpenArgs) (r : Record) : Record :=
  { Record.freeWith r.generation with
    state := .staged, owner := p.bits, feeder := a.feeder.bits, panel := a.panel, params := a.params,
    zoneState := zoneStateFor a.params.zone }

/-- Checks 4 to 6 of an OPEN on a FREE record, then its admission (R36, R10). -/
def Part.admitOpen (p : Port) (n : Nat) (a : OpenArgs) (b : Part) : Part × Reply :=
  let r := (b.record n).opened p a
  let table := b.table.set n r
  match admissionObjection a.panel (b.engine a.panel).cfg.slots n table with
  | some o => (b, o.reply table)
  | none =>
    (((b.setRecord n r).emptyCandidateIf a.params.zone.isSome n).contractNotice n r (some p),
      { status := .staged, payload := byte2 (r.handle n) })

/-- OPEN, in the order of R36. -/
def Part.open (p : Port) (ps : List Byte) (b : Part) : Part × Reply :=
  match openArgs ps with
  | none => (b, Reply.bare .badArg)
  | some a =>
    if b.lacksTelltale p a.params.cls then (b, Reply.bare .noAuthority)
    else
      let b := b.verifyAll .request
      match freeRecord b.table with
      | none => (b, Reply.bare .noRoom)
      | some n => b.admitOpen p n a

/-! ### AMEND (R11 to R13, R37) -/

/-- The states and classes that refuse an AMEND (R11). -/
def Record.refusesAmend (classByte : Nat) (r : Record) : Bool :=
  r.state == .retiring ||
    (r.state == .stale && classByte != r.params.cls.rank && (classByte == 0 || r.params.cls == .telltale))

/-- The record after an admitted AMEND: a STAGED contract takes it at once, any other holds it staged (R12, R13). -/
def Record.amended (a : Params) (r : Record) : Record :=
  if r.state = .staged then r.withParams a else { r with stagedAmendment := some a }

/-- Checks 4 to 6 of an AMEND, then its admission (R37). A STAGED contract's new zone empties its press candidate
(R159). -/
def Part.admitAmend (n : Nat) (a : Params) (b : Part) : Part × Reply :=
  let r := b.record n
  let table := b.table.set n (r.amended a)
  match admissionObjection r.panel (b.engine r.panel).cfg.slots n table with
  | some o => (b, o.reply table)
  | none =>
    ((b.setRecord n (r.amended a)).emptyCandidateIf (r.state == .staged && r.params.zone != a.zone) n,
      Reply.bare .staged)

/-- AMEND after its handle check (R4, R11, R37). -/
def Part.amendAt (p : Port) (ps : List Byte) (n : Nat) (b : Part) : Part × Reply :=
  let r := b.record n
  if !r.ownedBy p then (b, Reply.bare .notOwner)
  else if r.refusesAmend (amendClassByte ps) then (b, Reply.bare .badState)
  else
    match amendParams r.panel ps with
    | none => (b, Reply.bare .badArg)
    | some a =>
      if b.lacksTelltale p a.cls then (b, Reply.bare .noAuthority) else (b.verifyAll .request).admitAmend n a

/-! ### SUSPEND, RESUME, RETIRE (R14 to R16) -/

/-- SUSPEND after its handle check (R14). -/
def Part.suspendAt (p : Port) (n : Nat) (b : Part) : Part × Reply :=
  let r := b.record n
  if !r.ownedBy p then (b, Reply.bare .notOwner)
  else if r.state = .live ∨ (r.state = .stale ∧ r.fallback = false) then
    (b.setRecord n { r with suspendMark := true, resumeMark := false }, Reply.bare .staged)
  else if r.state = .suspended then (b.setRecord n { r with resumeMark := false }, Reply.bare .ok)
  else (b, Reply.bare .badState)

/-- RESUME after its handle check (R15). -/
def Part.resumeAt (p : Port) (n : Nat) (b : Part) : Part × Reply :=
  let r := b.record n
  if !r.ownedBy p then (b, Reply.bare .notOwner)
  else if r.state = .suspended then (b.setRecord n { r with resumeMark := true }, Reply.bare .staged)
  else if r.state = .live ∨ r.state = .stale then (b.setRecord n { r with suspendMark := false }, Reply.bare .ok)
  else (b, Reply.bare .badState)

/-- RETIRE after its handle check (R16). -/
def Part.retireAt (p : Port) (n : Nat) (b : Part) : Part × Reply :=
  let r := b.record n
  if !(r.ownedBy p || b.role p == .safety) then (b, Reply.bare .notOwner)
  else if r.state = .retiring then (b, Reply.bare .badState)
  else if (r.state = .live ∨ r.state = .stale) ∧ (b.engine r.panel).state = .running then
    ((b.setRecord n r.retired).contractNotice n r (some p), Reply.bare .staged)
  else (b.freeContract n (some p), Reply.bare .ok)

/-! ### LOOKUP, FIND, LIST (R23 to R25) -/

/-- LOOKUP after its handle check (R23). -/
def Part.lookupAt (n : Nat) (b : Part) : Part × Reply :=
  (b, { status := .ok, payload := (b.record n).lookupBytes })

/-- The handles of the records of a table that meet a condition, ascending. -/
def handlesWhere (c : Record → Bool) (table : List Record) : List Nat :=
  ((numbered table).filter fun nr => c nr.2).map fun nr => nr.2.handle nr.1

/-- FIND (R24). -/
def Part.find (ps : List Byte) (b : Part) : Part × Reply :=
  match findArgs ps with
  | none => (b, Reply.bare .badArg)
  | some (p, d) =>
    let b := b.verifyAll .request
    (b, { status := .ok,
          payload := handleListBytes (handlesWhere
            (fun r => r.state != .free && r.panel == p && r.params.band.meets d) b.table) })

/-- LIST (R25). -/
def Part.list (ps : List Byte) (b : Part) : Part × Reply :=
  match listArgs ps with
  | none => (b, Reply.bare .badArg)
  | some p =>
    let b := b.verifyAll .request
    (b, { status := .ok,
          payload := handleListBytes (handlesWhere (fun r => r.state != .free && r.owner == p.bits) b.table) })

/-! ### UPDATE (R105) -/

/-- The pending update an UPDATE leaves: a pending one keeps its age, and only a contract with signature checking
keeps the signature (R105). -/
def Record.updated (tag : Tag) (sig : Option Signature) (r : Record) : Record :=
  { r with
    pending := some { tag := tag, sig := if r.params.checking then sig else none
                      age := (r.pending.map PendingUpdate.age).getD 0 } }

/-- UPDATE after its handle check (R105). -/
def Part.updateAt (p : Port) (ps : List Byte) (n : Nat) (b : Part) : Part × Reply :=
  let r := b.record n
  if r.feeder ≠ p.bits then (b, Reply.bare .notFeeder)
  else if r.state = .retiring then (b, Reply.bare .badState)
  else
    match updateArgs ps with
    | none => (b, Reply.bare .badArg)
    | some (tag, sig) =>
      if r.params.checking = true ∧ sig = none then (b, Reply.bare .badArg)
      else (b.setRecord n (r.updated tag sig), { status := .ok, payload := byte1 r.pending.isSome.toNat })

/-! ### Meanings -/

/-- OPEN (R36, R10). -/
def execOpen (p : Port) (s : State) : Host.Outcome State Fault Refusal :=
  s.take (Part.serve .openContract p fun ps b => b.open p ps)

/-- AMEND (R37, R12, R13). -/
def execAmend (p : Port) (s : State) : Host.Outcome State Fault Refusal :=
  s.take (Part.serve .amend p fun ps b => b.onHandle ps (Part.amendAt p ps))

/-- SUSPEND (R14). -/
def execSuspend (p : Port) (s : State) : Host.Outcome State Fault Refusal :=
  s.take (Part.serve .suspend p fun ps b => b.onHandle ps (Part.suspendAt p))

/-- RESUME (R15). -/
def execResume (p : Port) (s : State) : Host.Outcome State Fault Refusal :=
  s.take (Part.serve .resume p fun ps b => b.onHandle ps (Part.resumeAt p))

/-- RETIRE (R16). -/
def execRetire (p : Port) (s : State) : Host.Outcome State Fault Refusal :=
  s.take (Part.serve .retire p fun ps b => b.onHandle ps (Part.retireAt p))

/-- LOOKUP (R23). -/
def execLookup (p : Port) (s : State) : Host.Outcome State Fault Refusal :=
  s.take (Part.serve .lookup p fun ps b => b.onHandle ps Part.lookupAt)

/-- FIND (R24). -/
def execFind (p : Port) (s : State) : Host.Outcome State Fault Refusal :=
  s.take (Part.serve .find p Part.find)

/-- LIST (R25). -/
def execList (p : Port) (s : State) : Host.Outcome State Fault Refusal :=
  s.take (Part.serve .list p Part.list)

/-- UPDATE (R105). -/
def execUpdate (p : Port) (s : State) : Host.Outcome State Fault Refusal :=
  s.take (Part.serve .update p fun ps b => b.onHandle ps (Part.updateAt p ps))

end Sys2Proof.Machine
end

