-- ==== Sys2Proof/Machine/Events.lean ====
section
/-! DEFINITION. The commands that are no transaction and no request: the slot clock and the start limit (Chapter 3),
the messages of the timing controllers (Chapter 5), and the events handed from block to block. -/

namespace Sys2Proof.Machine

/-- The claim of a start limit that ran out (R49, R166). -/
def startFailClaim (p : Panel) : Claim :=
  { code := .startFail, cls := .contained, scope := .panel, panel := some p, handle := none, detail := 0 }

/-- The start limit runs out while STARTING: teardown into DOWN, then START_FAIL (R49). In any other state the timer
is stopped and no expiry occurs (R48). -/
def Part.expireStart (p : Panel) (b : Part) : Part :=
  if (b.engine p).state = .starting then (b.teardown p .down).claim (Bank.ofPanel p) (startFailClaim p) else b

/-- READY while STARTING: the timer stops, the panel is RUNNING, and the first turn of the run is taken; completions
handed on before a teardown are credited before its claim (R48, R57, R103). In any other state it is discarded
(R100). -/
def Part.takeReady (p : Panel) (b : Part) : Part :=
  if (b.engine p).state = .starting then
    (((b.creditAll p).modEngine p fun e => { e with startLeft := none }).enterState p .running).frameTurn p true
  else b

/-- The list without a completed order, and the count cleared (R93). -/
def Link.complete (o : Order) (l : Link) : Link := { orders := l.orders.erase o, timeouts := 0 }

/-- A completion handed on (R103). -/
def CreditQueue.push (o : Order) (sig : Signature) (q : CreditQueue) : CreditQueue :=
  { q with
    completions := q.completions ++ [{ rowGroup := o.rowGroup, sig := sig, kind := o.kind, slot := o.slot }] }

/-- An order completed by its DONE (R93). -/
def Part.completeOrder (p : Panel) (o : Order) (sig : Signature) (b : Part) : Part :=
  ((b.modLink p (Link.complete o)).setOutcome p o.slot .done).modCredit p (CreditQueue.push o sig)

/-- The order a DONE matches, by row group alone (R93); none while the panel is not RUNNING (R89). -/
def Part.matchDone (p : Panel) (g : Nat) (b : Part) : Option Order :=
  if (b.engine p).state = .running then (b.link p).orders.find? fun o => o.rowGroup == g else none

/-- A DONE completes the order it matches, or is discarded (R93, R94). -/
def Part.takeDone (p : Panel) (g : Nat) (sig : Signature) (b : Part) : Part :=
  match b.matchDone p g with
  | some o => b.completeOrder p o sig
  | none => b

/-- The claim of a FAULT message (R99). -/
def panelFaultClaim (p : Panel) (code : Byte) : Claim :=
  { code := .panelFault, cls := .critical, scope := .panel, panel := some p, handle := none, detail := code }

/-- A halt taken: RUNNING and STARTING are torn down into HALTED, DOWN and HALTED stand (R51). The halt is no longer
to be taken. -/
def Part.takeHalt (p : Panel) (b : Part) : Part :=
  let b := b.modEngine p fun e => { e with haltHanded := false }
  if (b.engine p).state.active then b.teardown p .halted else b

/-! ### Meanings -/

/-- SLOT_BOUNDARY (R53, R54). -/
def execSlotBoundary (p : Panel) (s : State) : Host.Outcome State Fault Refusal := s.take (Part.slotBoundary p)

/-- ORDER_TIMEOUT (R96). -/
def execOrderTimeout (p : Panel) (s : State) : Host.Outcome State Fault Refusal := s.take (Part.orderTimeout p)

/-- START_LIMIT_EXPIRY (R49). -/
def execStartLimitExpiry (p : Panel) (s : State) : Host.Outcome State Fault Refusal := s.take (Part.expireStart p)

/-- READY (R48, R100). -/
def execReady (p : Panel) (s : State) : Host.Outcome State Fault Refusal := s.take (Part.takeReady p)

/-- DONE (R93, R94). -/
def execDone (p : Panel) (g : Nat) (sig : Signature) (s : State) : Host.Outcome State Fault Refusal :=
  s.take (Part.takeDone p g sig)

/-- FAULT (R99). -/
def execFault (p : Panel) (code : Byte) (s : State) : Host.Outcome State Fault Refusal :=
  s.take (Part.claim (Bank.ofPanel p) (panelFaultClaim p code))

/-- COMPLETION_CREDIT (R110). -/
def execCompletionCredit (p : Panel) (s : State) : Host.Outcome State Fault Refusal := s.take (Part.creditOldest p)

/-- SENSE_COMPLETE (R135). -/
def execSenseComplete (counts : Vector RawCount 24) (s : State) : Host.Outcome State Fault Refusal :=
  s.take (Part.senseComplete (counts.toList.map BitVec.toNat))

/-- HALT (R51). -/
def execHalt (p : Panel) (s : State) : Host.Outcome State Fault Refusal := s.take (Part.takeHalt p)

end Sys2Proof.Machine
end

