-- ==== Sys2Proof/Machine/FaultRequests.lean ====
section
/-! DEFINITION. The requests the fault monitor owns: FAULT_READ, FAULT_CLEAR, FAULT_CONTROL, ACK_CRITICAL, INJECT
(Chapter 9). -/

namespace Sys2Proof.Machine

/-- FAULT_READ (R177). -/
def Part.faultRead (ps : List Byte) (b : Part) : Part × Reply :=
  match bankArg ps with
  | none => (b, Reply.bare .badArg)
  | some k => (b, { status := .ok, payload := (b.bank k).readBytes b.faults.injectEnable })

/-- A bank with its record slot emptied (R178). -/
def FaultBank.cleared (k : FaultBank) : FaultBank := { k with record := none }

/-- FAULT_CLEAR (R178). -/
def Part.faultClear (ps : List Byte) (b : Part) : Part × Reply :=
  match bankArg ps with
  | none => (b, Reply.bare .badArg)
  | some k => (b.setBank k (b.bank k).cleared, Reply.bare .ok)

/-- A bank's controls replaced; a count that the new threshold does not exceed is set to 0 (R179). -/
def FaultBank.controlled (a : FaultControlArgs) (k : FaultBank) : FaultBank :=
  { k with
    enabled := a.enable, mask := a.mask, threshold := a.threshold
    count := if a.threshold ≤ k.count then 0 else k.count }

/-- FAULT_CONTROL; the inject enable is the monitor's, whichever bank is named (R179). -/
def Part.faultControl (ps : List Byte) (b : Part) : Part × Reply :=
  match faultControlArgs ps with
  | none => (b, Reply.bare .badArg)
  | some a =>
    ({ b with faults := { banks := b.faults.banks.set a.bank ((b.bank a.bank).controlled a),
                          injectEnable := a.injectEnable } },
      Reply.bare .ok)

/-- ACK_CRITICAL (R176). -/
def Part.ackCritical (ps : List Byte) (b : Part) : Part × Reply :=
  match panelArg ps with
  | none => (b, Reply.bare .badArg)
  | some p =>
    if (b.engine p).critical then (b.modEngine p fun e => { e with critical := false }, Reply.bare .ok)
    else (b, Reply.bare .nothingPending)

/-- INJECT: BAD_ARG, then NO_AUTHORITY, then a claim that enters at step 2 and is not escalated (R180). -/
def Part.inject (ps : List Byte) (b : Part) : Part × Reply :=
  match injectArgs ps with
  | none => (b, Reply.bare .badArg)
  | some (k, c) =>
    if b.faults.injectEnable then (b.claimAs true k c, Reply.bare .ok) else (b, Reply.bare .noAuthority)

/-! ### Meanings -/

/-- FAULT_READ (R177). -/
def execFaultRead (p : Port) (s : State) : Host.Outcome State Fault Refusal :=
  s.take (Part.serve .faultRead p Part.faultRead)

/-- FAULT_CLEAR (R178). -/
def execFaultClear (p : Port) (s : State) : Host.Outcome State Fault Refusal :=
  s.take (Part.serve .faultClear p Part.faultClear)

/-- FAULT_CONTROL (R179). -/
def execFaultControl (p : Port) (s : State) : Host.Outcome State Fault Refusal :=
  s.take (Part.serve .faultControl p Part.faultControl)

/-- ACK_CRITICAL (R176). -/
def execAckCritical (p : Port) (s : State) : Host.Outcome State Fault Refusal :=
  s.take (Part.serve .ackCritical p Part.ackCritical)

/-- INJECT (R180). -/
def execInject (p : Port) (s : State) : Host.Outcome State Fault Refusal := s.take (Part.serve .inject p Part.inject)

end Sys2Proof.Machine
end

