-- ==== Sys2Proof/Machine/PanelRequests.lean ====
section
/-! DEFINITION. The requests a timeline engine owns: PANEL_UP, PANEL_DOWN, PANEL_CONFIG, PANEL_STATUS, BACKLIGHT
(Chapter 3). -/

namespace Sys2Proof.Machine

/-- PANEL_UP of a panel that is DOWN or HALTED: START, the timer at 64 slot periods, STARTING (R47). -/
def Part.bringUp (p : Panel) (b : Part) : Part :=
  ((b.send p .start).modEngine p fun e => { e with startLeft := some Config.startLimit }).enterState p .starting

/-- PANEL_UP (R47). -/
def Part.panelUp (ps : List Byte) (b : Part) : Part × Reply :=
  match panelArg ps with
  | none => (b, Reply.bare .badArg)
  | some p =>
    if (b.engine p).state.active then (b, Reply.bare .badState) else (b.bringUp p, Reply.bare .ok)

/-- PANEL_DOWN by state (R50). -/
def Part.takeDown (p : Panel) (b : Part) : Part :=
  match (b.engine p).state with
  | .running => b.teardown p .down
  | .starting => b.teardown p .down
  | .halted => (b.applyStop p).enterState p .down
  | .down => b

/-- PANEL_DOWN (R50). -/
def Part.panelDown (ps : List Byte) (b : Part) : Part × Reply :=
  match panelArg ps with
  | none => (b, Reply.bare .badArg)
  | some p => (b.takeDown p, Reply.bare .ok)

/-- An accepted PANEL_CONFIG: all five fields at once, and both duties clamped to the new backlight period (R44). -/
def Engine.configure (c : PanelConfig) (e : Engine) : Engine :=
  { e with cfg := c, duty := min e.duty c.blPeriod, stagedDuty := min e.stagedDuty c.blPeriod }

/-- PANEL_CONFIG, in the order of R44; the contract manager reads the table for its judgement (R41, R26). -/
def Part.panelConfig (ps : List Byte) (b : Part) : Part × Reply :=
  match panelConfigArgs ps with
  | none => (b, Reply.bare .badArg)
  | some (p, c) =>
    if (b.engine p).state ≠ .down then (b, Reply.bare .busy)
    else
      let b := b.verifyAll .request
      match configObjection p c.slots b.table with
      | some o => (b, o.reply b.table)
      | none => (b.modEngine p (Engine.configure c), Reply.bare .ok)

/-- PANEL_STATUS (R64). -/
def Part.panelStatus (ps : List Byte) (b : Part) : Part × Reply :=
  match panelArg ps with
  | none => (b, Reply.bare .badArg)
  | some p => (b, { status := .ok, payload := (b.engine p).statusBytes (b.link p) })

/-- BACKLIGHT of a panel whose period admits the duty: the staged duty, current too while DOWN or HALTED (R62). -/
def Engine.takeDuty (duty : Nat) (e : Engine) : Engine :=
  if e.state.active then { e with stagedDuty := duty } else { e with stagedDuty := duty, duty := duty }

/-- BACKLIGHT (R62). -/
def Part.backlight (ps : List Byte) (b : Part) : Part × Reply :=
  match backlightArgs ps with
  | none => (b, Reply.bare .badArg)
  | some (p, d) =>
    if (b.engine p).cfg.blPeriod < d then (b, Reply.bare .badArg)
    else
      (b.modEngine p (Engine.takeDuty d), Reply.bare (if (b.engine p).state.active then .staged else .ok))

/-! ### Meanings -/

/-- PANEL_UP (R47). -/
def execPanelUp (p : Port) (s : State) : Host.Outcome State Fault Refusal := s.take (Part.serve .panelUp p Part.panelUp)

/-- PANEL_DOWN (R50). -/
def execPanelDown (p : Port) (s : State) : Host.Outcome State Fault Refusal :=
  s.take (Part.serve .panelDown p Part.panelDown)

/-- PANEL_CONFIG (R44). -/
def execPanelConfig (p : Port) (s : State) : Host.Outcome State Fault Refusal :=
  s.take (Part.serve .panelConfig p Part.panelConfig)

/-- PANEL_STATUS (R64). -/
def execPanelStatus (p : Port) (s : State) : Host.Outcome State Fault Refusal :=
  s.take (Part.serve .panelStatus p Part.panelStatus)

/-- BACKLIGHT (R62). -/
def execBacklight (p : Port) (s : State) : Host.Outcome State Fault Refusal :=
  s.take (Part.serve .backlight p Part.backlight)

end Sys2Proof.Machine
end

