-- ==== Sys2Proof/Machine/PortRequests.lean ====
section
/-! DEFINITION. The requests the port itself owns, IDENTIFY, NOTICES and SET_ATTENTION, and WARM_RESET, which the part
as a whole owns (Chapter 10). -/

namespace Sys2Proof.Machine

/-- IDENTIFY (R192). -/
def Part.identify (p : Port) (b : Part) : Part × Reply :=
  (b, { status := .ok,
        payload := byte2 Config.vendorCode ++ byte2 Config.partCode ++ byte1 Config.revision ++ byte1 b.strap.num ++
          byte1 p.num })

/-- NOTICES: the set is copied into the answer and emptied (R191). -/
def Part.notices (p : Port) (b : Part) : Part × Reply :=
  (b.modPort p fun q => { q with noticeSet := NoticeSet.empty },
    { status := .ok, payload := (b.port p).noticeSet.bytes })

/-- SET_ATTENTION (R190). -/
def Part.setAttention (p : Port) (ps : List Byte) (b : Part) : Part × Reply :=
  match attentionArgs ps with
  | none => (b, Reply.bare .badArg)
  | some m => (b.modPort p fun q => { q with mask := m }, Reply.bare .ok)

/-! ### Warm reset (R28, R66, R101, R146, R193) -/

/-- Warm reset of one panel: a RUNNING or STARTING panel is torn down and its staged duty becomes current; any other
goes DOWN with one STOP (R66). The table is not read (R181). -/
def Part.warmResetPanel (p : Panel) (b : Part) : Part :=
  if (b.engine p).state.active then
    (((b.stopPanel p .down).freeRetiring p).suspendTouch p).modEngine p fun e => { e with duty := e.stagedDuty }
  else
    ((b.applyStop p).modLink p fun _ => Link.reset).modEngine p fun e =>
      { e with state := .down, critical := false }

/-- Every record that is not FREE becomes FREE, without notice (R28). -/
def freeAll (table : List Record) : List Record :=
  table.map fun r => if r.state = .free then r else r.freed

/-- The notice set a warm reset leaves: a PANEL notice naming both panels (R193). -/
def NoticeSet.afterWarmReset : NoticeSet := (NoticeSet.empty.add (.panel .cluster)).add (.panel .centre)

/-- The effects of warm reset on every block, and then on every notice set (R193). -/
def Part.warmReset (b : Part) : Part :=
  let b := (b.warmResetPanel .cluster).warmResetPanel .centre
  let b := b.modTouch Touch.warmReset
  { b with
    table := freeAll b.table
    ports := b.ports.mapEach fun _ q => { q with noticeSet := NoticeSet.afterWarmReset } }

/-! ### Meanings -/

/-- IDENTIFY (R192). -/
def execIdentify (p : Port) (s : State) : Host.Outcome State Fault Refusal :=
  s.take (Part.serve .identify p fun _ b => b.identify p)

/-- NOTICES (R191). -/
def execNotices (p : Port) (s : State) : Host.Outcome State Fault Refusal :=
  s.take (Part.serve .notices p fun _ b => b.notices p)

/-- SET_ATTENTION (R190). -/
def execSetAttention (p : Port) (s : State) : Host.Outcome State Fault Refusal :=
  s.take (Part.serve .setAttention p fun ps b => b.setAttention p ps)

/-- WARM_RESET (R193). -/
def execWarmReset (p : Port) (s : State) : Host.Outcome State Fault Refusal :=
  s.take (Part.serve .warmReset p fun _ b => (b.warmReset, Reply.bare .ok))

end Sys2Proof.Machine
end

