-- ==== Sys2Proof/Machine/Ports.lean ====
section
/-! DEFINITION. The client ports (Chapter 10): how a request transaction is judged and answered or handed on, what an
answer transaction returns, and the commands COLD_RESET, REQUEST_TRANSACTION, ANSWER_TRANSACTION and
UNKNOWN_KIND_TRANSACTION. -/

namespace Sys2Proof.Machine

/-! ### Claims of the ports (R166, R182 to R184) -/

def frameCheckClaim (detail : Byte) : Claim :=
  { code := .frameCheck, cls := .corrected, scope := .part, panel := none, handle := none, detail := detail }

def overrunClaim (detail : Byte) : Claim :=
  { code := .portOverrun, cls := .corrected, scope := .part, panel := none, handle := none, detail := detail }

/-- The first byte of a frame, or 0 where the transaction ended with its kind byte (R183, R184). -/
def firstByte (frame : List Byte) : Byte := frame.headD 0

/-! ### Judging a frame (R183) -/

/-- The framing check: the frame is as long as its length byte declares, at most 64 bytes, and sums to 0 (R183,
R195). -/
def wellFramed (frame : List Byte) : Bool :=
  match frame with
  | _ :: len :: _ =>
    decide (frame.length = len.toNat + 3) && decide (frame.length ≤ 64) && byteSum frame == 0
  | _ => false

/-- The parameter bytes of a frame that passes framing (R195). -/
def frameParams (frame : List Byte) : List Byte := (frame.drop 2).dropLast

/-- What the port makes of a frame: an answer of its own, or a request for its owner (R183). -/
inductive FrameVerdict where
  | answer (status : Status)
  | hand (request : Request)
  deriving DecidableEq, Repr

/-- Checks 2 to 4 on a frame that passes framing (R183). -/
def judgeRequest (role : Role) (code : Byte) (params : List Byte) : FrameVerdict :=
  match RequestName.ofCode? code with
  | none => .answer .unknownRequest
  | some name =>
    if params.length ≠ name.length then .answer .badArg
    else if name.safetyOnly = true ∧ role = .display then .answer .noAuthority
    else .hand { name := name, params := params }

/-- The port's judgement of a request frame, checks 1 to 4 in order (R183). -/
def judgeFrame (role : Role) (frame : List Byte) : FrameVerdict :=
  if wellFramed frame then judgeRequest role (firstByte frame) (frameParams frame) else .answer .badFrame

/-- An answer the port makes itself; it carries the dropped flag clear (R183, R185). -/
def ClientPort.answerSelf (st : Status) (q : ClientPort) : ClientPort :=
  { q with state := .answered, inHand := none, held := some { status := st, dropped := false, payload := [] } }

/-- A request handed to its owner (R183). -/
def ClientPort.hand (rq : Request) (q : ClientPort) : ClientPort :=
  { q with state := .working, inHand := some rq, held := none }

/-- A request transaction at a port that is IDLE or ANSWERED (R183). -/
def Part.acceptFrame (p : Port) (frame : List Byte) (b : Part) : Part :=
  match judgeFrame (b.role p) frame with
  | .hand rq => b.modPort p (ClientPort.hand rq)
  | .answer .badFrame =>
    (b.modPort p (ClientPort.answerSelf .badFrame)).claim .core (frameCheckClaim (firstByte frame))
  | .answer st => b.modPort p (ClientPort.answerSelf st)

/-- A request transaction at a port that is WORKING is refused whole (R184). -/
def Part.refuseFrame (p : Port) (frame : List Byte) (b : Part) : Part :=
  (b.modPort p fun q => { q with dropped := true }).claim .core (overrunClaim (firstByte frame))

/-! ### Transactions (R182 to R186, R195) -/

/-- The bytes a port sends in a transaction. -/
def Part.sendBytes (p : Port) (bs : List Byte) (b : Part) : Part := { b with out := b.out ++ [.bytes p bs] }

/-- A request transaction: fill bytes go out, and the frame is refused or judged by the port state (R183, R184,
R195). -/
def Part.requestTransaction (p : Port) (frame : List Byte) (b : Part) : Part :=
  let b := b.sendBytes p (fillBytes (frame.length + 1))
  if (b.port p).state = .working then b.refuseFrame p frame else b.acceptFrame p frame

/-- The answer a port returns, by its state (R186). -/
def ClientPort.answer (q : ClientPort) : Answer :=
  match q.state with
  | .idle => { status := .noRequest, dropped := false, payload := [] }
  | .working => { status := .notReady, dropped := q.dropped, payload := [] }
  | .answered => q.held.getD { status := .noRequest, dropped := false, payload := [] }

/-- An answer transaction returns a frame and changes nothing (R186). -/
def Part.answerTransaction (p : Port) (clocked : Nat) (b : Part) : Part :=
  b.sendBytes p (clockOut (b.port p).answer.frame clocked)

/-- A transaction of neither kind: fill bytes and FRAME_CHECK with the first byte; without a byte, nothing (R182). A
first byte that does name a kind makes it a transaction of that kind (R195). -/
def Part.unknownTransaction (p : Port) (bytes : List Byte) (b : Part) : Part :=
  match bytes with
  | [] => b
  | k :: rest =>
    if k = Config.requestKind then b.requestTransaction p rest
    else if k = Config.answerKind then b.answerTransaction p rest.length
    else (b.sendBytes p (fillBytes bytes.length)).claim .core (frameCheckClaim k)

/-- The safety port of a strap reading: 3 is taken as 2, and unconnected pins read 2 (R187). -/
def strapPort : Option (BitVec 2) → Port
  | none => .cp2
  | some v =>
    match v.toNat with
    | 0 => .cp0
    | 1 => .cp1
    | _ => .cp2

/-! ### Meanings -/

/-- COLD_RESET (R65, R187): every block at its cold-reset state. -/
def execColdReset (strap : Option (BitVec 2)) (s : State) : Host.Outcome State Fault Refusal :=
  s.take fun _ => Part.reset (strapPort strap)

/-- REQUEST_TRANSACTION (R183, R184). -/
def execRequestTransaction (p : Port) (frame : List Byte) (s : State) : Host.Outcome State Fault Refusal :=
  s.take fun b => b.requestTransaction p frame

/-- ANSWER_TRANSACTION (R186). -/
def execAnswerTransaction (p : Port) (clocked : Nat) (s : State) : Host.Outcome State Fault Refusal :=
  s.take fun b => b.answerTransaction p clocked

/-- UNKNOWN_KIND_TRANSACTION (R182). -/
def execUnknownKindTransaction (p : Port) (bytes : List Byte) (s : State) : Host.Outcome State Fault Refusal :=
  s.take fun b => b.unknownTransaction p bytes

end Sys2Proof.Machine
end

