-- ==== Sys2Proof/Machine/TouchRequests.lean ====
section
/-! DEFINITION. The requests the touch sense engine owns: TOUCH_CONFIG, RECALIBRATE, CONTACTS (Chapters 7 and 8). -/

namespace Sys2Proof.Machine

/-- TOUCH_CONFIG (R141). -/
def Part.touchConfig (ps : List Byte) (b : Part) : Part × Reply :=
  match touchConfigArgs ps with
  | none => (b, Reply.bare .badArg)
  | some c =>
    (b.modTouch fun t => { t with cfg := c }, Reply.bare (if b.touch.state = .scanning then .staged else .ok))

/-- The contract table is read for the authority of a RECALIBRATE that a display port sends (R142, R26). -/
def Part.readZones (p : Port) (b : Part) : Part := if b.role p = .safety then b else b.verifyAll .request

/-- The safety port, and any port that owns a zone contract, may recalibrate (R142). -/
def Part.mayRecalibrate (p : Port) (b : Part) : Bool := b.role p == .safety || ownsZone b.table p

/-- RECALIBRATE (R142). -/
def Part.recalibrate (p : Port) (b : Part) : Part × Reply :=
  let b := b.readZones p
  if b.mayRecalibrate p then (b.modTouch Touch.recalibrate, Reply.bare .ok) else (b, Reply.bare .noAuthority)

/-- CONTACTS (R161). -/
def Part.contacts (b : Part) : Part × Reply := (b, { status := .ok, payload := b.touch.contactsBytes })

/-! ### Meanings -/

/-- TOUCH_CONFIG (R141). -/
def execTouchConfig (p : Port) (s : State) : Host.Outcome State Fault Refusal :=
  s.take (Part.serve .touchConfig p Part.touchConfig)

/-- RECALIBRATE (R142). -/
def execRecalibrate (p : Port) (s : State) : Host.Outcome State Fault Refusal :=
  s.take (Part.serve .recalibrate p fun _ b => b.recalibrate p)

/-- CONTACTS (R161). -/
def execContacts (p : Port) (s : State) : Host.Outcome State Fault Refusal :=
  s.take (Part.serve .contacts p fun _ b => b.contacts)

end Sys2Proof.Machine
end

