-- ==== Sys2Proof/Machine/Dispatch.lean ====
section
/-! DEFINITION. Dispatch: one arm for each command, each a direct call of its meaning. -/

namespace Sys2Proof.Machine

/-- The effect of a command on everything but the queue. -/
def exec (i : Instr) (s : State) : Host.Outcome State Fault Refusal :=
  match i with
  | .coldReset strap => Sys2Proof.Machine.execColdReset strap s
  | .requestTransaction p frame => Sys2Proof.Machine.execRequestTransaction p frame s
  | .answerTransaction p clocked => Sys2Proof.Machine.execAnswerTransaction p clocked s
  | .unknownKindTransaction p bytes => Sys2Proof.Machine.execUnknownKindTransaction p bytes s
  | .openContract p => Sys2Proof.Machine.execOpen p s
  | .amend p => Sys2Proof.Machine.execAmend p s
  | .suspend p => Sys2Proof.Machine.execSuspend p s
  | .resume p => Sys2Proof.Machine.execResume p s
  | .retire p => Sys2Proof.Machine.execRetire p s
  | .lookup p => Sys2Proof.Machine.execLookup p s
  | .find p => Sys2Proof.Machine.execFind p s
  | .list p => Sys2Proof.Machine.execList p s
  | .update p => Sys2Proof.Machine.execUpdate p s
  | .panelUp p => Sys2Proof.Machine.execPanelUp p s
  | .panelDown p => Sys2Proof.Machine.execPanelDown p s
  | .panelConfig p => Sys2Proof.Machine.execPanelConfig p s
  | .panelStatus p => Sys2Proof.Machine.execPanelStatus p s
  | .backlight p => Sys2Proof.Machine.execBacklight p s
  | .touchConfig p => Sys2Proof.Machine.execTouchConfig p s
  | .recalibrate p => Sys2Proof.Machine.execRecalibrate p s
  | .contacts p => Sys2Proof.Machine.execContacts p s
  | .faultRead p => Sys2Proof.Machine.execFaultRead p s
  | .faultClear p => Sys2Proof.Machine.execFaultClear p s
  | .faultControl p => Sys2Proof.Machine.execFaultControl p s
  | .ackCritical p => Sys2Proof.Machine.execAckCritical p s
  | .inject p => Sys2Proof.Machine.execInject p s
  | .identify p => Sys2Proof.Machine.execIdentify p s
  | .notices p => Sys2Proof.Machine.execNotices p s
  | .setAttention p => Sys2Proof.Machine.execSetAttention p s
  | .warmReset p => Sys2Proof.Machine.execWarmReset p s
  | .slotBoundary p => Sys2Proof.Machine.execSlotBoundary p s
  | .orderTimeout p => Sys2Proof.Machine.execOrderTimeout p s
  | .startLimitExpiry p => Sys2Proof.Machine.execStartLimitExpiry p s
  | .ready p => Sys2Proof.Machine.execReady p s
  | .done p g sig => Sys2Proof.Machine.execDone p g sig s
  | .fault p code => Sys2Proof.Machine.execFault p code s
  | .completionCredit p => Sys2Proof.Machine.execCompletionCredit p s
  | .senseComplete counts => Sys2Proof.Machine.execSenseComplete counts s
  | .halt p => Sys2Proof.Machine.execHalt p s

end Sys2Proof.Machine
end

