-- ==== Sys2Proof/Safety.lean ====
section
/-! DEFINITION. What a sound part is, in the terms the statements use: the laws of the rules that hold of every state
the part can reach, block by block, and a request standing in hand at a port. -/

namespace Sys2Proof.Machine

/-! ### Requests in hand -/

/-- The part as a command finds it: nothing sent yet. -/
def State.fresh (s : State) : Part := { s.part with out := [] }

/-- A port is WORKING on a request with given parameter bytes (R182, R183). -/
def Part.holds (b : Part) (p : Port) (name : RequestName) (ps : List Byte) : Bool :=
  (b.port p).state == .working && (b.port p).inHand == some { name := name, params := ps }

/-- A record whose check code agrees with its fields, that is not FREE and bears a handle (R3, R26). -/
def Part.bears (b : Part) (h : Nat) : Bool := b.honours h && (b.record (h % 64)).checkGood

/-- Every record of the table agrees with its check code (R26). -/
def Part.allGood (b : Part) : Bool := recordNumbers.all fun n => (b.record n).checkGood

/-- The row by which the owner of a request takes it from a port (R183). -/
def RequestName.row : RequestName → Port → Instr
  | .openContract, p => .openContract p
  | .amend, p => .amend p
  | .suspend, p => .suspend p
  | .resume, p => .resume p
  | .retire, p => .retire p
  | .lookup, p => .lookup p
  | .find, p => .find p
  | .list, p => .list p
  | .update, p => .update p
  | .panelUp, p => .panelUp p
  | .panelDown, p => .panelDown p
  | .panelConfig, p => .panelConfig p
  | .panelStatus, p => .panelStatus p
  | .backlight, p => .backlight p
  | .touchConfig, p => .touchConfig p
  | .recalibrate, p => .recalibrate p
  | .contacts, p => .contacts p
  | .faultRead, p => .faultRead p
  | .faultClear, p => .faultClear p
  | .faultControl, p => .faultControl p
  | .ackCritical, p => .ackCritical p
  | .inject, p => .inject p
  | .identify, p => .identify p
  | .notices, p => .notices p
  | .setAttention, p => .setAttention p
  | .warmReset, p => .warmReset p

/-- A request frame: request code, length, parameters, check byte (R195). -/
def requestFrame (code : Byte) (ps : List Byte) : List Byte := withCheck ([code, BitVec.ofNat 8 ps.length] ++ ps)

/-- The lowest-numbered FREE record (R1, R9). -/
def Part.firstFree (b : Part) (n : Nat) : Prop :=
  n < 64 ∧ (b.record n).state = .free ∧ ∀ m, m < n → (b.record m).state ≠ .free

/-! ### Teardown -/

/-- What a teardown of a panel makes of one record: a RETIRING contract of the panel is freed, and on the centre panel a
PRESSED zone is set to IDLE (R22, R162). -/
def Record.tornDown (q : Panel) (r : Record) : Record :=
  if r.panel = q ∧ r.state = .retiring then r.freed
  else if q = .centre ∧ r.isZoneContract = true ∧ ZoneState.isPressed r.zoneState = true then
    { r with zoneState := some .idle }
  else r

/-- A panel teardown, field by field: from a part whose records all agree with their check codes, into a state DOWN or
HALTED (R22, R46, R58, R101, R110, R143, R162). -/
structure TornDown (q : Panel) (st : PanelState) (b b' : Part) : Prop where
  engine : b'.engine q =
    { b.engine q with
      state := st, slot := none, startLeft := none, critical := false, plan := none
      output := if (b.engine q).cfg.policy = .hold then (b.engine q).output else false
      lastSummary := match (b.engine q).plan with
        | some pl => some (pl.abandon (b.link q).orders).summary
        | none => (b.engine q).lastSummary }
  link : b'.link q = { orders := [], timeouts := 0 }
  completions : (b'.credit q).completions = (b.credit q).completions
  placedList : (b'.credit q).keptPlaced = match (b.engine q).plan with
    | some pl => if (b.credit q).completions = [] then none else some pl.placed
    | none => (b.credit q).keptPlaced
  sent : b'.out = b.out ++ [.link q (.stop (decide ((b.engine q).cfg.policy = .blank)))]
  records : ∀ n, n < 64 → b'.record n = (b.record n).tornDown q
  touch : b'.touch = if q = .cluster then b.touch else
    { b.touch with
      state := .suspended, frame := none, burst := none, contacts := [], candidates := List.replicate 64 none }
  others : ∀ p, p ≠ q → b'.engine p = b.engine p ∧ b'.link p = b.link p ∧ b'.credit p = b.credit p
  faults : b'.faults = b.faults
  strap : b'.strap = b.strap
  ports : ∀ p, b'.port p = { b.port p with noticeSet := (b'.port p).noticeSet }
  panelNotice : ∀ p, (b'.port p).noticeSet.panel = (b.port p).noticeSet.panel ||| bitOf 2 q.num
  contractNotice : ∀ p n, n < 64 → (b'.port p).noticeSet.contract.getLsbD n =
    ((b.port p).noticeSet.contract.getLsbD n ||
      decide ((b.record n).panel = q ∧ (b.record n).state = .retiring ∧
        ((b.record n).owner = p.bits ∨ (b.record n).feeder = p.bits)))
  otherNotices : ∀ p, (b'.port p).noticeSet =
    { (b.port p).noticeSet with
      panel := (b'.port p).noticeSet.panel, contract := (b'.port p).noticeSet.contract }

/-! ### Parameter bytes (R9, R196) -/

/-- The bytes of the amendable parameters lie in the ranges of R9 for a panel, the two columns read from two bytes each:
the zone's are judged where bit 2 of the flags says that there is one, and bits 3 to 7 are unnamed (R196). -/
def amendableInRange (q : Panel) (first last cls per flags : Byte) (firstCol lastCol : Nat) (deb dv : Byte) : Prop :=
  first.toNat ≤ last.toNat ∧
  last.toNat ≤ (match q with
    | .cluster => 89
    | .centre => 149) ∧
  cls.toNat ≤ 3 ∧ 1 ≤ per.toNat ∧ flags.toNat ≤ 7 ∧ (cls.toNat = 0 → flags.getLsbD 0 = true) ∧
  (flags.getLsbD 2 = true →
    q = .centre ∧ firstCol ≤ lastCol ∧ lastCol ≤ 1919 ∧ 1 ≤ deb.toNat ∧ deb.toNat ≤ 7 ∧ 1 ≤ dv.toNat ∧ dv.toNat ≤ 8)

/-- The parameters that those bytes carry: L byte 0 is an absent L, the zone bytes are read where there is a zone
(R196, Table 11-4). -/
def Params.carriedBy (a : Params) (first last cls per lat flags : Byte) (firstCol lastCol : Nat) (deb dv : Byte) : Prop :=
  a.band = { first := first.toNat, last := last.toNat } ∧
  cls.toNat = (match a.cls with
    | .telltale => 0
    | .gauge => 1
    | .info => 2
    | .ambient => 3) ∧
  a.period = per.toNat ∧ a.latency = (if lat.toNat = 0 then none else some lat.toNat) ∧
  a.checking = flags.getLsbD 0 ∧ a.oneShot = flags.getLsbD 1 ∧
  a.zone = if flags.getLsbD 2 = true then
      some { firstCol := firstCol, lastCol := lastCol, debounce := deb.toNat, divisor := dv.toNat }
    else none

/-! ### The contract table -/

/-- The table has its 64 records at all times (R1). -/
def Part.TableSized (b : Part) : Prop := b.table.length = 64

/-- Every parameter choice of a panel's next-turn view keeps exclusivity, fit and budget under a slot count (R33 to
R35, R38). -/
def admitted (p : Panel) (slots : Nat) (table : List Record) : Prop :=
  ∀ v ∈ choicesOf (viewRecords p table), v.exclusive = true ∧ v.fits p slots = true ∧ v.withinBudget p slots = true

/-- A choice of parameters of a view passes checks 4 to 6 under a slot count (R36). -/
def View.passes (p : Panel) (slots : Nat) (v : View) : Prop :=
  v.exclusive = true ∧ v.fits p slots = true ∧ v.withinBudget p slots = true

/-- A choice of parameters of a view passes checks 5 and 6 under a slot count (R41). -/
def View.affords (p : Panel) (slots : Nat) (v : View) : Prop := v.fits p slots = true ∧ v.withinBudget p slots = true

/-- The first choice of a panel's next-turn view that fails what is asked of each, in the order of R38. -/
def firstFailing (asked : View → Prop) (p : Panel) (table : List Record) (v : View) : Prop :=
  ∃ before after, choicesOf (viewRecords p table) = before ++ v :: after ∧ (∀ u ∈ before, asked u) ∧ ¬asked v

/-- A contract of a view, other than the subject of a request, whose band shares a row group with the band of another
contract, one of the two TELLTALE (R34). -/
def View.standsAgainst (v : View) (subject m : Nat) : Prop :=
  m ≠ subject ∧ ∃ q m' q', (m, q) ∈ v ∧ (m', q') ∈ v ∧ m' ≠ m ∧ (q.cls = .telltale ∨ q'.cls = .telltale) ∧
    q.band.first ≤ q'.band.last ∧ q'.band.first ≤ q.band.last

/-- The NO_BUDGET answer on a choice: FIT or LOAD, then reserve, budget and sum of loads (R39, Table 11-3). -/
def View.noBudget (p : Panel) (slots : Nat) (v : View) : Reply :=
  { status := .noBudget
    payload := byte1 (if v.fits p slots = true then 1 else 0) ++ byte1 (v.reserve p) ++ byte2 (v.budget p slots) ++
      byte4 v.loadSum }

/-- The answer to an OPEN or AMEND of a contract whose first failing choice is given: CONFLICT with the handle of the
lowest-numbered contract that stands against another, or else NO_BUDGET (R34, R36, R39). -/
def View.refusal (p : Panel) (slots subject : Nat) (b : Part) (v : View) (reply : Reply) : Prop :=
  (v.exclusive = false ∧ ∃ m, v.standsAgainst subject m ∧ (∀ m', m' < m → ¬v.standsAgainst subject m') ∧
    reply = { status := .conflict, payload := byte2 ((b.record m).handle m) }) ∨
  (v.exclusive = true ∧ reply = v.noBudget p slots)

/-- On both panels, whatever parameters the turn leaves in force (R33, R34, R38). -/
def Part.Admitted (b : Part) : Prop := ∀ p, admitted p (b.engine p).cfg.slots b.table

/-- The parameters of a contract and of its staged amendment lie in the ranges of its panel (R2, R9, R11). -/
def Record.ranged (r : Record) : Prop :=
  r.state ≠ .free → r.params.inRange r.panel = true ∧ ∀ a ∈ r.stagedAmendment, a.inRange r.panel = true

def Part.ContractsRanged (b : Part) : Prop := ∀ n, (b.record n).ranged

/-- What the table check makes of a record that fails it: the record is freed, its owner as read gets a CONTRACT notice
unless the record was FREE, and TABLE_CHECK is claimed with the detail of the reading block (R26, R166). -/
def Part.freedByCheck (detail : Byte) (n : Nat) (b : Part) : Part :=
  ((b.setRecord n (Record.freeWith ((b.record n).generation + 1))).raiseWhere
    (fun q => q.bits == (b.record n).owner && (b.record n).state != .free) (.contract n)).claim .core
      { code := .tableCheck, cls := .critical, scope := .part, panel := some (b.record n).panel,
        handle := some ((b.record n).handle n), detail := detail }

/-! ### Client ports -/

/-- What the port state says of the request in hand, the held answer and the dropped mark (R182, R185). -/
def ClientPort.coherent (q : ClientPort) : Prop :=
  match q.state with
  | .idle => q.inHand = none ∧ q.held = none ∧ q.dropped = false
  | .working => q.inHand.isSome = true ∧ q.held = none
  | .answered => q.inHand = none ∧ q.held.isSome = true ∧ q.dropped = false

def Part.PortsCoherent (b : Part) : Prop := ∀ p, (b.port p).coherent

/-! ### Fault banks -/

/-- A bank's corrected count is below its threshold (R169). -/
def Part.CountsBelow (b : Part) : Prop := ∀ k, (b.bank k).count < (b.bank k).threshold

/-! ### Timeline engines -/

/-- The critical-in-progress flag is set only while the panel is RUNNING (R52). -/
def Part.FlagsOnlyRunning (b : Part) : Prop := ∀ p, (b.engine p).critical = true → (b.engine p).state = .running

/-- The ranges of R43. -/
def Engine.inRange (e : Engine) : Prop :=
  e.cfg.inRange = true ∧ e.duty ≤ e.cfg.blPeriod ∧ e.stagedDuty ≤ e.cfg.blPeriod

/-- What the panel state says of slot counter, timer and plan (R45, R46, R64). -/
def Engine.coherent (e : Engine) : Prop :=
  match e.state with
  | .running => (∃ j, e.slot = some j ∧ j < e.cfg.slots) ∧ e.startLeft = none ∧ e.plan.isSome = true
  | .starting => e.slot = none ∧ (∃ n, e.startLeft = some n ∧ n ≤ Config.startLimit) ∧ e.plan = none
  | .down => e.slot = none ∧ e.startLeft = none ∧ e.plan = none
  | .halted => e.slot = none ∧ e.startLeft = none ∧ e.plan = none

def Part.EnginesCoherent (b : Part) : Prop := ∀ p, (b.engine p).inRange ∧ (b.engine p).coherent

/-! ### Plans -/

/-- The row groups a plan contains, slot by slot (R69). -/
def Plan.rowGroups (pl : Plan) : List Nat := pl.entries.filterMap fun x => x.kind.group?

/-- An entry is DRIVE or FALLBACK. -/
def EntryKind.isOrder (k : EntryKind) : Bool := k.group?.isSome

/-- An entry is SENSE. -/
def EntryKind.isSense : EntryKind → Bool
  | .sense _ => true
  | .drive _ _ => false
  | .fallback _ _ => false
  | .guard => false
  | .idle => false
  | .closing => false

/-- No SENSE entry follows a DRIVE or FALLBACK entry (R79). -/
def senseShielded : List EntryKind → Prop
  | a :: b :: rest => ¬(a.isOrder = true ∧ b.isSense = true) ∧ senseShielded (b :: rest)
  | _ => True

/-- The laws of a plan over S slots: S entries, the last of them CLOSING, each row group at most once (R69), and the
guard rule (R79). -/
def Plan.lawful (slots : Nat) (pl : Plan) : Prop :=
  pl.entries.length = slots ∧ (pl.entries.map Entry.kind).getLast? = some .closing ∧ pl.rowGroups.Nodup ∧
    senseShielded (pl.entries.map Entry.kind)

/-- No SENSE entry falls on an edge slot of the frame, under a backlight period and duty and the output level just
before the frame's turn, which the part does not keep (R61, R79). -/
def Plan.offEdges (period duty : Nat) (pl : Plan) : Prop :=
  ∃ before, ∀ j row, (pl.entries.map Entry.kind)[j]? = some (.sense row) → isEdge period duty before j = false

/-- The plan of an engine keeps the laws of R69 and R79 under its configuration and duty. -/
def Plan.lawfulIn (e : Engine) (pl : Plan) : Prop := pl.lawful e.cfg.slots ∧ pl.offEdges e.cfg.blPeriod e.duty

def Part.PlansLawful (b : Part) : Prop := ∀ p pl, (b.engine p).plan = some pl → pl.lawfulIn (b.engine p)

/-! ### Panel links -/

/-- The orders of a RUNNING panel in slot j: oldest first, each issued in slot j − 1 or j by its plan's entry (R91,
R92). -/
def ordersFit (pl : Plan) (j : Nat) (orders : List Order) : Prop :=
  orders.Pairwise (fun x y => x.slot < y.slot) ∧
    ∀ o ∈ orders, o.slot ≤ j ∧ j ≤ o.slot + 1 ∧ (pl.entries[o.slot]?.bind fun x => x.kind.group?) = some o.rowGroup

/-- No order is in flight while the panel is not RUNNING, and those of a RUNNING panel fit its plan and slot (R91). -/
def linkFits (e : Engine) (l : Link) : Prop :=
  match e.state, e.plan, e.slot with
  | .running, some pl, some j => ordersFit pl j l.orders
  | _, _, _ => l.orders = []

def Part.LinksFit (b : Part) : Prop := ∀ p, linkFits (b.engine p) (b.link p) ∧ (b.link p).timeouts ≤ 3

/-! ### Contact table -/

/-- At most ten contacts, in ascending id, each id 0 to 15 (R151). -/
def contactsLawful (cs : List Contact) : Prop :=
  cs.length ≤ 10 ∧ cs.Pairwise (fun x y => x.id < y.id) ∧ ∀ c ∈ cs, c.id ≤ 15

def Part.ContactsLawful (b : Part) : Prop := contactsLawful b.touch.contacts

end Sys2Proof.Machine
end

