-- ==== Sys2Proof/Certificates/Slice0/Obligations.lean ====
section
/-! DEFINITION. The statements for the provers. A statement about a command writes out the state it leaves, so that what
the command leaves alone is said by the same equation; `s.fresh` is the part as the command finds it, with nothing sent
yet. -/

open Sys2Proof Sys2Proof.Machine

/-! ### The machine -/

/-- One step takes the command at the front of the queue. -/
def Obligations.StepRunsFrontCommand : Prop :=
  ∀ (c : Instr) (rest : List Instr) (s : State), step { s with pending := c :: rest } = exec c { s with pending := rest }

/-- Every command answers a next state, and leaves the queue alone; with no command waiting, a start limit timer that
runs counts one slot period, and nothing else changes. That an idle step is one slot period is the model's choice, log 4;
the queue is the model's own, log 24. -/
def Obligations.EveryStepAnswersNext : Prop :=
  (∀ (c : Instr) (s : State), ∃ b : Part, exec c s = .next { s with part := b }) ∧
  ∀ s : State, s.pending = [] → ∃ t, step s = .next t ∧ t.pending = [] ∧
    (∀ p, t.part.engine p = { s.part.engine p with startLeft := (s.part.engine p).startLeft.map fun n => n - 1 }) ∧
    t.part = { s.part with engines := t.part.engines, out := [] }

/-! ### Reset -/

/-- The client ports, timeline engines, panel links, touch sense engine, contact tracker and fault monitor after cold
reset (R43, R65, R104, R145, R162, R181, R187, R194). That the queue stands is the model's choice, log 24; that no burst
runs is the model's reading, log 13. -/
def Obligations.ColdResetEveryBlock : Prop :=
  ∀ (strap : Option (BitVec 2)) (s : State), ∃ t, exec (.coldReset strap) s = .next t ∧ t.pending = s.pending ∧
    t.part.out = [] ∧
    (t.part.strap = match strap with
      | none => .cp2
      | some v => if v = 0 then .cp0 else if v = 1 then .cp1 else .cp2) ∧
    (∀ p, (t.part.port p).state = .idle ∧ (t.part.port p).inHand = none ∧ (t.part.port p).held = none ∧
      (t.part.port p).dropped = false ∧ (t.part.port p).noticeSet = NoticeSet.empty ∧
      (t.part.port p).noticeSet.pendingKinds = 0 ∧ (t.part.port p).mask = BitVec.allOnes 7 ∧
      (t.part.port p).attention = false ∧ (t.part.role p = .safety ↔ p = t.part.strap)) ∧
    (∀ p, (t.part.engine p).state = .down ∧ (t.part.engine p).slot = none ∧ (t.part.engine p).startLeft = none ∧
      (t.part.engine p).frame = 0 ∧ (t.part.engine p).plan = none ∧ (t.part.engine p).summary = none ∧
      (t.part.engine p).critical = false ∧ (t.part.engine p).output = false ∧
      (t.part.engine p).stagedDuty = (t.part.engine p).duty ∧ (t.part.engine p).cfg.grace = 4 ∧
      (t.part.engine p).cfg.policy = .dark ∧ (t.part.link p).orders = [] ∧ (t.part.link p).timeouts = 0) ∧
    (t.part.engine .cluster).cfg.slots = 100 ∧ (t.part.engine .cluster).cfg.slotPeriod = 167 ∧
    (t.part.engine .cluster).cfg.blPeriod = 10 ∧ (t.part.engine .cluster).duty = 10 ∧
    (t.part.engine .centre).cfg.slots = 180 ∧ (t.part.engine .centre).cfg.slotPeriod = 93 ∧
    (t.part.engine .centre).cfg.blPeriod = 12 ∧ (t.part.engine .centre).duty = 12 ∧
    t.part.touch.state = .idle ∧ t.part.touch.frame = none ∧ t.part.touch.scanSet = 0 ∧
    t.part.touch.baselines = List.replicate 15 (List.replicate 24 0) ∧ t.part.touch.calibrated = 0 ∧
    t.part.touch.cfg = { threshold := 60, placement := .lead } ∧ t.part.touch.resultRow = 0 ∧
    t.part.touch.resultCounts = List.replicate 24 0 ∧
    t.part.touch.deltaMap = List.replicate 15 (List.replicate 24 0) ∧ t.part.touch.completed = 0 ∧
    t.part.touch.contacts = [] ∧ t.part.touch.candidates = List.replicate 64 none ∧ t.part.touch.burst = none ∧
    (∀ k, (t.part.bank k).record = none ∧ (t.part.bank k).enabled = true ∧
      (∀ c, (t.part.bank k).reports c = true) ∧ (t.part.bank k).threshold = 16 ∧ (t.part.bank k).count = 0) ∧
    t.part.faults.injectEnable = false

/-- The contract table after cold reset (R27, with the values of R6). -/
def Obligations.ColdResetTable : Prop :=
  ∀ (strap : Option (BitVec 2)) (s : State), ∃ t, exec (.coldReset strap) s = .next t ∧ t.part.table.length = 64 ∧
    (∀ n, n < 64 → t.part.record n =
      { generation := 0, state := .free, owner := 0, feeder := 0, panel := .cluster,
        params := { band := { first := 0, last := 0 }, cls := .telltale, period := 1, latency := none, checking := false,
                    zone := none, oneShot := false },
        confirmed := none, pending := none, lastServed := none, zoneState := none, stagedAmendment := none,
        suspendMark := false, resumeMark := false, age := 0, lateMark := false, lateFrames := 0, fallback := false,
        accum := { groups := 0, sum := 0, tag := none, expected := none }, lateness := 0, lastRefresh := none,
        checkGood := true }) ∧
    t.part.firstFree 0 ∧ (t.part.record 0).handle 0 = 0

/-! ### Client ports -/

/-- A request transaction at a WORKING port is refused whole (R184). -/
def Obligations.RequestRefusedWhileWorking : Prop :=
  ∀ (s : State) (p : Port) (frame : List Byte), (s.part.port p).state = .working →
    exec (.requestTransaction p frame) s = .next { s with
      part := ((s.fresh.sendBytes p (List.replicate (frame.length + 1) 0xFF)).modPort p
        fun q => { q with dropped := true }).claim .core
          { code := .portOverrun, cls := .corrected, scope := .part, panel := none, handle := none,
            detail := frame.headD 0 } }

/-- A request transaction at a port that is not WORKING is judged by framing, code, length and role, in this order, and
answered by the port or handed to the owner (R183, R188, R195). -/
def Obligations.RequestJudged : Prop :=
  ∀ (s : State) (p : Port) (frame : List Byte), (s.part.port p).state ≠ .working →
    ((∀ code ps, ps.length ≤ 61 → frame ≠ requestFrame code ps) →
      exec (.requestTransaction p frame) s = .next { s with
        part := ((s.fresh.sendBytes p (List.replicate (frame.length + 1) 0xFF)).modPort p
          fun q => { q with state := .answered, inHand := none,
                            held := some { status := .badFrame, dropped := false, payload := [] } }).claim .core
            { code := .frameCheck, cls := .corrected, scope := .part, panel := none, handle := none,
              detail := frame.headD 0 } }) ∧
    ∀ code ps, ps.length ≤ 61 → frame = requestFrame code ps →
      exec (.requestTransaction p frame) s = .next { s with
        part := (s.fresh.sendBytes p (List.replicate (frame.length + 1) 0xFF)).modPort p
          (match RequestName.ofCode? code with
            | none => ClientPort.answerSelf .unknownRequest
            | some name =>
              if ps.length ≠ name.length then ClientPort.answerSelf .badArg
              else if name.safetyOnly = true ∧ p ≠ s.part.strap then ClientPort.answerSelf .noAuthority
              else ClientPort.hand { name := name, params := ps }) }

/-- An answer transaction sends a fill byte and then a frame by the port state, as far as it is clocked, then fill
bytes, and changes nothing; the frame is written out byte by byte, and its check byte makes the sum 0 (R186, R195, Table
11-2). -/
def Obligations.AnswerTransactionReturnsFrame : Prop :=
  ∀ (s : State) (p : Port) (clocked : Nat) (answers : List Byte → Prop),
    (∀ frame, answers frame ↔ exec (.answerTransaction p clocked) s = .next { s with
      part := s.fresh.sendBytes p
        ([0xFF] ++ frame.take clocked ++ List.replicate (clocked - frame.length) 0xFF) }) →
    ((s.part.port p).state = .idle → answers [0x03, 0, 0, 0xFD]) ∧
    ((s.part.port p).state = .working →
      answers (if (s.part.port p).dropped = true then [0x02, 1, 0, 0xFD] else [0x02, 0, 0, 0xFE])) ∧
    ∀ a, (s.part.port p).state = .answered → (s.part.port p).held = some a →
      ∃ (frame : List Byte) (check : Byte), (frame.map BitVec.toNat).sum % 256 = 0 ∧ answers frame ∧
        frame = byte1 (match a.status with
          | .ok => 0x00
          | .staged => 0x01
          | .notReady => 0x02
          | .noRequest => 0x03
          | .badFrame => 0x10
          | .unknownRequest => 0x11
          | .badArg => 0x12
          | .badHandle => 0x13
          | .notOwner => 0x14
          | .notFeeder => 0x15
          | .noAuthority => 0x16
          | .badState => 0x17
          | .noRoom => 0x18
          | .noBudget => 0x19
          | .conflict => 0x1A
          | .busy => 0x1B
          | .nothingPending => 0x1C) ++ byte1 a.dropped.toNat ++ byte1 a.payload.length ++ a.payload ++ [check]

/-- A transaction of neither kind is ignored with fill bytes and FRAME_CHECK; one without a byte has no effect at all
(R182). -/
def Obligations.UnknownKindIgnored : Prop :=
  ∀ (s : State) (p : Port) (k : Byte) (rest : List Byte),
    (k ≠ 0xA5 → k ≠ 0x5A →
      exec (.unknownKindTransaction p (k :: rest)) s = .next { s with
        part := (s.fresh.sendBytes p (List.replicate (rest.length + 1) 0xFF)).claim .core
          { code := .frameCheck, cls := .corrected, scope := .part, panel := none, handle := none, detail := k } }) ∧
    exec (.unknownKindTransaction p []) s = .next { s with part := s.fresh }

/-- A request row takes the request in hand: the owner's answer is placed, ANSWERED, the dropped mark carried in the
answer and cleared (R183, R185). A row at a port that holds no such request has nothing to take, the model's choice,
log 2. -/
def Obligations.RequestRowTakesRequest : Prop :=
  ∀ (name : RequestName) (p : Port) (s : State),
    (∀ ps, s.fresh.holds p name ps = true →
      ∃ t, exec (name.row p) s = .next t ∧ (t.part.port p).state = .answered ∧ (t.part.port p).inHand = none ∧
        (t.part.port p).dropped = false ∧
        ∃ a, (t.part.port p).held = some a ∧ a.dropped = (s.part.port p).dropped) ∧
    ((∀ ps, s.fresh.holds p name ps = false) → exec (name.row p) s = .next { s with part := s.fresh })

/-- A transaction or request at one port leaves every other port its state, request in hand, held answer, dropped mark
and attention mask (R182). -/
def Obligations.PortsAreIndependent : Prop :=
  ∀ (c : Instr) (p q : Port) (s t : State),
    ((∃ frame, c = .requestTransaction p frame) ∨ (∃ n, c = .answerTransaction p n) ∨
      (∃ bs, c = .unknownKindTransaction p bs) ∨ ∃ name : RequestName, c = name.row p) →
    q ≠ p → exec c s = .next t →
      t.part.port q = { s.part.port q with noticeSet := (t.part.port q).noticeSet } ∧ t.part.strap = s.part.strap

/-! ### Contracts -/

/-- The checks a request that bears a handle meets first: a handle that names no record, a FREE record, or a record of
another generation is refused with BAD_HANDLE (R3, R4); a port that lacks authority over the contract with NOT_OWNER or
NOT_FEEDER (R4, R8). -/
def Obligations.HandleChecksRefuse : Prop :=
  ∀ (name : RequestName) (p : Port) (ps : List Byte) (s : State), s.fresh.holds p name ps = true →
    ((name = .amend ∨ name = .suspend ∨ name = .resume ∨ name = .retire ∨ name = .lookup ∨ name = .update) →
      (16384 ≤ handleOf ps ∨ (s.part.record (handleOf ps % 64)).state = .free ∨
        (s.part.record (handleOf ps % 64)).generation.toNat ≠ handleOf ps / 64) →
      (handleOf ps < 16384 → (s.part.record (handleOf ps % 64)).checkGood = true) →
        exec (name.row p) s = .next { s with part := s.fresh.place p { status := .badHandle, payload := [] } }) ∧
    (s.fresh.bears (handleOf ps) = true →
      ((name = .amend ∨ name = .suspend ∨ name = .resume ∨ (name = .retire ∧ p ≠ s.part.strap)) →
        (s.part.record (handleOf ps % 64)).owner ≠ p.bits →
        exec (name.row p) s = .next { s with part := s.fresh.place p { status := .notOwner, payload := [] } }) ∧
      (name = .update → (s.part.record (handleOf ps % 64)).feeder ≠ p.bits →
        exec (name.row p) s = .next { s with part := s.fresh.place p { status := .notFeeder, payload := [] } }))

/-- A record that fails its check code when a handle is read is freed, its owner as read is notified, TABLE_CHECK is
claimed with the panel and handle as read and the detail of a request, 1, and the request is refused with BAD_HANDLE (R4,
R26, R166). -/
def Obligations.TableCheckFreesRecord : Prop :=
  ∀ (name : RequestName) (p : Port) (ps : List Byte) (s : State),
    (name = .amend ∨ name = .suspend ∨ name = .resume ∨ name = .retire ∨ name = .lookup ∨ name = .update) →
    s.fresh.holds p name ps = true → s.part.TableSized → handleOf ps < 16384 →
    (s.part.record (handleOf ps % 64)).checkGood = false →
      exec (name.row p) s = .next { s with
        part := (((s.fresh.setRecord (handleOf ps % 64)
          (Record.freeWith ((s.part.record (handleOf ps % 64)).generation + 1))).raiseWhere
            (fun q => q.bits == (s.part.record (handleOf ps % 64)).owner &&
              (s.part.record (handleOf ps % 64)).state != .free) (.contract (handleOf ps % 64))).claim .core
            { code := .tableCheck, cls := .critical, scope := .part,
              panel := some (s.part.record (handleOf ps % 64)).panel,
              handle := some ((s.part.record (handleOf ps % 64)).handle (handleOf ps % 64)), detail := 1 }).place p
          { status := .badHandle, payload := [] } }

/-- SUSPEND and RESUME act by the contract's state (R14, R15). -/
def Obligations.SuspendAndResumeActByState : Prop :=
  ∀ (p : Port) (ps : List Byte) (s : State) (n : Nat) (r : Record), s.fresh.bears (handleOf ps) = true →
    n = handleOf ps % 64 → r = s.part.record n → r.owner = p.bits →
    (s.fresh.holds p .suspend ps = true →
      ((r.state = .live ∨ (r.state = .stale ∧ r.fallback = false)) →
        exec (.suspend p) s = .next { s with
          part := (s.fresh.setRecord n { r with suspendMark := true, resumeMark := false }).place p
            { status := .staged, payload := [] } }) ∧
      (r.state = .suspended →
        exec (.suspend p) s = .next { s with
          part := (s.fresh.setRecord n { r with resumeMark := false }).place p { status := .ok, payload := [] } }) ∧
      ((r.state = .staged ∨ r.state = .retiring ∨ (r.state = .stale ∧ r.fallback = true)) →
        exec (.suspend p) s = .next { s with part := s.fresh.place p { status := .badState, payload := [] } })) ∧
    (s.fresh.holds p .resume ps = true →
      (r.state = .suspended →
        exec (.resume p) s = .next { s with
          part := (s.fresh.setRecord n { r with resumeMark := true }).place p { status := .staged, payload := [] } }) ∧
      ((r.state = .live ∨ r.state = .stale) →
        exec (.resume p) s = .next { s with
          part := (s.fresh.setRecord n { r with suspendMark := false }).place p { status := .ok, payload := [] } }) ∧
      ((r.state = .staged ∨ r.state = .retiring) →
        exec (.resume p) s = .next { s with part := s.fresh.place p { status := .badState, payload := [] } }))

/-- RETIRE acts by the contract's state and its panel's (R6, R7, R16). That a contract made RETIRING keeps its late frames
is the model's choice, log 26: R16 clears the late mark and does not name them. -/
def Obligations.RetireActsByState : Prop :=
  ∀ (p : Port) (ps : List Byte) (s : State) (n : Nat) (r : Record), s.fresh.holds p .retire ps = true →
    s.fresh.bears (handleOf ps) = true → n = handleOf ps % 64 → r = s.part.record n →
    (r.owner = p.bits ∨ p = s.part.strap) →
    ((r.state = .staged ∨ r.state = .suspended ∨
        ((r.state = .live ∨ r.state = .stale) ∧ (s.part.engine r.panel).state ≠ .running)) →
      exec (.retire p) s = .next { s with
        part := ((s.fresh.setRecord n (Record.freeWith (r.generation + 1))).raiseWhere
          (fun q => (q.bits == r.owner || q.bits == r.feeder) && q != p) (.contract n)).place p
            { status := .ok, payload := [] } }) ∧
    ((r.state = .live ∨ r.state = .stale) → (s.part.engine r.panel).state = .running →
      exec (.retire p) s = .next { s with
        part := ((s.fresh.setRecord n { r with state := .retiring, suspendMark := false, resumeMark := false,
                                               stagedAmendment := none, fallback := false, lateMark := false }).raiseWhere
          (fun q => (q.bits == r.owner || q.bits == r.feeder) && q != p) (.contract n)).place p
            { status := .staged, payload := [] } }) ∧
    (r.state = .retiring →
      exec (.retire p) s = .next { s with part := s.fresh.place p { status := .badState, payload := [] } })

/-- What admission counts: the contracts of a panel's next-turn view and the parameters taken for each (R29), the order of
the choices (R38), load (R31), touch reserve (R32), budget (R33), fit (R35) and exclusivity (R34). -/
def Obligations.AdmissionCounts : Prop :=
  (∀ (q : Panel) (table : List Record) (n : Nat) (r : Record), table.length = 64 →
    ((n, r) ∈ viewRecords q table ↔
      table[n]? = some r ∧ r.panel = q ∧ r.state ≠ .free ∧ r.state ≠ .retiring) ∧
    (viewRecords q table).Pairwise fun x y => x.1 < y.1) ∧
  (∀ (r : Record) (a : Params),
    (r.stagedAmendment = none → r.viewOptions = [r.params]) ∧
    (r.stagedAmendment = some a →
      r.viewOptions =
        if (r.state = .live ∨ r.state = .stale) ∧ r.params.cls ≠ a.cls ∧ (r.params.cls = .telltale ∨ a.cls = .telltale) then
          [r.params, a]
        else [a])) ∧
  (∀ (n : Nat) (r : Record) (rest : List (Nat × Record)),
    choicesOf [] = [[]] ∧
    choicesOf ((n, r) :: rest) = (r.viewOptions.map fun q => (choicesOf rest).map fun v => (n, q) :: v).flatten) ∧
  (∀ (q : Params) (m : Nat), q.band.first ≤ q.band.last → 1 ≤ m →
    m = (match q.latency with
      | none => q.period
      | some l => if l < q.period then l else q.period) →
    (q.band.last - q.band.first + 1) * 64 ≤ q.load * m ∧ q.load * m < (q.band.last - q.band.first + 1) * 64 + m) ∧
  (∀ (v : View) (rows : Nat),
    rows = ((List.range 15).filter fun t => v.any fun x =>
      x.2.zone.isSome && decide (x.2.band.first ≤ 10 * t + 9) && decide (10 * t ≤ x.2.band.last)).length →
    v.reserve .cluster = 0 ∧ (rows = 0 → v.reserve .centre = 0) ∧
    ∀ d, rows ≠ 0 → 1 ≤ d → d ≤ 8 → (∃ x ∈ v, ∃ z, x.2.zone = some z ∧ z.divisor = d) →
      (∀ x ∈ v, ∀ z, x.2.zone = some z → d ≤ z.divisor) → v.reserve .centre = (rows + d - 1) / d + 2) ∧
  ∀ (q : Panel) (slots : Nat) (v : View),
    v.budget q slots = (slots - 1 - v.reserve q) * 64 ∧
    (v.withinBudget q slots = true ↔ (v.map fun x => x.2.load).sum ≤ v.budget q slots) ∧
    (v.fits q slots = true ↔
      ∀ x ∈ v, x.2.band.first ≤ x.2.band.last → x.2.band.last - x.2.band.first + 1 ≤ slots - 1 - v.reserve q) ∧
    (v.exclusive = true ↔ ∀ x ∈ v, ∀ y ∈ v, x.1 ≠ y.1 → (x.2.cls = .telltale ∨ y.2.cls = .telltale) →
      ¬(x.2.band.first ≤ y.2.band.last ∧ y.2.band.first ≤ x.2.band.last))

/-- An OPEN whose resulting view keeps exclusivity, fit and budget fills the lowest-numbered FREE record and answers
STAGED with the handle (R10, R36); a zone empties the press candidate of the number (R159). -/
def Obligations.OpenAdmitted : Prop :=
  ∀ (p : Port) (ps : List Byte) (s : State) (a : OpenArgs) (n : Nat) (r : Record),
    s.fresh.holds p .openContract ps = true → openArgs ps = some a → s.part.TableSized → s.fresh.allGood = true →
    (a.params.cls = .telltale → p = s.part.strap) → s.part.firstFree n →
    r = { generation := (s.part.record n).generation, state := .staged, owner := p.bits, feeder := a.feeder.bits,
          panel := a.panel, params := a.params, confirmed := none, pending := none, lastServed := none,
          zoneState := a.params.zone.map fun _ => .idle, stagedAmendment := none, suspendMark := false,
          resumeMark := false, age := 0, lateMark := false, lateFrames := 0, fallback := false,
          accum := { groups := 0, sum := 0, tag := none, expected := none }, lateness := 0, lastRefresh := none,
          checkGood := true } →
    admitted a.panel (s.part.engine a.panel).cfg.slots (s.part.table.set n r) →
      exec (.openContract p) s = .next { s with
        part := (((s.fresh.setRecord n r).emptyCandidateIf a.params.zone.isSome n).raiseWhere
          (fun q => (q == p || q == a.feeder) && q != p) (.contract n)).place p
            { status := .staged, payload := byte2 ((s.part.record n).generation.toNat * 64 + n) } }

/-- An OPEN is refused by the first check of R36 that fails, and changes nothing; its parameters are judged by the
ranges of R9 over the bytes of Table 11-1. Where checks 4 to 6 refuse, the answer is that of the first failing choice
(R38): CONFLICT with the handle R34 names, else NO_BUDGET with the figures of R39. -/
def Obligations.OpenRefusedInOrder : Prop :=
  ∀ (p : Port) (ps : List Byte) (s : State), s.fresh.holds p .openContract ps = true →
    (openArgs ps = none →
      exec (.openContract p) s = .next { s with part := s.fresh.place p { status := .badArg, payload := [] } }) ∧
    (∀ pn first last cls per lat flags fd ah al bh bl deb dv : Byte,
      ps = [pn, first, last, cls, per, lat, flags, fd, ah, al, bh, bl, deb, dv] →
      ((∀ (q : Panel) (f : Port), q.num = pn.toNat → f.num = fd.toNat →
          ¬ amendableInRange q first last cls per flags (ah.toNat * 256 + al.toNat) (bh.toNat * 256 + bl.toNat) deb dv) →
        exec (.openContract p) s = .next { s with part := s.fresh.place p { status := .badArg, payload := [] } }) ∧
      ∀ (q : Panel) (f : Port), q.num = pn.toNat → f.num = fd.toNat →
        amendableInRange q first last cls per flags (ah.toNat * 256 + al.toNat) (bh.toNat * 256 + bl.toNat) deb dv →
        ∃ a, openArgs ps = some a ∧ a.panel = q ∧ a.feeder = f ∧
          a.params.carriedBy first last cls per lat flags (ah.toNat * 256 + al.toNat) (bh.toNat * 256 + bl.toNat) deb dv) ∧
    ∀ a, openArgs ps = some a →
      (a.params.cls = .telltale → p ≠ s.part.strap →
        exec (.openContract p) s = .next { s with part := s.fresh.place p { status := .noAuthority, payload := [] } }) ∧
      ((a.params.cls = .telltale → p = s.part.strap) → s.part.TableSized → s.fresh.allGood = true →
        ((∀ m, m < 64 → (s.part.record m).state ≠ .free) →
          exec (.openContract p) s = .next { s with part := s.fresh.place p { status := .noRoom, payload := [] } }) ∧
        ∀ n, s.part.firstFree n →
          ¬ admitted a.panel (s.part.engine a.panel).cfg.slots
              (s.part.table.set n ((s.part.record n).opened p a)) →
          ∃ (v : View) (reply : Reply),
            firstFailing (View.passes a.panel (s.part.engine a.panel).cfg.slots) a.panel
              (s.part.table.set n ((s.part.record n).opened p a)) v ∧
            v.refusal a.panel (s.part.engine a.panel).cfg.slots n s.part reply ∧
            exec (.openContract p) s = .next { s with part := s.fresh.place p reply })

/-- An AMEND whose resulting view keeps exclusivity, fit and budget is taken at once by a STAGED contract, and held as
the staged amendment by any other (R12, R13, R37). That no notice is raised where a STAGED contract takes it is the
model's choice, log 15. -/
def Obligations.AmendAdmitted : Prop :=
  ∀ (p : Port) (ps : List Byte) (s : State) (n : Nat) (r : Record) (a : Params), s.fresh.holds p .amend ps = true →
    s.fresh.bears (handleOf ps) = true → s.fresh.allGood = true → n = handleOf ps % 64 → r = s.part.record n →
    r.owner = p.bits → amendParams r.panel ps = some a → (a.cls = .telltale → p = s.part.strap) →
    admitted r.panel (s.part.engine r.panel).cfg.slots (s.part.table.set n (r.amended a)) →
    (r.state = .staged →
      exec (.amend p) s = .next { s with
        part := ((s.fresh.setRecord n
          { r with
            params := a
            pending := if r.params.band ≠ a.band ∨ r.params.checking ≠ a.checking then none else r.pending
            confirmed := if r.params.band ≠ a.band ∨ r.params.checking ≠ a.checking then none else r.confirmed
            zoneState := if r.params.zone = a.zone then r.zoneState else a.zone.map fun _ => .idle }).emptyCandidateIf
              (r.params.zone != a.zone) n).place p { status := .staged, payload := [] } }) ∧
    ((r.state = .live ∨ r.state = .suspended ∨
        (r.state = .stale ∧ (r.params.cls = a.cls ∨ (r.params.cls ≠ .telltale ∧ a.cls ≠ .telltale)))) →
      exec (.amend p) s = .next { s with
        part := (s.fresh.setRecord n { r with stagedAmendment := some a }).place p
          { status := .staged, payload := [] } })

/-- An AMEND is refused by its state, its arguments, its authority or its admission, in this order, and changes nothing
(R11, R37), its parameters by the ranges of R9 over the bytes of Table 11-1; checks 4 to 6 refuse as for an OPEN (R34,
R38, R39). That a STALE contract's class change is judged before the other arguments is the model's reading, log 22. -/
def Obligations.AmendRefusedInOrder : Prop :=
  ∀ (p : Port) (ps : List Byte) (s : State) (n : Nat) (r : Record), s.fresh.holds p .amend ps = true →
    s.fresh.bears (handleOf ps) = true → n = handleOf ps % 64 → r = s.part.record n → r.owner = p.bits →
    (r.state = .retiring →
      exec (.amend p) s = .next { s with part := s.fresh.place p { status := .badState, payload := [] } }) ∧
    (r.state ≠ .retiring → r.state ≠ .stale → amendParams r.panel ps = none →
      exec (.amend p) s = .next { s with part := s.fresh.place p { status := .badArg, payload := [] } }) ∧
    (∀ hh hl first last cls per lat flags ah al bh bl deb dv : Byte,
      ps = [hh, hl, first, last, cls, per, lat, flags, ah, al, bh, bl, deb, dv] → r.state ≠ .retiring →
      (r.state = .stale → cls.toNat ≠ r.params.cls.rank → (cls.toNat = 0 ∨ r.params.cls = .telltale) →
        exec (.amend p) s = .next { s with part := s.fresh.place p { status := .badState, payload := [] } }) ∧
      ((r.state = .stale → cls.toNat = r.params.cls.rank ∨ (cls.toNat ≠ 0 ∧ r.params.cls ≠ .telltale)) →
        ¬ amendableInRange r.panel first last cls per flags (ah.toNat * 256 + al.toNat) (bh.toNat * 256 + bl.toNat) deb dv →
        exec (.amend p) s = .next { s with part := s.fresh.place p { status := .badArg, payload := [] } }) ∧
      (amendableInRange r.panel first last cls per flags (ah.toNat * 256 + al.toNat) (bh.toNat * 256 + bl.toNat) deb dv →
        ∃ a, amendParams r.panel ps = some a ∧
          a.carriedBy first last cls per lat flags (ah.toNat * 256 + al.toNat) (bh.toNat * 256 + bl.toNat) deb dv)) ∧
    ∀ a, amendParams r.panel ps = some a → r.state ≠ .retiring →
      (r.state = .stale → r.params.cls ≠ a.cls → (r.params.cls = .telltale ∨ a.cls = .telltale) →
        exec (.amend p) s = .next { s with part := s.fresh.place p { status := .badState, payload := [] } }) ∧
      ((r.state = .stale → r.params.cls = a.cls ∨ (r.params.cls ≠ .telltale ∧ a.cls ≠ .telltale)) →
        (a.cls = .telltale → p ≠ s.part.strap →
          exec (.amend p) s = .next { s with part := s.fresh.place p { status := .noAuthority, payload := [] } }) ∧
        ((a.cls = .telltale → p = s.part.strap) → s.fresh.allGood = true →
          ¬ admitted r.panel (s.part.engine r.panel).cfg.slots (s.part.table.set n (r.amended a)) →
          ∃ (v : View) (reply : Reply),
            firstFailing (View.passes r.panel (s.part.engine r.panel).cfg.slots) r.panel
              (s.part.table.set n (r.amended a)) v ∧
            v.refusal r.panel (s.part.engine r.panel).cfg.slots n s.part reply ∧
            exec (.amend p) s = .next { s with part := s.fresh.place p reply }))

/-- LOOKUP answers the lookup record, 40 bytes, and changes nothing (R23, R196, Table 11-5). -/
def Obligations.LookupReportsRecord : Prop :=
  ∀ (p : Port) (ps : List Byte) (s : State) (r : Record) (bytes : List Byte), s.fresh.holds p .lookup ps = true →
    s.fresh.bears (handleOf ps) = true → r = s.part.record (handleOf ps % 64) →
    bytes =
      byte1 (match r.state with
        | .free => 0
        | .staged => 1
        | .live => 2
        | .suspended => 3
        | .stale => 4
        | .retiring => 5) ++
      byte1 r.owner.toNat ++ byte1 r.feeder.toNat ++ byte1 (if r.panel = .cluster then 0 else 1) ++
      byte1 r.params.band.first ++ byte1 r.params.band.last ++
      byte1 (match r.params.cls with
        | .telltale => 0
        | .gauge => 1
        | .info => 2
        | .ambient => 3) ++
      byte1 r.params.period ++
      byte1 (match r.params.latency with
        | none => 0
        | some l => l) ++
      byte1 (r.params.checking.toNat + 2 * r.params.oneShot.toNat + 4 * r.confirmed.isSome.toNat +
        8 * r.pending.isSome.toNat + 16 * (r.pending.any fun u => u.sig.isSome).toNat + 32 * r.lastServed.isSome.toNat +
        64 * r.params.zone.isSome.toNat + 128 * r.stagedAmendment.isSome.toNat) ++
      byte1 (r.suspendMark.toNat + 2 * r.resumeMark.toNat + 4 * r.lateMark.toNat + 8 * r.fallback.toNat +
        16 * r.lastRefresh.isSome.toNat + 32 * (match r.zoneState with
          | some (.pressed _) => 1
          | _ => 0)) ++
      byte4 (match r.confirmed with
        | none => 0
        | some x => x.toNat) ++
      byte2 (match r.pending with
        | none => 0
        | some u => u.tag.toNat) ++
      byte4 (match r.pending with
        | none => 0
        | some u =>
          match u.sig with
          | none => 0
          | some x => x.toNat) ++
      byte1 (match r.pending with
        | none => 0
        | some u => u.age) ++
      byte2 (match r.lastServed with
        | none => 0
        | some x => x.toNat) ++
      (match r.params.zone with
        | none => [0, 0, 0, 0, 0, 0]
        | some z => byte2 z.firstCol ++ byte2 z.lastCol ++ byte1 z.debounce ++ byte1 z.divisor) ++
      byte1 (match r.zoneState with
        | some (.pressed k) => k
        | _ => 0) ++
      byte1 r.age ++ byte1 r.lateFrames ++ byte1 r.accum.groups ++ byte2 r.lateness ++
      byte4 (match r.lastRefresh with
        | none => 0
        | some x => x.toNat) →
    bytes.length = 40 ∧ exec (.lookup p) s = .next { s with part := s.fresh.place p { status := .ok, payload := bytes } }

/-- FIND answers the handles of the contracts of a panel that meet a range of row groups (R24), LIST those of the
contracts that a port owns (R25). -/
def Obligations.FindAndListHandles : Prop :=
  (∀ (p : Port) (pn first last : Byte) (s : State), s.fresh.holds p .find [pn, first, last] = true →
    ((Panel.ofNat? pn.toNat = none ∨ last.toNat < first.toNat ∨
        ∃ q, Panel.ofNat? pn.toNat = some q ∧ Config.rowGroups q ≤ last.toNat) →
      exec (.find p) s = .next { s with part := s.fresh.place p { status := .badArg, payload := [] } }) ∧
    ∀ q, Panel.ofNat? pn.toNat = some q → first.toNat ≤ last.toNat → last.toNat < Config.rowGroups q →
      s.part.TableSized → s.fresh.allGood = true →
      ∃ hs : List Nat, hs = ((List.range 64).filter fun n =>
          (s.part.record n).state != .free && (s.part.record n).panel == q &&
            decide ((s.part.record n).params.band.first ≤ last.toNat) &&
            decide (first.toNat ≤ (s.part.record n).params.band.last)).map (fun n => (s.part.record n).handle n) ∧
        exec (.find p) s = .next { s with
          part := s.fresh.place p { status := .ok, payload := byte1 hs.length ++ hs.flatMap byte2 } }) ∧
  ∀ (p : Port) (pt : Byte) (s : State), s.fresh.holds p .list [pt] = true →
    (2 < pt.toNat →
      exec (.list p) s = .next { s with part := s.fresh.place p { status := .badArg, payload := [] } }) ∧
    (pt.toNat ≤ 2 → s.part.TableSized → s.fresh.allGood = true →
      ∃ hs : List Nat, hs = ((List.range 64).filter fun n =>
          (s.part.record n).state != .free && decide ((s.part.record n).owner.toNat = pt.toNat)).map
            (fun n => (s.part.record n).handle n) ∧
        exec (.list p) s = .next { s with
          part := s.fresh.place p { status := .ok, payload := byte1 hs.length ++ hs.flatMap byte2 } })

/-- UPDATE creates or replaces the pending update, or is refused (R105); the tag, the flags and the signature are read
from their bytes (R196, Table 11-1). -/
def Obligations.UpdateActsOnPending : Prop :=
  ∀ (p : Port) (ps : List Byte) (s : State) (n : Nat) (r : Record), s.fresh.holds p .update ps = true →
    s.fresh.bears (handleOf ps) = true → n = handleOf ps % 64 → r = s.part.record n → r.feeder = p.bits →
    (r.state = .retiring →
      exec (.update p) s = .next { s with part := s.fresh.place p { status := .badState, payload := [] } }) ∧
    (r.state ≠ .retiring →
      (updateArgs ps = none →
        exec (.update p) s = .next { s with part := s.fresh.place p { status := .badArg, payload := [] } }) ∧
      (∀ hh hl th tl flags b3 b2 b1 b0 : Byte, ps = [hh, hl, th, tl, flags, b3, b2, b1, b0] →
        (2 ≤ flags.toNat →
          exec (.update p) s = .next { s with part := s.fresh.place p { status := .badArg, payload := [] } }) ∧
        (flags.toNat < 2 → updateArgs ps = some (BitVec.ofNat 16 (th.toNat * 256 + tl.toNat),
          if flags.toNat = 1 then
            some (BitVec.ofNat 32 (b3.toNat * 16777216 + b2.toNat * 65536 + b1.toNat * 256 + b0.toNat))
          else none))) ∧
      ∀ tag sig, updateArgs ps = some (tag, sig) →
        (r.params.checking = true → sig = none →
          exec (.update p) s = .next { s with part := s.fresh.place p { status := .badArg, payload := [] } }) ∧
        ((r.params.checking = true → sig ≠ none) →
          (r.pending = none →
            exec (.update p) s = .next { s with
              part := (s.fresh.setRecord n
                { r with pending := some { tag := tag, sig := if r.params.checking then sig else none, age := 0 } }).place p
                { status := .ok, payload := [0] } }) ∧
          ∀ u, r.pending = some u →
            exec (.update p) s = .next { s with
              part := (s.fresh.setRecord n
                { r with pending := some { tag := tag, sig := if r.params.checking then sig else none, age := u.age } }).place
                  p { status := .ok, payload := [1] } }))

/-- Every other block that reads the table checks it (R26): a reading of the whole table frees the records that fail, in
ascending number, each by R26, and goes on with them FREE; so do OPEN, AMEND, FIND, LIST, PANEL_CONFIG and RECALIBRATE
once they read it, the turn claim, plan building, the scan set, the tracking event and a teardown. A capture or a credit
checks the record it concerns, and a failing one is neither captured nor credited. Which of them read the whole table is
the model's reading, log 7. -/
def Obligations.TableChecksFound : Prop :=
  (∀ (b : Part) (who : Reader) (d : Byte), b.TableSized →
    d = (match who with
      | .request => 1
      | .turnClaim => 2
      | .planBuilding => 3
      | .accounting => 4
      | .scanSet => 5
      | .tracker => 6
      | .teardown => 7) →
    b.verifyAll who =
      ((List.range 64).filter fun n => !(b.record n).checkGood).foldl (fun c n => c.freedByCheck d n) b ∧
    (b.verifyAll who).allGood = true) ∧
  (∀ (p : Port) (ps : List Byte) (s s' : State), s' = { s with part := s.part.verifyAll .request } →
    (∀ a, s.fresh.holds p .openContract ps = true → openArgs ps = some a →
      (a.params.cls = .telltale → p = s.part.strap) → exec (.openContract p) s = exec (.openContract p) s') ∧
    (∀ r a, s.fresh.holds p .amend ps = true → s.fresh.bears (handleOf ps) = true →
      r = s.part.record (handleOf ps % 64) → r.owner = p.bits → r.state ≠ .retiring → amendParams r.panel ps = some a →
      (r.state = .stale → r.params.cls = a.cls ∨ (r.params.cls ≠ .telltale ∧ a.cls ≠ .telltale)) →
      (a.cls = .telltale → p = s.part.strap) → exec (.amend p) s = exec (.amend p) s') ∧
    (s.fresh.holds p .find ps = true → findArgs ps ≠ none → exec (.find p) s = exec (.find p) s') ∧
    (s.fresh.holds p .list ps = true → listArgs ps ≠ none → exec (.list p) s = exec (.list p) s') ∧
    (∀ q c, s.fresh.holds p .panelConfig ps = true → panelConfigArgs ps = some (q, c) → (s.part.engine q).state = .down →
      exec (.panelConfig p) s = exec (.panelConfig p) s') ∧
    (s.fresh.holds p .recalibrate ps = true → p ≠ s.part.strap → exec (.recalibrate p) s = exec (.recalibrate p) s')) ∧
  (∀ (b : Part) (q : Panel) (first : Bool) (st : PanelState), b.TableSized →
    b.turnClaim q first = (b.verifyAll .turnClaim).turnClaim q first ∧
    b.rescan .centre = (b.verifyAll .scanSet).rescan .centre ∧
    b.associateContacts = (b.verifyAll .tracker).associateContacts ∧
    b.teardown q st = (b.verifyAll .teardown).teardown q st ∧
    ((q = .cluster ∨ b.touch.neededRows = []) → b.buildPlan q = (b.verifyAll .planBuilding).buildPlan q)) ∧
  ∀ (b : Part) (q : Panel) (x : Placed) (c : Completion) (n : Nat), b.TableSized → n = x.handle % 64 →
    (b.record n).checkGood = false →
      b.captureOne x = b.freedByCheck 4 n ∧ b.creditOne q c x = b.freedByCheck 4 n

/-! ### Panels -/

/-- PANEL_UP brings up a panel that is DOWN or HALTED, and is refused in the other states (R47). PANEL_DOWN tears down a
RUNNING or STARTING panel, stops a HALTED one again, and leaves a DOWN one (R50); the teardown is said field by field
(R22, R46, R58, R101, R110, R143, R162). That completions wait in a queue, which it keeps with the placed-contract list,
is the model's reading, log 12. -/
def Obligations.PanelUpAndDownActByState : Prop :=
  ∀ (p : Port) (ps : List Byte) (s : State),
    (s.fresh.holds p .panelUp ps = true →
      (panelArg ps = none →
        exec (.panelUp p) s = .next { s with part := s.fresh.place p { status := .badArg, payload := [] } }) ∧
      ∀ q, panelArg ps = some q →
        (((s.part.engine q).state = .down ∨ (s.part.engine q).state = .halted) →
          exec (.panelUp p) s = .next { s with
            part := (((s.fresh.send q .start).modEngine q
              fun e => { e with startLeft := some 64, state := .starting }).raiseAll (.panel q)).place p
                { status := .ok, payload := [] } }) ∧
        (((s.part.engine q).state = .starting ∨ (s.part.engine q).state = .running) →
          exec (.panelUp p) s = .next { s with part := s.fresh.place p { status := .badState, payload := [] } })) ∧
    (s.fresh.holds p .panelDown ps = true →
      (panelArg ps = none →
        exec (.panelDown p) s = .next { s with part := s.fresh.place p { status := .badArg, payload := [] } }) ∧
      ∀ q, panelArg ps = some q →
        ((s.part.engine q).state = .down →
          exec (.panelDown p) s = .next { s with part := s.fresh.place p { status := .ok, payload := [] } }) ∧
        ((s.part.engine q).state = .halted →
          exec (.panelDown p) s = .next { s with
            part := (((s.fresh.send q (.stop (decide ((s.part.engine q).cfg.policy = .blank)))).modEngine q
              fun e => { e with state := .down, output := if e.cfg.policy = .hold then e.output else false }).raiseAll
                (.panel q)).place p { status := .ok, payload := [] } }) ∧
        (((s.part.engine q).state = .running ∨ (s.part.engine q).state = .starting) → s.fresh.allGood = true →
          ∃ b, TornDown q .down s.fresh b ∧
            exec (.panelDown p) s = .next { s with part := b.place p { status := .ok, payload := [] } }))

/-- PANEL_CONFIG is judged by argument, state and budget, and an accepted one replaces the five fields and clamps both
duties (R41, R44), the fields by the ranges of R43 over the bytes of Table 11-1; a refusal carries the figures of the
first failing choice (R38, R39). That exclusivity is not judged is the model's reading, log 21. -/
def Obligations.PanelConfigJudged : Prop :=
  ∀ (p : Port) (ps : List Byte) (s : State), s.fresh.holds p .panelConfig ps = true →
    (panelConfigArgs ps = none →
      exec (.panelConfig p) s = .next { s with part := s.fresh.place p { status := .badArg, payload := [] } }) ∧
    (∀ pn sl ph pl gr pol bl : Byte, ps = [pn, sl, ph, pl, gr, pol, bl] →
      (¬(pn.toNat ≤ 1 ∧ 32 ≤ sl.toNat ∧ sl.toNat ≤ 192 ∧ 20 ≤ ph.toNat * 256 + pl.toNat ∧ ph.toNat * 256 + pl.toNat ≤ 1000 ∧
          1 ≤ gr.toNat ∧ gr.toNat ≤ 15 ∧ pol.toNat ≤ 2 ∧ 2 ≤ bl.toNat ∧ bl.toNat ≤ sl.toNat) →
        exec (.panelConfig p) s = .next { s with part := s.fresh.place p { status := .badArg, payload := [] } }) ∧
      (∀ q : Panel, q.num = pn.toNat → 32 ≤ sl.toNat → sl.toNat ≤ 192 → 20 ≤ ph.toNat * 256 + pl.toNat →
        ph.toNat * 256 + pl.toNat ≤ 1000 → 1 ≤ gr.toNat → gr.toNat ≤ 15 → 2 ≤ bl.toNat → bl.toNat ≤ sl.toNat →
        ∀ policy : StopPolicy, pol.toNat = (match policy with
            | .hold => 0
            | .dark => 1
            | .blank => 2) →
          panelConfigArgs ps = some (q,
            { slots := sl.toNat, slotPeriod := ph.toNat * 256 + pl.toNat, grace := gr.toNat, policy := policy
              blPeriod := bl.toNat }))) ∧
    ∀ q c, panelConfigArgs ps = some (q, c) →
      ((s.part.engine q).state ≠ .down →
        exec (.panelConfig p) s = .next { s with part := s.fresh.place p { status := .busy, payload := [] } }) ∧
      ((s.part.engine q).state = .down → s.fresh.allGood = true →
        ((∀ v ∈ choicesOf (viewRecords q s.part.table), v.fits q c.slots = true ∧ v.withinBudget q c.slots = true) →
          exec (.panelConfig p) s = .next { s with
            part := (s.fresh.modEngine q fun e =>
              { e with cfg := c, duty := min e.duty c.blPeriod, stagedDuty := min e.stagedDuty c.blPeriod }).place p
                { status := .ok, payload := [] } }) ∧
        (¬ (∀ v ∈ choicesOf (viewRecords q s.part.table), v.fits q c.slots = true ∧ v.withinBudget q c.slots = true) →
          ∃ v : View, firstFailing (View.affords q c.slots) q s.part.table v ∧
            exec (.panelConfig p) s = .next { s with part := s.fresh.place p (v.noBudget q c.slots) }))

/-- PANEL_STATUS reports its 29 bytes and changes nothing, and BACKLIGHT writes the duty by the panel's state (R62, R64,
Table 11-9). -/
def Obligations.PanelStatusAndBacklight : Prop :=
  ∀ (p : Port) (s : State),
    (∀ ps, s.fresh.holds p .panelStatus ps = true →
      (panelArg ps = none →
        exec (.panelStatus p) s = .next { s with part := s.fresh.place p { status := .badArg, payload := [] } }) ∧
      ∀ (q : Panel) (e : Engine) (summary bytes : List Byte), panelArg ps = some q → e = s.part.engine q →
        ((e.plan = none → e.lastSummary = none → summary = [0, 0, 0, 0, 0, 0, 0, 0, 0, 0, 0]) ∧
          (∀ pl, e.plan = some pl → summary =
            byte1 (pl.entries.countP fun x => match x.kind with
              | .drive _ _ => true
              | _ => false) ++
            byte1 (pl.entries.countP fun x => match x.kind with
              | .fallback _ _ => true
              | _ => false) ++
            byte1 (pl.entries.countP fun x => match x.kind with
              | .sense _ => true
              | _ => false) ++
            byte1 (pl.entries.countP fun x => x.kind == .guard) ++ byte1 (pl.entries.countP fun x => x.kind == .idle) ++
            byte1 (pl.entries.countP fun x => x.kind == .closing) ++
            byte1 (pl.entries.countP fun x => x.outcome == .pending) ++
            byte1 (pl.entries.countP fun x => x.outcome == .done) ++
            byte1 (pl.entries.countP fun x => x.outcome == .timedOut) ++
            byte1 (pl.entries.countP fun x => x.outcome == .disturbed) ++
            byte1 (pl.entries.countP fun x => x.outcome == .abandoned)) ∧
          (∀ m, e.plan = none → e.lastSummary = some m → summary =
            byte1 m.drive ++ byte1 m.fallback ++ byte1 m.sense ++ byte1 m.guard ++ byte1 m.idle ++ byte1 m.closing ++
            byte1 m.pending ++ byte1 m.done ++ byte1 m.timedOut ++ byte1 m.disturbed ++ byte1 m.abandoned)) →
        bytes =
          byte1 (match e.state with
            | .down => 0
            | .starting => 1
            | .running => 2
            | .halted => 3) ++
          byte1 e.cfg.slots ++ byte2 e.cfg.slotPeriod ++ byte1 e.cfg.grace ++
          byte1 (match e.cfg.policy with
            | .hold => 0
            | .dark => 1
            | .blank => 2) ++
          byte1 e.cfg.blPeriod ++ byte1 e.duty ++ byte1 e.stagedDuty ++
          byte1 (e.output.toNat + 2 * e.critical.toNat + 4 * e.slot.isSome.toNat + 8 * e.startLeft.isSome.toNat +
            16 * (e.plan.isSome || e.lastSummary.isSome).toNat) ++
          byte4 e.frame.toNat ++ byte1 (e.slot.getD 0) ++ byte1 (e.startLeft.getD 0) ++
          byte1 (s.part.link q).orders.length ++ byte1 (s.part.link q).timeouts ++ summary →
        bytes.length = 29 ∧
          exec (.panelStatus p) s = .next { s with part := s.fresh.place p { status := .ok, payload := bytes } }) ∧
    ∀ pn duty : Byte, s.fresh.holds p .backlight [pn, duty] = true →
      (Panel.ofNat? pn.toNat = none →
        exec (.backlight p) s = .next { s with part := s.fresh.place p { status := .badArg, payload := [] } }) ∧
      ∀ q, Panel.ofNat? pn.toNat = some q →
        ((s.part.engine q).cfg.blPeriod < duty.toNat →
          exec (.backlight p) s = .next { s with part := s.fresh.place p { status := .badArg, payload := [] } }) ∧
        (duty.toNat ≤ (s.part.engine q).cfg.blPeriod →
          (((s.part.engine q).state = .running ∨ (s.part.engine q).state = .starting) →
            exec (.backlight p) s = .next { s with
              part := (s.fresh.modEngine q fun e => { e with stagedDuty := duty.toNat }).place p
                { status := .staged, payload := [] } }) ∧
          (((s.part.engine q).state = .down ∨ (s.part.engine q).state = .halted) →
            exec (.backlight p) s = .next { s with
              part := (s.fresh.modEngine q fun e => { e with stagedDuty := duty.toNat, duty := duty.toNat }).place p
                { status := .ok, payload := [] } }))

/-- The start limit tears a STARTING panel down into DOWN and claims START_FAIL (R48, R49). That the expiry is taken
whatever the timer shows is the model's choice, log 4; that it has no effect in another state is the model's choice, log
3. A halt tears a RUNNING or STARTING panel down into HALTED and leaves the others (R51). The mark that a halt is handed
goes, which is the model's own, log 11. START_FAIL is formed as R166 says; the teardown is said field by field (R22,
R46, R58, R101, R110, R143, R162), and that completions wait in a queue, which it keeps with the placed-contract list,
is the model's reading, log 12. -/
def Obligations.StartLimitAndHaltTearDown : Prop :=
  ∀ (q : Panel) (s : State),
    ((s.part.engine q).state = .starting → s.fresh.allGood = true →
      ∃ b, TornDown q .down s.fresh b ∧
        exec (.startLimitExpiry q) s = .next { s with
          part := b.claim (Bank.ofPanel q)
            { code := .startFail, cls := .contained, scope := .panel, panel := some q, handle := none, detail := 0 } }) ∧
    ((s.part.engine q).state ≠ .starting → exec (.startLimitExpiry q) s = .next { s with part := s.fresh }) ∧
    (((s.part.engine q).state = .running ∨ (s.part.engine q).state = .starting) → s.fresh.allGood = true →
      ∃ b, TornDown q .halted (s.fresh.modEngine q fun e => { e with haltHanded := false }) b ∧
        exec (.halt q) s = .next { s with part := b }) ∧
    (((s.part.engine q).state = .down ∨ (s.part.engine q).state = .halted) →
      exec (.halt q) s = .next { s with part := s.fresh.modEngine q fun e => { e with haltHanded := false } })

/-- READY starts the run of a STARTING panel with its first turn, whose claim carries the restart mark, and is discarded
in another state (R48, R55, R56, R57, R100). What the steps of the turn do is said by TurnTakesRecords, BreachActsByClass,
ScanSetRecomputed, PlanPlacesContracts, PlanPlacesSenses and SlotStartsByKind. That completions handed on before a
teardown wait in a queue and are credited first is the model's reading, log 12. -/
def Obligations.ReadyStartsRun : Prop :=
  ∀ (q : Panel) (s : State),
    ((s.part.engine q).state = .starting →
      ∃ t b, exec (.ready q) s = .next t ∧ t.pending = s.pending ∧
        b = ((s.fresh.creditAll q).modEngine q fun e => { e with startLeft := none, state := .running }).raiseAll
          (.panel q) ∧
        t.part = ((((b.modEngine q fun e => { e with frame := e.frame + 1, duty := e.stagedDuty }).turnClaim q true).rescan
          q).buildPlan q).startSlot q 0 ∧
        (t.part.engine q).state = .running ∧
        (t.part.engine q).startLeft = none ∧ (t.part.engine q).slot = some 0 ∧
        (t.part.engine q).frame = (s.part.engine q).frame + 1 ∧
        (t.part.engine q).duty = (s.part.engine q).stagedDuty ∧
        (t.part.engine q).stagedDuty = (s.part.engine q).stagedDuty ∧
        (t.part.engine q).cfg = (s.part.engine q).cfg ∧
        (∃ pl, (t.part.engine q).plan = some pl ∧ pl.entries.length = (s.part.engine q).cfg.slots) ∧
        ∀ p, p ≠ q → t.part.link p = s.part.link p ∧ (t.part.engine p).state = (s.part.engine p).state ∧
          (t.part.engine p).frame = (s.part.engine p).frame) ∧
    ((s.part.engine q).state ≠ .starting → exec (.ready q) s = .next { s with part := s.fresh })

/-- While the slot counter is stopped no boundary occurs (R53); that the commands then have no effect is the model's
choice, log 3, and ORDER_TIMEOUT as a command of its own that takes the timeouts of a boundary alone is the model's
choice, log 9. A boundary takes its timeouts first; one inside a frame then begins the next slot. A slot begins with the
counter, the backlight level and its entry by kind (R53, R60, R92, R134), a burst's disturbed mark by the shielded order
of its run (R72), and an order's captures (R71, R108): the tag and the signature expected. That a burst still running
ends at the boundary is the model's choice, log 10; the mark of a burst whose touch frame is gone is the model's own,
log 13; the captures are said in full for records that agree with their check codes, so the order of captures, log 28,
does not show. -/
def Obligations.SlotStartsByKind : Prop :=
  (∀ (q : Panel) (s : State),
    (((s.part.engine q).state ≠ .running ∨ (s.part.engine q).slot = none) →
      exec (.slotBoundary q) s = .next { s with part := s.fresh } ∧
        exec (.orderTimeout q) s = .next { s with part := s.fresh }) ∧
    (∀ t, exec (.orderTimeout q) s = .next t → exec (.slotBoundary q) s = exec (.slotBoundary q) t) ∧
    ∀ (j : Nat), (s.part.engine q).state = .running → (s.part.engine q).slot = some j →
      j + 1 < (s.part.engine q).cfg.slots → (∀ o ∈ (s.part.link q).orders, j ≤ o.slot) →
      exec (.slotBoundary q) s = .next { s with
        part := Part.startSlot q (j + 1) (match q with
          | .cluster => s.fresh
          | .centre => s.fresh.modTouch fun t => { t with burst := none }) }) ∧
  ∀ (q : Panel) (j : Nat) (pl : Plan) (x : Entry) (b c : Part), (b.engine q).plan = some pl → pl.entries[j]? = some x →
    c = b.modEngine q (fun e => { e with slot := some j, output := decide (j % e.cfg.blPeriod < e.duty) }) →
    (∀ g n, x.kind = .drive g n → ∃ c', c' = (c.send q (.drive g)).modLink q (fun l =>
          { l with orders := l.orders ++ [{ rowGroup := g, kind := .drive, slot := j }] }) ∧
        b.startSlot q j = c'.captures q j ∧
        (b.TableSized → b.allGood = true →
          c'.captures q j = { c' with table := (c'.captures q j).table } ∧
          ∀ n, n < 64 → (c'.captures q j).record n =
            if (∃ y ∈ pl.placed, y.kind = .drive ∧ y.captureSlot = some j ∧ y.handle = (b.record n).handle n) ∧
                ((b.record n).state = .live ∨ (b.record n).state = .stale) then
              { b.record n with
                accum := { (b.record n).accum with
                  tag := (b.record n).pending.map fun u => u.tag
                  expected := match (b.record n).pending with
                    | some u => if (b.record n).params.checking = true then u.sig else (b.record n).confirmed
                    | none => (b.record n).confirmed } }
            else b.record n)) ∧
    (∀ g n, x.kind = .fallback g n → b.startSlot q j = (c.send q (.fallback g)).modLink q fun l =>
      { l with orders := l.orders ++ [{ rowGroup := g, kind := .fallback, slot := j }] }) ∧
    (∀ (row m : Nat) (split : Prop) (disturbed : Bool), x.kind = .sense row → m = pl.entries.length / 2 →
      (split ↔ m ≤ j ∧ ∃ y, pl.entries[m - 1]? = some y ∧ y.kind = .guard) →
      (¬split → (disturbed = true ↔ pl.carried = some .timedOut)) →
      (split → (disturbed = true ↔ ∃ y g n, pl.entries[m - 2]? = some y ∧ (y.kind = .drive g n ∨ y.kind = .fallback g n) ∧
        y.outcome = .timedOut)) →
      b.startSlot q j = (c.send q (.sense row)).modTouch fun t =>
        { t with burst := some { row := row, slot := j, disturbed := disturbed, lost := t.frame.isNone } }) ∧
    ((x.kind = .guard ∨ x.kind = .idle ∨ x.kind = .closing) → b.startSlot q j = c.modEngine q fun e =>
      { e with plan := e.plan.map fun pl => { pl with entries := pl.entries.modify j fun x => { x with outcome := .done } } })

/-- The boundary that ends the closing slot is the frame turn: the link takes the end of the slot, the frame's completions
are credited, and the five steps follow (R54, R55, R56, R103). What the steps do is said by TurnTakesRecords,
BreachActsByClass, ScanSetRecomputed, PlanPlacesContracts, PlanPlacesSenses and SlotStartsByKind. That completions wait in
a queue is the model's reading, log 12; that a burst still running ends at the boundary is the model's choice, log 10. -/
def Obligations.FrameTurnBeginsFrame : Prop :=
  ∀ (q : Panel) (s : State) (j : Nat), (s.part.engine q).state = .running → (s.part.engine q).slot = some j →
    (s.part.engine q).cfg.slots ≤ j + 1 →
    ∃ t b, exec (.slotBoundary q) s = .next t ∧ t.pending = s.pending ∧
      b = ((s.fresh.dropBurst q).linkEndOfSlot q).creditAll q ∧
      t.part = ((((b.modEngine q fun e => { e with frame := e.frame + 1, duty := e.stagedDuty }).turnClaim q false).rescan
        q).buildPlan q).startSlot q 0 ∧
      (t.part.engine q).state = .running ∧
      (t.part.engine q).slot = some 0 ∧ (t.part.engine q).frame = (s.part.engine q).frame + 1 ∧
      (t.part.engine q).duty = (s.part.engine q).stagedDuty ∧
      (t.part.engine q).output = decide (0 % (s.part.engine q).cfg.blPeriod < (s.part.engine q).stagedDuty) ∧
      (t.part.engine q).cfg = (s.part.engine q).cfg ∧ (t.part.credit q).completions = [] ∧
      (∃ pl, (t.part.engine q).plan = some pl ∧ pl.entries.length = (s.part.engine q).cfg.slots) ∧
      ∀ p, p ≠ q → t.part.link p = s.part.link p ∧ (t.part.engine p).state = (s.part.engine p).state ∧
        (t.part.engine p).frame = (s.part.engine p).frame

/-- Steps 1 to 5 of a turn claim (R18 to R21, R57, R121). One record: a RETIRING contract is freed, a STAGED one promoted
at age P, a staged amendment taken or dropped, the marks taken, the restart made, and what is LIVE or STALE aged, unless
its age was set to P. The table: the records of the panel, with their CONTRACT notices and the press candidates of changed
zones (R159), then the breach checks in ascending number (R125). That a resumed contract's press state starts from IDLE at
this turn is the model's reading of R159, log 29. -/
def Obligations.TurnTakesRecords : Prop :=
  (∀ (first changed resumed set : Bool) (r r₁ r₂ r₃ r₄ : Record),
    r₁ = (if r.state = .retiring then Record.freeWith (r.generation + 1)
      else if r.state = .staged then
        { r with
          state := .live, age := r.params.period, lateMark := false
          accum := { groups := 0, sum := 0, tag := none, expected := none } }
      else r) →
    r₂ = (match r₁.stagedAmendment with
      | none => r₁
      | some a =>
        if r₁.state = .live ∨ r₁.state = .stale ∨ r₁.state = .suspended then
          if r₁.state = .stale ∧ r₁.params.cls ≠ a.cls ∧ (r₁.params.cls = .telltale ∨ a.cls = .telltale) then
            { r₁ with stagedAmendment := none }
          else
            { r₁ with
              params := a, stagedAmendment := none
              pending := if r₁.params.band ≠ a.band ∨ r₁.params.checking ≠ a.checking then none else r₁.pending
              confirmed := if r₁.params.band ≠ a.band ∨ r₁.params.checking ≠ a.checking then none else r₁.confirmed
              age := if r₁.params.band ≠ a.band ∨ r₁.params.checking ≠ a.checking then a.period else r₁.age
              zoneState := if r₁.params.zone = a.zone then r₁.zoneState else a.zone.map fun _ => .idle
              lateMark := if r₁.params.cls ≠ .telltale ∧ a.cls = .telltale then false else r₁.lateMark
              lateFrames := if r₁.params.cls ≠ .telltale ∧ a.cls = .telltale then 0 else r₁.lateFrames }
        else r₁) →
    r₃ = (if (r₂.state = .live ∨ r₂.state = .stale) ∧ r₂.suspendMark = true then
        if r₂.state = .stale ∧ r₂.fallback = true then { r₂ with suspendMark := false }
        else
          { r₂ with
            state := .suspended, suspendMark := false, lateMark := false, lateFrames := 0
            accum := { groups := 0, sum := 0, tag := none, expected := none } }
      else if r₂.state = .suspended ∧ r₂.resumeMark = true then
        { r₂ with
          state := .live, age := r₂.params.period, resumeMark := false, zoneState := r₂.zoneState.map fun _ => .idle }
      else r₂) →
    r₄ = (if first = true ∧ (r₃.state = .live ∨ r₃.state = .stale) then
        { r₃ with age := r₃.params.period, accum := { groups := 0, sum := 0, tag := none, expected := none } }
      else r₃) →
    changed = (match r₁.stagedAmendment with
      | none => false
      | some a =>
        decide ((r₁.state = .live ∨ r₁.state = .stale ∨ r₁.state = .suspended) ∧
          ¬(r₁.state = .stale ∧ r₁.params.cls ≠ a.cls ∧ (r₁.params.cls = .telltale ∨ a.cls = .telltale)) ∧
          (r₁.params.band ≠ a.band ∨ r₁.params.checking ≠ a.checking))) →
    resumed = decide (r₂.state = .suspended ∧ r₂.resumeMark = true) →
    set = (decide (r.state = .staged) || changed || resumed ||
      decide (first = true ∧ (r₃.state = .live ∨ r₃.state = .stale))) →
    (r.turn first).fresh = set ∧
    (r.turn first).notify = (decide (r.state = .retiring) || decide (r.state = .staged) ||
      decide ((r₁.state = .live ∨ r₁.state = .stale ∨ r₁.state = .suspended) ∧ r₁.stagedAmendment ≠ none) ||
      decide (r₃.state ≠ r₂.state)) ∧
    (r.turn first).record =
      if r₄.state = .live ∨ r₄.state = .stale then
        if set = true then { r₄ with accum := { groups := 0, sum := 0, tag := none, expected := none } }
        else
          { r₄ with
            accum := { groups := 0, sum := 0, tag := none, expected := none }
            age := if r₄.age < 255 then r₄.age + 1 else r₄.age
            pending := r₄.pending.map fun u => { u with age := if u.age < 255 then u.age + 1 else u.age } }
      else r₄) ∧
  ∀ (q : Panel) (first : Bool) (b : Part), b.TableSized → b.allGood = true →
    ∃ c : Part,
      b.turnClaim q first = ((List.range 64).filter fun n =>
        (b.record n).panel == q && (b.record n).state != .free && !((b.record n).turn first).fresh &&
          (((b.record n).turn first).record.state == .live || ((b.record n).turn first).record.state == .stale)).foldl
            (fun c n => c.breachOne q n) c ∧
      c = { b with table := c.table, ports := c.ports, touch := { b.touch with candidates := c.touch.candidates } } ∧
      (∀ n, n < 64 → c.record n =
        if (b.record n).panel = q ∧ (b.record n).state ≠ .free then ((b.record n).turn first).record else b.record n) ∧
      (∀ n, n < 64 → c.touch.candidate n =
        if (b.record n).panel = q ∧ (b.record n).state ≠ .free ∧
            (((b.record n).state = .suspended ∧ (b.record n).resumeMark = true) ∨
              ∃ a, (b.record n).stagedAmendment = some a ∧ (b.record n).params.zone ≠ a.zone ∧
                ((b.record n).state = .live ∨ (b.record n).state = .stale ∨ (b.record n).state = .suspended) ∧
                ¬((b.record n).state = .stale ∧ (b.record n).params.cls ≠ a.cls ∧
                  ((b.record n).params.cls = .telltale ∨ a.cls = .telltale))) then none
        else b.touch.candidate n) ∧
      ∀ p, c.port p = { b.port p with noticeSet := { (b.port p).noticeSet with
          contract := (c.port p).noticeSet.contract } } ∧
        ∀ n, n < 64 → (c.port p).noticeSet.contract.getLsbD n = ((b.port p).noticeSet.contract.getLsbD n ||
          decide ((b.record n).panel = q ∧ (b.record n).state ≠ .free ∧ ((b.record n).turn first).notify = true ∧
            ((b.record n).owner = p.bits ∨ (b.record n).feeder = p.bits)))

/-- Step 6 of a turn claim on one contract that step 5 aged: breach by class and marks, its claim and its notice (R122 to
R125). -/
def Obligations.BreachActsByClass : Prop :=
  ∀ (q : Panel) (n : Nat) (b : Part) (r : Record) (period latency : Prop), r = b.record n →
    (period ↔ r.params.period < r.age) →
    (latency ↔ ∃ u l, r.pending = some u ∧ r.params.latency = some l ∧ l < u.age) →
    (¬(period ∨ latency) → b.breachOne q n = b) ∧
    ∀ d : Byte, (period ∨ latency) → (period → latency → d = 3) → (period → ¬latency → d = 1) →
      (¬period → latency → d = 2) →
      (r.params.cls = .telltale → r.fallback = true → b.breachOne q n = b) ∧
      (r.params.cls = .telltale → r.fallback = false →
        b.breachOne q n = ((b.setRecord n
          { r with
            fallback := true, state := .stale
            lateness := if r.lateness < 65535 then r.lateness + 1 else r.lateness }).raiseWhere
              (fun p => p.bits == r.owner || p.bits == r.feeder) (.contract n)).claim (Bank.ofPanel q)
              { code := .telltaleMiss, cls := .critical, scope := .contract, panel := some q,
                handle := some (r.handle n), detail := d }) ∧
      (r.params.cls ≠ .telltale → r.lateMark = false →
        b.breachOne q n = (b.setRecord n
          { r with
            lateMark := true, lateFrames := 0
            lateness := if r.lateness < 65535 then r.lateness + 1 else r.lateness }).claim (Bank.ofPanel q)
              { code := .late, cls := .corrected, scope := .contract, panel := some q, handle := some (r.handle n),
                detail := d }) ∧
      ∀ k, r.params.cls ≠ .telltale → r.lateMark = true → k = (if r.lateFrames < 16 then r.lateFrames + 1 else r.lateFrames) →
        (r.state = .live → (b.engine q).cfg.grace < k →
          b.breachOne q n = ((b.setRecord n { r with lateFrames := k, state := .stale }).raiseWhere
            (fun p => p.bits == r.owner || p.bits == r.feeder) (.contract n)).claim (Bank.ofPanel q)
              { code := .staleContract, cls := .contained, scope := .contract, panel := some q,
                handle := some (r.handle n), detail := BitVec.ofNat 8 k }) ∧
        (¬(r.state = .live ∧ (b.engine q).cfg.grace < k) → b.breachOne q n = b.setRecord n { r with lateFrames := k })

/-- Step 3 of a centre turn recomputes the scan set from the LIVE and STALE contracts' zones and bands, and keeps, starts
or abandons the touch frame (R129, R130, R132, R133); step 3 of a cluster turn does nothing. That the calibrated marks are
brought up to date at every recomputation is the model's reading, log 16; the mark of a burst whose touch frame is gone is
the model's own, log 13. -/
def Obligations.ScanSetRecomputed : Prop :=
  ∀ b : Part, b.rescan .cluster = b ∧
    (b.allGood = true → ∃ new : RowSet,
      (∀ t, t < 15 → (new.getLsbD t = true ↔ ∃ r ∈ b.table,
        r.panel = .centre ∧ (r.state = .live ∨ r.state = .stale) ∧ r.params.zone ≠ none ∧
          r.params.band.first ≤ 10 * t + 9 ∧ 10 * t ≤ r.params.band.last)) ∧
      ∃ marks : RowSet,
        (∀ t, t < 15 → marks.getLsbD t =
          (b.touch.calibrated.getLsbD t && (b.touch.scanSet.getLsbD t == new.getLsbD t))) ∧
        (new = 0 → b.rescan .centre = b.modTouch fun t =>
          { t with scanSet := new, calibrated := marks, state := .idle, frame := none
                   burst := t.burst.map fun u => { u with lost := true } }) ∧
        (new ≠ 0 → b.touch.state = .scanning → new = b.touch.scanSet → b.rescan .centre = b.modTouch fun t =>
          { t with calibrated := marks }) ∧
        (new ≠ 0 → ¬(b.touch.state = .scanning ∧ new = b.touch.scanSet) → b.rescan .centre = b.modTouch fun t =>
          { t with scanSet := new, calibrated := marks, state := .scanning
                   burst := t.burst.map fun u => { u with lost := true }
                   frame := some { rows := new, results := List.replicate 15 none, threshold := t.cfg.threshold,
                                   placement := t.cfg.placement } }))

/-- The plan a turn builds (R67, R69 to R73, R80 to R85): the due set in its order, each contract placed whole or
skipped, its missing row groups given the free slots, the placed-contract list with capture slots, PLAN_SHORT, fill
IDLE, and the carried outcome. That plan building reads all 64 records (R26), after the claim of deferred entries, is
the model's reading, log 7. -/
def Obligations.PlanPlacesContracts : Prop :=
  (∀ (q : Panel) (b b₁ b₂ : Part) (sp : SensePlan) (x : Build) (pl : Plan),
    sp = b.sensePlanFor q (isEdge (b.engine q).cfg.blPeriod (b.engine q).duty (b.engine q).output) (b.engine q).cfg.slots →
    b₁ = (if sp.deferred = 0 then b else b.claim .touch
      { code := .senseDeferred, cls := .corrected, scope := .panel, panel := some .centre, handle := none,
        detail := BitVec.ofNat 8 (b.touch.neededRows.getD sp.sense.length 0) }) →
    b₂ = b₁.verifyAll .planBuilding →
    x = (dueSet q b₂.table).foldl Build.take
      { draft := draftOf (b.engine q).cfg.slots sp b.touch.neededRows, placed := [], skipped := [] } →
    pl.entries = x.draft.map (fun k => { kind := k.getD .idle, outcome := .pending }) → pl.placed = x.placed →
    pl.carried = (match q, (b.engine q).plan with
      | .centre, some old =>
        match old.entries[old.entries.length - 2]? with
        | some y =>
          match y.kind with
          | .drive _ _ => some y.outcome
          | .fallback _ _ => some y.outcome
          | _ => none
        | none => none
      | _, _ => none) →
    b.buildPlan q = Part.modEngine q (fun e => { e with plan := some pl }) (match x.skipped with
              | [] => b₂
              | h :: _ => b₂.claim (Bank.ofPanel q)
                { code := .planShort, cls := .corrected, scope := .contract, panel := some q, handle := some h,
                  detail := BitVec.ofNat 8 x.skipped.length })) ∧
  (∀ (q : Panel) (table : List Record) (n : Nat) (r : Record), table.length = 64 →
    ((n, r) ∈ dueSet q table ↔ table[n]? = some r ∧ r.panel = q ∧ (r.state = .live ∨ r.state = .stale) ∧
      (r.pending ≠ none ∨ r.params.period ≤ r.age ∨ r.fallback = true)) ∧
    (dueSet q table).Pairwise fun x y =>
      (x.2.fallback = true ∧ (y.2.fallback = false ∨ x.1 < y.1)) ∨
      (x.2.fallback = false ∧ y.2.fallback = false ∧
        (x.2.slack < y.2.slack ∨ (x.2.slack = y.2.slack ∧
          (x.2.params.cls.rank < y.2.params.cls.rank ∨ (x.2.params.cls = y.2.params.cls ∧ x.1 < y.1)))))) ∧
  (∀ r : Record,
    ((r.pending = none ∨ r.params.latency = none) → r.slack = (r.params.period : Int) - r.age) ∧
    ∀ u l, r.pending = some u → r.params.latency = some l →
      r.slack = if (r.params.period : Int) - r.age ≤ (l : Int) - u.age then (r.params.period : Int) - r.age
        else (l : Int) - u.age) ∧
  ∀ (x : Build) (n : Nat) (r : Record) (kind : OrderKind) (missing : List Nat) (free : Nat) (dr : Draft) (y : Placed),
    kind = (if r.fallback = true ∧ r.pending = none then .fallback else .drive) →
    missing = (((List.range 256).filter fun g =>
      decide (r.params.band.first ≤ g) && decide (g ≤ r.params.band.last) &&
        !x.draft.any fun e => match e with
          | some (.drive g' _) => g' == g
          | some (.fallback g' _) => g' == g
          | _ => false)) →
    r.params.band.last < 256 →
    free = x.draft.countP Option.isNone →
    (free < missing.length → x.take (n, r) = { x with skipped := x.skipped ++ [r.handle n] }) ∧
    (missing.length ≤ free → dr = (x.take (n, r)).draft →
      y.handle = r.handle n → y.kind = kind → y.band = r.params.band →
      y.captureSlot = (match kind with
        | .drive => dr.findIdx? fun e => match e with
          | some (.drive g _) => decide (r.params.band.first ≤ g) && decide (g ≤ r.params.band.last)
          | _ => false
        | .fallback => none) →
      dr.length = x.draft.length ∧
      (∀ j, dr[j]? = match x.draft[j]? with
        | some none => some ((missing[(x.draft.take j).countP Option.isNone]?).map fun g =>
            match kind with
            | .drive => EntryKind.drive g n
            | .fallback => EntryKind.fallback g n)
        | e => e) ∧
      x.take (n, r) = { draft := dr, placed := x.placed ++ [y], skipped := x.skipped })

/-- The sense entries of a plan (R61, R73 to R78): a walk gives the SENSE entries to the lowest slots that are no edge
slots, and makes the edge slots it passed before the last of them sense IDLEs; LEAD is one walk, SPLIT two behind a GUARD;
the rows still needed are given in ascending order; what cannot be placed is deferred. -/
def Obligations.PlanPlacesSenses : Prop :=
  (∀ (period duty j : Nat) (before : Bool), isEdge period duty before j =
    if j = 0 then decide ((0 < duty ∧ duty < period) ∨ decide (0 % period < duty) ≠ before)
    else decide (0 < duty ∧ duty < period ∧ (j % period = 0 ∨ j % period = duty))) ∧
  (∀ (edge : Nat → Bool) (slots : Nat) (b : Part), b.sensePlanFor .cluster edge slots =
    { sense := [], idle := [], guard := none, deferred := 0 }) ∧
  (∀ (edge : Nat → Bool) (slots m n d k k₁ k₂ : Nat) (b : Part) (f : TouchFrame) (lead low high : List Nat),
    2 ≤ slots → m = slots / 2 → b.touch.frame = some f → b.touch.state = .scanning →
    n = ((List.range 15).filter fun t => f.rows.getLsbD t && f.results.getD t none == none).length →
    (∃ r ∈ b.table, r.panel = .centre ∧ (r.state = .live ∨ r.state = .stale) ∧
      ∃ z, r.params.zone = some z ∧ z.divisor = d) →
    (∀ r ∈ b.table, r.panel = .centre → (r.state = .live ∨ r.state = .stale) →
      ∀ z, r.params.zone = some z → d ≤ z.divisor) → 1 ≤ d → d ≤ 8 →
    k = (n + d - 1) / d →
    (f.placement = .lead → lead = ((List.range (slots - 1)).filter fun j => !edge j).take k →
      b.sensePlanFor .centre edge slots =
        { sense := lead
          idle := (List.range (slots - 1)).filter fun j => edge j && lead.any fun i => decide (j < i)
          guard := none, deferred := k - lead.length }) ∧
    (f.placement = .split → k₁ = (k + 1) / 2 →
      low = ((List.range (m - 1)).filter fun j => !edge j).take k₁ →
      k₂ = k - k₁ + (k₁ - low.length) →
      high = (((List.range (slots - 1)).filter fun j => decide (m ≤ j) && !edge j).take k₂) →
      b.sensePlanFor .centre edge slots =
        { sense := low ++ high
          idle := ((List.range (m - 1)).filter fun j => edge j && low.any fun i => decide (j < i)) ++
            (List.range (slots - 1)).filter fun j => decide (m ≤ j) && edge j && high.any fun i => decide (j < i)
          guard := if high = [] then none else some (m - 1)
          deferred := k₂ - high.length })) ∧
  (∀ (edge : Nat → Bool) (slots : Nat) (b : Part), (b.touch.state ≠ .scanning ∨ b.touch.frame = none) →
    b.touch.neededRows = [] ∧ (b.sensePlanFor .centre edge slots).sense = [] ∧
      (b.sensePlanFor .centre edge slots).idle = [] ∧ (b.sensePlanFor .centre edge slots).guard = none ∧
      (b.sensePlanFor .centre edge slots).deferred = 0) ∧
  ∀ (slots : Nat) (sp : SensePlan) (needed : List Nat) (j : Nat), j < slots → sp.sense.Nodup →
    sp.sense.length ≤ needed.length →
    (draftOf slots sp needed)[j]? = some (
      if j + 1 = slots then some .closing
      else if j ∈ sp.sense then some (.sense (needed.getD (sp.sense.idxOf j) 0))
      else if j ∈ sp.idle then some .idle
      else if sp.guard = some j then some .guard
      else none)

/-- The timeout of an order: it leaves the list, its entry takes TIMED_OUT, ORDER_TIMEOUT is claimed, the count rises
to 3 at most, and LINK_LOSS follows where it rises from 2 to 3 (R96, R97). That ORDER_TIMEOUT is the link's part of a
boundary alone is the model's choice, log 9. -/
def Obligations.OrderTimesOut : Prop :=
  ∀ (q : Panel) (s : State) (j : Nat) (o : Order) (rest : List Order) (pl : Plan) (b : Part),
    (s.part.engine q).state = .running → (s.part.engine q).slot = some j → (s.part.engine q).plan = some pl →
    (s.part.link q).orders = o :: rest → o.slot < j → (∀ x ∈ rest, j ≤ x.slot) →
    b = ((s.fresh.modLink q fun l => { orders := rest, timeouts := min 3 (l.timeouts + 1) }).setOutcome q o.slot
      .timedOut).claim (Bank.ofPanel q)
        { code := .orderTimeout, cls := .corrected, scope := .panel, panel := some q, handle := pl.causeHandle o.slot,
          detail := BitVec.ofNat 8 o.rowGroup } →
    (s.part.link q).timeouts ≤ 3 →
      exec (.orderTimeout q) s = .next { s with
        part := if (s.part.link q).timeouts = 2 then
            b.claim (Bank.ofPanel q)
              { code := .linkLoss, cls := .critical, scope := .panel, panel := some q, handle := none,
                detail := BitVec.ofNat 8 o.rowGroup }
          else b }

/-- A DONE completes the order it matches by row group, and is discarded where it matches none or the panel is not
RUNNING (R93, R94, R103). That completions handed on wait in a queue is the model's reading, log 12. -/
def Obligations.DoneCompletesOrDiscards : Prop :=
  ∀ (q : Panel) (g : Nat) (sig : Signature) (s : State),
    (∀ o before after, (s.part.engine q).state = .running → (s.part.link q).orders = before ++ o :: after →
      o.rowGroup = g → (∀ x ∈ before, x.rowGroup ≠ g) →
      exec (.done q g sig) s = .next { s with
        part := ((s.fresh.modLink q fun _ => { orders := before ++ after, timeouts := 0 }).setOutcome q o.slot .done).modCredit
          q fun c => { c with completions := c.completions ++
            [{ rowGroup := g, sig := sig, kind := o.kind, slot := o.slot }] } }) ∧
    (((s.part.engine q).state ≠ .running ∨ ∀ o ∈ (s.part.link q).orders, o.rowGroup ≠ g) →
      exec (.done q g sig) s = .next { s with part := s.fresh })

/-- A FAULT message is the claim of PANEL_FAULT at the panel's bank, in every panel state, and nothing else; the claim
hands a halt to the panel's engine and raises CRITICAL at the safety port, whatever the bank's controls (R99, R168,
R172, R173). The mark of a halt handed is the model's own, log 11. -/
def Obligations.PanelFaultHandsHalt : Prop :=
  ∀ (q : Panel) (code : Byte) (s : State),
    ∃ t, exec (.fault q code) s = .next t ∧ t.pending = s.pending ∧
      t.part = s.fresh.claim (Bank.ofPanel q)
        { code := .panelFault, cls := .critical, scope := .panel, panel := some q, handle := none, detail := code } ∧
      t.part.engine q = { s.part.engine q with haltHanded := true } ∧
      (∀ p, p ≠ q → t.part.engine p = s.part.engine p) ∧
      (t.part.port s.part.strap).noticeSet.critical = (s.part.port s.part.strap).noticeSet.critical ||| bitOf 2 q.num ∧
      (∀ p, p ≠ s.part.strap → t.part.port p = s.part.port p) ∧
      t.part.table = s.part.table ∧ t.part.links = s.part.links ∧ t.part.touch = s.part.touch ∧
      ((s.part.bank (Bank.ofPanel q)).enabled = false → t.part.faults = s.part.faults) ∧
      ((s.part.bank (Bank.ofPanel q)).enabled = true → (s.part.bank (Bank.ofPanel q)).record = none →
        (t.part.bank (Bank.ofPanel q)).record = some
          { cls := .critical, code := .panelFault, scope := .panel, panel := some q, handle := none, detail := code,
            frame := (s.part.engine q).frame, overflow := false, injected := false })

/-! ### Refresh accounting -/

/-- COMPLETION_CREDIT (R110): a completion credited to the one listed contract whose plan scope holds its row group adds
one group and its signature; one that no listed contract stands for changes nothing in the table; one that several
listed contracts hold is credited to them one after the other in ascending contract number, each judged before the next.
That completions wait in a queue, oldest first, is the model's reading, log 12; with none waiting the command has no
effect, the model's choice, log 3. -/
def Obligations.CompletionCredited : Prop :=
  ∀ (q : Panel) (s : State),
    ((s.part.credit q).completions = [] → exec (.completionCredit q) s = .next { s with part := s.fresh }) ∧
    (∀ (c : Completion) (cs : List Completion) (xs : List Placed), (s.part.credit q).completions = c :: cs →
      xs.Perm ((s.part.creditList q).filter fun y => y.band.has c.rowGroup) →
      xs.Pairwise (fun x y => x.handle % 64 < y.handle % 64) →
      exec (.completionCredit q) s = .next { s with
        part := (xs.foldl (fun b x => b.creditOne q c x) s.fresh).modCredit q
          fun k => { completions := cs, keptPlaced := if cs = [] then none else k.keptPlaced } }) ∧
    (∀ (b : Part) (c : Completion) (x : Placed) (n : Nat) (r r₁ : Record), n = x.handle % 64 → r = b.record n →
      r.checkGood = true →
      r₁ = { r with accum := { r.accum with groups := r.accum.groups + 1, sum := r.accum.sum + c.sig } } →
      ((r.handle n ≠ x.handle ∨ (r.state ≠ .live ∧ r.state ≠ .stale)) → b.creditOne q c x = b) ∧
      (r.handle n = x.handle → (r.state = .live ∨ r.state = .stale) →
        b.creditOne q c x =
          if r.accum.groups + 1 = x.band.size then (b.setRecord n r₁).judgeRefresh q n x.kind c.rowGroup
          else b.setRecord n r₁)) ∧
    ∀ c cs, (s.part.credit q).completions = c :: cs →
      (∀ x n r, (s.part.creditList q).filter (fun y => y.band.has c.rowGroup) = [x] → n = x.handle % 64 →
        r = s.part.record n → r.checkGood = true → r.handle n = x.handle → (r.state = .live ∨ r.state = .stale) →
        r.accum.groups + 1 ≠ x.band.size →
          exec (.completionCredit q) s = .next { s with
            part := (s.fresh.setRecord n
              { r with accum := { r.accum with groups := r.accum.groups + 1, sum := r.accum.sum + c.sig } }).modCredit q
                fun k => { completions := cs, keptPlaced := if cs = [] then none else k.keptPlaced } }) ∧
      ((∀ y ∈ s.part.creditList q, y.band.has c.rowGroup = true →
        (s.part.record (y.handle % 64)).checkGood = true ∧
          ((s.part.record (y.handle % 64)).handle (y.handle % 64) ≠ y.handle ∨
            ((s.part.record (y.handle % 64)).state ≠ .live ∧ (s.part.record (y.handle % 64)).state ≠ .stale))) →
        exec (.completionCredit q) s = .next { s with
          part := s.fresh.modCredit q fun k => { completions := cs, keptPlaced := if cs = [] then none else k.keptPlaced } })

/-- The credit that completes a band judges the refresh at once (R111 to R120): a FALLBACK refresh; without checking,
nothing pending or an update served; the captured update served, a newer one left pending, or nothing captured; newer
content already drawn; first sight; a mismatch; and the end of a one-shot contract whose update is served. That
completions wait in a queue is the model's reading, log 12; that a captured tag whose update is no longer pending
becomes the last served tag is the model's reading, log 20. A row group of several listed contracts is said by
CompletionCredited. -/
def Obligations.CompleteRefreshJudged : Prop :=
  ∀ (q : Panel) (s : State) (c : Completion) (cs : List Completion) (x : Placed) (n : Nat) (r r₁ : Record) (k : CreditQueue),
    (s.part.credit q).completions = c :: cs →
    (s.part.creditList q).filter (fun y => y.band.has c.rowGroup) = [x] → n = x.handle % 64 → r = s.part.record n →
    s.part.TableSized → r.checkGood = true → r.handle n = x.handle → (r.state = .live ∨ r.state = .stale) →
    r.accum.groups + 1 = x.band.size →
    r₁ = { r with accum := { r.accum with groups := r.accum.groups + 1, sum := r.accum.sum + c.sig } } →
    k = { completions := cs, keptPlaced := if cs = [] then none else (s.part.credit q).keptPlaced } →
    (∀ (base known r₂ : Record) (serves : Bool),
      base = { r₁ with
        age := 0, lastRefresh := some (s.part.engine q).frame, lateMark := false, lateFrames := 0
        state := if r.state = .stale ∧ r.fallback = true then .stale else .live } →
      known = { base with state := .live, fallback := false } →
      ((x.kind = .fallback ∧ serves = false ∧ r₂ = { r₁ with age := 0, lastRefresh := some (s.part.engine q).frame }) ∨
        (x.kind = .drive ∧ r.params.checking = false ∧ r.pending = none ∧ serves = false ∧ r₂ = base) ∨
        (∃ u, x.kind = .drive ∧ r.params.checking = false ∧ r.pending = some u ∧ serves = true ∧
          r₂ = { base with pending := none, lastServed := some u.tag }) ∨
        (∃ u, x.kind = .drive ∧ r.params.checking = true ∧ r.accum.expected = some r₁.accum.sum ∧
          r.accum.tag = some u.tag ∧ r.pending = some u ∧ u.sig = some r₁.accum.sum ∧ serves = true ∧
          r₂ = { known with pending := none, lastServed := some u.tag, confirmed := some r₁.accum.sum }) ∨
        (∃ t, x.kind = .drive ∧ r.params.checking = true ∧ r.accum.expected = some r₁.accum.sum ∧
          r.accum.tag = some t ∧ (∀ u, r.pending = some u → u.tag ≠ t ∨ u.sig ≠ some r₁.accum.sum) ∧ serves = false ∧
          r₂ = { known with lastServed := some t, confirmed := some r₁.accum.sum }) ∨
        (x.kind = .drive ∧ r.params.checking = true ∧ r.accum.expected = some r₁.accum.sum ∧ r.accum.tag = none ∧
          serves = false ∧ r₂ = known) ∨
        (∃ u, x.kind = .drive ∧ r.params.checking = true ∧ r.accum.expected ≠ some r₁.accum.sum ∧ r.pending = some u ∧
          u.sig = some r₁.accum.sum ∧ serves = true ∧
          r₂ = { known with pending := none, lastServed := some u.tag, confirmed := some r₁.accum.sum }) ∨
        (x.kind = .drive ∧ r.params.checking = true ∧ r.accum.expected ≠ some r₁.accum.sum ∧ r.pending = none ∧
          r.confirmed = none ∧ serves = false ∧ r₂ = { base with confirmed := some r₁.accum.sum })) →
      ((serves = false ∨ r.params.oneShot = false) →
        exec (.completionCredit q) s = .next { s with
          part := ((s.fresh.setRecord n r₂).raiseWhere
            (fun p => (p.bits == r.owner || p.bits == r.feeder) && r₂.state != r.state) (.contract n)).modCredit q
              fun _ => k }) ∧
      (serves = true → r.params.oneShot = true → (s.part.engine q).state = .running →
        exec (.completionCredit q) s = .next { s with
          part := ((s.fresh.setRecord n
            { r₂ with
              state := .retiring, suspendMark := false, resumeMark := false, stagedAmendment := none
              fallback := false, lateMark := false }).raiseWhere
                (fun p => p.bits == r.owner || p.bits == r.feeder) (.contract n)).modCredit q fun _ => k }) ∧
      (serves = true → r.params.oneShot = true → (s.part.engine q).state ≠ .running →
        exec (.completionCredit q) s = .next { s with
          part := ((s.fresh.setRecord n (Record.freeWith (r.generation + 1))).raiseWhere
            (fun p => p.bits == r.owner || p.bits == r.feeder) (.contract n)).modCredit q fun _ => k })) ∧
    (x.kind = .drive → r.params.checking = true → r.accum.expected ≠ some r₁.accum.sum →
      (∀ u, r.pending = some u → u.sig ≠ some r₁.accum.sum) → (r.pending = none → r.confirmed ≠ none) →
      exec (.completionCredit q) s = .next { s with
        part := (((s.fresh.setRecord n
          { r₁ with state := .stale, fallback := r.fallback || r.params.cls == .telltale }).raiseWhere
            (fun p => (p.bits == r.owner || p.bits == r.feeder) && r.state == .live) (.contract n)).claim
              (Bank.ofPanel q)
              { code := .sigMismatch, cls := if r.params.cls = .telltale then .critical else .contained,
                scope := .contract, panel := some q, handle := some x.handle,
                detail := BitVec.ofNat 8 c.rowGroup }).modCredit q fun _ => k })

/-! ### Touch -/

/-- A sense complete writes the result array and files the burst: without a burst nothing, disturbed, of a lost touch
frame or a row not needed, and a calibration that meets the end of the range (R135, R136, R137). Without a burst the
command has no effect, the model's choice, log 3; the mark of a burst whose touch frame is gone is the model's own,
log 13. -/
def Obligations.SenseCompleteFiled : Prop :=
  ∀ (counts : Vector RawCount 24) (s : State),
    (s.part.touch.burst = none → exec (.senseComplete counts) s = .next { s with part := s.fresh }) ∧
    ∀ u b, s.part.touch.burst = some u →
      b = s.fresh.modTouch (fun t =>
        { t with burst := none, resultRow := u.row, resultCounts := counts.toList.map BitVec.toNat }) →
      (u.disturbed = true →
        exec (.senseComplete counts) s = .next { s with
          part := (b.setOutcome .centre u.slot .disturbed).claim .touch
            { code := .senseDisturbed, cls := .corrected, scope := .panel, panel := some .centre, handle := none,
              detail := BitVec.ofNat 8 u.row } }) ∧
      (u.disturbed = false → (u.lost = true ∨ u.row ∉ s.part.touch.neededRows) →
        exec (.senseComplete counts) s = .next { s with part := b.setOutcome .centre u.slot .done }) ∧
      (u.disturbed = false → u.lost = false → u.row ∈ s.part.touch.neededRows →
        s.part.touch.calibrated.getLsbD u.row = false → (∃ c ∈ counts.toList, c = 0 ∨ c = 4095) →
        exec (.senseComplete counts) s = .next { s with
          part := (b.setOutcome .centre u.slot .done).claim .touch
            { code := .calFail, cls := .contained, scope := .panel, panel := some .centre, handle := none,
              detail := BitVec.ofNat 8 u.row } })

/-- A good burst scans its row: a calibration burst sets the baselines, a measurement burst the deltas; while other rows
are NEEDED the touch frame goes on, and the last one completes it: delta map, tracking event, drift of the baselines,
completed count, new touch frame (R137 to R140). The touch state, the scan set and the configuration stand. The mark of
a burst whose touch frame is gone is the model's own, log 13. -/
def Obligations.GoodBurstScansRow : Prop :=
  ∀ (counts : Vector RawCount 24) (s : State) (u : Burst) (f f' : TouchFrame) (raw : List Nat) (x : RowResult)
    (baselines : List (List Nat)),
    s.part.touch.burst = some u → u.disturbed = false → u.lost = false → s.part.touch.state = .scanning →
    s.part.touch.frame = some f → u.row ∈ f.needed → raw = counts.toList.map BitVec.toNat →
    ((s.part.touch.calibrated.getLsbD u.row = false ∧ ∀ c ∈ counts.toList, c ≠ 0 ∧ c ≠ 4095) ∨
      s.part.touch.calibrated.getLsbD u.row = true) →
    (x = if s.part.touch.calibrated.getLsbD u.row then
        { raw := raw, deltas := List.zipWith (fun base n => base - n) (s.part.touch.baselines.getD u.row []) raw }
      else ({ raw := raw, deltas := List.replicate 24 0 } : RowResult)) →
    baselines = (if s.part.touch.calibrated.getLsbD u.row then s.part.touch.baselines
      else s.part.touch.baselines.set u.row raw) →
    f' = { f with results := f.results.set u.row (some x) } →
    ∃ t, exec (.senseComplete counts) s = .next t ∧ t.pending = s.pending ∧ t.part.touch.burst = none ∧
      t.part.touch.resultRow = u.row ∧ t.part.touch.resultCounts = raw ∧ t.part.touch.state = s.part.touch.state ∧
      t.part.touch.scanSet = s.part.touch.scanSet ∧ t.part.touch.cfg = s.part.touch.cfg ∧
      t.part.touch.calibrated = s.part.touch.calibrated ||| bitOf 15 u.row ∧
      (f.needed ≠ [u.row] →
        t.part = { s.fresh.setOutcome .centre u.slot .done with touch := t.part.touch } ∧
        t.part.touch.frame = some f' ∧ t.part.touch.completed = s.part.touch.completed ∧
        t.part.touch.baselines = baselines ∧ t.part.touch.contacts = s.part.touch.contacts ∧
        t.part.touch.candidates = s.part.touch.candidates ∧ t.part.touch.deltaMap = s.part.touch.deltaMap) ∧
      (f.needed = [u.row] → f.results.length = 15 →
        t.part.touch.completed = s.part.touch.completed + 1 ∧
        t.part.touch.deltaMap = ((List.range 15).map fun row =>
          match f.rows.getLsbD row, f'.results.getD row none with
          | true, some y => y.deltas
          | _, _ => List.replicate 24 0) ∧
        t.part.touch.frame = some { rows := s.part.touch.scanSet, results := List.replicate 15 none,
                                    threshold := s.part.touch.cfg.threshold, placement := s.part.touch.cfg.placement } ∧
        (∃ b b' : Part, b = { s.fresh.setOutcome .centre u.slot .done with touch := b.touch } ∧
          b.touch.contacts = s.part.touch.contacts ∧ b.touch.candidates = s.part.touch.candidates ∧
          b' = b.track { map := t.part.touch.deltaMap, threshold := f.threshold, rows := f.rows,
                         calibrated := t.part.touch.calibrated } ∧
          t.part = { b' with touch := t.part.touch } ∧ t.part.touch.contacts = b'.touch.contacts ∧
          t.part.touch.candidates = b'.touch.candidates) ∧
        ∀ row c base, row < 15 → c < 24 → base = (baselines.getD row []).getD c 0 →
          (t.part.touch.baselines.getD row []).getD c 0 =
            match f.rows.getLsbD row, f'.results.getD row none with
            | true, some y =>
              if 2 * y.deltas.getD c 0 < f.threshold ∧ ∀ k ∈ t.part.touch.contacts, k.state ≠ .lifted →
                  ¬(k.y / 80 ≤ row + 1 ∧ row ≤ k.y / 80 + 1 ∧ k.x / 80 ≤ c + 1 ∧ c ≤ k.x / 80 + 1) then
                if y.raw.getD c 0 < base then base - 1
                else if base < y.raw.getD c 0 then base + 1
                else base
              else base
            | _, _ => base)

/-- Steps 1 and 2 of the tracking event (R148 to R154): peaks with their positions and strengths, matched greedily to the
records that stand, unmatched records lifted, unmatched peaks touched down while there is room, CONTACT_OVERFLOW for the
others. -/
def Obligations.PeaksBecomeContacts : Prop :=
  (∀ (h : HandOver) (t c : Nat),
    h.delta t c = (if h.rows.getLsbD t = true ∧ h.calibrated.getLsbD t = true then (h.map.getD t []).getD c 0 else 0) ∧
    (t < 15 → c < 24 → (h.isPeak t c = true ↔
      h.rows.getLsbD t = true ∧ h.calibrated.getLsbD t = true ∧ h.threshold ≤ h.delta t c ∧
      ∀ t' c', t' < 15 → c' < 24 → ¬(t' = t ∧ c' = c) → t' ≤ t + 1 → t ≤ t' + 1 → c' ≤ c + 1 → c ≤ c' + 1 →
        h.delta t' c' ≤ h.delta t c ∧ ((t' < t ∨ (t' = t ∧ c' < c)) → h.delta t' c' < h.delta t c))) ∧
    ∀ l r u d : Nat, t < 15 → c < 24 → l = (if c = 0 then 0 else h.delta t (c - 1)) →
      r = (if c = 23 then 0 else h.delta t (c + 1)) → u = (if t = 0 then 0 else h.delta (t - 1) c) →
      d = (if t = 14 then 0 else h.delta (t + 1) c) →
      h.peak t c =
        { row := t
          x := min 1919 (80 * (c : Int) + 40 + (80 * ((r : Int) - l)).tdiv (l + h.delta t c + r : Nat)).toNat
          y := min 1199 (80 * (t : Int) + 40 + (80 * ((d : Int) - u)).tdiv (u + h.delta t c + d : Nat)).toNat
          strength := h.delta t c }) ∧
  (∀ h : HandOver,
    h.peaks = ((List.range 15).map fun t =>
      ((List.range 24).filter fun c => h.isPeak t c).map fun c => h.peak t c).flatten ∧
    h.orderedPeaks.Pairwise (fun x y => y.strength ≤ x.strength) ∧
    ∀ n, (h.orderedPeaks.filter fun x => x.strength == n) = h.peaks.filter fun x => x.strength == n) ∧
  (∀ (k : Peak) (ks : List Peak) (es before after : List Tracked) (e : Tracked) (far : Tracked → Nat),
    (∀ x, far x = ((k.x - x.contact.x) + (x.contact.x - k.x)) + ((k.y - x.contact.y) + (x.contact.y - k.y))) →
    matchPeaks [] es = (es, []) ∧
    ((∀ x ∈ es, x.matched = true ∨ 160 < far x) →
      matchPeaks (k :: ks) es = ((matchPeaks ks es).1, k :: (matchPeaks ks es).2)) ∧
    (es = before ++ e :: after → (es.map fun x => x.contact.id).Nodup → e.matched = false → far e ≤ 160 →
      (∀ x ∈ before, x.matched = false → far e < far x) → (∀ x ∈ after, x.matched = false → far e ≤ far x) →
      matchPeaks (k :: ks) es = matchPeaks ks (before ++
        { contact := { e.contact with
            state := .held, x := k.x, y := k.y, strength := k.strength
            framesHeld := if e.contact.framesHeld < 255 then e.contact.framesHeld + 1 else e.contact.framesHeld }
          matched := true } :: after))) ∧
  (∀ (k : Peak) (ks : List Peak) (cs before after : List Contact) (i : Nat),
    touchDown cs [] = (cs, []) ∧
    (10 ≤ cs.length → touchDown cs (k :: ks) = ((touchDown cs ks).1, k :: (touchDown cs ks).2)) ∧
    (cs.length < 10 → cs = before ++ after → (∀ x ∈ before, x.id < i) → (∀ x ∈ after, i < x.id) → i ≤ 15 →
      (∀ m, m < i → ∃ x ∈ cs, x.id = m) →
      touchDown cs (k :: ks) = touchDown (before ++
        { id := i, state := .touchdown, x := k.x, y := k.y, strength := k.strength, framesHeld := 0, zone := none } ::
          after) ks)) ∧
  ∀ (h : HandOver) (b : Part) (ms : List Tracked) (rest dropped : List Peak) (cs : List Contact),
    matchPeaks h.orderedPeaks ((b.touch.contacts.filter fun c => c.state != .lifted).map fun c =>
      { contact := c, matched := false }) = (ms, rest) →
    touchDown (ms.map fun e => if e.matched = true then e.contact else { e.contact with state := .lifted, zone := none })
      rest = (cs, dropped) →
    b.takePeaks h = dropped.foldl (fun b k => b.claim .touch
      { code := .contactOverflow, cls := .corrected, scope := .panel, panel := some .centre, handle := none,
        detail := BitVec.ofNat 8 k.row }) (b.modTouch fun t => { t with contacts := cs })

/-- Steps 3 to 5 of the tracking event (R148, R155 to R160): each contact associated with the candidate zone that holds
it, of best class, then lowest number; press candidates and zone states in ascending contract number, with their ZONE
notices; the press state of other zone contracts dropped without notice; the CONTACTS notice. -/
def Obligations.ZonesFollowContacts : Prop :=
  (∀ (b : Part) (h : HandOver),
    b.track h = Part.noticeContacts b.touch.contacts
      ((List.range 64).foldl (fun b n => b.pressOne n) ((b.takePeaks h).associateContacts)) ∧
    (b.allGood = true → b.associateContacts = b.modTouch fun t =>
      { t with contacts := t.contacts.map fun c => c.associate b.table })) ∧
  (∀ (table : List Record) (c : Contact) (holds : Record → Prop), table.length = 64 →
    (∀ r, holds r ↔ r.panel = .centre ∧ (r.state = .live ∨ r.state = .stale ∨ r.state = .retiring) ∧
      ∃ z, r.params.zone = some z ∧ z.firstCol ≤ c.x ∧ c.x ≤ z.lastCol ∧ 8 * r.params.band.first ≤ c.y ∧
        c.y ≤ 8 * r.params.band.last + 7) →
    (c.state = .lifted → c.associate table = c) ∧
    (c.state ≠ .lifted → (∀ r ∈ table, ¬holds r) → c.associate table = { c with zone := none }) ∧
    (∀ n r, c.state ≠ .lifted → table[n]? = some r → holds r →
      (∀ m r', table[m]? = some r' → holds r' →
        r.params.cls.rank < r'.params.cls.rank ∨ (r.params.cls = r'.params.cls ∧ n ≤ m)) →
      c.associate table = { c with zone := some (r.handle n) })) ∧
  (∀ (b : Part) (n : Nat) (r : Record) (mine : List Contact) (k k' : Option PressCandidate) (z : Option ZoneState),
    r = b.record n → contactsLawful b.touch.contacts →
    mine = (b.touch.contacts.filter fun c => c.state != .lifted && c.zone == some (r.handle n)) →
    k = (match b.touch.candidate n with
      | some x => if x.handle = r.handle n then some x else none
      | none => none) →
    ((r.panel ≠ .centre ∨ r.params.zone = none ∨ r.state = .free) →
      b.pressOne n = b.modTouch fun t => { t with candidates := t.candidates.set n k }) ∧
    (r.panel = .centre → r.params.zone ≠ none → (r.state = .staged ∨ r.state = .suspended) →
      ((∀ i, r.zoneState ≠ some (.pressed i)) →
        b.pressOne n = b.modTouch fun t => { t with candidates := t.candidates.set n none }) ∧
      ∀ i, r.zoneState = some (.pressed i) →
        b.pressOne n = Part.setRecord n { r with zoneState := some .idle }
          (b.modTouch fun t => { t with candidates := t.candidates.set n none })) ∧
    ∀ y, r.panel = .centre → r.params.zone = some y → (r.state = .live ∨ r.state = .stale ∨ r.state = .retiring) →
      (mine = [] → k' = none) →
      (∀ l ∈ mine, (∀ x ∈ mine, x.strength < l.strength ∨ (x.strength = l.strength ∧ l.id ≤ x.id)) →
        (∀ x, k = some x → (∃ c ∈ mine, c.id = x.contact) →
          k' = some { x with run := if x.run < 7 then x.run + 1 else x.run }) ∧
        ((∀ x, k = some x → ∀ c ∈ mine, c.id ≠ x.contact) →
          k' = some { handle := r.handle n, contact := l.id, run := 1 })) →
      (∀ i, r.zoneState = some (.pressed i) →
        (mine = [] → z = some .idle) ∧ ((∃ c ∈ mine, c.id = i) → z = some (.pressed i)) ∧
        (∀ x, mine ≠ [] → (∀ c ∈ mine, c.id ≠ i) → k' = some x → z = some (.pressed x.contact))) →
      ((∀ i, r.zoneState ≠ some (.pressed i)) →
        (k' = none → z = r.zoneState) ∧
        ∀ x, k' = some x → z = if y.debounce ≤ x.run then some (.pressed x.contact) else r.zoneState) →
      b.pressOne n =
        if z = r.zoneState then b.modTouch fun t => { t with candidates := t.candidates.set n k' }
        else ((b.modTouch fun t => { t with candidates := t.candidates.set n k' }).setRecord n
          { r with zoneState := z }).raiseWhere (fun p => p.bits == r.owner) (.zone n)) ∧
  ∀ (b : Part) (before : List Contact) (changed : Prop),
    (changed ↔ (b.touch.contacts.map fun c => (c.id, c.state, c.x, c.y, c.zone)) ≠
      before.map fun c => (c.id, c.state, c.x, c.y, c.zone)) →
    (¬changed → Part.noticeContacts before b = b) ∧
    (changed → Part.noticeContacts before b = b.raiseWhere (fun p => b.table.any fun r =>
      r.state != .free && r.panel == .centre && r.params.zone.isSome && r.owner == p.bits) .contacts)

/-- TOUCH_CONFIG with its ranges over the bytes, RECALIBRATE, and CONTACTS byte by byte (R141, R142, R161, R196, Tables
11-1, 11-4 and 11-6). The mark of a burst whose touch frame is gone is the model's own, log 13. -/
def Obligations.TouchRequestsAct : Prop :=
  ∀ (p : Port) (s : State),
    (∀ ps, s.fresh.holds p .touchConfig ps = true →
      (touchConfigArgs ps = none →
        exec (.touchConfig p) s = .next { s with part := s.fresh.place p { status := .badArg, payload := [] } }) ∧
      (∀ th tl pl : Byte, ps = [th, tl, pl] →
        ((th.toNat * 256 + tl.toNat < 1 ∨ 1023 < th.toNat * 256 + tl.toNat ∨ 1 < pl.toNat) →
          exec (.touchConfig p) s = .next { s with part := s.fresh.place p { status := .badArg, payload := [] } }) ∧
        (1 ≤ th.toNat * 256 + tl.toNat → th.toNat * 256 + tl.toNat ≤ 1023 → pl.toNat ≤ 1 →
          touchConfigArgs ps = some
            { threshold := th.toNat * 256 + tl.toNat, placement := if pl.toNat = 0 then .lead else .split })) ∧
      ∀ c, touchConfigArgs ps = some c →
        exec (.touchConfig p) s = .next { s with
          part := (s.fresh.modTouch fun t => { t with cfg := c }).place p
            { status := if s.part.touch.state = .scanning then .staged else .ok, payload := [] } }) ∧
    (∀ ps, s.fresh.holds p .recalibrate ps = true → s.fresh.allGood = true →
      (¬ (p = s.part.strap ∨ ∃ r ∈ s.part.table,
          r.state ≠ .free ∧ r.panel = .centre ∧ r.params.zone.isSome = true ∧ r.owner = p.bits) →
        exec (.recalibrate p) s = .next { s with part := s.fresh.place p { status := .noAuthority, payload := [] } }) ∧
      ((p = s.part.strap ∨ ∃ r ∈ s.part.table,
          r.state ≠ .free ∧ r.panel = .centre ∧ r.params.zone.isSome = true ∧ r.owner = p.bits) →
        exec (.recalibrate p) s = .next { s with
          part := (s.fresh.modTouch fun t =>
            if t.state = .scanning then
              { t with
                calibrated := 0
                burst := t.burst.map fun u => { u with lost := true }
                frame := some { rows := t.scanSet, results := List.replicate 15 none, threshold := t.cfg.threshold,
                                placement := t.cfg.placement } }
            else { t with calibrated := 0 }).place p { status := .ok, payload := [] } })) ∧
    ∀ ps, s.fresh.holds p .contacts ps = true →
      exec (.contacts p) s = .next { s with
        part := s.fresh.place p
          { status := .ok
            payload := byte1 (match s.part.touch.state with
                | .idle => 0
                | .scanning => 1
                | .suspended => 2) ++ byte2 s.part.touch.scanSet.toNat ++
              byte2 s.part.touch.calibrated.toNat ++ byte2 s.part.touch.completed.toNat ++
              byte1 s.part.touch.contacts.length ++ s.part.touch.contacts.flatMap fun c =>
                byte1 c.id ++
                byte1 (match c.state with
                  | .touchdown => 0
                  | .held => 1
                  | .lifted => 2) ++
                byte2 c.x ++ byte2 c.y ++ byte2 c.strength ++ byte1 c.framesHeld ++
                byte2 (match c.zone with
                  | some h => h
                  | none => 0xFFFF) } }

/-! ### Fault monitor -/

/-- FAULT_READ with its 17 bytes, FAULT_CLEAR and ACK_CRITICAL (R176, R177, R178, Tables 11-4 and 11-7). -/
def Obligations.FaultReadClearAck : Prop :=
  ∀ (p : Port) (ps : List Byte) (s : State),
    (s.fresh.holds p .faultRead ps = true →
      (bankArg ps = none →
        exec (.faultRead p) s = .next { s with part := s.fresh.place p { status := .badArg, payload := [] } }) ∧
      ∀ (k : Bank) (head bytes : List Byte), bankArg ps = some k →
        ((s.part.bank k).record = none → head = [0, 0, 0, 0, 0, 0xFF, 0xFF, 0, 0, 0, 0, 0]) →
        (∀ r, (s.part.bank k).record = some r → head =
          byte1 (1 + 2 * r.overflow.toNat + 4 * r.injected.toNat + 8 * r.panel.isSome.toNat + 16 * r.handle.isSome.toNat) ++
          byte1 (match r.cls with
            | .corrected => 0
            | .contained => 1
            | .critical => 2) ++
          byte1 (match r.code with
            | .late => 1
            | .staleContract => 2
            | .telltaleMiss => 3
            | .sigMismatch => 4
            | .planShort => 5
            | .orderTimeout => 6
            | .linkLoss => 7
            | .panelFault => 8
            | .startFail => 9
            | .senseDisturbed => 10
            | .senseDeferred => 11
            | .contactOverflow => 12
            | .calFail => 13
            | .frameCheck => 14
            | .portOverrun => 15
            | .tableCheck => 16) ++
          byte1 (match r.scope with
            | .contract => 0
            | .panel => 1
            | .part => 2) ++
          byte1 (if r.panel = some .centre then 1 else 0) ++ byte2 (r.handle.getD 0xFFFF) ++ [r.detail] ++
          byte4 r.frame.toNat) →
        bytes = head ++ byte1 (s.part.bank k).enabled.toNat ++ byte1 (s.part.bank k).mask.toNat ++
          byte1 (s.part.bank k).threshold ++ byte1 (s.part.bank k).count ++ byte1 s.part.faults.injectEnable.toNat →
        bytes.length = 17 ∧
          exec (.faultRead p) s = .next { s with part := s.fresh.place p { status := .ok, payload := bytes } }) ∧
    (s.fresh.holds p .faultClear ps = true →
      (bankArg ps = none →
        exec (.faultClear p) s = .next { s with part := s.fresh.place p { status := .badArg, payload := [] } }) ∧
      ∀ k, bankArg ps = some k →
        exec (.faultClear p) s = .next { s with
          part := (s.fresh.setBank k { s.part.bank k with record := none }).place p { status := .ok, payload := [] } }) ∧
    (s.fresh.holds p .ackCritical ps = true →
      (panelArg ps = none →
        exec (.ackCritical p) s = .next { s with part := s.fresh.place p { status := .badArg, payload := [] } }) ∧
      ∀ q, panelArg ps = some q →
        ((s.part.engine q).critical = true →
          exec (.ackCritical p) s = .next { s with
            part := (s.fresh.modEngine q fun e => { e with critical := false }).place p { status := .ok, payload := [] } }) ∧
        ((s.part.engine q).critical = false →
          exec (.ackCritical p) s = .next { s with
            part := s.fresh.place p { status := .nothingPending, payload := [] } }))

/-- FAULT_CONTROL replaces a bank's controls and the inject enable, and discards a count that the new threshold does not
exceed (R179). -/
def Obligations.FaultControlReplaces : Prop :=
  ∀ (p : Port) (kn en mask th inj : Byte) (s : State), s.fresh.holds p .faultControl [kn, en, mask, th, inj] = true →
    ((Bank.ofNat? kn.toNat = none ∨ 1 < en.toNat ∨ 8 ≤ mask.toNat ∨ th = 0 ∨ 1 < inj.toNat) →
      exec (.faultControl p) s = .next { s with part := s.fresh.place p { status := .badArg, payload := [] } }) ∧
    ∀ k, Bank.ofNat? kn.toNat = some k → en.toNat ≤ 1 → mask.toNat < 8 → th ≠ 0 → inj.toNat ≤ 1 →
      ∃ t : Part, exec (.faultControl p) s = .next { s with part := t.place p { status := .ok, payload := [] } } ∧
        t = { s.fresh with faults := t.faults } ∧
        t.bank k = { s.part.bank k with
          enabled := decide (en.toNat = 1), mask := BitVec.ofNat 3 mask.toNat, threshold := th.toNat
          count := if (s.part.bank k).count < th.toNat then (s.part.bank k).count else 0 } ∧
        (∀ k', k' ≠ k → t.bank k' = s.part.bank k') ∧ t.faults.injectEnable = decide (inj.toNat = 1)

/-- INJECT is refused by argument, by the ranges of R180 over its bytes, and then by the inject enable; an accepted one
is counted, placed and reported at its bank, enabled or not, and escalates nothing (R169, R170, R171, R180). -/
def Obligations.InjectTakesClaim : Prop :=
  ∀ (p : Port) (ps : List Byte) (s : State), s.fresh.holds p .inject ps = true →
    (injectArgs ps = none →
      exec (.inject p) s = .next { s with part := s.fresh.place p { status := .badArg, payload := [] } }) ∧
    (∀ kn cn code scope detail : Byte, ps = [kn, cn, code, scope, detail] →
      ((3 < kn.toNat ∨ 2 < cn.toNat ∨ code.toNat < 1 ∨ 16 < code.toNat ∨ 2 < scope.toNat) →
        exec (.inject p) s = .next { s with part := s.fresh.place p { status := .badArg, payload := [] } }) ∧
      (kn.toNat ≤ 3 → cn.toNat ≤ 2 → 1 ≤ code.toNat → code.toNat ≤ 16 → scope.toNat ≤ 2 →
        ∃ k c, injectArgs ps = some (k, c) ∧ k.num = kn.toNat ∧ c.detail = detail ∧
          cn.toNat = (match c.cls with
            | .corrected => 0
            | .contained => 1
            | .critical => 2) ∧
          scope.toNat = (match c.scope with
            | .contract => 0
            | .panel => 1
            | .part => 2) ∧
          code.toNat = (match c.code with
            | .late => 1
            | .staleContract => 2
            | .telltaleMiss => 3
            | .sigMismatch => 4
            | .planShort => 5
            | .orderTimeout => 6
            | .linkLoss => 7
            | .panelFault => 8
            | .startFail => 9
            | .senseDisturbed => 10
            | .senseDeferred => 11
            | .contactOverflow => 12
            | .calFail => 13
            | .frameCheck => 14
            | .portOverrun => 15
            | .tableCheck => 16))) ∧
    ∀ k c, injectArgs ps = some (k, c) →
      (s.part.faults.injectEnable = false →
        exec (.inject p) s = .next { s with part := s.fresh.place p { status := .noAuthority, payload := [] } }) ∧
      (s.part.faults.injectEnable = true →
        ∃ t : Part, exec (.inject p) s = .next { s with part := t.place p { status := .ok, payload := [] } } ∧
          t = { s.fresh with faults := t.faults, ports := t.ports } ∧ c.panel = none ∧ c.handle = none ∧
          (∀ k', k' ≠ k → t.bank k' = s.part.bank k') ∧ t.faults.injectEnable = true ∧
          t.bank k = { s.part.bank k with
            count := if c.cls = .corrected then
                (if (s.part.bank k).count + 1 = (s.part.bank k).threshold then 0 else (s.part.bank k).count + 1)
              else (s.part.bank k).count
            record := some (match (s.part.bank k).record with
              | none =>
                { cls := c.cls, code := c.code, scope := c.scope, panel := none, handle := none, detail := c.detail,
                  frame := (s.part.engine .cluster).frame, overflow := false, injected := true }
              | some old =>
                if old.cls.rank < c.cls.rank then
                  { cls := c.cls, code := c.code, scope := c.scope, panel := none, handle := none, detail := c.detail,
                    frame := (s.part.engine .cluster).frame, overflow := true, injected := true }
                else { old with overflow := true }) } ∧
          (∀ q, q ≠ s.part.strap → t.port q = s.part.port q) ∧
          t.port s.part.strap = { s.part.port s.part.strap with
            noticeSet := { (s.part.port s.part.strap).noticeSet with
              threshold := if c.cls = .corrected ∧ (s.part.bank k).count + 1 = (s.part.bank k).threshold ∧
                  (s.part.bank k).reports .corrected = true then
                  (s.part.port s.part.strap).noticeSet.threshold ||| bitOf 4 k.num
                else (s.part.port s.part.strap).noticeSet.threshold
              fault := if (s.part.bank k).reports c.cls = true then
                  (s.part.port s.part.strap).noticeSet.fault ||| bitOf 4 k.num
                else (s.part.port s.part.strap).noticeSet.fault } })

/-- A claim that a block of the part makes, taken at its bank (R167 to R171): an enabled bank counts a CORRECTED claim,
with its THRESHOLD notice, places the claim in the record slot and reports it at the safety port; a disabled one takes
no part; no other bank, no other port and, below CRITICAL, no timeline engine is touched. -/
def Obligations.ClaimTakenAtBank : Prop :=
  ∀ (b : Part) (k : Bank) (c : Claim) (full : Prop),
    (full ↔ c.cls = .corrected ∧ (b.bank k).count + 1 = (b.bank k).threshold) →
    b.claim k c = { b with faults := (b.claim k c).faults, ports := (b.claim k c).ports, engines := (b.claim k c).engines } ∧
    (c.cls ≠ .critical → (b.claim k c).engines = b.engines) ∧
    (∀ k', k' ≠ k → (b.claim k c).bank k' = b.bank k') ∧
    (b.claim k c).faults.injectEnable = b.faults.injectEnable ∧
    (∀ p, p ≠ b.strap → (b.claim k c).port p = b.port p) ∧
    ((b.bank k).enabled = false → (b.claim k c).faults = b.faults ∧
      (b.claim k c).port b.strap = { b.port b.strap with
        noticeSet := { (b.port b.strap).noticeSet with critical := ((b.claim k c).port b.strap).noticeSet.critical } }) ∧
    (c.cls ≠ .critical → ((b.claim k c).port b.strap).noticeSet.critical = (b.port b.strap).noticeSet.critical) ∧
    ((b.bank k).enabled = true →
      (full → ((b.claim k c).bank k).count = 0) ∧
      (¬full → ((b.claim k c).bank k).count =
        if c.cls = .corrected then (b.bank k).count + 1 else (b.bank k).count) ∧
      (b.claim k c).bank k =
        { b.bank k with count := ((b.claim k c).bank k).count, record := ((b.claim k c).bank k).record } ∧
      ((b.bank k).record = none → ((b.claim k c).bank k).record = some
        { cls := c.cls, code := c.code, scope := c.scope, panel := c.panel, handle := c.handle, detail := c.detail
          frame := (match c.panel with
            | some .centre => (b.engine .centre).frame
            | _ => (b.engine .cluster).frame)
          overflow := false, injected := false }) ∧
      (∀ r, (b.bank k).record = some r →
        ((r.cls = .corrected ∧ c.cls ≠ .corrected) ∨ (r.cls = .contained ∧ c.cls = .critical) →
          ((b.claim k c).bank k).record = some
            { cls := c.cls, code := c.code, scope := c.scope, panel := c.panel, handle := c.handle, detail := c.detail
              frame := (match c.panel with
                | some .centre => (b.engine .centre).frame
                | _ => (b.engine .cluster).frame)
              overflow := true, injected := false }) ∧
        (¬((r.cls = .corrected ∧ c.cls ≠ .corrected) ∨ (r.cls = .contained ∧ c.cls = .critical)) →
          ((b.claim k c).bank k).record = some { r with overflow := true })) ∧
      (b.claim k c).port b.strap = { b.port b.strap with
        noticeSet := { (b.port b.strap).noticeSet with
          threshold := ((b.claim k c).port b.strap).noticeSet.threshold
          fault := ((b.claim k c).port b.strap).noticeSet.fault
          critical := ((b.claim k c).port b.strap).noticeSet.critical } } ∧
      ((full ∧ (b.bank k).reports .corrected = true) → ((b.claim k c).port b.strap).noticeSet.threshold =
        (b.port b.strap).noticeSet.threshold ||| bitOf 4 k.num) ∧
      (¬(full ∧ (b.bank k).reports .corrected = true) → ((b.claim k c).port b.strap).noticeSet.threshold =
        (b.port b.strap).noticeSet.threshold) ∧
      ((b.bank k).reports c.cls = true → ((b.claim k c).port b.strap).noticeSet.fault =
        (b.port b.strap).noticeSet.fault ||| bitOf 4 k.num) ∧
      ((b.bank k).reports c.cls = false → ((b.claim k c).port b.strap).noticeSet.fault =
        (b.port b.strap).noticeSet.fault))

/-- A CRITICAL claim escalates by its scope, whether its bank is enabled or not (R172). CONTRACT: by the panel's state and
flag, it sets a clear flag, hands a halt on a set one, and on a stopped panel does neither (R174). PANEL, so LINK_LOSS and
PANEL_FAULT: a halt for the panel, the flag not consulted (R173). PART, so TABLE_CHECK: a halt for both panels (R175). The
CRITICAL notice names the panels concerned in each case. The mark of a halt handed is the model's own, log 11. -/
def Obligations.EscalationActsByScope : Prop :=
  ∀ (b : Part) (k : Bank) (c : Claim), c.cls = .critical →
    (∀ q, c.scope = .contract → c.panel = some q →
      (∀ p, p ≠ q → (b.claim k c).engine p = b.engine p) ∧
      (b.claim k c).engine q =
        (if (b.engine q).state = .running ∧ (b.engine q).critical = false then { b.engine q with critical := true }
        else if (b.engine q).state = .running then { b.engine q with haltHanded := true }
        else b.engine q) ∧
      ((b.claim k c).port b.strap).noticeSet.critical = (b.port b.strap).noticeSet.critical ||| bitOf 2 q.num) ∧
    (∀ q, c.scope = .panel → c.panel = some q →
      (∀ p, p ≠ q → (b.claim k c).engine p = b.engine p) ∧
      (b.claim k c).engine q = { b.engine q with haltHanded := true } ∧
      ((b.claim k c).port b.strap).noticeSet.critical = (b.port b.strap).noticeSet.critical ||| bitOf 2 q.num) ∧
    (c.scope = .part →
      (∀ q, (b.claim k c).engine q = { b.engine q with haltHanded := true }) ∧
      ((b.claim k c).port b.strap).noticeSet.critical = 3) ∧
    (∀ p, p ≠ b.strap → (b.claim k c).port p = b.port p) ∧ (b.claim k c).table = b.table

/-! ### Requests of the port and of the part -/

/-- IDENTIFY, NOTICES with its 21 bytes, and SET_ATTENTION act on the sending port alone (R189 to R192, Table 11-8). -/
def Obligations.PortRequestsAct : Prop :=
  ∀ (p : Port) (s : State),
    (∀ ps, s.fresh.holds p .identify ps = true →
      exec (.identify p) s = .next { s with
        part := s.fresh.place p
          { status := .ok, payload := [0x4F, 0x52, 0x42, 0x26, 3] ++ byte1 s.part.strap.num ++ byte1 p.num } }) ∧
    (∀ (ps contracts zones : List Byte) (m : NoticeSet), s.fresh.holds p .notices ps = true →
      m = (s.part.port p).noticeSet → contracts.length = 8 → zones.length = 8 →
      (∀ n, n < 64 → (contracts.getD (n / 8) 0).getLsbD (n % 8) = m.contract.getLsbD n) →
      (∀ n, n < 64 → (zones.getD (n / 8) 0).getLsbD (n % 8) = m.zone.getLsbD n) →
      exec (.notices p) s = .next { s with
        part := (s.fresh.modPort p fun q => { q with noticeSet :=
          { contract := 0, zone := 0, contacts := false, panel := 0, fault := 0, threshold := 0, critical := 0 } }).place p
            { status := .ok
              payload := byte1 ((m.contract != 0).toNat + 2 * (m.zone != 0).toNat + 4 * m.contacts.toNat +
                  8 * (m.panel != 0).toNat + 16 * (m.fault != 0).toNat + 32 * (m.threshold != 0).toNat +
                  64 * (m.critical != 0).toNat) ++ contracts ++ zones ++ byte1 m.panel.toNat ++ byte1 m.fault.toNat ++
                byte1 m.threshold.toNat ++ byte1 m.critical.toNat } }) ∧
    ∀ ks : Byte, s.fresh.holds p .setAttention [ks] = true →
      (128 ≤ ks.toNat →
        exec (.setAttention p) s = .next { s with part := s.fresh.place p { status := .badArg, payload := [] } }) ∧
      (ks.toNat < 128 →
        exec (.setAttention p) s = .next { s with
          part := (s.fresh.modPort p fun q => { q with mask := BitVec.ofNat 7 ks.toNat }).place p
            { status := .ok, payload := [] } })

/-- WARM_RESET brings every block to its warm-reset state (R28, R66, R101, R146, R162, R181, R193). That it reads no
record, and so claims no TABLE_CHECK, is the model's choice, log 8; the order of the two STOPs in the list of what was
sent is the model's, log 27. -/
def Obligations.WarmResetEveryBlock : Prop :=
  ∀ (p : Port) (ps : List Byte) (s : State), s.fresh.holds p .warmReset ps = true →
    ∃ t : Part, exec (.warmReset p) s = .next { s with part := t.place p { status := .ok, payload := [] } } ∧
      t.faults = s.part.faults ∧ t.strap = s.part.strap ∧
      (∀ n, n < 64 → t.record n = if (s.part.record n).state = .free then s.part.record n
        else Record.freeWith ((s.part.record n).generation + 1)) ∧
      (∀ q, (t.engine q).state = .down ∧ (t.engine q).critical = false ∧ (t.engine q).cfg = (s.part.engine q).cfg ∧
        (t.engine q).stagedDuty = (s.part.engine q).stagedDuty ∧ (t.engine q).frame = (s.part.engine q).frame ∧
        (t.engine q).output = (if (s.part.engine q).cfg.policy = .hold then (s.part.engine q).output else false) ∧
        (t.link q).orders = [] ∧ (t.link q).timeouts = 0 ∧
        ((s.part.engine q).state = .running ∨ (s.part.engine q).state = .starting →
          (t.engine q).slot = none ∧ (t.engine q).startLeft = none ∧ (t.engine q).plan = none ∧
            (t.engine q).duty = (s.part.engine q).stagedDuty)) ∧
      t.touch.state = .idle ∧ t.touch.frame = none ∧ t.touch.burst = none ∧ t.touch.scanSet = 0 ∧
      t.touch.calibrated = 0 ∧ t.touch.contacts = [] ∧ t.touch.candidates = List.replicate 64 none ∧
      t.touch.baselines = s.part.touch.baselines ∧
      t.touch.cfg = s.part.touch.cfg ∧ t.touch.completed = s.part.touch.completed ∧
      t.touch.deltaMap = s.part.touch.deltaMap ∧ t.touch.resultRow = s.part.touch.resultRow ∧
      t.touch.resultCounts = s.part.touch.resultCounts ∧
      t.out = [.link .cluster (.stop (decide ((s.part.engine .cluster).cfg.policy = .blank))),
               .link .centre (.stop (decide ((s.part.engine .centre).cfg.policy = .blank)))] ∧
      ∀ q, t.port q = { s.part.port q with noticeSet := { NoticeSet.empty with panel := 3 } }

/-! ### Invariants -/

/-- Every law holds of the machine right after reset, whatever the strap reads. That State.reset reads the strap as
unconnected is the model's choice, log 14. -/
def Obligations.LawsHoldAtReset : Prop :=
  ∀ strap, (Part.reset strap).TableSized ∧ (Part.reset strap).PortsCoherent ∧ (Part.reset strap).CountsBelow ∧
    (Part.reset strap).FlagsOnlyRunning ∧ (Part.reset strap).EnginesCoherent ∧ (Part.reset strap).PlansLawful ∧
    (Part.reset strap).LinksFit ∧ (Part.reset strap).ContactsLawful ∧ (Part.reset strap).ContractsRanged ∧
    (Part.reset strap).Admitted ∧ State.reset.part = Part.reset .cp2 ∧ State.reset.pending = []

/-- The table keeps its 64 records at every step (R1). -/
def Obligations.TableKeepsItsSize : Prop :=
  ∀ s t : State, s.part.TableSized → step s = .next t → t.part.TableSized

/-- At every step each port's state says what it holds (R182, R185). -/
def Obligations.PortsStayCoherent : Prop :=
  ∀ s t : State, s.part.PortsCoherent → step s = .next t → t.part.PortsCoherent

/-- At every step a bank's corrected count stays below its threshold (R169). -/
def Obligations.CountsStayBelow : Prop :=
  ∀ s t : State, s.part.CountsBelow → step s = .next t → t.part.CountsBelow

/-- At every step a critical-in-progress flag is set only while its panel is RUNNING (R52). -/
def Obligations.FlagsStayOnlyRunning : Prop :=
  ∀ s t : State, s.part.FlagsOnlyRunning → step s = .next t → t.part.FlagsOnlyRunning

/-- At every step configurations stay in range, every plan keeps its laws, among them that no SENSE entry falls on an edge
slot or follows an order, and the orders in flight are at most two and fit the plan and the slot (R43, R45, R61, R69, R79,
R91, R97). -/
def Obligations.TimelinesStaySound : Prop :=
  ∀ s t : State, s.part.EnginesCoherent → s.part.PlansLawful → s.part.LinksFit → step s = .next t →
    t.part.EnginesCoherent ∧ t.part.PlansLawful ∧ t.part.LinksFit ∧ ∀ p, (t.part.link p).orders.length ≤ 2

/-- At every step the contact table holds at most ten records of distinct ids (R151). -/
def Obligations.ContactsStayLawful : Prop :=
  ∀ s t : State, s.part.ContactsLawful → step s = .next t → t.part.ContactsLawful

/-- At every step, whatever the parameters each turn leaves in force, the sum of loads stays within the budget, every
contract fits, and TELLTALE bands are shared by none (R33, R34, R35, R38). -/
def Obligations.PromisesStayKept : Prop :=
  ∀ s t : State, s.part.ContractsRanged ∧ s.part.Admitted → step s = .next t →
    t.part.ContractsRanged ∧ t.part.Admitted
end

