-- ==== Sys2Proof/Laws/State.lean ====
section
/-! SUPPORT. One lemma for each field of the part and each of its updates, true by unfolding: what an operation writes
and what it leaves alone. -/

namespace Sys2Proof.Machine

section Fields
variable (b : Part)

/-! #### Part.modPort -/

@[simp] theorem Part.modPort_ports (p : Port) (f : ClientPort → ClientPort) :
    (b.modPort p f).ports = b.ports.modify p f := rfl
@[simp] theorem Part.modPort_strap (p : Port) (f : ClientPort → ClientPort) : (b.modPort p f).strap = b.strap := rfl
@[simp] theorem Part.modPort_table (p : Port) (f : ClientPort → ClientPort) : (b.modPort p f).table = b.table := rfl
@[simp] theorem Part.modPort_engines (p : Port) (f : ClientPort → ClientPort) :
    (b.modPort p f).engines = b.engines := rfl
@[simp] theorem Part.modPort_links (p : Port) (f : ClientPort → ClientPort) : (b.modPort p f).links = b.links := rfl
@[simp] theorem Part.modPort_credits (p : Port) (f : ClientPort → ClientPort) :
    (b.modPort p f).credits = b.credits := rfl
@[simp] theorem Part.modPort_touch (p : Port) (f : ClientPort → ClientPort) : (b.modPort p f).touch = b.touch := rfl
@[simp] theorem Part.modPort_faults (p : Port) (f : ClientPort → ClientPort) :
    (b.modPort p f).faults = b.faults := rfl
@[simp] theorem Part.modPort_out (p : Port) (f : ClientPort → ClientPort) : (b.modPort p f).out = b.out := rfl

/-! #### Part.modEngine -/

@[simp] theorem Part.modEngine_ports (p : Panel) (f : Engine → Engine) : (b.modEngine p f).ports = b.ports := rfl
@[simp] theorem Part.modEngine_strap (p : Panel) (f : Engine → Engine) : (b.modEngine p f).strap = b.strap := rfl
@[simp] theorem Part.modEngine_table (p : Panel) (f : Engine → Engine) : (b.modEngine p f).table = b.table := rfl
@[simp] theorem Part.modEngine_engines (p : Panel) (f : Engine → Engine) :
    (b.modEngine p f).engines = b.engines.modify p f := rfl
@[simp] theorem Part.modEngine_links (p : Panel) (f : Engine → Engine) : (b.modEngine p f).links = b.links := rfl
@[simp] theorem Part.modEngine_credits (p : Panel) (f : Engine → Engine) :
    (b.modEngine p f).credits = b.credits := rfl
@[simp] theorem Part.modEngine_touch (p : Panel) (f : Engine → Engine) : (b.modEngine p f).touch = b.touch := rfl
@[simp] theorem Part.modEngine_faults (p : Panel) (f : Engine → Engine) : (b.modEngine p f).faults = b.faults := rfl
@[simp] theorem Part.modEngine_out (p : Panel) (f : Engine → Engine) : (b.modEngine p f).out = b.out := rfl

/-! #### Part.modLink -/

@[simp] theorem Part.modLink_ports (p : Panel) (f : Link → Link) : (b.modLink p f).ports = b.ports := rfl
@[simp] theorem Part.modLink_strap (p : Panel) (f : Link → Link) : (b.modLink p f).strap = b.strap := rfl
@[simp] theorem Part.modLink_table (p : Panel) (f : Link → Link) : (b.modLink p f).table = b.table := rfl
@[simp] theorem Part.modLink_engines (p : Panel) (f : Link → Link) : (b.modLink p f).engines = b.engines := rfl
@[simp] theorem Part.modLink_links (p : Panel) (f : Link → Link) : (b.modLink p f).links = b.links.modify p f := rfl
@[simp] theorem Part.modLink_credits (p : Panel) (f : Link → Link) : (b.modLink p f).credits = b.credits := rfl
@[simp] theorem Part.modLink_touch (p : Panel) (f : Link → Link) : (b.modLink p f).touch = b.touch := rfl
@[simp] theorem Part.modLink_faults (p : Panel) (f : Link → Link) : (b.modLink p f).faults = b.faults := rfl
@[simp] theorem Part.modLink_out (p : Panel) (f : Link → Link) : (b.modLink p f).out = b.out := rfl

/-! #### Part.modCredit -/

@[simp] theorem Part.modCredit_ports (p : Panel) (f : CreditQueue → CreditQueue) :
    (b.modCredit p f).ports = b.ports := rfl
@[simp] theorem Part.modCredit_strap (p : Panel) (f : CreditQueue → CreditQueue) :
    (b.modCredit p f).strap = b.strap := rfl
@[simp] theorem Part.modCredit_table (p : Panel) (f : CreditQueue → CreditQueue) :
    (b.modCredit p f).table = b.table := rfl
@[simp] theorem Part.modCredit_engines (p : Panel) (f : CreditQueue → CreditQueue) :
    (b.modCredit p f).engines = b.engines := rfl
@[simp] theorem Part.modCredit_links (p : Panel) (f : CreditQueue → CreditQueue) :
    (b.modCredit p f).links = b.links := rfl
@[simp] theorem Part.modCredit_credits (p : Panel) (f : CreditQueue → CreditQueue) :
    (b.modCredit p f).credits = b.credits.modify p f := rfl
@[simp] theorem Part.modCredit_touch (p : Panel) (f : CreditQueue → CreditQueue) :
    (b.modCredit p f).touch = b.touch := rfl
@[simp] theorem Part.modCredit_faults (p : Panel) (f : CreditQueue → CreditQueue) :
    (b.modCredit p f).faults = b.faults := rfl
@[simp] theorem Part.modCredit_out (p : Panel) (f : CreditQueue → CreditQueue) : (b.modCredit p f).out = b.out := rfl

/-! #### Part.modTouch -/

@[simp] theorem Part.modTouch_ports (f : Touch → Touch) : (b.modTouch f).ports = b.ports := rfl
@[simp] theorem Part.modTouch_strap (f : Touch → Touch) : (b.modTouch f).strap = b.strap := rfl
@[simp] theorem Part.modTouch_table (f : Touch → Touch) : (b.modTouch f).table = b.table := rfl
@[simp] theorem Part.modTouch_engines (f : Touch → Touch) : (b.modTouch f).engines = b.engines := rfl
@[simp] theorem Part.modTouch_links (f : Touch → Touch) : (b.modTouch f).links = b.links := rfl
@[simp] theorem Part.modTouch_credits (f : Touch → Touch) : (b.modTouch f).credits = b.credits := rfl
@[simp] theorem Part.modTouch_touch (f : Touch → Touch) : (b.modTouch f).touch = f b.touch := rfl
@[simp] theorem Part.modTouch_faults (f : Touch → Touch) : (b.modTouch f).faults = b.faults := rfl
@[simp] theorem Part.modTouch_out (f : Touch → Touch) : (b.modTouch f).out = b.out := rfl

/-! #### Part.setBank -/

@[simp] theorem Part.setBank_ports (k : Bank) (v : FaultBank) : (b.setBank k v).ports = b.ports := rfl
@[simp] theorem Part.setBank_strap (k : Bank) (v : FaultBank) : (b.setBank k v).strap = b.strap := rfl
@[simp] theorem Part.setBank_table (k : Bank) (v : FaultBank) : (b.setBank k v).table = b.table := rfl
@[simp] theorem Part.setBank_engines (k : Bank) (v : FaultBank) : (b.setBank k v).engines = b.engines := rfl
@[simp] theorem Part.setBank_links (k : Bank) (v : FaultBank) : (b.setBank k v).links = b.links := rfl
@[simp] theorem Part.setBank_credits (k : Bank) (v : FaultBank) : (b.setBank k v).credits = b.credits := rfl
@[simp] theorem Part.setBank_touch (k : Bank) (v : FaultBank) : (b.setBank k v).touch = b.touch := rfl
@[simp] theorem Part.setBank_faults (k : Bank) (v : FaultBank) : (b.setBank k v).faults = b.faults.setBank k v := rfl
@[simp] theorem Part.setBank_out (k : Bank) (v : FaultBank) : (b.setBank k v).out = b.out := rfl

/-! #### Part.setRecord -/

@[simp] theorem Part.setRecord_ports (n : Nat) (r : Record) : (b.setRecord n r).ports = b.ports := rfl
@[simp] theorem Part.setRecord_strap (n : Nat) (r : Record) : (b.setRecord n r).strap = b.strap := rfl
@[simp] theorem Part.setRecord_table (n : Nat) (r : Record) :
    (b.setRecord n r).table = b.table.set n { r with checkGood := true } := rfl
@[simp] theorem Part.setRecord_engines (n : Nat) (r : Record) : (b.setRecord n r).engines = b.engines := rfl
@[simp] theorem Part.setRecord_links (n : Nat) (r : Record) : (b.setRecord n r).links = b.links := rfl
@[simp] theorem Part.setRecord_credits (n : Nat) (r : Record) : (b.setRecord n r).credits = b.credits := rfl
@[simp] theorem Part.setRecord_touch (n : Nat) (r : Record) : (b.setRecord n r).touch = b.touch := rfl
@[simp] theorem Part.setRecord_faults (n : Nat) (r : Record) : (b.setRecord n r).faults = b.faults := rfl
@[simp] theorem Part.setRecord_out (n : Nat) (r : Record) : (b.setRecord n r).out = b.out := rfl

/-! #### Part.send -/

@[simp] theorem Part.send_ports (p : Panel) (m : LinkMessage) : (b.send p m).ports = b.ports := rfl
@[simp] theorem Part.send_strap (p : Panel) (m : LinkMessage) : (b.send p m).strap = b.strap := rfl
@[simp] theorem Part.send_table (p : Panel) (m : LinkMessage) : (b.send p m).table = b.table := rfl
@[simp] theorem Part.send_engines (p : Panel) (m : LinkMessage) : (b.send p m).engines = b.engines := rfl
@[simp] theorem Part.send_links (p : Panel) (m : LinkMessage) : (b.send p m).links = b.links := rfl
@[simp] theorem Part.send_credits (p : Panel) (m : LinkMessage) : (b.send p m).credits = b.credits := rfl
@[simp] theorem Part.send_touch (p : Panel) (m : LinkMessage) : (b.send p m).touch = b.touch := rfl
@[simp] theorem Part.send_faults (p : Panel) (m : LinkMessage) : (b.send p m).faults = b.faults := rfl
@[simp] theorem Part.send_out (p : Panel) (m : LinkMessage) : (b.send p m).out = b.out ++ [.link p m] := rfl

/-! #### Part.sendBytes -/

@[simp] theorem Part.sendBytes_ports (p : Port) (bs : List Byte) : (b.sendBytes p bs).ports = b.ports := rfl
@[simp] theorem Part.sendBytes_strap (p : Port) (bs : List Byte) : (b.sendBytes p bs).strap = b.strap := rfl
@[simp] theorem Part.sendBytes_table (p : Port) (bs : List Byte) : (b.sendBytes p bs).table = b.table := rfl
@[simp] theorem Part.sendBytes_engines (p : Port) (bs : List Byte) : (b.sendBytes p bs).engines = b.engines := rfl
@[simp] theorem Part.sendBytes_links (p : Port) (bs : List Byte) : (b.sendBytes p bs).links = b.links := rfl
@[simp] theorem Part.sendBytes_credits (p : Port) (bs : List Byte) : (b.sendBytes p bs).credits = b.credits := rfl
@[simp] theorem Part.sendBytes_touch (p : Port) (bs : List Byte) : (b.sendBytes p bs).touch = b.touch := rfl
@[simp] theorem Part.sendBytes_faults (p : Port) (bs : List Byte) : (b.sendBytes p bs).faults = b.faults := rfl
@[simp] theorem Part.sendBytes_out (p : Port) (bs : List Byte) :
    (b.sendBytes p bs).out = b.out ++ [.bytes p bs] := rfl

/-! #### Part.raiseAt -/

@[simp] theorem Part.raiseAt_ports (p : Port) (k : Notice) :
    (b.raiseAt p k).ports = b.ports.modify p (ClientPort.raise k) := rfl
@[simp] theorem Part.raiseAt_strap (p : Port) (k : Notice) : (b.raiseAt p k).strap = b.strap := rfl
@[simp] theorem Part.raiseAt_table (p : Port) (k : Notice) : (b.raiseAt p k).table = b.table := rfl
@[simp] theorem Part.raiseAt_engines (p : Port) (k : Notice) : (b.raiseAt p k).engines = b.engines := rfl
@[simp] theorem Part.raiseAt_links (p : Port) (k : Notice) : (b.raiseAt p k).links = b.links := rfl
@[simp] theorem Part.raiseAt_credits (p : Port) (k : Notice) : (b.raiseAt p k).credits = b.credits := rfl
@[simp] theorem Part.raiseAt_touch (p : Port) (k : Notice) : (b.raiseAt p k).touch = b.touch := rfl
@[simp] theorem Part.raiseAt_faults (p : Port) (k : Notice) : (b.raiseAt p k).faults = b.faults := rfl
@[simp] theorem Part.raiseAt_out (p : Port) (k : Notice) : (b.raiseAt p k).out = b.out := rfl

/-! #### Part.raiseAll -/

@[simp] theorem Part.raiseAll_ports (k : Notice) : (b.raiseAll k).ports = b.ports.mapEach fun _ q => q.raise k := rfl
@[simp] theorem Part.raiseAll_strap (k : Notice) : (b.raiseAll k).strap = b.strap := rfl
@[simp] theorem Part.raiseAll_table (k : Notice) : (b.raiseAll k).table = b.table := rfl
@[simp] theorem Part.raiseAll_engines (k : Notice) : (b.raiseAll k).engines = b.engines := rfl
@[simp] theorem Part.raiseAll_links (k : Notice) : (b.raiseAll k).links = b.links := rfl
@[simp] theorem Part.raiseAll_credits (k : Notice) : (b.raiseAll k).credits = b.credits := rfl
@[simp] theorem Part.raiseAll_touch (k : Notice) : (b.raiseAll k).touch = b.touch := rfl
@[simp] theorem Part.raiseAll_faults (k : Notice) : (b.raiseAll k).faults = b.faults := rfl
@[simp] theorem Part.raiseAll_out (k : Notice) : (b.raiseAll k).out = b.out := rfl

/-! #### Part.raiseWhere -/

@[simp] theorem Part.raiseWhere_ports (c : Port → Bool) (k : Notice) :
    (b.raiseWhere c k).ports = b.ports.mapEach fun p q => q.raiseIf (c p) k := rfl
@[simp] theorem Part.raiseWhere_strap (c : Port → Bool) (k : Notice) : (b.raiseWhere c k).strap = b.strap := rfl
@[simp] theorem Part.raiseWhere_table (c : Port → Bool) (k : Notice) : (b.raiseWhere c k).table = b.table := rfl
@[simp] theorem Part.raiseWhere_engines (c : Port → Bool) (k : Notice) : (b.raiseWhere c k).engines = b.engines := rfl
@[simp] theorem Part.raiseWhere_links (c : Port → Bool) (k : Notice) : (b.raiseWhere c k).links = b.links := rfl
@[simp] theorem Part.raiseWhere_credits (c : Port → Bool) (k : Notice) : (b.raiseWhere c k).credits = b.credits := rfl
@[simp] theorem Part.raiseWhere_touch (c : Port → Bool) (k : Notice) : (b.raiseWhere c k).touch = b.touch := rfl
@[simp] theorem Part.raiseWhere_faults (c : Port → Bool) (k : Notice) : (b.raiseWhere c k).faults = b.faults := rfl
@[simp] theorem Part.raiseWhere_out (c : Port → Bool) (k : Notice) : (b.raiseWhere c k).out = b.out := rfl

/-! #### Part.contractNotice -/

@[simp] theorem Part.contractNotice_strap (n : Nat) (r : Record) (sender : Option Port) :
    (b.contractNotice n r sender).strap = b.strap := rfl
@[simp] theorem Part.contractNotice_table (n : Nat) (r : Record) (sender : Option Port) :
    (b.contractNotice n r sender).table = b.table := rfl
@[simp] theorem Part.contractNotice_engines (n : Nat) (r : Record) (sender : Option Port) :
    (b.contractNotice n r sender).engines = b.engines := rfl
@[simp] theorem Part.contractNotice_links (n : Nat) (r : Record) (sender : Option Port) :
    (b.contractNotice n r sender).links = b.links := rfl
@[simp] theorem Part.contractNotice_credits (n : Nat) (r : Record) (sender : Option Port) :
    (b.contractNotice n r sender).credits = b.credits := rfl
@[simp] theorem Part.contractNotice_touch (n : Nat) (r : Record) (sender : Option Port) :
    (b.contractNotice n r sender).touch = b.touch := rfl
@[simp] theorem Part.contractNotice_faults (n : Nat) (r : Record) (sender : Option Port) :
    (b.contractNotice n r sender).faults = b.faults := rfl
@[simp] theorem Part.contractNotice_out (n : Nat) (r : Record) (sender : Option Port) :
    (b.contractNotice n r sender).out = b.out := rfl

/-! #### Part.place -/

@[simp] theorem Part.place_ports (p : Port) (r : Reply) :
    (b.place p r).ports = b.ports.modify p (ClientPort.place r) := rfl
@[simp] theorem Part.place_strap (p : Port) (r : Reply) : (b.place p r).strap = b.strap := rfl
@[simp] theorem Part.place_table (p : Port) (r : Reply) : (b.place p r).table = b.table := rfl
@[simp] theorem Part.place_engines (p : Port) (r : Reply) : (b.place p r).engines = b.engines := rfl
@[simp] theorem Part.place_links (p : Port) (r : Reply) : (b.place p r).links = b.links := rfl
@[simp] theorem Part.place_credits (p : Port) (r : Reply) : (b.place p r).credits = b.credits := rfl
@[simp] theorem Part.place_touch (p : Port) (r : Reply) : (b.place p r).touch = b.touch := rfl
@[simp] theorem Part.place_faults (p : Port) (r : Reply) : (b.place p r).faults = b.faults := rfl
@[simp] theorem Part.place_out (p : Port) (r : Reply) : (b.place p r).out = b.out := rfl

/-! #### Part.emptyCandidate -/

@[simp] theorem Part.emptyCandidate_ports (n : Nat) : (b.emptyCandidate n).ports = b.ports := rfl
@[simp] theorem Part.emptyCandidate_strap (n : Nat) : (b.emptyCandidate n).strap = b.strap := rfl
@[simp] theorem Part.emptyCandidate_table (n : Nat) : (b.emptyCandidate n).table = b.table := rfl
@[simp] theorem Part.emptyCandidate_engines (n : Nat) : (b.emptyCandidate n).engines = b.engines := rfl
@[simp] theorem Part.emptyCandidate_links (n : Nat) : (b.emptyCandidate n).links = b.links := rfl
@[simp] theorem Part.emptyCandidate_credits (n : Nat) : (b.emptyCandidate n).credits = b.credits := rfl
@[simp] theorem Part.emptyCandidate_touch (n : Nat) :
    (b.emptyCandidate n).touch = { b.touch with candidates := b.touch.candidates.set n none } := rfl
@[simp] theorem Part.emptyCandidate_faults (n : Nat) : (b.emptyCandidate n).faults = b.faults := rfl
@[simp] theorem Part.emptyCandidate_out (n : Nat) : (b.emptyCandidate n).out = b.out := rfl

/-! #### Part.setOutcome -/

@[simp] theorem Part.setOutcome_ports (p : Panel) (j : Nat) (o : EntryOutcome) :
    (b.setOutcome p j o).ports = b.ports := rfl
@[simp] theorem Part.setOutcome_strap (p : Panel) (j : Nat) (o : EntryOutcome) :
    (b.setOutcome p j o).strap = b.strap := rfl
@[simp] theorem Part.setOutcome_table (p : Panel) (j : Nat) (o : EntryOutcome) :
    (b.setOutcome p j o).table = b.table := rfl
@[simp] theorem Part.setOutcome_engines (p : Panel) (j : Nat) (o : EntryOutcome) :
    (b.setOutcome p j o).engines = b.engines.modify p fun e => { e with plan := e.plan.map (Plan.setOutcome j o) } := rfl
@[simp] theorem Part.setOutcome_links (p : Panel) (j : Nat) (o : EntryOutcome) :
    (b.setOutcome p j o).links = b.links := rfl
@[simp] theorem Part.setOutcome_credits (p : Panel) (j : Nat) (o : EntryOutcome) :
    (b.setOutcome p j o).credits = b.credits := rfl
@[simp] theorem Part.setOutcome_touch (p : Panel) (j : Nat) (o : EntryOutcome) :
    (b.setOutcome p j o).touch = b.touch := rfl
@[simp] theorem Part.setOutcome_faults (p : Panel) (j : Nat) (o : EntryOutcome) :
    (b.setOutcome p j o).faults = b.faults := rfl
@[simp] theorem Part.setOutcome_out (p : Panel) (j : Nat) (o : EntryOutcome) : (b.setOutcome p j o).out = b.out := rfl

/-! #### Part.claimAs and Part.claim -/

@[simp] theorem Part.claimAs_strap (injected : Bool) (k : Bank) (c : Claim) :
    (b.claimAs injected k c).strap = b.strap := rfl
@[simp] theorem Part.claim_strap (k : Bank) (c : Claim) : (b.claim k c).strap = b.strap := rfl
@[simp] theorem Part.claimAs_table (injected : Bool) (k : Bank) (c : Claim) :
    (b.claimAs injected k c).table = b.table := rfl
@[simp] theorem Part.claim_table (k : Bank) (c : Claim) : (b.claim k c).table = b.table := rfl
@[simp] theorem Part.claimAs_links (injected : Bool) (k : Bank) (c : Claim) :
    (b.claimAs injected k c).links = b.links := rfl
@[simp] theorem Part.claim_links (k : Bank) (c : Claim) : (b.claim k c).links = b.links := rfl
@[simp] theorem Part.claimAs_credits (injected : Bool) (k : Bank) (c : Claim) :
    (b.claimAs injected k c).credits = b.credits := rfl
@[simp] theorem Part.claim_credits (k : Bank) (c : Claim) : (b.claim k c).credits = b.credits := rfl
@[simp] theorem Part.claimAs_touch (injected : Bool) (k : Bank) (c : Claim) :
    (b.claimAs injected k c).touch = b.touch := rfl
@[simp] theorem Part.claim_touch (k : Bank) (c : Claim) : (b.claim k c).touch = b.touch := rfl
@[simp] theorem Part.claimAs_out (injected : Bool) (k : Bank) (c : Claim) :
    (b.claimAs injected k c).out = b.out := rfl
@[simp] theorem Part.claim_out (k : Bank) (c : Claim) : (b.claim k c).out = b.out := rfl

end Fields

end Sys2Proof.Machine
end

