-- ==== Sys2Proof/Laws/Access.lean ====
section
/-! SUPPORT. Reading one panel's, port's or bank's share after an update: the share written, and every other. -/

namespace Sys2Proof.Machine

/-! ### Containers -/

@[simp] theorem PerPanel.get_set {α : Type} (x : PerPanel α) (p q : Panel) (v : α) :
    (x.set p v).get q = if q = p then v else x.get q := by cases p <;> cases q <;> rfl

@[simp] theorem PerPanel.get_modify {α : Type} (x : PerPanel α) (p q : Panel) (f : α → α) :
    (x.modify p f).get q = if q = p then f (x.get p) else x.get q := by cases p <;> cases q <;> rfl

@[simp] theorem PerPanel.get_map {α : Type} (x : PerPanel α) (q : Panel) (f : α → α) :
    (x.map f).get q = f (x.get q) := by cases q <;> rfl

@[simp] theorem PerPort.get_set {α : Type} (x : PerPort α) (p q : Port) (v : α) :
    (x.set p v).get q = if q = p then v else x.get q := by cases p <;> cases q <;> rfl

@[simp] theorem PerPort.get_modify {α : Type} (x : PerPort α) (p q : Port) (f : α → α) :
    (x.modify p f).get q = if q = p then f (x.get p) else x.get q := by cases p <;> cases q <;> rfl

@[simp] theorem PerPort.get_mapEach {α : Type} (x : PerPort α) (q : Port) (f : Port → α → α) :
    (x.mapEach f).get q = f q (x.get q) := by cases q <;> rfl

@[simp] theorem PerBank.get_set {α : Type} (x : PerBank α) (k j : Bank) (v : α) :
    (x.set k v).get j = if j = k then v else x.get j := by cases k <;> cases j <;> rfl

@[simp] theorem FaultMonitor.setBank_injectEnable (k : Bank) (v : FaultBank) (m : FaultMonitor) :
    (m.setBank k v).injectEnable = m.injectEnable := rfl

@[simp] theorem FaultMonitor.setBank_get (k j : Bank) (v : FaultBank) (m : FaultMonitor) :
    (m.setBank k v).banks.get j = if j = k then v else m.banks.get j := by cases k <;> cases j <;> rfl

section Fields
variable (b : Part)

/-! ### The share written -/

@[simp] theorem Part.modPort_port (p q : Port) (f : ClientPort → ClientPort) :
    (b.modPort p f).port q = if q = p then f (b.port p) else b.port q := PerPort.get_modify _ _ _ _

@[simp] theorem Part.place_port (p q : Port) (r : Reply) :
    (b.place p r).port q = if q = p then (b.port p).place r else b.port q := PerPort.get_modify _ _ _ _

@[simp] theorem Part.raiseAt_port (p q : Port) (k : Notice) :
    (b.raiseAt p k).port q = if q = p then (b.port p).raise k else b.port q := PerPort.get_modify _ _ _ _

@[simp] theorem Part.raiseAll_port (k : Notice) (q : Port) : (b.raiseAll k).port q = (b.port q).raise k :=
  PerPort.get_mapEach _ _ _

@[simp] theorem Part.raiseWhere_port (c : Port → Bool) (k : Notice) (q : Port) :
    (b.raiseWhere c k).port q = (b.port q).raiseIf (c q) k := PerPort.get_mapEach _ _ _

@[simp] theorem Part.modEngine_engine (p q : Panel) (f : Engine → Engine) :
    (b.modEngine p f).engine q = if q = p then f (b.engine p) else b.engine q := PerPanel.get_modify _ _ _ _

@[simp] theorem Part.setOutcome_engine (p q : Panel) (j : Nat) (o : EntryOutcome) :
    (b.setOutcome p j o).engine q =
      if q = p then { b.engine p with plan := (b.engine p).plan.map (Plan.setOutcome j o) } else b.engine q :=
  PerPanel.get_modify _ _ _ _

@[simp] theorem Part.modLink_link (p q : Panel) (f : Link → Link) :
    (b.modLink p f).link q = if q = p then f (b.link p) else b.link q := PerPanel.get_modify _ _ _ _

@[simp] theorem Part.modCredit_credit (p q : Panel) (f : CreditQueue → CreditQueue) :
    (b.modCredit p f).credit q = if q = p then f (b.credit p) else b.credit q := PerPanel.get_modify _ _ _ _

@[simp] theorem Part.setBank_bank (k j : Bank) (v : FaultBank) :
    (b.setBank k v).bank j = if j = k then v else b.bank j := FaultMonitor.setBank_get _ _ _ _

theorem Part.setRecord_record (n m : Nat) (r : Record) (h : n < b.table.length) :
    (b.setRecord n r).record m = if m = n then { r with checkGood := true } else b.record m := by
  by_cases hm : m = n
  · subst hm
    simp [Part.record, Part.setRecord, List.getD, h]
  · simp [Part.record, Part.setRecord, List.getD, hm, Ne.symm hm]

/-- Writing a record changes no record of another number. -/
theorem Part.setRecord_record_ne (n m : Nat) (r : Record) (hm : m ≠ n) :
    (b.setRecord n r).record m = b.record m := by
  simp [Part.record, Part.setRecord, List.getD, Ne.symm hm]

/-! ### Every other share -/

@[simp] theorem Part.modPort_engine (p : Port) (f : ClientPort → ClientPort) (q : Panel) :
    (b.modPort p f).engine q = b.engine q := rfl
@[simp] theorem Part.modPort_link (p : Port) (f : ClientPort → ClientPort) (q : Panel) :
    (b.modPort p f).link q = b.link q := rfl
@[simp] theorem Part.modPort_credit (p : Port) (f : ClientPort → ClientPort) (q : Panel) :
    (b.modPort p f).credit q = b.credit q := rfl
@[simp] theorem Part.modPort_bank (p : Port) (f : ClientPort → ClientPort) (q : Bank) :
    (b.modPort p f).bank q = b.bank q := rfl
@[simp] theorem Part.modPort_record (p : Port) (f : ClientPort → ClientPort) (q : Nat) :
    (b.modPort p f).record q = b.record q := rfl
@[simp] theorem Part.modPort_role (p : Port) (f : ClientPort → ClientPort) (q : Port) :
    (b.modPort p f).role q = b.role q := rfl

@[simp] theorem Part.modEngine_port (p : Panel) (f : Engine → Engine) (q : Port) :
    (b.modEngine p f).port q = b.port q := rfl
@[simp] theorem Part.modEngine_link (p : Panel) (f : Engine → Engine) (q : Panel) :
    (b.modEngine p f).link q = b.link q := rfl
@[simp] theorem Part.modEngine_credit (p : Panel) (f : Engine → Engine) (q : Panel) :
    (b.modEngine p f).credit q = b.credit q := rfl
@[simp] theorem Part.modEngine_bank (p : Panel) (f : Engine → Engine) (q : Bank) :
    (b.modEngine p f).bank q = b.bank q := rfl
@[simp] theorem Part.modEngine_record (p : Panel) (f : Engine → Engine) (q : Nat) :
    (b.modEngine p f).record q = b.record q := rfl
@[simp] theorem Part.modEngine_role (p : Panel) (f : Engine → Engine) (q : Port) :
    (b.modEngine p f).role q = b.role q := rfl

@[simp] theorem Part.modLink_port (p : Panel) (f : Link → Link) (q : Port) : (b.modLink p f).port q = b.port q := rfl
@[simp] theorem Part.modLink_engine (p : Panel) (f : Link → Link) (q : Panel) :
    (b.modLink p f).engine q = b.engine q := rfl
@[simp] theorem Part.modLink_credit (p : Panel) (f : Link → Link) (q : Panel) :
    (b.modLink p f).credit q = b.credit q := rfl
@[simp] theorem Part.modLink_bank (p : Panel) (f : Link → Link) (q : Bank) : (b.modLink p f).bank q = b.bank q := rfl
@[simp] theorem Part.modLink_record (p : Panel) (f : Link → Link) (q : Nat) :
    (b.modLink p f).record q = b.record q := rfl
@[simp] theorem Part.modLink_role (p : Panel) (f : Link → Link) (q : Port) : (b.modLink p f).role q = b.role q := rfl

@[simp] theorem Part.modCredit_port (p : Panel) (f : CreditQueue → CreditQueue) (q : Port) :
    (b.modCredit p f).port q = b.port q := rfl
@[simp] theorem Part.modCredit_engine (p : Panel) (f : CreditQueue → CreditQueue) (q : Panel) :
    (b.modCredit p f).engine q = b.engine q := rfl
@[simp] theorem Part.modCredit_link (p : Panel) (f : CreditQueue → CreditQueue) (q : Panel) :
    (b.modCredit p f).link q = b.link q := rfl
@[simp] theorem Part.modCredit_bank (p : Panel) (f : CreditQueue → CreditQueue) (q : Bank) :
    (b.modCredit p f).bank q = b.bank q := rfl
@[simp] theorem Part.modCredit_record (p : Panel) (f : CreditQueue → CreditQueue) (q : Nat) :
    (b.modCredit p f).record q = b.record q := rfl
@[simp] theorem Part.modCredit_role (p : Panel) (f : CreditQueue → CreditQueue) (q : Port) :
    (b.modCredit p f).role q = b.role q := rfl

@[simp] theorem Part.modTouch_port (f : Touch → Touch) (q : Port) : (b.modTouch f).port q = b.port q := rfl
@[simp] theorem Part.modTouch_engine (f : Touch → Touch) (q : Panel) : (b.modTouch f).engine q = b.engine q := rfl
@[simp] theorem Part.modTouch_link (f : Touch → Touch) (q : Panel) : (b.modTouch f).link q = b.link q := rfl
@[simp] theorem Part.modTouch_credit (f : Touch → Touch) (q : Panel) : (b.modTouch f).credit q = b.credit q := rfl
@[simp] theorem Part.modTouch_bank (f : Touch → Touch) (q : Bank) : (b.modTouch f).bank q = b.bank q := rfl
@[simp] theorem Part.modTouch_record (f : Touch → Touch) (q : Nat) : (b.modTouch f).record q = b.record q := rfl
@[simp] theorem Part.modTouch_role (f : Touch → Touch) (q : Port) : (b.modTouch f).role q = b.role q := rfl

@[simp] theorem Part.setBank_port (k : Bank) (v : FaultBank) (q : Port) : (b.setBank k v).port q = b.port q := rfl
@[simp] theorem Part.setBank_engine (k : Bank) (v : FaultBank) (q : Panel) :
    (b.setBank k v).engine q = b.engine q := rfl
@[simp] theorem Part.setBank_link (k : Bank) (v : FaultBank) (q : Panel) : (b.setBank k v).link q = b.link q := rfl
@[simp] theorem Part.setBank_credit (k : Bank) (v : FaultBank) (q : Panel) :
    (b.setBank k v).credit q = b.credit q := rfl
@[simp] theorem Part.setBank_record (k : Bank) (v : FaultBank) (q : Nat) :
    (b.setBank k v).record q = b.record q := rfl
@[simp] theorem Part.setBank_role (k : Bank) (v : FaultBank) (q : Port) : (b.setBank k v).role q = b.role q := rfl

@[simp] theorem Part.setRecord_port (n : Nat) (r : Record) (q : Port) : (b.setRecord n r).port q = b.port q := rfl
@[simp] theorem Part.setRecord_engine (n : Nat) (r : Record) (q : Panel) :
    (b.setRecord n r).engine q = b.engine q := rfl
@[simp] theorem Part.setRecord_link (n : Nat) (r : Record) (q : Panel) : (b.setRecord n r).link q = b.link q := rfl
@[simp] theorem Part.setRecord_credit (n : Nat) (r : Record) (q : Panel) :
    (b.setRecord n r).credit q = b.credit q := rfl
@[simp] theorem Part.setRecord_bank (n : Nat) (r : Record) (q : Bank) : (b.setRecord n r).bank q = b.bank q := rfl
@[simp] theorem Part.setRecord_role (n : Nat) (r : Record) (q : Port) : (b.setRecord n r).role q = b.role q := rfl

@[simp] theorem Part.send_port (p : Panel) (m : LinkMessage) (q : Port) : (b.send p m).port q = b.port q := rfl
@[simp] theorem Part.send_engine (p : Panel) (m : LinkMessage) (q : Panel) : (b.send p m).engine q = b.engine q := rfl
@[simp] theorem Part.send_link (p : Panel) (m : LinkMessage) (q : Panel) : (b.send p m).link q = b.link q := rfl
@[simp] theorem Part.send_credit (p : Panel) (m : LinkMessage) (q : Panel) : (b.send p m).credit q = b.credit q := rfl
@[simp] theorem Part.send_bank (p : Panel) (m : LinkMessage) (q : Bank) : (b.send p m).bank q = b.bank q := rfl
@[simp] theorem Part.send_record (p : Panel) (m : LinkMessage) (q : Nat) : (b.send p m).record q = b.record q := rfl
@[simp] theorem Part.send_role (p : Panel) (m : LinkMessage) (q : Port) : (b.send p m).role q = b.role q := rfl

@[simp] theorem Part.sendBytes_port (p : Port) (bs : List Byte) (q : Port) :
    (b.sendBytes p bs).port q = b.port q := rfl
@[simp] theorem Part.sendBytes_engine (p : Port) (bs : List Byte) (q : Panel) :
    (b.sendBytes p bs).engine q = b.engine q := rfl
@[simp] theorem Part.sendBytes_link (p : Port) (bs : List Byte) (q : Panel) :
    (b.sendBytes p bs).link q = b.link q := rfl
@[simp] theorem Part.sendBytes_credit (p : Port) (bs : List Byte) (q : Panel) :
    (b.sendBytes p bs).credit q = b.credit q := rfl
@[simp] theorem Part.sendBytes_bank (p : Port) (bs : List Byte) (q : Bank) :
    (b.sendBytes p bs).bank q = b.bank q := rfl
@[simp] theorem Part.sendBytes_record (p : Port) (bs : List Byte) (q : Nat) :
    (b.sendBytes p bs).record q = b.record q := rfl
@[simp] theorem Part.sendBytes_role (p : Port) (bs : List Byte) (q : Port) :
    (b.sendBytes p bs).role q = b.role q := rfl

@[simp] theorem Part.raiseAt_engine (p : Port) (k : Notice) (q : Panel) : (b.raiseAt p k).engine q = b.engine q := rfl
@[simp] theorem Part.raiseAt_link (p : Port) (k : Notice) (q : Panel) : (b.raiseAt p k).link q = b.link q := rfl
@[simp] theorem Part.raiseAt_credit (p : Port) (k : Notice) (q : Panel) : (b.raiseAt p k).credit q = b.credit q := rfl
@[simp] theorem Part.raiseAt_bank (p : Port) (k : Notice) (q : Bank) : (b.raiseAt p k).bank q = b.bank q := rfl
@[simp] theorem Part.raiseAt_record (p : Port) (k : Notice) (q : Nat) : (b.raiseAt p k).record q = b.record q := rfl
@[simp] theorem Part.raiseAt_role (p : Port) (k : Notice) (q : Port) : (b.raiseAt p k).role q = b.role q := rfl

@[simp] theorem Part.raiseAll_engine (k : Notice) (q : Panel) : (b.raiseAll k).engine q = b.engine q := rfl
@[simp] theorem Part.raiseAll_link (k : Notice) (q : Panel) : (b.raiseAll k).link q = b.link q := rfl
@[simp] theorem Part.raiseAll_credit (k : Notice) (q : Panel) : (b.raiseAll k).credit q = b.credit q := rfl
@[simp] theorem Part.raiseAll_bank (k : Notice) (q : Bank) : (b.raiseAll k).bank q = b.bank q := rfl
@[simp] theorem Part.raiseAll_record (k : Notice) (q : Nat) : (b.raiseAll k).record q = b.record q := rfl
@[simp] theorem Part.raiseAll_role (k : Notice) (q : Port) : (b.raiseAll k).role q = b.role q := rfl

@[simp] theorem Part.raiseWhere_engine (c : Port → Bool) (k : Notice) (q : Panel) :
    (b.raiseWhere c k).engine q = b.engine q := rfl
@[simp] theorem Part.raiseWhere_link (c : Port → Bool) (k : Notice) (q : Panel) :
    (b.raiseWhere c k).link q = b.link q := rfl
@[simp] theorem Part.raiseWhere_credit (c : Port → Bool) (k : Notice) (q : Panel) :
    (b.raiseWhere c k).credit q = b.credit q := rfl
@[simp] theorem Part.raiseWhere_bank (c : Port → Bool) (k : Notice) (q : Bank) :
    (b.raiseWhere c k).bank q = b.bank q := rfl
@[simp] theorem Part.raiseWhere_record (c : Port → Bool) (k : Notice) (q : Nat) :
    (b.raiseWhere c k).record q = b.record q := rfl
@[simp] theorem Part.raiseWhere_role (c : Port → Bool) (k : Notice) (q : Port) :
    (b.raiseWhere c k).role q = b.role q := rfl

@[simp] theorem Part.contractNotice_engine (n : Nat) (r : Record) (sender : Option Port) (q : Panel) :
    (b.contractNotice n r sender).engine q = b.engine q := rfl
@[simp] theorem Part.contractNotice_link (n : Nat) (r : Record) (sender : Option Port) (q : Panel) :
    (b.contractNotice n r sender).link q = b.link q := rfl
@[simp] theorem Part.contractNotice_credit (n : Nat) (r : Record) (sender : Option Port) (q : Panel) :
    (b.contractNotice n r sender).credit q = b.credit q := rfl
@[simp] theorem Part.contractNotice_bank (n : Nat) (r : Record) (sender : Option Port) (q : Bank) :
    (b.contractNotice n r sender).bank q = b.bank q := rfl
@[simp] theorem Part.contractNotice_record (n : Nat) (r : Record) (sender : Option Port) (q : Nat) :
    (b.contractNotice n r sender).record q = b.record q := rfl
@[simp] theorem Part.contractNotice_role (n : Nat) (r : Record) (sender : Option Port) (q : Port) :
    (b.contractNotice n r sender).role q = b.role q := rfl

@[simp] theorem Part.place_engine (p : Port) (r : Reply) (q : Panel) : (b.place p r).engine q = b.engine q := rfl
@[simp] theorem Part.place_link (p : Port) (r : Reply) (q : Panel) : (b.place p r).link q = b.link q := rfl
@[simp] theorem Part.place_credit (p : Port) (r : Reply) (q : Panel) : (b.place p r).credit q = b.credit q := rfl
@[simp] theorem Part.place_bank (p : Port) (r : Reply) (q : Bank) : (b.place p r).bank q = b.bank q := rfl
@[simp] theorem Part.place_record (p : Port) (r : Reply) (q : Nat) : (b.place p r).record q = b.record q := rfl
@[simp] theorem Part.place_role (p : Port) (r : Reply) (q : Port) : (b.place p r).role q = b.role q := rfl

@[simp] theorem Part.emptyCandidate_port (n : Nat) (q : Port) : (b.emptyCandidate n).port q = b.port q := rfl
@[simp] theorem Part.emptyCandidate_engine (n : Nat) (q : Panel) : (b.emptyCandidate n).engine q = b.engine q := rfl
@[simp] theorem Part.emptyCandidate_link (n : Nat) (q : Panel) : (b.emptyCandidate n).link q = b.link q := rfl
@[simp] theorem Part.emptyCandidate_credit (n : Nat) (q : Panel) : (b.emptyCandidate n).credit q = b.credit q := rfl
@[simp] theorem Part.emptyCandidate_bank (n : Nat) (q : Bank) : (b.emptyCandidate n).bank q = b.bank q := rfl
@[simp] theorem Part.emptyCandidate_record (n : Nat) (q : Nat) : (b.emptyCandidate n).record q = b.record q := rfl
@[simp] theorem Part.emptyCandidate_role (n : Nat) (q : Port) : (b.emptyCandidate n).role q = b.role q := rfl

@[simp] theorem Part.setOutcome_port (p : Panel) (j : Nat) (o : EntryOutcome) (q : Port) :
    (b.setOutcome p j o).port q = b.port q := rfl
@[simp] theorem Part.setOutcome_link (p : Panel) (j : Nat) (o : EntryOutcome) (q : Panel) :
    (b.setOutcome p j o).link q = b.link q := rfl
@[simp] theorem Part.setOutcome_credit (p : Panel) (j : Nat) (o : EntryOutcome) (q : Panel) :
    (b.setOutcome p j o).credit q = b.credit q := rfl
@[simp] theorem Part.setOutcome_bank (p : Panel) (j : Nat) (o : EntryOutcome) (q : Bank) :
    (b.setOutcome p j o).bank q = b.bank q := rfl
@[simp] theorem Part.setOutcome_record (p : Panel) (j : Nat) (o : EntryOutcome) (q : Nat) :
    (b.setOutcome p j o).record q = b.record q := rfl
@[simp] theorem Part.setOutcome_role (p : Panel) (j : Nat) (o : EntryOutcome) (q : Port) :
    (b.setOutcome p j o).role q = b.role q := rfl

@[simp] theorem Part.claimAs_link (injected : Bool) (k : Bank) (c : Claim) (q : Panel) :
    (b.claimAs injected k c).link q = b.link q := rfl
@[simp] theorem Part.claim_link (k : Bank) (c : Claim) (q : Panel) : (b.claim k c).link q = b.link q := rfl
@[simp] theorem Part.claimAs_credit (injected : Bool) (k : Bank) (c : Claim) (q : Panel) :
    (b.claimAs injected k c).credit q = b.credit q := rfl
@[simp] theorem Part.claim_credit (k : Bank) (c : Claim) (q : Panel) : (b.claim k c).credit q = b.credit q := rfl
@[simp] theorem Part.claimAs_record (injected : Bool) (k : Bank) (c : Claim) (q : Nat) :
    (b.claimAs injected k c).record q = b.record q := rfl
@[simp] theorem Part.claim_record (k : Bank) (c : Claim) (q : Nat) : (b.claim k c).record q = b.record q := rfl
@[simp] theorem Part.claimAs_role (injected : Bool) (k : Bank) (c : Claim) (q : Port) :
    (b.claimAs injected k c).role q = b.role q := rfl
@[simp] theorem Part.claim_role (k : Bank) (c : Claim) (q : Port) : (b.claim k c).role q = b.role q := rfl

end Fields

end Sys2Proof.Machine
end

