-- ==== Sys2Proof/Laws/Claims.lean ====
section
/-! SUPPORT. What a fault claim does, said once: to the banks (R168 to R170), to the timeline engines (R172 to R175),
to the notice sets (R169, R171, R172). -/

namespace Sys2Proof.Machine

/-! ### A bank -/

@[simp] theorem FaultBank.take_enabled (k : FaultBank) (c : Claim) (f : FrameNo) (i : Bool) :
    (k.take c f i).enabled = k.enabled := rfl
@[simp] theorem FaultBank.take_mask (k : FaultBank) (c : Claim) (f : FrameNo) (i : Bool) :
    (k.take c f i).mask = k.mask := rfl
@[simp] theorem FaultBank.take_threshold (k : FaultBank) (c : Claim) (f : FrameNo) (i : Bool) :
    (k.take c f i).threshold = k.threshold := rfl
@[simp] theorem FaultBank.take_count (k : FaultBank) (c : Claim) (f : FrameNo) (i : Bool) :
    (k.take c f i).count = k.countAfter c.cls := rfl
@[simp] theorem FaultBank.take_record (k : FaultBank) (c : Claim) (f : FrameNo) (i : Bool) :
    (k.take c f i).record = some (k.placed c f i) := rfl

/-- Counting a claim keeps the corrected count below the threshold (R169). -/
theorem FaultBank.countAfter_lt (k : FaultBank) (c : FaultClass) (h : k.count < k.threshold) :
    k.countAfter c < k.threshold := by
  unfold FaultBank.countAfter
  split
  · split <;> omega
  · exact h

variable (b : Part)

/-- The bank claimed at takes the claim where it is enabled or the claim injected; every other bank stands (R164,
R168). -/
theorem Part.claimAs_bank (injected : Bool) (k j : Bank) (c : Claim) :
    (b.claimAs injected k c).bank j =
      if j = k ∧ ((b.bank k).enabled || injected) = true then
        (b.bank k).take c (b.engine (c.panel.getD .cluster)).frame injected
      else b.bank j := by
  by_cases he : ((b.bank k).enabled || injected) = true <;> by_cases hj : j = k <;>
    simp_all [Part.claimAs, Part.bank]

theorem Part.claimAs_injectEnable (injected : Bool) (k : Bank) (c : Claim) :
    (b.claimAs injected k c).faults.injectEnable = b.faults.injectEnable := by
  by_cases he : ((b.bank k).enabled || injected) = true <;> simp [Part.claimAs, he]

/-! ### The engines -/

/-- What an escalation does to one engine: nothing beyond the flag and the halt (R172 to R175). -/
theorem escalate_get (c : Claim) (es : PerPanel Engine) (q : Panel) :
    (escalate c es).get q = es.get q ∨ (escalate c es).get q = (es.get q).escalateContract ∨
      (escalate c es).get q = (es.get q).handHalt := by
  unfold escalate
  split
  · rename_i p _ _
    by_cases hq : q = p
    · subst hq; exact .inr (.inl (by simp))
    · exact .inl (by simp [hq])
  · rename_i p _ _
    by_cases hq : q = p
    · subst hq; exact .inr (.inr (by simp))
    · exact .inl (by simp [hq])
  · exact .inr (.inr (by simp))
  · exact .inl rfl
  · exact .inl rfl

/-- What a claim does to one engine (R172). -/
theorem Part.claimAs_engine (injected : Bool) (k : Bank) (c : Claim) (q : Panel) :
    (b.claimAs injected k c).engine q = b.engine q ∨
      (b.claimAs injected k c).engine q = (b.engine q).escalateContract ∨
      (b.claimAs injected k c).engine q = (b.engine q).handHalt := by
  by_cases h : c.escalates injected = true
  · simpa [Part.claimAs, Part.engine, h] using escalate_get c b.engines q
  · exact .inl (by simp [Part.claimAs, Part.engine, h])

/-! ### The ports -/

/-- Raising notices changes a port's notice set alone. -/
def ClientPort.SameButNotices (q' q : ClientPort) : Prop := q' = { q with noticeSet := q'.noticeSet }

theorem ClientPort.SameButNotices.refl (q : ClientPort) : q.SameButNotices q := rfl

theorem ClientPort.SameButNotices.trans {q₁ q₂ q₃ : ClientPort} (h₁ : q₂.SameButNotices q₁)
    (h₂ : q₃.SameButNotices q₂) : q₃.SameButNotices q₁ := by
  unfold ClientPort.SameButNotices at *; rw [h₂, h₁]

theorem ClientPort.raise_same (k : Notice) (q : ClientPort) : (q.raise k).SameButNotices q := rfl

theorem ClientPort.raiseIf_same (c : Bool) (k : Notice) (q : ClientPort) : (q.raiseIf c k).SameButNotices q := by
  cases c
  · rfl
  · exact q.raise_same k

theorem Claim.notify_same (c : Claim) (k : Bank) (bank : FaultBank) (t i : Bool) (q : ClientPort) :
    (c.notify k bank t i q).SameButNotices q :=
  (((ClientPort.raiseIf_same _ _ _).trans (ClientPort.raiseIf_same _ _ _)).trans
    (ClientPort.raiseIf_same _ _ _)).trans (ClientPort.raiseIf_same _ _ _)

/-- A claim raises notices at the safety port alone (R171). -/
theorem Part.claimAs_port (injected : Bool) (k : Bank) (c : Claim) (q : Port) :
    (b.claimAs injected k c).port q =
      if q = b.strap then c.notify k (b.bank k) ((b.bank k).enabled || injected) injected (b.port b.strap)
      else b.port q := PerPort.get_modify _ _ _ _

theorem Part.claimAs_port_same (injected : Bool) (k : Bank) (c : Claim) (q : Port) :
    ((b.claimAs injected k c).port q).SameButNotices (b.port q) := by
  rw [Part.claimAs_port]
  split
  · rename_i h; subst h; exact Claim.notify_same _ _ _ _ _ _
  · rfl

end Sys2Proof.Machine
end

