-- ==== Sys2Proof/Laws/Quiet.lean ====
section
/-! SUPPORT. The quiet updates: what the contract manager and the fault monitor do to the rest of the part while they
read and write records, raise notices and take claims. Said once as a relation, it is closed under every operation
built of them, and carries the laws of Safety.lean. -/

namespace Sys2Proof.Machine

/-- Two engines agree but for the critical flag and the handed halt, and the flag rises only while RUNNING (R52,
R174). -/
def Engine.SameButCritical (e' e : Engine) : Prop :=
  e' = { e with critical := e'.critical, haltHanded := e'.haltHanded } ∧
    (e'.critical = true → e.critical = true ∨ e.state = .running)

theorem Engine.SameButCritical.refl (e : Engine) : e.SameButCritical e := ⟨rfl, .inl⟩

theorem Engine.SameButCritical.state_eq {e e' : Engine} (h : e'.SameButCritical e) : e'.state = e.state := by
  rw [h.1]

theorem Engine.SameButCritical.trans {e₁ e₂ e₃ : Engine} (h₁ : e₂.SameButCritical e₁) (h₂ : e₃.SameButCritical e₂) :
    e₃.SameButCritical e₁ := by
  refine ⟨?_, fun hc => ?_⟩
  · rw [h₂.1, h₁.1]
  · rcases h₂.2 hc with h | h
    · exact h₁.2 h
    · exact .inr (h₁.state_eq ▸ h)

theorem Engine.escalateContract_same (e : Engine) : e.escalateContract.SameButCritical e := by
  refine ⟨rfl, fun h => ?_⟩
  simpa [Engine.escalateContract, or_comm] using h

theorem Engine.handHalt_same (e : Engine) : e.handHalt.SameButCritical e := ⟨rfl, .inl⟩

/-- A quiet update: links, completions, strap and messages stand; ports change in their notice sets, engines in flag
and halt, banks in record and count, touch in its press candidates; the table keeps its size. -/
structure Part.Quiet (b b' : Part) : Prop where
  strap : b'.strap = b.strap
  links : b'.links = b.links
  credits : b'.credits = b.credits
  out : b'.out = b.out
  size : b'.table.length = b.table.length
  ports : ∀ p, (b'.port p).SameButNotices (b.port p)
  engines : ∀ p, (b'.engine p).SameButCritical (b.engine p)
  controls : ∀ k, (b'.bank k).enabled = (b.bank k).enabled ∧ (b'.bank k).mask = (b.bank k).mask ∧
    (b'.bank k).threshold = (b.bank k).threshold
  counts : ∀ k, (b.bank k).count < (b.bank k).threshold → (b'.bank k).count < (b'.bank k).threshold
  injectEnable : b'.faults.injectEnable = b.faults.injectEnable
  touch : b'.touch = { b.touch with candidates := b'.touch.candidates }

namespace Part.Quiet

theorem refl (b : Part) : Quiet b b :=
  ⟨rfl, rfl, rfl, rfl, rfl, fun _ => rfl, fun _ => .refl _, fun _ => ⟨rfl, rfl, rfl⟩, fun _ h => h, rfl, rfl⟩

theorem trans {a b c : Part} (h₁ : Quiet a b) (h₂ : Quiet b c) : Quiet a c where
  strap := h₂.strap.trans h₁.strap
  links := h₂.links.trans h₁.links
  credits := h₂.credits.trans h₁.credits
  out := h₂.out.trans h₁.out
  size := h₂.size.trans h₁.size
  ports p := (h₁.ports p).trans (h₂.ports p)
  engines p := (h₁.engines p).trans (h₂.engines p)
  controls k :=
    ⟨(h₂.controls k).1.trans (h₁.controls k).1, (h₂.controls k).2.1.trans (h₁.controls k).2.1,
      (h₂.controls k).2.2.trans (h₁.controls k).2.2⟩
  counts k h := h₂.counts k (h₁.counts k h)
  injectEnable := h₂.injectEnable.trans h₁.injectEnable
  touch := by rw [h₂.touch, h₁.touch]

/-- Quiet updates one after another. -/
theorem foldl {α : Type} {f : Part → α → Part} (hf : ∀ b x, Quiet b (f b x)) :
    ∀ (xs : List α) (b : Part), Quiet b (xs.foldl f b)
  | [], b => refl b
  | x :: xs, b => (hf b x).trans (foldl hf xs (f b x))

/-- A choice between quiet updates. -/
theorem ite {c : Prop} {_ : Decidable c} {a b b' : Part} (h : Quiet a b) (h' : Quiet a b') :
    Quiet a (if c then b else b') := by split <;> assumption

end Part.Quiet

/-! ### The shared operations are quiet -/

variable (b : Part)

theorem Part.setRecord_quiet (n : Nat) (r : Record) : Quiet b (b.setRecord n r) :=
  ⟨rfl, rfl, rfl, rfl, by simp, fun _ => rfl, fun _ => .refl _, fun _ => ⟨rfl, rfl, rfl⟩, fun _ h => h, rfl, rfl⟩

theorem Part.raiseWhere_quiet (c : Port → Bool) (k : Notice) : Quiet b (b.raiseWhere c k) :=
  ⟨rfl, rfl, rfl, rfl, rfl, fun p => by simpa using ClientPort.raiseIf_same _ _ _, fun _ => .refl _,
    fun _ => ⟨rfl, rfl, rfl⟩, fun _ h => h, rfl, rfl⟩

theorem Part.raiseAll_quiet (k : Notice) : Quiet b (b.raiseAll k) :=
  ⟨rfl, rfl, rfl, rfl, rfl, fun p => by simpa using ClientPort.raise_same _ _, fun _ => .refl _,
    fun _ => ⟨rfl, rfl, rfl⟩, fun _ h => h, rfl, rfl⟩

theorem Part.contractNotice_quiet (n : Nat) (r : Record) (sender : Option Port) :
    Quiet b (b.contractNotice n r sender) := b.raiseWhere_quiet _ _

theorem Part.setCandidate_quiet (n : Nat) (k : Option PressCandidate) : Quiet b (b.modTouch (Touch.setCandidate n k)) :=
  ⟨rfl, rfl, rfl, rfl, rfl, fun _ => rfl, fun _ => .refl _, fun _ => ⟨rfl, rfl, rfl⟩, fun _ h => h, rfl, rfl⟩

theorem Part.emptyCandidate_quiet (n : Nat) : Quiet b (b.emptyCandidate n) :=
  ⟨rfl, rfl, rfl, rfl, rfl, fun _ => rfl, fun _ => .refl _, fun _ => ⟨rfl, rfl, rfl⟩, fun _ h => h, rfl, rfl⟩

theorem Part.claimAs_quiet (injected : Bool) (k : Bank) (c : Claim) : Quiet b (b.claimAs injected k c) where
  strap := rfl
  links := rfl
  credits := rfl
  out := rfl
  size := rfl
  ports := b.claimAs_port_same injected k c
  engines p := by
    rcases b.claimAs_engine injected k c p with h | h | h <;> rw [h]
    · exact .refl _
    · exact Engine.escalateContract_same _
    · exact Engine.handHalt_same _
  controls j := by
    rw [Part.claimAs_bank]
    split
    · rename_i h; rw [h.1]; exact ⟨rfl, rfl, rfl⟩
    · exact ⟨rfl, rfl, rfl⟩
  counts j hj := by
    rw [Part.claimAs_bank]
    split
    · rename_i h; rw [h.1] at hj; simpa using FaultBank.countAfter_lt _ _ hj
    · exact hj
  injectEnable := b.claimAs_injectEnable injected k c
  touch := rfl

theorem Part.claim_quiet (k : Bank) (c : Claim) : Quiet b (b.claim k c) := b.claimAs_quiet false k c

theorem Part.verify_quiet (who : Reader) (n : Nat) : Quiet b (b.verify who n) := by
  unfold Part.verify
  exact .ite (.refl b) ((b.setRecord_quiet _ _).trans ((Part.raiseWhere_quiet _ _ _).trans (Part.claim_quiet _ _ _)))

theorem Part.verifyAll_quiet (who : Reader) : Quiet b (b.verifyAll who) :=
  .foldl (fun b n => b.verify_quiet who n) _ b

theorem Part.freeContract_quiet (n : Nat) (sender : Option Port) : Quiet b (b.freeContract n sender) :=
  (b.setRecord_quiet _ _).trans (Part.contractNotice_quiet _ _ _ _)

theorem Part.emptyCandidateIf_quiet (c : Bool) (n : Nat) : Quiet b (b.emptyCandidateIf c n) :=
  .ite (b.emptyCandidate_quiet n) (.refl b)

theorem Part.contractNoticeIf_quiet (c : Bool) (n : Nat) (r : Record) (sender : Option Port) :
    Quiet b (b.contractNoticeIf c n r sender) := .ite (b.contractNotice_quiet n r sender) (.refl b)

/-! ### The contract manager's work is quiet -/

theorem Part.captureOne_quiet (x : Placed) : Quiet b (b.captureOne x) :=
  (b.verify_quiet _ _).trans (.ite (Part.setRecord_quiet _ _ _) (.refl _))

theorem Part.captures_quiet (p : Panel) (slot : Nat) : Quiet b (b.captures p slot) := by
  unfold Part.captures
  split
  · exact .refl b
  · exact .foldl (fun b x => b.captureOne_quiet x) _ b

theorem Part.recordVerdict_quiet (p : Panel) (n : Nat) (v : Verdict) : Quiet b (b.recordVerdict p n v) :=
  (b.setRecord_quiet _ _).trans (Part.contractNoticeIf_quiet _ _ _ _ _)

theorem Part.endOneShot_quiet (p : Panel) (n : Nat) : Quiet b (b.endOneShot p n) :=
  .ite ((b.setRecord_quiet _ _).trans (Part.contractNotice_quiet _ _ _ _)) (b.freeContract_quiet _ _)

theorem Part.judgeRefresh_quiet (p : Panel) (n : Nat) (kind : OrderKind) (g : Nat) :
    Quiet b (b.judgeRefresh p n kind g) :=
  (b.recordVerdict_quiet p n _).trans (.ite (Part.claim_quiet _ _ _) (.ite (Part.endOneShot_quiet _ _ _) (.refl _)))

theorem Part.creditOne_quiet (p : Panel) (c : Completion) (x : Placed) : Quiet b (b.creditOne p c x) := by
  dsimp only [Part.creditOne]
  refine (b.verify_quiet _ _).trans (.ite ((Part.setRecord_quiet _ _ _).trans (.ite ?_ (.refl _))) (.refl _))
  exact Part.judgeRefresh_quiet _ _ _ _ _

theorem Part.turnOne_quiet (p : Panel) (first : Bool) (n : Nat) : Quiet b (b.turnOne p first n) :=
  .ite ((b.setRecord_quiet _ _).trans ((Part.emptyCandidateIf_quiet _ _ _).trans
    (Part.contractNoticeIf_quiet _ _ _ _ _))) (.refl b)

theorem Part.breachOne_quiet (p : Panel) (n : Nat) : Quiet b (b.breachOne p n) := by
  dsimp only [Part.breachOne]
  refine .ite (.refl b) (.ite (.ite (.refl b) ?_) (.ite ?_ (.ite ?_ (b.setRecord_quiet _ _))))
  · exact (b.setRecord_quiet _ _).trans ((Part.contractNotice_quiet _ _ _ _).trans (Part.claim_quiet _ _ _))
  · exact (b.setRecord_quiet _ _).trans (Part.claim_quiet _ _ _)
  · exact (b.setRecord_quiet _ _).trans ((Part.contractNotice_quiet _ _ _ _).trans (Part.claim_quiet _ _ _))

theorem Part.turnClaim_quiet (p : Panel) (first : Bool) : Quiet b (b.turnClaim p first) :=
  (b.verifyAll_quiet _).trans ((Part.Quiet.foldl (fun b n => b.turnOne_quiet p first n) _ _).trans
    (.foldl (fun b n => b.breachOne_quiet p n) _ _))

theorem Part.freeRetiring_quiet (p : Panel) : Quiet b (b.freeRetiring p) :=
  .foldl (fun b _ => .ite (b.freeContract_quiet _ _) (.refl b)) _ b

theorem Part.releaseZones_quiet : Quiet b b.releaseZones :=
  .foldl (fun b _ => .ite (b.setRecord_quiet _ _) (.refl b)) _ b

theorem Part.pressOne_quiet (n : Nat) : Quiet b (b.pressOne n) := by
  dsimp only [Part.pressOne]
  refine .ite ((b.setCandidate_quiet _ _).trans (.ite (.refl _) ?_))
    (.ite ((b.setCandidate_quiet _ _).trans (.ite (Part.setRecord_quiet _ _ _) (.refl _))) (b.setCandidate_quiet _ _))
  exact (Part.setRecord_quiet _ _ _).trans (Part.raiseWhere_quiet _ _ _)

/-! ### What a quiet update carries -/

namespace Part.Quiet
variable {b b' : Part}

theorem tableSized (h : Quiet b b') (hb : b.TableSized) : b'.TableSized := h.size.trans hb

theorem countsBelow (h : Quiet b b') (hb : b.CountsBelow) : b'.CountsBelow := fun k => h.counts k (hb k)

theorem flagsOnlyRunning (h : Quiet b b') (hb : b.FlagsOnlyRunning) : b'.FlagsOnlyRunning := fun p hc => by
  rw [(h.engines p).state_eq]
  rcases (h.engines p).2 hc with hc | hr
  · exact hb p hc
  · exact hr

theorem portsCoherent (h : Quiet b b') (hb : b.PortsCoherent) : b'.PortsCoherent := fun p => by
  rw [h.ports p]; exact hb p

theorem link (h : Quiet b b') (p : Panel) : b'.link p = b.link p := by simp [Part.link, h.links]

theorem engine (h : Quiet b b') (p : Panel) :
    b'.engine p = { b.engine p with critical := (b'.engine p).critical, haltHanded := (b'.engine p).haltHanded } :=
  (h.engines p).1

theorem enginesCoherent (h : Quiet b b') (hb : b.EnginesCoherent) : b'.EnginesCoherent := fun p => by
  rw [h.engine p]; exact hb p

theorem plansLawful (h : Quiet b b') (hb : b.PlansLawful) : b'.PlansLawful := fun p pl hp => by
  rw [h.engine p] at hp ⊢; exact hb p pl hp

theorem linksFit (h : Quiet b b') (hb : b.LinksFit) : b'.LinksFit := fun p => by
  rw [h.engine p, h.link p]; exact hb p

theorem contactsLawful (h : Quiet b b') (hb : b.ContactsLawful) : b'.ContactsLawful := by
  unfold Part.ContactsLawful; rw [h.touch]; exact hb

end Part.Quiet

end Sys2Proof.Machine
end

