-- ==== Sys2Proof/Laws/Planning.lean ====
section
/-! SUPPORT. The laws of plan building (Chapter 4): what a sense walk places, what filling a draft keeps, and that the
plan of a turn is lawful (R69, R79). -/

namespace Sys2Proof.Machine

/-! ### Sense walks (R75) -/

/-- A walk places at most the entries it was given. -/
theorem senseWalk_count (edge : Nat → Bool) (js : List Nat) (k : Nat) (held : List Nat) :
    (senseWalk edge js k held).sense.length + (senseWalk edge js k held).left = k := by
  induction js generalizing k held with
  | nil => cases k <;> simp [senseWalk]
  | cons j js ih =>
    cases k with
    | zero => simp [senseWalk]
    | succ k =>
      by_cases h : edge j = true
      · simpa [senseWalk, h] using ih (k + 1) (held ++ [j])
      · have := ih k []
        simp [senseWalk, h]
        omega

/-- A walk gives SENSE entries only to slots of its own that are no edge slots (R75). -/
theorem senseWalk_mem (edge : Nat → Bool) (js : List Nat) (k : Nat) (held : List Nat) :
    ∀ j ∈ (senseWalk edge js k held).sense, j ∈ js ∧ edge j = false := by
  induction js generalizing k held with
  | nil => cases k <;> simp [senseWalk]
  | cons i js ih =>
    cases k with
    | zero => simp [senseWalk]
    | succ k =>
      intro j hj
      by_cases h : edge i = true
      · have := ih (k + 1) (held ++ [i]) j (by simpa [senseWalk, h] using hj)
        exact ⟨.tail _ this.1, this.2⟩
      · have h' : edge i = false := by simpa using h
        rcases (by simpa [senseWalk, h] using hj : j = i ∨ j ∈ (senseWalk edge js k []).sense) with rfl | hj
        · exact ⟨.head _, h'⟩
        · exact ⟨.tail _ (ih k [] j hj).1, (ih k [] j hj).2⟩

/-- The candidates a walk holds become sense IDLEs once a SENSE follows them, and every SENSE entry but one in the
walk's first slot follows a SENSE or a sense IDLE of the walk (R75). -/
theorem senseWalk_shielded (edge : Nat → Bool) (n a k : Nat) (held : List Nat) :
    let w := senseWalk edge (List.range' a n) k held
    (w.sense ≠ [] → ∀ i ∈ held, i ∈ w.idle) ∧ ∀ j ∈ w.sense, j = a ∨ j - 1 ∈ w.sense ∨ j - 1 ∈ w.idle := by
  induction n generalizing a k held with
  | zero => cases k <;> simp [senseWalk]
  | succ n ih =>
    cases k with
    | zero => simp [senseWalk]
    | succ k =>
      rw [List.range'_succ]
      by_cases h : edge a = true
      · obtain ⟨ih₁, ih₂⟩ := ih (a + 1) (k + 1) (held ++ [a])
        simp only [senseWalk, h, if_true]
        refine ⟨fun hne i hi => ih₁ hne i (by simp [hi]), fun j hj => ?_⟩
        rcases ih₂ j hj with rfl | h'
        · exact .inr (.inr (ih₁ (List.ne_nil_of_mem hj) _ (by simp)))
        · exact .inr h'
      · obtain ⟨-, ih₂⟩ := ih (a + 1) k []
        simp only [senseWalk, h]
        refine ⟨fun _ i hi => by simp [hi], fun j hj => ?_⟩
        rcases (by simpa using hj : j = a ∨ j ∈ (senseWalk edge (List.range' (a + 1) n) k []).sense) with rfl | hj
        · exact .inl rfl
        · rcases ih₂ j hj with rfl | h' | h'
          · exact .inr (.inl (by simp))
          · exact .inr (.inl (by simp [h']))
          · exact .inr (.inr (by simp [h']))

theorem slotsFrom_eq (first bound : Nat) : slotsFrom first bound = List.range' first (bound - first) := by
  induction bound with
  | zero => simp [slotsFrom]
  | succ n ih =>
    unfold slotsFrom at ih ⊢
    rw [List.range_succ, List.filter_append, ih]
    by_cases h : first ≤ n
    · rw [Nat.succ_sub h, List.range'_concat]
      simp [h]
    · simp [h, show n + 1 - first = 0 by omega, show n - first = 0 by omega]

/-- What a sense placement is worth: SENSE entries in slots before the closing one, off the edges, no more of them
than demanded, each in slot 0, or behind a SENSE, a sense IDLE or the GUARD. -/
structure SensePlan.Sound (edge : Nat → Bool) (slots k : Nat) (sp : SensePlan) : Prop where
  few : sp.sense.length + sp.deferred = k
  early : ∀ j ∈ sp.sense, j + 1 < slots
  offEdge : ∀ j ∈ sp.sense, edge j = false
  shielded : ∀ j ∈ sp.sense, j = 0 ∨ j - 1 ∈ sp.sense ∨ j - 1 ∈ sp.idle ∨ sp.guard = some (j - 1)

theorem leadPlacement_sound (edge : Nat → Bool) (slots k : Nat) :
    (leadPlacement edge slots k).Sound edge slots k := by
  have hw := senseWalk_shielded edge (slots - 1) 0 k []
  have hm := senseWalk_mem edge (slotsFrom 0 (slots - 1)) k []
  refine ⟨senseWalk_count edge _ _ _, fun j hj => ?_, fun j hj => (hm j hj).2, fun j hj => ?_⟩
  · have := (hm j hj).1
    simp [slotsFrom] at this
    omega
  · rcases hw.2 j (by simpa [leadPlacement, slotsFrom_eq] using hj) with h | h | h
    · exact .inl h
    · exact .inr (.inl (by simpa [leadPlacement, slotsFrom_eq] using h))
    · exact .inr (.inr (.inl (by simpa [leadPlacement, slotsFrom_eq] using h)))

theorem ceilDiv_two_le (k : Nat) : ceilDiv k 2 ≤ k := by unfold ceilDiv; omega

theorem splitPlacement_sound (edge : Nat → Bool) (slots k : Nat) :
    (splitPlacement edge slots k).Sound edge slots k := by
  have hc := ceilDiv_two_le k
  have n₁ := senseWalk_count edge (slotsFrom 0 (slots / 2 - 1)) (ceilDiv k 2) []
  have m₁ := senseWalk_mem edge (slotsFrom 0 (slots / 2 - 1)) (ceilDiv k 2) []
  have w₁ := senseWalk_shielded edge (slots / 2 - 1 - 0) 0 (ceilDiv k 2) []
  rw [← slotsFrom_eq] at w₁
  generalize h₁ : senseWalk edge (slotsFrom 0 (slots / 2 - 1)) (ceilDiv k 2) [] = a at n₁ m₁ w₁
  have n₂ := senseWalk_count edge (slotsFrom (slots / 2) (slots - 1)) (k - ceilDiv k 2 + a.left) []
  have m₂ := senseWalk_mem edge (slotsFrom (slots / 2) (slots - 1)) (k - ceilDiv k 2 + a.left) []
  have w₂ := senseWalk_shielded edge (slots - 1 - slots / 2) (slots / 2) (k - ceilDiv k 2 + a.left) []
  rw [← slotsFrom_eq] at w₂
  generalize h₂ : senseWalk edge (slotsFrom (slots / 2) (slots - 1)) (k - ceilDiv k 2 + a.left) [] = c at n₂ m₂ w₂
  have hs : splitPlacement edge slots k =
      { sense := a.sense ++ c.sense, idle := a.idle ++ c.idle,
        guard := if c.sense.isEmpty then none else some (slots / 2 - 1), deferred := c.left } := by
    simp only [splitPlacement, h₁, h₂]
  rw [hs]
  have mem : ∀ j ∈ a.sense ++ c.sense, j + 1 < slots ∧ edge j = false := by
    intro j hj
    rcases List.mem_append.1 hj with h | h
    · have := m₁ j h
      simp [slotsFrom] at this
      exact ⟨by omega, this.2⟩
    · have := m₂ j h
      simp [slotsFrom] at this
      exact ⟨by omega, this.2⟩
  refine ⟨by simp; omega, fun j hj => (mem j hj).1, fun j hj => (mem j hj).2, fun j hj => ?_⟩
  rcases List.mem_append.1 hj with h | h
  · rcases w₁.2 j h with h' | h' | h'
    · exact .inl h'
    · exact .inr (.inl (by simp [h']))
    · exact .inr (.inr (.inl (by simp [h'])))
  · rcases w₂.2 j h with h' | h' | h'
    · refine .inr (.inr (.inr ?_))
      have : c.sense.isEmpty = false := by cases hc : c.sense <;> simp_all
      simp [this, h']
    · exact .inr (.inl (by simp [h']))
    · exact .inr (.inr (.inl (by simp [h'])))

theorem sensePlacement_sound (pl : Placement) (edge : Nat → Bool) (slots k : Nat) :
    (sensePlacement pl edge slots k).Sound edge slots k := by
  cases pl
  · exact leadPlacement_sound edge slots k
  · exact splitPlacement_sound edge slots k

theorem senseDemand_le (needed : List Nat) (d : Nat) : senseDemand needed d ≤ needed.length := Nat.min_le_left _ _

/-! ### Drafts -/

@[simp] theorem draftOf_length (slots : Nat) (sp : SensePlan) (needed : List Nat) :
    (draftOf slots sp needed).length = slots := by simp [draftOf]

/-- The entry of a slot of the first draft. -/
theorem draftOf_getElem? (slots : Nat) (sp : SensePlan) (needed : List Nat) (j : Nat) (h : j < slots) :
    (draftOf slots sp needed)[j]? = some (
      if j + 1 = slots then some .closing
      else
        match (sp.sense.zip needed).find? fun sr => sr.1 == j with
        | some sr => some (.sense sr.2)
        | none => if sp.idle.contains j then some .idle else if sp.guard = some j then some .guard else none) := by
  simp only [draftOf, List.getElem?_map, List.getElem?_range h, Option.map_some]
  all_goals rfl

@[simp] theorem fillFree_length (dr : Draft) (ks : List EntryKind) : (fillFree dr ks).length = dr.length := by
  induction dr generalizing ks with
  | nil => rfl
  | cons e es ih =>
    cases ks with
    | nil => cases e <;> rfl
    | cons k ks => cases e <;> simp [fillFree, ih]

/-- A slot that has its entry keeps it (R82). -/
theorem fillFree_keeps (dr : Draft) (ks : List EntryKind) (j : Nat) (k : EntryKind) (h : dr[j]? = some (some k)) :
    (fillFree dr ks)[j]? = some (some k) := by
  induction dr generalizing ks j with
  | nil => simp at h
  | cons e es ih =>
    cases ks with
    | nil => cases e <;> simpa [fillFree] using h
    | cons x xs =>
      cases e with
      | none =>
        cases j with
        | zero => simp at h
        | succ j => simpa [fillFree] using ih xs j (by simpa using h)
      | some e =>
        cases j with
        | zero => simpa [fillFree] using h
        | succ j => simpa [fillFree] using ih (x :: xs) j (by simpa using h)

/-- A slot's entry after filling is the one it had, or one of those given. -/
theorem fillFree_mem (dr : Draft) (ks : List EntryKind) (j : Nat) (k : EntryKind)
    (h : (fillFree dr ks)[j]? = some (some k)) : dr[j]? = some (some k) ∨ k ∈ ks := by
  induction dr generalizing ks j with
  | nil => simp [fillFree] at h
  | cons e es ih =>
    cases ks with
    | nil => left; cases e <;> simpa [fillFree] using h
    | cons x xs =>
      cases e with
      | none =>
        cases j with
        | zero => right; simp [fillFree] at h; simp [h]
        | succ j =>
          rcases ih xs j (by simpa [fillFree] using h) with h' | h'
          · left; simpa using h'
          · right; simp [h']
      | some e =>
        cases j with
        | zero => left; simpa [fillFree] using h
        | succ j =>
          rcases ih (x :: xs) j (by simpa [fillFree] using h) with h' | h'
          · left; simpa using h'
          · exact .inr h'

/-- The row groups a draft carries, slot by slot. -/
def Draft.groupList (dr : Draft) : List Nat := dr.filterMap fun e => e.bind EntryKind.group?

theorem Draft.carries_iff (dr : Draft) (g : Nat) : Draft.carries dr g = true ↔ g ∈ Draft.groupList dr := by
  simp [Draft.carries, Draft.groupList, List.any_eq_true, List.mem_filterMap]

/-- Filling adds the row groups given, where there is room for all of them. -/
theorem fillFree_groups (dr : Draft) (ks : List EntryKind) (h : ks.length ≤ Draft.free dr) :
    (Draft.groupList (fillFree dr ks)).Perm (ks.filterMap EntryKind.group? ++ Draft.groupList dr) := by
  induction dr generalizing ks with
  | nil => simp [Draft.free] at h; subst h; simp [fillFree, Draft.groupList]
  | cons e es ih =>
    cases ks with
    | nil => cases e <;> simp [fillFree]
    | cons x xs =>
      cases e with
      | none =>
        have := ih xs (by simpa [Draft.free, List.countP_cons] using h)
        simp only [fillFree, Draft.groupList] at this ⊢
        cases hx : x.group? with
        | none => simpa [List.filterMap_cons, hx] using this
        | some g => simpa [List.filterMap_cons, hx] using this
      | some e =>
        have := ih (x :: xs) (by simpa [Draft.free, List.countP_cons] using h)
        simp only [fillFree, Draft.groupList] at this ⊢
        cases he : e.group? with
        | none => simpa [List.filterMap_cons, he] using this
        | some g =>
          rw [List.filterMap_cons_some (by simpa using he), List.filterMap_cons_some (l := es) (by simpa using he)]
          exact (this.cons g).trans List.perm_middle.symm

@[simp] theorem entryOf_group (kind : OrderKind) (n g : Nat) : (entryOf kind n g).group? = some g := by
  cases kind <;> rfl

theorem entryOf_not_sense (kind : OrderKind) (n g : Nat) : (entryOf kind n g).isSense = false := by
  cases kind <;> rfl

theorem Band.groups_nodup (d : Band) : d.groups.Nodup :=
  List.Nodup.map (fun a b h => by simpa using h) List.nodup_range

/-! ### Placement (R82, R83) -/

/-- A draft under construction keeps the laws of a plan: its size, its CLOSING entry, each row group once, and a fixed
entry other than an order before every SENSE (R69, R79). -/
structure Draft.Sound (slots : Nat) (dr : Draft) : Prop where
  size : dr.length = slots
  closing : dr[slots - 1]? = some (some .closing)
  once : (Draft.groupList dr).Nodup
  shielded : ∀ j k, dr[j + 1]? = some (some k) → k.isSense = true →
    ∃ i, dr[j]? = some (some i) ∧ i.isOrder = false

theorem Build.take_sound (slots : Nat) (x : Build) (nr : Nat × Record) (h : Draft.Sound slots x.draft) :
    Draft.Sound slots (x.take nr).draft := by
  unfold Build.take
  dsimp only
  split
  · rename_i hroom
    set missing := Draft.missing x.draft nr.2.params.band with hmissing
    set ks := missing.map fun g => entryOf nr.2.placedKind nr.1 g with hks
    have hgs : ks.filterMap EntryKind.group? = missing := by simp [hks, List.filterMap_map]
    refine ⟨by simp [h.size], fillFree_keeps _ _ _ _ h.closing, ?_, fun j k hk hs => ?_⟩
    · refine (fillFree_groups _ _ (by simpa [hks] using hroom)).nodup_iff.2 ?_
      rw [hgs]
      refine List.nodup_append.2 ⟨(Band.groups_nodup _).filter _, h.once, ?_⟩
      rintro a ha b hb rfl
      have : Draft.carries x.draft a = false := by simpa [hmissing, Draft.missing] using (List.mem_filter.1 ha).2
      exact absurd ((Draft.carries_iff _ _).2 hb) (by simp [this])
    · rcases fillFree_mem _ _ _ _ hk with h' | h'
      · obtain ⟨i, hi, ho⟩ := h.shielded j k h' hs
        exact ⟨i, fillFree_keeps _ _ _ _ hi, ho⟩
      · obtain ⟨g, -, rfl⟩ := List.mem_map.1 h'
        simp [entryOf_not_sense] at hs
  · exact h

theorem placeAll_sound (slots : Nat) (dr : Draft) (due : List (Nat × Record)) (h : Draft.Sound slots dr) :
    Draft.Sound slots (placeAll dr due).draft := by
  have gen : ∀ (due : List (Nat × Record)) (x : Build), Draft.Sound slots x.draft →
      Draft.Sound slots (due.foldl Build.take x).draft := by
    intro due
    induction due with
    | nil => exact fun _ h => h
    | cons d ds ih => exact fun x hx => ih _ (x.take_sound slots d hx)
  exact gen due _ h

/-- The first draft of a plan is sound where its sense placement is. -/
theorem draftOf_sound (edge : Nat → Bool) (slots k : Nat) (sp : SensePlan) (needed : List Nat) (hs : 1 ≤ slots)
    (h : sp.Sound edge slots k) (hk : k ≤ needed.length) : Draft.Sound slots (draftOf slots sp needed) := by
  have noGroup : ∀ e ∈ draftOf slots sp needed, (e.bind EntryKind.group?) = none := by
    intro e he
    simp only [draftOf, List.mem_map] at he
    obtain ⟨j, -, rfl⟩ := he
    split
    · rfl
    · split
      · rfl
      · split
        · rfl
        · split <;> rfl
  refine ⟨by simp, ?_, ?_, fun j k' hj hsense => ?_⟩
  · rw [draftOf_getElem? _ _ _ _ (by omega), if_pos (by omega)]
  · have : Draft.groupList (draftOf slots sp needed) = [] := List.filterMap_eq_nil_iff.2 noGroup
    simp [this]
  · have hlt : j + 1 < slots := by
      have := (List.getElem?_eq_some_iff.1 hj).1
      simpa using this
    rw [draftOf_getElem? _ _ _ _ hlt] at hj
    have hne : j + 1 + 1 ≠ slots := by
      intro hc
      rw [if_pos hc] at hj
      simp at hj
      subst hj
      simp [EntryKind.isSense] at hsense
    rw [if_neg hne] at hj
    have hin : j + 1 ∈ sp.sense := by
      cases hf : (sp.sense.zip needed).find? fun sr => sr.1 == j + 1 with
      | none =>
        exfalso
        rw [hf] at hj
        simp only [Option.some.injEq] at hj
        split at hj
        · cases hj; simp [EntryKind.isSense] at hsense
        · split at hj
          · cases hj; simp [EntryKind.isSense] at hsense
          · simp at hj
      | some sr =>
        have hm := List.mem_of_find?_eq_some hf
        have he := List.find?_some hf
        have : sr.1 = j + 1 := by simpa using he
        rw [← this]
        exact (List.of_mem_zip (a := sr.1) (b := sr.2) hm).1
    rw [draftOf_getElem? _ _ _ _ (by omega), if_neg (by omega)]
    cases hf : (sp.sense.zip needed).find? fun sr => sr.1 == j with
    | some sr => exact ⟨_, rfl, rfl⟩
    | none =>
      have notSense : j ∉ sp.sense := by
        intro hj'
        obtain ⟨i, hi, he⟩ := List.getElem_of_mem hj'
        have hi' : i < needed.length := by have := h.few; omega
        have hz : (sp.sense[i], needed[i]) ∈ sp.sense.zip needed := by
          rw [List.mem_iff_getElem]
          exact ⟨i, by simp; omega, by simp⟩
        have := List.find?_eq_none.1 hf _ hz
        simp [he] at this
      rcases h.shielded (j + 1) hin with h' | h' | h' | h'
      · omega
      · exact absurd h' notSense
      · have hi : sp.idle.contains j = true := by simpa using h'
        exact ⟨.idle, by simp only [hi, if_true], rfl⟩
      · by_cases hi : sp.idle.contains j = true
        · exact ⟨.idle, by simp only [hi, if_true], rfl⟩
        · have hg : sp.guard = some j := by simpa using h'
          exact ⟨.guard, by simp only [hi, hg, if_true]; rfl, rfl⟩

/-! ### The finished plan -/

theorem senseShielded_of_getElem (ks : List EntryKind)
    (h : ∀ j a b, ks[j]? = some a → ks[j + 1]? = some b → b.isSense = true → a.isOrder = false) : senseShielded ks := by
  match ks with
  | [] => trivial
  | [_] => trivial
  | a :: b :: rest =>
    refine ⟨fun hab => ?_, senseShielded_of_getElem (b :: rest) fun j x y hx hy hs => ?_⟩
    · have := h 0 a b rfl rfl hab.2
      simp [this] at hab
    · exact h (j + 1) x y (by simpa using hx) (by simpa using hy) hs

theorem Draft.finish_kinds (dr : Draft) : (Draft.finish dr).map Entry.kind = dr.map fun e => e.getD .idle := by
  simp [Draft.finish, Function.comp_def]

/-- A draft with no SENSE entry on an edge slot (R79). -/
def Draft.OffEdge (edge : Nat → Bool) (dr : Draft) : Prop :=
  ∀ j k, dr[j]? = some (some k) → k.isSense = true → edge j = false

theorem Build.take_offEdge (edge : Nat → Bool) (x : Build) (nr : Nat × Record) (h : Draft.OffEdge edge x.draft) :
    Draft.OffEdge edge (x.take nr).draft := by
  unfold Build.take
  dsimp only
  split
  · intro j k hk hs
    rcases fillFree_mem _ _ _ _ hk with h' | h'
    · exact h j k h' hs
    · obtain ⟨g, -, rfl⟩ := List.mem_map.1 h'
      simp [entryOf_not_sense] at hs
  · exact h

theorem placeAll_offEdge (edge : Nat → Bool) (dr : Draft) (due : List (Nat × Record)) (h : Draft.OffEdge edge dr) :
    Draft.OffEdge edge (placeAll dr due).draft := by
  have gen : ∀ (due : List (Nat × Record)) (x : Build), Draft.OffEdge edge x.draft →
      Draft.OffEdge edge (due.foldl Build.take x).draft := by
    intro due
    induction due with
    | nil => exact fun _ h => h
    | cons d ds ih => exact fun x hx => ih _ (x.take_offEdge edge d hx)
  exact gen due _ h

theorem draftOf_offEdge (edge : Nat → Bool) (slots k : Nat) (sp : SensePlan) (needed : List Nat)
    (h : sp.Sound edge slots k) : Draft.OffEdge edge (draftOf slots sp needed) := by
  intro j k' hj hs
  have hlt : j < slots := by simpa using (List.getElem?_eq_some_iff.1 hj).1
  rw [draftOf_getElem? _ _ _ _ hlt] at hj
  split at hj
  · cases hj; simp [EntryKind.isSense] at hs
  · cases hf : (sp.sense.zip needed).find? fun sr => sr.1 == j with
    | some sr =>
      have hm := List.mem_of_find?_eq_some hf
      have he : sr.1 = j := by simpa using List.find?_some hf
      exact he ▸ h.offEdge _ (List.of_mem_zip (a := sr.1) (b := sr.2) hm).1
    | none =>
      rw [hf] at hj
      simp only [Option.some.injEq] at hj
      split at hj
      · cases hj; simp [EntryKind.isSense] at hs
      · split at hj
        · cases hj; simp [EntryKind.isSense] at hs
        · simp at hj

theorem Draft.finish_offEdge (edge : Nat → Bool) (dr : Draft) (j : Nat) (h : Draft.OffEdge edge dr) (row : Nat)
    (hk : ((Draft.finish dr).map Entry.kind)[j]? = some (.sense row)) : edge j = false := by
  rw [Draft.finish_kinds, List.getElem?_map] at hk
  obtain ⟨e, he, hr⟩ := Option.map_eq_some_iff.1 hk
  cases e with
  | none => cases hr
  | some k => exact h j k he (by cases hr; rfl)

/-- A finished sound draft is a lawful plan (R69, R79). -/
theorem Draft.finish_lawful (slots : Nat) (dr : Draft) (placed : List Placed) (carried : Option EntryOutcome)
    (h : Draft.Sound slots dr) :
    Plan.lawful slots { entries := Draft.finish dr, placed := placed, carried := carried } := by
  refine ⟨by simp [Draft.finish, h.size], ?_, ?_, ?_⟩
  · rw [Draft.finish_kinds, List.getLast?_eq_getElem?, List.length_map, h.size, List.getElem?_map, h.closing]
    rfl
  · have : (Plan.rowGroups { entries := Draft.finish dr, placed := placed, carried := carried }) =
        Draft.groupList dr := by
      simp only [Plan.rowGroups, Draft.finish, Draft.groupList, List.filterMap_map]
      refine List.filterMap_congr fun e _ => ?_
      cases e <;> rfl
    rw [this]
    exact h.once
  · rw [Draft.finish_kinds]
    refine senseShielded_of_getElem _ fun j a c ha hc hsense => ?_
    rw [List.getElem?_map] at ha hc
    obtain ⟨e, he, rfl⟩ := Option.map_eq_some_iff.1 hc
    cases e with
    | none => simp [EntryKind.isSense] at hsense
    | some k =>
      obtain ⟨i, hi, ho⟩ := h.shielded j k he hsense
      rw [hi] at ha
      simp at ha
      subst ha
      exact ho

/-- Entries change their outcomes and keep their kinds (R70). -/
theorem Plan.setOutcome_kinds (pl : Plan) (slot : Nat) (o : EntryOutcome) :
    (pl.setOutcome slot o).entries.map Entry.kind = pl.entries.map Entry.kind := by
  simp only [Plan.setOutcome]
  refine List.ext_getElem? fun i => ?_
  rw [List.getElem?_map, List.getElem?_modify, List.getElem?_map]
  by_cases h : slot = i
  · subst h; cases pl.entries[slot]? <;> simp
  · simp [h]

theorem Plan.lawful_of_kinds {slots : Nat} {pl pl' : Plan}
    (h : pl'.entries.map Entry.kind = pl.entries.map Entry.kind) (hl : pl.lawful slots) : pl'.lawful slots := by
  have hg : pl'.rowGroups = pl.rowGroups := by
    have e : ∀ q : Plan, q.rowGroups = (q.entries.map Entry.kind).filterMap EntryKind.group? := by
      intro q; simp [Plan.rowGroups, List.filterMap_map]
    rw [e, e, h]
  have hlen : pl'.entries.length = pl.entries.length := by simpa using congrArg List.length h
  exact ⟨hlen.trans hl.1, h ▸ hl.2.1, hg ▸ hl.2.2.1, h ▸ hl.2.2.2⟩

/-- A plan whose entries keep their kinds keeps its laws (R70). -/
theorem Plan.lawfulIn_of_kinds {e : Engine} {pl pl' : Plan}
    (h : pl'.entries.map Entry.kind = pl.entries.map Entry.kind) (hl : pl.lawfulIn e) : pl'.lawfulIn e :=
  ⟨Plan.lawful_of_kinds h hl.1, by unfold Plan.offEdges; rw [h]; exact hl.2⟩

/-- Only the configuration and the duty of an engine bear on the laws of its plan. -/
theorem Plan.lawfulIn.congr {e e' : Engine} {pl : Plan} (h : pl.lawfulIn e) (hc : e'.cfg = e.cfg) (hd : e'.duty = e.duty) :
    pl.lawfulIn e' := by
  unfold Plan.lawfulIn
  rw [hc, hd]
  exact h

/-! ### Step 4 of a turn -/

theorem Part.sensePlanFor_sound (p : Panel) (edge : Nat → Bool) (slots : Nat) (b : Part) :
    ∃ k, (b.sensePlanFor p edge slots).Sound edge slots k ∧ k ≤ b.touch.neededRows.length := by
  cases p
  · exact ⟨0, ⟨rfl, by simp [Part.sensePlanFor], by simp [Part.sensePlanFor], by simp [Part.sensePlanFor]⟩, by omega⟩
  · exact ⟨_, sensePlacement_sound _ _ _ _, senseDemand_le _ _⟩

theorem Part.claimDeferred_quiet (sp : SensePlan) (b : Part) : Quiet b (b.claimDeferred sp) :=
  .ite (.refl b) (b.claim_quiet _ _)

theorem Part.claimShort_quiet (p : Panel) (skipped : List Nat) (b : Part) : Quiet b (b.claimShort p skipped) := by
  cases skipped with
  | nil => exact .refl b
  | cons h t => exact b.claim_quiet _ _

/-- What building a plan does: quiet updates, and then the new plan in its engine (R67, R73). -/
theorem Part.buildPlan_spec (p : Panel) (b : Part) (hs : 1 ≤ (b.engine p).cfg.slots) :
    ∃ b₁ pl, Quiet b b₁ ∧ pl.lawfulIn (b.engine p) ∧
      b.buildPlan p = b₁.modEngine p fun e => { e with plan := some pl } := by
  obtain ⟨k, hk, hle⟩ :=
    b.sensePlanFor_sound p (isEdge (b.engine p).cfg.blPeriod (b.engine p).duty (b.engine p).output) (b.engine p).cfg.slots
  exact ⟨_, _, (b.claimDeferred_quiet _).trans ((Part.verifyAll_quiet _ _).trans (Part.claimShort_quiet _ _ _)),
    ⟨Draft.finish_lawful _ _ _ _ (placeAll_sound _ _ _ (draftOf_sound _ _ k _ _ hs hk hle)),
      (b.engine p).output, fun j row => Draft.finish_offEdge _ _ j (placeAll_offEdge _ _ _ (draftOf_offEdge _ _ k _ _ hk)) row⟩, rfl⟩

end Sys2Proof.Machine
end

