-- ==== Sys2Proof/Laws/Timeline.lean ====
section
/-! SUPPORT. The laws of the panel timelines and links (Chapters 3 and 5): which operations leave a panel's timeline
standing, and what the start and end of a slot, the frame turn and a teardown make of it. -/

namespace Sys2Proof.Machine

/-! ### A sound panel -/

/-- One panel's engine and link keep the laws of R43, R45, R69, R79, R91 and R97 together. -/
structure PanelSound (e : Engine) (l : Link) : Prop where
  range : e.inRange
  coherent : e.coherent
  lawful : ∀ pl, e.plan = some pl → pl.lawfulIn e
  fits : linkFits e l
  count : l.timeouts ≤ 3

/-- The kinds of the entries of the plan an engine holds. -/
def Engine.kinds (e : Engine) : Option (List EntryKind) := e.plan.map fun pl => pl.entries.map Entry.kind

/-- Two engines agree in everything the laws of a panel speak of: all but flag, halt, the summary kept and the outcomes
of entries. -/
structure Engine.Similar (e' e : Engine) : Prop where
  state : e'.state = e.state
  cfg : e'.cfg = e.cfg
  duty : e'.duty = e.duty
  staged : e'.stagedDuty = e.stagedDuty
  slot : e'.slot = e.slot
  timer : e'.startLeft = e.startLeft
  frame : e'.frame = e.frame
  output : e'.output = e.output
  kinds : e'.kinds = e.kinds

theorem Engine.Similar.refl (e : Engine) : e.Similar e := ⟨rfl, rfl, rfl, rfl, rfl, rfl, rfl, rfl, rfl⟩

theorem Engine.Similar.trans {a b c : Engine} (h : b.Similar a) (k : c.Similar b) : c.Similar a :=
  ⟨k.state.trans h.state, k.cfg.trans h.cfg, k.duty.trans h.duty, k.staged.trans h.staged, k.slot.trans h.slot,
    k.timer.trans h.timer, k.frame.trans h.frame, k.output.trans h.output, k.kinds.trans h.kinds⟩

theorem Engine.SameButCritical.similar {e e' : Engine} (h : e'.SameButCritical e) : e'.Similar e := by
  rw [h.1]; exact ⟨rfl, rfl, rfl, rfl, rfl, rfl, rfl, rfl, rfl⟩

theorem Engine.kinds_eq_none {e : Engine} : e.kinds = none ↔ e.plan = none := by simp [Engine.kinds]

theorem Engine.kinds_isSome (e : Engine) : e.kinds.isSome = e.plan.isSome := by simp [Engine.kinds]

/-- A sound panel's plan has an entry of a given kind in a slot. -/
theorem Plan.group_of_kinds (pl : Plan) (j : Nat) :
    (pl.entries[j]?.bind fun x => x.kind.group?) = (pl.entries.map Entry.kind)[j]?.bind EntryKind.group? := by
  rw [List.getElem?_map]; cases pl.entries[j]? <;> rfl

theorem ordersFit_of_kinds {pl pl' : Plan} {j : Nat} {os : List Order}
    (hk : pl'.entries.map Entry.kind = pl.entries.map Entry.kind) (h : ordersFit pl j os) : ordersFit pl' j os :=
  ⟨h.1, fun o ho => by
    have := h.2 o ho
    rw [Plan.group_of_kinds] at this ⊢
    rw [hk]; exact this⟩

/-- A similar engine over the same link is as sound. -/
theorem PanelSound.similar {e e' : Engine} {l : Link} (h : PanelSound e l) (k : e'.Similar e) : PanelSound e' l := by
  obtain ⟨hr, hc, hl, hf, hn⟩ := h
  have hplan : ∀ pl', e'.plan = some pl' → ∃ pl, e.plan = some pl ∧
      pl'.entries.map Entry.kind = pl.entries.map Entry.kind := by
    intro pl' hp
    have := k.kinds
    simp only [Engine.kinds, hp, Option.map_some] at this
    obtain ⟨pl, h₁, h₂⟩ := Option.map_eq_some_iff.1 this.symm
    exact ⟨pl, h₁, h₂.symm⟩
  have hnone : e'.plan = none ↔ e.plan = none := by rw [← Engine.kinds_eq_none, k.kinds, Engine.kinds_eq_none]
  refine ⟨?_, ?_, fun pl' hp => ?_, ?_, hn⟩
  · unfold Engine.inRange; rw [k.cfg, k.duty, k.staged]; exact hr
  · unfold Engine.coherent at hc ⊢
    rw [k.state, k.slot, k.timer, k.cfg, ← Engine.kinds_isSome, k.kinds, Engine.kinds_isSome]
    simpa only [hnone] using hc
  · obtain ⟨pl, h₁, h₂⟩ := hplan pl' hp
    exact (Plan.lawfulIn_of_kinds h₂ (hl pl h₁)).congr k.cfg k.duty
  · unfold linkFits at hf ⊢
    rw [k.state, k.slot]
    cases hs : e.state <;> cases hp' : e'.plan with
      | none => have := hnone.1 hp'; simp_all
      | some pl' =>
        obtain ⟨pl, h₁, h₂⟩ := hplan pl' hp'
        rw [hs, h₁] at hf
        cases hj : e.slot with
        | none => simp_all
        | some j => rw [hj] at hf; simp only at hf ⊢; first | exact hf | exact ordersFit_of_kinds h₂ hf

/-- Both panels are sound. -/
def Part.TimelineSound (b : Part) : Prop := ∀ p, PanelSound (b.engine p) (b.link p)

/-! ### Updates that leave the timelines standing -/

/-- The timelines stand: engines similar, flags rising only while RUNNING, links as they were. -/
structure Part.Still (b b' : Part) : Prop where
  engines : ∀ q, (b'.engine q).Similar (b.engine q)
  flags : ∀ q, (b'.engine q).critical = true → (b.engine q).critical = true ∨ (b.engine q).state = .running
  links : ∀ q, b'.link q = b.link q

namespace Part.Still

theorem refl (b : Part) : Still b b := ⟨fun _ => .refl _, fun _ => .inl, fun _ => rfl⟩

theorem trans {a b c : Part} (h : Still a b) (k : Still b c) : Still a c where
  engines q := (h.engines q).trans (k.engines q)
  flags q hc := by
    rcases k.flags q hc with h' | h'
    · exact h.flags q h'
    · exact .inr ((h.engines q).state ▸ h')
  links q := (k.links q).trans (h.links q)

theorem ite {c : Prop} {_ : Decidable c} {a b b' : Part} (h : Still a b) (h' : Still a b') :
    Still a (if c then b else b') := by split <;> assumption

theorem foldl {α : Type} {f : Part → α → Part} (hf : ∀ b x, Still b (f b x)) :
    ∀ (xs : List α) (b : Part), Still b (xs.foldl f b)
  | [], b => refl b
  | x :: xs, b => (hf b x).trans (foldl hf xs (f b x))

/-- What writes neither engines nor links leaves the timelines standing. -/
theorem of_eq {b b' : Part} (he : b'.engines = b.engines) (hl : b'.links = b.links) : Still b b' := by
  have e : ∀ q, b'.engine q = b.engine q := fun q => by simp [Part.engine, he]
  exact ⟨fun q => by rw [e]; exact .refl _, fun q h => .inl (by rw [← e]; exact h), fun q => by simp [Part.link, hl]⟩

theorem timelineSound {b b' : Part} (h : Still b b') (hb : b.TimelineSound) : b'.TimelineSound := fun q => by
  rw [h.links q]; exact (hb q).similar (h.engines q)

theorem flagsOnlyRunning {b b' : Part} (h : Still b b') (hb : b.FlagsOnlyRunning) : b'.FlagsOnlyRunning := fun q hc => by
  rw [(h.engines q).state]
  rcases h.flags q hc with h' | h'
  · exact hb q h'
  · exact h'

end Part.Still

theorem Part.Quiet.still {b b' : Part} (h : Quiet b b') : Still b b' :=
  ⟨fun q => (h.engines q).similar, fun q => (h.engines q).2, h.link⟩

variable (b : Part)

theorem Plan.setOutcome_similar (e : Engine) (slot : Nat) (o : EntryOutcome) :
    Engine.Similar { e with plan := e.plan.map (Plan.setOutcome slot o) } e := by
  refine ⟨rfl, rfl, rfl, rfl, rfl, rfl, rfl, rfl, ?_⟩
  cases h : e.plan with
  | none => simp [Engine.kinds, h]
  | some pl => simp [Engine.kinds, h, Plan.setOutcome_kinds]

theorem Part.setOutcome_still (p : Panel) (slot : Nat) (o : EntryOutcome) : Still b (b.setOutcome p slot o) := by
  refine ⟨fun q => ?_, fun q h => .inl ?_, fun _ => rfl⟩
  · rw [Part.setOutcome_engine]
    split
    · rename_i hq; subst hq; exact Plan.setOutcome_similar _ _ _
    · exact .refl _
  · rw [Part.setOutcome_engine] at h
    split at h
    · rename_i hq; subst hq; exact h
    · exact h

theorem Part.modTouch_still (f : Touch → Touch) : Still b (b.modTouch f) := .of_eq rfl rfl

theorem Part.rescan_still (p : Panel) : Still b (b.rescan p) := by
  cases p
  · exact .refl b
  · exact (b.verifyAll_quiet _).still.trans (Part.modTouch_still _ _)

theorem Part.dropBurst_still (p : Panel) : Still b (b.dropBurst p) := by
  cases p
  · exact .refl b
  · exact b.modTouch_still _

theorem Part.creditOldest_still (p : Panel) : Still b (b.creditOldest p) := by
  unfold Part.creditOldest
  split
  · exact .refl b
  · exact (Part.Quiet.foldl (fun b x => b.creditOne_quiet p _ x) _ b).still.trans (.of_eq rfl rfl)

theorem Part.creditMany_still (p : Panel) (k : Nat) : Still b (b.creditMany p k) := by
  induction k generalizing b with
  | zero => exact .refl b
  | succ k ih => exact (b.creditOldest_still p).trans (ih _)

theorem Part.creditAll_still (p : Panel) : Still b (b.creditAll p) := b.creditMany_still p _

theorem Part.suspendTouch_still (p : Panel) : Still b (b.suspendTouch p) := by
  cases p
  · exact .refl b
  · exact (b.modTouch_still _).trans (Part.releaseZones_quiet _).still

theorem Part.takePeaks_still (h : HandOver) : Still b (b.takePeaks h) :=
  (b.modTouch_still _).trans (Part.Quiet.foldl (fun b _ => b.claim_quiet _ _) _ _).still

theorem Part.associateContacts_still : Still b b.associateContacts :=
  (b.verifyAll_quiet _).still.trans (Part.modTouch_still _ _)

theorem Part.updatePresses_quiet : Quiet b b.updatePresses := .foldl (fun b n => b.pressOne_quiet n) _ b

theorem Part.noticeContacts_quiet (before : List Contact) : Quiet b (b.noticeContacts before) :=
  .ite (.refl b) (b.raiseWhere_quiet _ _)

theorem Part.track_still (h : HandOver) : Still b (b.track h) :=
  (b.takePeaks_still h).trans ((Part.associateContacts_still _).trans
    ((Part.updatePresses_quiet _).still.trans (Part.noticeContacts_quiet _ _).still))

theorem Part.completeFrame_still (f : TouchFrame) : Still b (b.completeFrame f) :=
  (b.modTouch_still _).trans ((Part.track_still _ _).trans ((Part.modTouch_still _ _).trans (Part.modTouch_still _ _)))

theorem Part.completeIfDone_still : Still b b.completeIfDone := by
  unfold Part.completeIfDone
  split
  · exact .ite (b.completeFrame_still _) (.refl b)
  · exact .refl b

theorem Part.fileGood_still (u : Burst) (counts : List Nat) : Still b (b.fileGood u counts) :=
  .ite (.refl b) (.ite ((b.modTouch_still _).trans (Part.completeIfDone_still _))
    (.ite (b.claim_quiet _ _).still ((b.modTouch_still _).trans (Part.completeIfDone_still _))))

theorem Part.fileBurst_still (u : Burst) (counts : List Nat) : Still b (b.fileBurst u counts) :=
  .ite ((b.setOutcome_still _ _ _).trans (Part.claim_quiet _ _ _).still)
    ((b.setOutcome_still _ _ _).trans (Part.fileGood_still _ _ _))

theorem Part.senseComplete_still (counts : List Nat) : Still b (b.senseComplete counts) := by
  unfold Part.senseComplete
  split
  · exact .refl b
  · exact (b.modTouch_still _).trans (Part.fileBurst_still _ _ _)

/-! ### Updates on one panel's side -/

/-- The other panel's timeline stands. -/
structure Part.Aside (p : Panel) (b b' : Part) : Prop where
  engines : ∀ q, q ≠ p → (b'.engine q).Similar (b.engine q)
  flags : ∀ q, q ≠ p → (b'.engine q).critical = true → (b.engine q).critical = true ∨ (b.engine q).state = .running
  links : ∀ q, q ≠ p → b'.link q = b.link q

namespace Part.Aside

theorem refl (p : Panel) (b : Part) : Aside p b b := ⟨fun _ _ => .refl _, fun _ _ => .inl, fun _ _ => rfl⟩

theorem of_still {p : Panel} {b b' : Part} (h : Still b b') : Aside p b b' :=
  ⟨fun q _ => h.engines q, fun q _ => h.flags q, fun q _ => h.links q⟩

theorem trans {p : Panel} {a b c : Part} (h : Aside p a b) (k : Aside p b c) : Aside p a c where
  engines q hq := (h.engines q hq).trans (k.engines q hq)
  flags q hq hc := by
    rcases k.flags q hq hc with h' | h'
    · exact h.flags q hq h'
    · exact .inr ((h.engines q hq).state ▸ h')
  links q hq := (k.links q hq).trans (h.links q hq)

theorem modEngine (p : Panel) (f : Engine → Engine) (b : Part) : Aside p b (b.modEngine p f) :=
  ⟨fun q hq => by simp [hq, Engine.Similar.refl], fun q hq h => .inl (by simpa [hq] using h), fun _ _ => rfl⟩

theorem modLink (p : Panel) (f : Link → Link) (b : Part) : Aside p b (b.modLink p f) :=
  ⟨fun _ _ => .refl _, fun _ _ => .inl, fun q hq => by simp [hq]⟩

/-- A panel made sound, with the other standing, leaves both sound. -/
theorem timelineSound {p : Panel} {b b' : Part} (h : Aside p b b') (hb : ∀ q, q ≠ p → PanelSound (b.engine q) (b.link q))
    (hp : PanelSound (b'.engine p) (b'.link p)) : b'.TimelineSound := fun q => by
  by_cases hq : q = p
  · subst hq; exact hp
  · rw [h.links q hq]; exact (hb q hq).similar (h.engines q hq)

end Part.Aside

/-! ### The end of a slot (R96) -/

/-- What the timeout of one order does to its panel: engine similar, the order erased, the count at most 3. -/
theorem Part.timeoutOrder_spec (p : Panel) (o : Order) :
    Aside p b (b.timeoutOrder p o) ∧ ((b.timeoutOrder p o).engine p).Similar (b.engine p) ∧
      (b.timeoutOrder p o).link p = (b.link p).timeOut o ∧
      (((b.timeoutOrder p o).engine p).critical = true → (b.engine p).critical = true ∨ (b.engine p).state = .running) := by
  have hs : Still (b.modLink p (Link.timeOut o)) (b.timeoutOrder p o) := by
    exact (Part.setOutcome_still _ _ _ _).trans ((Part.claim_quiet _ _ _).still.trans
      (.ite (Part.claim_quiet _ _ _).still (.refl _)))
  refine ⟨(Part.Aside.modLink p _ b).trans (.of_still hs), ?_, ?_, ?_⟩
  · simpa using hs.engines p
  · simpa using hs.links p
  · simpa using hs.flags p

theorem Link.timeOut_count (o : Order) (l : Link) (h : l.timeouts ≤ 3) : (l.timeOut o).timeouts ≤ 3 := by
  unfold Link.timeOut satInc
  dsimp only
  split <;> omega

/-- Orders timed out one after another. -/
theorem Part.timeoutOrders_spec (p : Panel) (os : List Order) :
    let b' := os.foldl (fun b o => b.timeoutOrder p o) b
    Aside p b b' ∧ (b'.engine p).Similar (b.engine p) ∧
      (b'.link p).orders = os.foldl (fun l o => l.erase o) (b.link p).orders ∧
      ((b.link p).timeouts ≤ 3 → (b'.link p).timeouts ≤ 3) ∧
      ((b'.engine p).critical = true → (b.engine p).critical = true ∨ (b.engine p).state = .running) := by
  induction os generalizing b with
  | nil => exact ⟨.refl p b, .refl _, rfl, id, .inl⟩
  | cons o os ih =>
    obtain ⟨a₁, s₁, l₁, f₁⟩ := b.timeoutOrder_spec p o
    obtain ⟨a₂, s₂, l₂, c₂, f₂⟩ := ih (b.timeoutOrder p o)
    refine ⟨a₁.trans a₂, s₁.trans s₂, ?_, fun h => c₂ ?_, fun h => ?_⟩
    · rw [List.foldl_cons, l₂, l₁]; rfl
    · rw [l₁]; exact Link.timeOut_count o _ h
    · rcases f₂ h with h' | h'
      · exact f₁ h'
      · exact .inr (s₁.state ▸ h')

theorem foldl_erase_subset (os xs : List Order) : ∀ o ∈ os.foldl (fun l o => l.erase o) xs, o ∈ xs := by
  induction os generalizing xs with
  | nil => exact fun _ h => h
  | cons a os ih => exact fun o ho => List.mem_of_mem_erase (ih _ o ho)

theorem foldl_erase_sublist (os xs : List Order) : (os.foldl (fun l o => l.erase o) xs).Sublist xs := by
  induction os generalizing xs with
  | nil => exact .refl _
  | cons a os ih => exact (ih _).trans List.erase_sublist

theorem foldl_erase_not_mem (os xs : List Order) (hx : xs.Nodup) (o : Order) (ho : o ∈ os) :
    o ∉ os.foldl (fun l o => l.erase o) xs := by
  induction os generalizing xs with
  | nil => simp at ho
  | cons a os ih =>
    rcases List.mem_cons.1 ho with rfl | h
    · exact fun hm => (hx.not_mem_erase) (foldl_erase_subset os _ o hm)
    · exact ih _ (hx.erase a) h

/-- The end of a panel's slot: engine similar, the orders issued before that slot gone, the rest in place (R96). -/
theorem Part.linkEndOfSlot_spec (p : Panel) (j : Nat) (hj : (b.engine p).slot = some j)
    (hn : (b.link p).orders.Nodup) :
    let b' := b.linkEndOfSlot p
    Aside p b b' ∧ (b'.engine p).Similar (b.engine p) ∧ (b'.link p).orders.Sublist (b.link p).orders ∧
      (∀ o ∈ (b'.link p).orders, j ≤ o.slot) ∧ ((b.link p).timeouts ≤ 3 → (b'.link p).timeouts ≤ 3) ∧
      ((b'.engine p).critical = true → (b.engine p).critical = true ∨ (b.engine p).state = .running) := by
  have hb : b.linkEndOfSlot p = ((b.link p).overdue j).foldl (fun b o => b.timeoutOrder p o) b := by
    simp [Part.linkEndOfSlot, hj]
  obtain ⟨a, s, l, c, f⟩ := b.timeoutOrders_spec p ((b.link p).overdue j)
  rw [hb]
  refine ⟨a, s, l ▸ foldl_erase_sublist _ _, fun o ho => ?_, c, f⟩
  rw [l] at ho
  by_contra hlt
  have hin := foldl_erase_subset _ _ o ho
  exact foldl_erase_not_mem _ _ hn o (List.mem_filter.2 ⟨hin, by simpa using hlt⟩) ho

/-! ### The start of a slot (R53, R92) -/

/-- The list a slot begins with: at most the order of the slot before, as the plan has it (R91). -/
def ordersReady (pl : Plan) (j : Nat) (os : List Order) : Prop :=
  os.Pairwise (fun x y => x.slot < y.slot) ∧
    ∀ o ∈ os, o.slot + 1 = j ∧ (pl.entries[o.slot]?.bind fun x => x.kind.group?) = some o.rowGroup

theorem ordersReady.fit {pl : Plan} {j : Nat} {os : List Order} (h : ordersReady pl j os) : ordersFit pl j os :=
  ⟨h.1, fun o ho => ⟨by have := (h.2 o ho).1; omega, by have := (h.2 o ho).1; omega, (h.2 o ho).2⟩⟩

theorem ordersReady.issue {pl : Plan} {j g : Nat} {os : List Order} {kind : OrderKind} (h : ordersReady pl j os)
    (hg : (pl.entries[j]?.bind fun x => x.kind.group?) = some g) :
    ordersFit pl j (os ++ [{ rowGroup := g, kind := kind, slot := j }]) := by
  refine ⟨List.pairwise_append.2 ⟨h.1, by simp, fun x hx y hy => ?_⟩, fun o ho => ?_⟩
  · have := (h.2 x hx).1
    simp at hy
    subst hy
    simp
    omega
  · rcases List.mem_append.1 ho with h' | h'
    · have := h.2 o h'
      exact ⟨by omega, by omega, this.2⟩
    · simp at h'
      subst h'
      exact ⟨by simp, by simp, hg⟩

/-- What carrying out an entry does: the panel's engine similar, the list still fitting the plan, the count kept (R53,
R91). -/
structure Part.CarriedOut (p : Panel) (j : Nat) (pl : Plan) (b b' : Part) : Prop where
  aside : Aside p b b'
  engine : (b'.engine p).Similar (b.engine p)
  list : ordersFit pl j (b'.link p).orders
  count : (b'.link p).timeouts = (b.link p).timeouts
  flag : (b'.engine p).critical = true → (b.engine p).critical = true ∨ (b.engine p).state = .running

theorem Part.CarriedOut.of_still {p : Panel} {j : Nat} {pl : Plan} {b b' : Part}
    (ho : ordersReady pl j (b.link p).orders) (h : Still b b') : CarriedOut p j pl b b' :=
  ⟨.of_still h, h.engines p, by rw [h.links p]; exact ho.fit, by rw [h.links p], h.flags p⟩

theorem Part.CarriedOut.of_issue {p : Panel} {j g : Nat} {pl : Plan} {b b' : Part} {kind : OrderKind}
    (ho : ordersReady pl j (b.link p).orders) (hg : (pl.entries[j]?.bind fun x => x.kind.group?) = some g)
    (h : Still (b.issue p kind g j) b') : CarriedOut p j pl b b' := by
  have hl : b'.link p = { b.link p with orders := (b.link p).orders ++ [{ rowGroup := g, kind := kind, slot := j }] } := by
    rw [h.links p]; simp [Part.issue]
  refine ⟨.trans (b := b.issue p kind g j) ⟨fun _ _ => .refl _, fun _ _ => .inl, fun q hq => ?_⟩ (.of_still h),
    h.engines p, ?_, by rw [hl], h.flags p⟩
  · simp [Part.issue, hq]
  · rw [hl]; exact ho.issue hg

theorem Part.startBurst_still (p : Panel) (pl : Plan) (row slot : Nat) : Still b (b.startBurst p pl row slot) :=
  .of_eq rfl rfl

theorem Part.carryOut_spec (p : Panel) (j : Nat) (pl : Plan) (hp : (b.engine p).plan = some pl)
    (ho : ordersReady pl j (b.link p).orders) : CarriedOut p j pl b (b.carryOut p j) := by
  dsimp only [Part.carryOut]
  simp only [hp]
  cases hk : pl.entries[j]? with
  | none => exact .of_still ho (.refl b)
  | some x =>
    have hx : ∀ g, x.kind.group? = some g → (pl.entries[j]?.bind fun x => x.kind.group?) = some g := by
      intro g hg; simp [hk, hg]
    cases hxk : x.kind <;> simp only [Option.map_some, hxk]
    · exact .of_issue ho (hx _ (by simp [hxk, EntryKind.group?])) (Part.captures_quiet _ p j).still
    · exact .of_issue ho (hx _ (by simp [hxk, EntryKind.group?])) (.refl _)
    · exact .of_still ho (b.startBurst_still _ _ _ _)
    · exact .of_still ho (b.setOutcome_still _ _ _)
    · exact .of_still ho (b.setOutcome_still _ _ _)
    · exact .of_still ho (b.setOutcome_still _ _ _)

/-- What a slot's start needs: a RUNNING panel in range with a lawful plan, a slot of the frame, and a list with at
most the order of the slot before (R53, R91). -/
structure SlotReady (j : Nat) (e : Engine) (l : Link) : Prop where
  range : e.inRange
  running : e.state = .running
  timer : e.startLeft = none
  plan : ∃ pl, e.plan = some pl ∧ pl.lawfulIn e ∧ ordersReady pl j l.orders
  slot : j < e.cfg.slots
  count : l.timeouts ≤ 3

/-- A slot's start leaves its panel sound (R53, R91). -/
theorem Part.startSlot_spec (p : Panel) (j : Nat) (h : SlotReady j (b.engine p) (b.link p)) :
    Aside p b (b.startSlot p j) ∧ PanelSound ((b.startSlot p j).engine p) ((b.startSlot p j).link p) ∧
      ((b.startSlot p j).engine p).state = .running := by
  obtain ⟨pl, hp, hl, ho⟩ := h.plan
  have he : (b.modEngine p (Engine.enterSlot j)).engine p = (b.engine p).enterSlot j := by simp
  have c : CarriedOut p j pl (b.modEngine p (Engine.enterSlot j)) (b.startSlot p j) :=
    Part.carryOut_spec _ p j pl (by rw [he]; exact hp) (by simpa using ho)
  have s := c.engine
  rw [he] at s
  refine ⟨(Part.Aside.modEngine p _ b).trans c.aside, ?_, s.state.trans h.running⟩
  refine PanelSound.similar (e := (b.engine p).enterSlot j) ⟨h.range, ?_, ?_, ?_, ?_⟩ s
  · simp only [Engine.coherent, Engine.enterSlot, h.running]
    exact ⟨⟨j, rfl, h.slot⟩, h.timer, by simp [hp]⟩
  · intro pl' h'
    have : pl' = pl := by simpa [Engine.enterSlot, hp] using h'.symm
    subst this; exact hl
  · simpa only [linkFits, Engine.enterSlot, h.running, hp] using c.list
  · rw [c.count]; simpa using h.count

/-! ### The frame turn (R56) and the slot boundary (R53) -/

theorem ordersReady_nil (pl : Plan) (j : Nat) : ordersReady pl j [] := ⟨.nil, by simp⟩

/-- A turn taken with the list empty leaves its panel sound (R54, R56). -/
theorem Part.frameTurn_spec (p : Panel) (first : Bool) (hr : (b.engine p).inRange)
    (hrun : (b.engine p).state = .running) (ht : (b.engine p).startLeft = none) (ho : (b.link p).orders = [])
    (hc : (b.link p).timeouts ≤ 3) :
    Aside p b (b.frameTurn p first) ∧ PanelSound ((b.frameTurn p first).engine p) ((b.frameTurn p first).link p) ∧
      ((b.frameTurn p first).engine p).state = .running := by
  have a₁ : Aside p b (b.modEngine p Engine.beginTurn) := .modEngine p _ b
  have s₂ : Still (b.modEngine p Engine.beginTurn) (((b.modEngine p Engine.beginTurn).turnClaim p first).rescan p) :=
    (Part.turnClaim_quiet _ _ _).still.trans (Part.rescan_still _ _)
  have e₂ := s₂.engines p
  have l₂ := s₂.links p
  simp only [Part.modEngine_engine, Part.modEngine_link, if_true] at e₂ l₂
  have slots : 1 ≤ (b.engine p).cfg.slots := by
    have := hr.1
    simp [PanelConfig.inRange] at this
    omega
  obtain ⟨b₃, pl, q₃, hlaw, hb⟩ :=
    (((b.modEngine p Engine.beginTurn).turnClaim p first).rescan p).buildPlan_spec p (by rw [e₂.cfg]; exact slots)
  have e₃ := e₂.trans (q₃.engines p).similar
  have l₃ : b₃.link p = b.link p := (q₃.link p).trans l₂
  have hready : SlotReady 0 ((b₃.modEngine p fun e => { e with plan := some pl }).engine p)
      ((b₃.modEngine p fun e => { e with plan := some pl }).link p) := by
    simp only [Part.modEngine_engine, Part.modEngine_link, if_true, l₃]
    refine ⟨?_, e₃.state.trans hrun, e₃.timer.trans ht, ⟨pl, rfl, ?_, ?_⟩, ?_, hc⟩
    · unfold Engine.inRange at hr ⊢
      dsimp only
      rw [e₃.cfg, e₃.duty, e₃.staged]
      exact ⟨hr.1, hr.2.2, hr.2.2⟩
    · exact hlaw.congr (q₃.engines p).similar.cfg (q₃.engines p).similar.duty
    · rw [ho]; exact ordersReady_nil _ _
    · dsimp only
      rw [e₃.cfg]; exact slots
  obtain ⟨a₄, p₄, r₄⟩ := Part.startSlot_spec _ p 0 hready
  have hturn : b.frameTurn p first = (b₃.modEngine p fun e => { e with plan := some pl }).startSlot p 0 := by
    unfold Part.frameTurn; rw [hb]
  rw [hturn]
  exact ⟨a₁.trans ((Part.Aside.of_still (s₂.trans q₃.still)).trans ((Part.Aside.modEngine p _ b₃).trans a₄)), p₄, r₄⟩

/-- The list of a sound RUNNING panel, in slot j. -/
theorem PanelSound.running {e : Engine} {l : Link} (h : PanelSound e l) (hr : e.state = .running) :
    ∃ pl j, e.plan = some pl ∧ e.slot = some j ∧ j < e.cfg.slots ∧ e.startLeft = none ∧ pl.lawfulIn e ∧
      ordersFit pl j l.orders := by
  have hc := h.coherent
  simp only [Engine.coherent, hr] at hc
  obtain ⟨⟨j, hj, hlt⟩, ht, hp⟩ := hc
  obtain ⟨pl, hpl⟩ := Option.isSome_iff_exists.1 hp
  have hf := h.fits
  simp only [linkFits, hr, hpl, hj] at hf
  exact ⟨pl, j, hpl, hj, hlt, ht, h.lawful pl hpl, hf⟩

theorem ordersFit.nodup {pl : Plan} {j : Nat} {os : List Order} (h : ordersFit pl j os) : os.Nodup :=
  h.1.imp fun hlt he => by subst he; exact Nat.lt_irrefl _ hlt

/-- A lawful plan's last entry issues no order (R69). -/
theorem Plan.lawful.no_order_at_closing {slots : Nat} {pl : Plan} (h : pl.lawful slots) :
    (pl.entries[slots - 1]?.bind fun x => x.kind.group?) = none := by
  have hl := h.2.1
  rw [List.getLast?_eq_getElem?, List.length_map, h.1, List.getElem?_map] at hl
  cases hx : pl.entries[slots - 1]? with
  | none => rfl
  | some x =>
    rw [hx] at hl
    simp only [Option.map_some, Option.some.injEq] at hl
    simp [hl, EntryKind.group?]

/-- The boundary of a sound RUNNING panel leaves it sound and RUNNING (R53, R54). -/
theorem Part.endSlot_spec (p : Panel) (j : Nat) (h : PanelSound (b.engine p) (b.link p))
    (hrun : (b.engine p).state = .running) (hj : (b.engine p).slot = some j) :
    Aside p b (b.endSlot p j) ∧ PanelSound ((b.endSlot p j).engine p) ((b.endSlot p j).link p) ∧
      ((b.endSlot p j).engine p).state = .running := by
  obtain ⟨pl, j', hpl, hj', hlt, ht, hlaw, hfit⟩ := h.running hrun
  obtain rfl : j' = j := by rw [hj] at hj'; exact (Option.some.inj hj').symm
  have s₀ := b.dropBurst_still p
  have n₀ : ((b.dropBurst p).link p).orders.Nodup := by rw [s₀.links p]; exact hfit.nodup
  obtain ⟨a₁, e₁, sub₁, late₁, c₁, f₁⟩ :=
    (b.dropBurst p).linkEndOfSlot_spec p j' ((s₀.engines p).slot.trans hj) n₀
  rw [s₀.links p] at sub₁ c₁
  have e₁ := (s₀.engines p).trans e₁
  have a₁ := (Part.Aside.of_still (p := p) s₀).trans a₁
  have sound₁ : PanelSound (((b.dropBurst p).linkEndOfSlot p).engine p) (b.link p) := h.similar e₁
  obtain ⟨pl₁, i, hpl₁, hi, -, ht₁, hlaw₁, hfit₁⟩ := sound₁.running (e₁.state.trans hrun)
  obtain rfl : i = j' := by rw [e₁.slot, hj] at hi; exact (Option.some.inj hi).symm
  have inSlot : ∀ o ∈ (((b.dropBurst p).linkEndOfSlot p).link p).orders, o.slot = i ∧
      (pl₁.entries[o.slot]?.bind fun x => x.kind.group?) = some o.rowGroup := fun o ho =>
    have := hfit₁.2 o (sub₁.subset ho)
    ⟨Nat.le_antisymm this.1 (late₁ o ho), this.2.2⟩
  unfold Part.endSlot
  dsimp only
  split
  · rename_i hnext
    obtain ⟨a₂, p₂, r₂⟩ := Part.startSlot_spec ((b.dropBurst p).linkEndOfSlot p) p (i + 1)
      ⟨sound₁.range, e₁.state.trans hrun, ht₁, ⟨pl₁, hpl₁, hlaw₁, hfit₁.1.sublist sub₁, fun o ho =>
        ⟨by rw [(inSlot o ho).1], (inSlot o ho).2⟩⟩, hnext, c₁ h.count⟩
    exact ⟨a₁.trans a₂, p₂, r₂⟩
  · rename_i hlast
    have hclosing : i = (((b.dropBurst p).linkEndOfSlot p).engine p).cfg.slots - 1 := by
      rw [e₁.cfg] at hlast ⊢; omega
    have hnil : (((b.dropBurst p).linkEndOfSlot p).link p).orders = [] := by
      refine List.eq_nil_iff_forall_not_mem.2 fun o ho => ?_
      have := inSlot o ho
      rw [this.1, hclosing, hlaw₁.1.no_order_at_closing] at this
      simp at this
    have s₂ := ((b.dropBurst p).linkEndOfSlot p).creditAll_still p
    have e₂ := s₂.engines p
    obtain ⟨a₃, p₃, r₃⟩ := Part.frameTurn_spec (((b.dropBurst p).linkEndOfSlot p).creditAll p) p false
      (by unfold Engine.inRange; rw [e₂.cfg, e₂.duty, e₂.staged]; exact sound₁.range)
      (e₂.state.trans (e₁.state.trans hrun)) (e₂.timer.trans ht₁) (by rw [s₂.links p]; exact hnil)
      (by rw [s₂.links p]; exact c₁ h.count)
    exact ⟨a₁.trans ((Part.Aside.of_still s₂).trans a₃), p₃, r₃⟩

end Sys2Proof.Machine
end

