-- ==== Sys2Proof/Laws/Admission.lean ====
section
/-! SUPPORT. Why admission holds on (Chapter 2): every update of a record but OPEN and AMEND leaves its contract in the
view with parameters the view already judged, or takes it out; and a smaller view asks for no more. -/

namespace Sys2Proof.Machine

/-! ### Smaller views ask for no more (R32, R33) -/

theorem View.conflict_of_sublist {v v' : View} (h : v'.Sublist v) (hv : v.exclusive = true) : v'.exclusive = true := by
  simp only [View.exclusive, View.inConflict, List.all_eq_true, Bool.not_eq_true', List.any_eq_false] at hv ⊢
  exact fun x hx y hy => hv x (h.subset hx) y (h.subset hy)

theorem View.loadSum_mono {v v' : View} (h : v'.Sublist v) : v'.loadSum ≤ v.loadSum := by
  unfold View.loadSum
  exact (h.map _).sum_le_sum fun _ _ => Nat.zero_le _

theorem View.rowCount_mono {v v' : View} (h : v'.Sublist v) : v'.rowCount ≤ v.rowCount := by
  unfold View.rowCount
  refine (List.Sublist.length_le ?_)
  refine List.monotone_filter_right _ fun t ht => ?_
  simp only [List.any_eq_true] at ht ⊢
  obtain ⟨x, hx, hz⟩ := ht
  exact ⟨x, h.subset hx, hz⟩

/-- The least divisor bounds every divisor, and is the greatest such bound up to 8. -/
theorem leastDivisor_foldl (zs : List Zone) (d : Nat) :
    zs.foldl (fun d z => min d z.divisor) d ≤ d ∧ (∀ z ∈ zs, zs.foldl (fun d z => min d z.divisor) d ≤ z.divisor) ∧
      ∀ m, m ≤ d → (∀ z ∈ zs, m ≤ z.divisor) → m ≤ zs.foldl (fun d z => min d z.divisor) d := by
  induction zs generalizing d with
  | nil => simp
  | cons z zs ih =>
    obtain ⟨h₁, h₂, h₃⟩ := ih (min d z.divisor)
    refine ⟨h₁.trans (Nat.min_le_left _ _), fun y hy => ?_, fun m hm hz => ?_⟩
    · rcases List.mem_cons.1 hy with rfl | hy
      · exact h₁.trans (Nat.min_le_right _ _)
      · exact h₂ y hy
    · exact h₃ m (Nat.le_min.2 ⟨hm, hz z (.head _)⟩) fun y hy => hz y (.tail _ hy)

theorem leastDivisor_mono {zs zs' : List Zone} (h : ∀ z ∈ zs', z ∈ zs) : leastDivisor zs ≤ leastDivisor zs' :=
  (leastDivisor_foldl zs' 8).2.2 _ (leastDivisor_foldl zs 8).1 fun z hz => (leastDivisor_foldl zs 8).2.1 z (h z hz)

theorem leastDivisor_pos {zs : List Zone} (h : ∀ z ∈ zs, 1 ≤ z.divisor) : 1 ≤ leastDivisor zs :=
  (leastDivisor_foldl zs 8).2.2 1 (by omega) h

theorem ceilDiv_mono {n n' d d' : Nat} (hn : n' ≤ n) (hd : d ≤ d') (h1 : 1 ≤ d) : ceilDiv n' d' ≤ ceilDiv n d := by
  unfold ceilDiv
  rcases Nat.eq_zero_or_pos n' with rfl | hpos
  · rw [Nat.div_eq_of_lt (by omega)]; exact Nat.zero_le _
  · rw [show n' + d' - 1 = (n' - 1) + d' by omega, show n + d - 1 = (n - 1) + d by omega,
      Nat.add_div_right _ (by omega), Nat.add_div_right _ (by omega)]
    exact Nat.succ_le_succ ((Nat.div_le_div_right (by omega)).trans (Nat.div_le_div_left hd h1))

/-- Every zone of a view has a divisor of at least 1 (R2). -/
def View.zonesSane (v : View) : Prop := ∀ z ∈ v.zones, 1 ≤ z.divisor

theorem View.zones_subset {v v' : View} (h : v'.Sublist v) : ∀ z ∈ v'.zones, z ∈ v.zones := fun z hz => by
  simp only [View.zones, List.mem_filterMap] at hz ⊢
  obtain ⟨x, hx, hxz⟩ := hz
  exact ⟨x, h.subset hx, hxz⟩

/-- When contracts leave the view, the reserve does not grow (R32). -/
theorem View.reserve_mono {v v' : View} (p : Panel) (h : v'.Sublist v) (hs : v.zonesSane) :
    v'.reserve p ≤ v.reserve p := by
  cases p with
  | cluster => exact Nat.le_refl _
  | centre =>
    have hr := View.rowCount_mono h
    simp only [View.reserve]
    by_cases h0 : v'.rowCount = 0
    · simp [h0]
    · rw [if_neg h0, if_neg (by omega)]
      exact Nat.add_le_add_right
        (ceilDiv_mono hr (leastDivisor_mono (View.zones_subset h)) (leastDivisor_pos hs)) 2

theorem View.driveSlots_mono {v v' : View} (p : Panel) (slots : Nat) (h : v'.Sublist v) (hs : v.zonesSane) :
    v.driveSlots p slots ≤ v'.driveSlots p slots := by
  have := View.reserve_mono p h hs
  unfold View.driveSlots
  omega

/-- A view keeps exclusivity, fit and budget when contracts leave it (R33 to R35). -/
theorem View.judged_of_sublist {v v' : View} (p : Panel) (slots : Nat) (h : v'.Sublist v) (hs : v.zonesSane)
    (hv : v.exclusive = true ∧ v.fits p slots = true ∧ v.withinBudget p slots = true) :
    v'.exclusive = true ∧ v'.fits p slots = true ∧ v'.withinBudget p slots = true := by
  have hd := View.driveSlots_mono p slots h hs
  refine ⟨View.conflict_of_sublist h hv.1, ?_, ?_⟩
  · have hf := hv.2.1
    simp only [View.fits, List.all_eq_true, decide_eq_true_eq] at hf ⊢
    exact fun x hx => (hf x (h.subset hx)).trans hd
  · have hb : v.loadSum ≤ v.driveSlots p slots * 64 := of_decide_eq_true hv.2.2
    have : v'.loadSum ≤ v'.driveSlots p slots * 64 :=
      (View.loadSum_mono h).trans (hb.trans (Nat.mul_le_mul_right 64 hd))
    exact decide_eq_true this

/-! ### Records that ask for no more -/

/-- The parameter sets a record holds. -/
def Record.paramSets (r : Record) : List Params := r.params :: r.stagedAmendment.toList

/-- A record asks for no more than another: it is FREE, or is the same contract with parameter sets held before, and
in the view only with choices the view had before (R29, R38). -/
def Record.Eases (r r' : Record) : Prop :=
  r'.state = .free ∨
    (r.state ≠ .free ∧ r'.panel = r.panel ∧ (∀ q ∈ r'.paramSets, q ∈ r.paramSets) ∧
      (r'.inView = true → r.inView = true ∧ ∀ q ∈ r'.viewOptions, q ∈ r.viewOptions))

theorem Record.Eases.refl (r : Record) : r.Eases r := by
  by_cases h : r.state = .free
  · exact .inl h
  · exact .inr ⟨h, rfl, fun _ h => h, fun h => ⟨h, fun _ h => h⟩⟩

theorem Record.Eases.trans {a b c : Record} (h : a.Eases b) (k : b.Eases c) : a.Eases c := by
  rcases k with k | ⟨kb, kp, kq, kv⟩
  · exact .inl k
  · rcases h with h | ⟨ha, hp, hq, hv⟩
    · exact absurd h kb
    · exact .inr ⟨ha, kp.trans hp, fun q m => hq q (kq q m), fun m =>
        ⟨(hv (kv m).1).1, fun q n => (hv (kv m).1).2 q ((kv m).2 q n)⟩⟩

theorem Record.Eases.of_free {r r' : Record} (h : r'.state = .free) : r.Eases r' := .inl h

theorem Record.freed_eases (r : Record) : r.Eases r.freed := .inl rfl

/-- An update that keeps state, panel, parameters and staged amendment asks for no more. -/
theorem Record.Eases.of_same {r r' : Record} (hs : r'.state = r.state) (hp : r'.panel = r.panel)
    (hq : r'.params = r.params) (ha : r'.stagedAmendment = r.stagedAmendment) : r.Eases r' := by
  by_cases h : r.state = .free
  · exact .inl (hs.trans h)
  · refine .inr ⟨h, hp, fun q m => ?_, fun m => ⟨?_, fun q n => ?_⟩⟩
    · simpa [Record.paramSets, hq, ha] using m
    · simpa [Record.inView, hs] using m
    · simpa [Record.viewOptions, Record.twoWay, Record.viewParams, Record.turnDrops, hs, hq, ha] using n

/-- The check code bears on no judgement. -/
theorem Record.Eases.good {r r' : Record} (h : r.Eases r') : r.Eases { r' with checkGood := true } :=
  h.trans (.of_same rfl rfl rfl rfl)

/-- The choices of a LIVE and of a STALE contract are the same (R38, R40). -/
theorem Record.viewOptions_live_stale (r : Record) (s s' : ContractState) (hs : s = .live ∨ s = .stale)
    (hs' : s' = .live ∨ s' = .stale) :
    { r with state := s }.viewOptions = { r with state := s' }.viewOptions := by
  have key : ∀ s, s = .live ∨ s = .stale → { r with state := s }.viewOptions =
      match r.stagedAmendment with
      | none => [r.params]
      | some a => if classCrosses r.params.cls a.cls then [r.params, a] else [a] := by
    intro s hs
    cases ha : r.stagedAmendment with
    | none => simp [Record.viewOptions, Record.twoWay, Record.viewParams]
    | some a =>
      cases hc : classCrosses r.params.cls a.cls <;> rcases hs with rfl | rfl <;>
        simp [Record.viewOptions, Record.twoWay, Record.viewParams, Record.turnDrops, hc]
  rw [key s hs, key s' hs']

/-- A contract passing between LIVE and STALE asks for no more (R40). -/
theorem Record.Eases.of_live_stale {r r' : Record} (hr : r.state = .live ∨ r.state = .stale)
    (hr' : r'.state = .live ∨ r'.state = .stale) (hp : r'.panel = r.panel) (hq : r'.params = r.params)
    (ha : r'.stagedAmendment = r.stagedAmendment) : r.Eases r' := by
  refine .inr ⟨by rcases hr with h | h <;> simp [h], hp, fun q m => ?_, fun _ => ⟨?_, fun q m => ?_⟩⟩
  · simpa [Record.paramSets, hq, ha] using m
  · rcases hr with h | h <;> simp [Record.inView, h]
  · have h₁ : r'.viewOptions = { r with state := r'.state }.viewOptions := by
      simp [Record.viewOptions, Record.twoWay, Record.viewParams, Record.turnDrops, hq, ha]
    rw [h₁] at m
    rw [Record.viewOptions_live_stale r r'.state r.state hr' hr] at m
    exact m

/-- A contract that leaves the view and drops its amendment asks for no more. -/
theorem Record.retired_eases (r : Record) (h : r.state ≠ .free) : r.Eases r.retired :=
  .inr ⟨h, rfl, fun q m => by
    have : q = r.params := by simpa [Record.paramSets, Record.retired] using m
    simp [Record.paramSets, this], fun m => by simp [Record.inView, Record.retired] at m⟩

/-! ### Tables that ask for no more -/

theorem choicesOf_eases (p : Panel) (ns : List Nat) (t t' : List Record) (h : List.Forall₂ Record.Eases t t') :
    ∀ v' ∈ choicesOf ((ns.zip t').filter fun nr => nr.2.panel == p && nr.2.inView),
      ∃ v ∈ choicesOf ((ns.zip t).filter fun nr => nr.2.panel == p && nr.2.inView), v'.Sublist v := by
  induction h generalizing ns with
  | nil => intro v' hv'; exact ⟨v', hv', .refl _⟩
  | @cons r r' t t' hr _ ih =>
    cases ns with
    | nil => intro v' hv'; exact ⟨v', hv', .refl _⟩
    | cons n ns =>
      intro v' hv'
      have skip : ∀ (w : View), (∃ v ∈ choicesOf ((ns.zip t).filter fun nr => nr.2.panel == p && nr.2.inView),
          w.Sublist v) → r.viewOptions ≠ [] → ∃ v ∈ choicesOf (((n :: ns).zip (r :: t)).filter
            fun nr => nr.2.panel == p && nr.2.inView), w.Sublist v := by
        rintro w ⟨v, hv, hs⟩ hne
        rw [List.zip_cons_cons, List.filter_cons]
        split
        · obtain ⟨q, hq⟩ := List.exists_mem_of_ne_nil _ hne
          exact ⟨(n, q) :: v, by simp only [choicesOf, List.mem_flatMap, List.mem_map]; exact ⟨q, hq, v, hv, rfl⟩,
            hs.cons _⟩
        · exact ⟨v, hv, hs⟩
      have hne : r.viewOptions ≠ [] := by unfold Record.viewOptions; split <;> simp
      rw [List.zip_cons_cons, List.filter_cons] at hv'
      split at hv'
      · rename_i hin
        have hin' : r'.panel = p ∧ r'.inView = true := by simpa using hin
        simp only [choicesOf, List.mem_flatMap, List.mem_map] at hv'
        obtain ⟨q, hq, w, hw, rfl⟩ := hv'
        obtain ⟨v, hv, hs⟩ := ih ns w hw
        rcases hr with hf | ⟨-, hp, -, hview⟩
        · simp [Record.inView, hf] at hin'
        · obtain ⟨hin₂, hopt⟩ := hview hin'.2
          refine ⟨(n, q) :: v, ?_, hs.cons_cons _⟩
          rw [List.zip_cons_cons, List.filter_cons, if_pos (by simp [← hp, hin'.1, hin₂])]
          simp only [choicesOf, List.mem_flatMap, List.mem_map]
          exact ⟨q, hopt q hq, v, hv, rfl⟩
      · exact skip v' (ih ns v' hv') hne

/-- Every parameter set of a choice is one that its record holds. -/
theorem choicesOf_params {xs : List (Nat × Record)} {v : View} (hv : v ∈ choicesOf xs) :
    ∀ nq ∈ v, ∃ nr ∈ xs, nq.2 ∈ nr.2.paramSets := by
  induction xs generalizing v with
  | nil => simp only [choicesOf, List.mem_singleton] at hv; subst hv; simp
  | cons x xs ih =>
    simp only [choicesOf, List.mem_flatMap, List.mem_map] at hv
    obtain ⟨q, hq, w, hw, rfl⟩ := hv
    intro nq hnq
    rcases List.mem_cons.1 hnq with rfl | hnq
    · refine ⟨x, .head _, ?_⟩
      have : q ∈ x.2.paramSets := by
        unfold Record.viewOptions at hq
        split at hq
        · exact hq
        · simp only [List.mem_singleton] at hq
          subst hq
          unfold Record.viewParams Record.paramSets
          split
          · simp
          · rename_i a ha
            split <;> simp [ha]
      exact this
    · obtain ⟨nr, hnr, h⟩ := ih hw nq hnq
      exact ⟨nr, .tail _ hnr, h⟩

/-! ### Parts that ask for no more -/

/-- The table keeps its size, and every record asks for no more. -/
structure Part.Eases (b b' : Part) : Prop where
  size : b'.table.length = b.table.length
  records : ∀ n, (b.record n).Eases (b'.record n)

namespace Part.Eases

theorem refl (b : Part) : Part.Eases b b := ⟨rfl, fun _ => .refl _⟩

theorem trans {a b c : Part} (h : Part.Eases a b) (k : Part.Eases b c) : Part.Eases a c :=
  ⟨k.size.trans h.size, fun n => (h.records n).trans (k.records n)⟩

theorem of_table {b b' : Part} (h : b'.table = b.table) : Part.Eases b b' :=
  ⟨by rw [h], fun n => by rw [Part.record, Part.record, h]; exact .refl _⟩

theorem ite {c : Prop} {_ : Decidable c} {a b b' : Part} (h : Part.Eases a b) (h' : Part.Eases a b') :
    Part.Eases a (if c then b else b') := by split <;> assumption

theorem foldl {α : Type} {f : Part → α → Part} (hf : ∀ b x, Part.Eases b (f b x)) :
    ∀ (xs : List α) (b : Part), Part.Eases b (xs.foldl f b)
  | [], b => refl b
  | x :: xs, b => (hf b x).trans (foldl hf xs (f b x))

/-- A record written that asks for no more. -/
theorem setRecord (b : Part) (n : Nat) (r : Record) (h : (b.record n).Eases r) : Part.Eases b (b.setRecord n r) := by
  refine ⟨by simp, fun m => ?_⟩
  by_cases hn : n < b.table.length
  · rw [Part.setRecord_record b n m r hn]
    split
    · rename_i hm; subst hm; exact h.good
    · exact .refl _
  · have : (b.setRecord n r).record m = b.record m := by
      have hs : b.table.set n { r with checkGood := true } = b.table := List.set_eq_of_length_le (by omega)
      simp [Part.record, hs]
    rw [this]; exact .refl _

/-- The tables, record by record. -/
theorem forall₂ {b b' : Part} (h : Part.Eases b b') : List.Forall₂ Record.Eases b.table b'.table := by
  rw [List.forall₂_iff_get]
  refine ⟨h.size.symm, fun i h₁ h₂ => ?_⟩
  have := h.records i
  simpa [Part.record, List.getD, h₁, h₂] using this

/-- Contracts stay in range (R9). -/
theorem contractsRanged {b b' : Part} (h : Part.Eases b b') (hb : b.ContractsRanged) : b'.ContractsRanged := fun n hn => by
  rcases h.records n with hf | ⟨ha, hp, hq, -⟩
  · exact absurd hf hn
  · have hr := hb n ha
    have all : ∀ q ∈ (b.record n).paramSets, q.inRange (b.record n).panel = true := by
      intro q hq
      rcases List.mem_cons.1 hq with rfl | hq
      · exact hr.1
      · exact hr.2 q (by simpa using hq)
    rw [hp]
    refine ⟨all _ (hq _ (.head _)), fun a ha => all a (hq a (List.mem_cons_of_mem _ (by simpa using ha)))⟩

end Part.Eases

/-- The zones of every choice are sane where the contracts are in range. -/
theorem Part.ContractsRanged.zonesSane {b : Part} (hb : b.ContractsRanged) (p : Panel) (v : View)
    (hv : v ∈ choicesOf (viewRecords p b.table)) : v.zonesSane := fun z hz => by
  simp only [View.zones, List.mem_filterMap] at hz
  obtain ⟨nq, hnq, hz⟩ := hz
  obtain ⟨nr, hnr, hset⟩ := choicesOf_params hv nq hnq
  simp only [viewRecords, List.mem_filter, Bool.and_eq_true] at hnr
  obtain ⟨hin, -, hview⟩ := hnr
  obtain ⟨i, hi, he⟩ := List.getElem_of_mem hin
  have hlt : i < b.table.length := by
    have := hi
    simp only [numbered, List.length_zip] at this
    omega
  have hrec : nr.2 = b.record i := by
    rw [← he]
    simp [numbered, Part.record, List.getD, hlt]
  have hfree : (b.record i).state ≠ .free := by
    rw [← hrec]
    intro hf
    simp [Record.inView, hf] at hview
  have hr := hb i hfree
  have hq : nq.2.inRange (b.record i).panel = true := by
    rw [hrec] at hset
    rcases List.mem_cons.1 hset with h | h
    · rw [h]; exact hr.1
    · exact hr.2 _ (by simpa using h)
  simp only [Params.inRange, hz, Bool.and_eq_true, decide_eq_true_eq] at hq
  exact hq.2.2.1

/-- What asks for no more stays admitted under the same slot count (R33, R34, R35, R38). -/
theorem Part.Eases.admitted {b b' : Part} (h : Part.Eases b b') (hr : b.ContractsRanged) (p : Panel) (slots : Nat)
    (hb : Sys2Proof.Machine.admitted p slots b.table) : Sys2Proof.Machine.admitted p slots b'.table := fun v' hv' => by
  obtain ⟨v, hv, hs⟩ := choicesOf_eases p recordNumbers b.table b'.table h.forall₂ v' hv'
  exact View.judged_of_sublist p slots hs (hr.zonesSane p v hv) (hb v hv)

/-! ### The contract manager's work asks for no more -/

variable (b : Part)

theorem Part.verify_eases (who : Reader) (n : Nat) : Part.Eases b (b.verify who n) := by
  unfold Part.verify
  exact .ite (.refl b) ((Part.Eases.setRecord b n _ (Record.freed_eases _)).trans (.of_table rfl))

theorem Part.verifyAll_eases (who : Reader) : Part.Eases b (b.verifyAll who) :=
  .foldl (fun b n => b.verify_eases who n) _ b

theorem Part.freeContract_eases (n : Nat) (sender : Option Port) : Part.Eases b (b.freeContract n sender) :=
  (Part.Eases.setRecord b n _ (Record.freed_eases _)).trans (.of_table rfl)

theorem Part.contractNoticeIf_table (c : Bool) (n : Nat) (r : Record) (sender : Option Port) :
    (b.contractNoticeIf c n r sender).table = b.table := by cases c <;> rfl

theorem Part.emptyCandidateIf_table (c : Bool) (n : Nat) : (b.emptyCandidateIf c n).table = b.table := by
  cases c <;> rfl

theorem Part.captureOne_eases (x : Placed) : Part.Eases b (b.captureOne x) :=
  (b.verify_eases _ _).trans (.ite (.setRecord _ _ _ (.of_same rfl rfl rfl rfl)) (.refl _))

theorem Part.captures_eases (p : Panel) (slot : Nat) : Part.Eases b (b.captures p slot) := by
  unfold Part.captures
  split
  · exact .refl b
  · exact .foldl (fun b x => b.captureOne_eases x) _ b

/-- A verdict keeps panel, parameters and amendment, and moves the state between LIVE and STALE alone (R111 to
R119). -/
theorem Record.applyVerdict_eases (r : Record) (v : Verdict) (f : FrameNo) : r.Eases (r.applyVerdict v f) := by
  have keep : (r.applyVerdict v f).panel = r.panel ∧ (r.applyVerdict v f).params = r.params ∧
      (r.applyVerdict v f).stagedAmendment = r.stagedAmendment := by
    cases v <;> exact ⟨rfl, rfl, rfl⟩
  have st : (r.applyVerdict v f).state = r.state ∨
      ((r.state = .live ∨ r.state = .stale) ∧
        ((r.applyVerdict v f).state = .live ∨ (r.applyVerdict v f).state = .stale)) := by
    have cred : ∀ w, (r.credited w f).state = r.state ∨
        ((r.state = .live ∨ r.state = .stale) ∧ ((r.credited w f).state = .live ∨ (r.credited w f).state = .stale)) := by
      intro w
      simp only [Record.credited]
      split
      · rename_i h; exact .inr ⟨.inr h.1, .inl rfl⟩
      · exact .inl rfl
    cases v with
    | served t => exact cred _
    | newer t => exact cred _
    | unchanged => exact cred _
    | firstSight => exact cred _
    | plain => exact cred _
    | fallbackDone => exact .inl rfl
    | mismatch =>
      simp only [Record.applyVerdict]
      split
      · rename_i h; exact .inr ⟨.inl h, .inr rfl⟩
      · exact .inl rfl
  rcases st with h | ⟨h, h'⟩
  · exact .of_same h keep.1 keep.2.1 keep.2.2
  · exact .of_live_stale h h' keep.1 keep.2.1 keep.2.2

theorem Part.recordVerdict_eases (p : Panel) (n : Nat) (v : Verdict) : Part.Eases b (b.recordVerdict p n v) :=
  (Part.Eases.setRecord b n _ (Record.applyVerdict_eases _ _ _)).trans
    (.of_table (Part.contractNoticeIf_table _ _ _ _ _))

/-- A record that is not FREE is one of the table's. -/
theorem Part.record_lt {b : Part} {n : Nat} (h : (b.record n).state ≠ .free) : n < b.table.length := by
  by_contra hn
  exact h (by simp [Part.record, List.getD, List.getElem?_eq_none (Nat.le_of_not_lt hn), Record.freeWith])

theorem Part.endOneShot_eases (p : Panel) (n : Nat) (h : (b.record n).state ≠ .free) :
    Part.Eases b (b.endOneShot p n) :=
  .ite ((Part.Eases.setRecord b n _ (Record.retired_eases _ h)).trans (.of_table rfl)) (b.freeContract_eases n none)

theorem Record.applyVerdict_state (r : Record) (v : Verdict) (f : FrameNo) (h : r.state = .live ∨ r.state = .stale) :
    (r.applyVerdict v f).state = .live ∨ (r.applyVerdict v f).state = .stale := by
  cases v <;> simp only [Record.applyVerdict, Record.credited] <;> (try split) <;> simp_all

theorem Part.recordVerdict_record (p : Panel) (n : Nat) (v : Verdict) (h : (b.record n).state ≠ .free) :
    (b.recordVerdict p n v).record n =
      { (b.record n).applyVerdict v (b.engine p).frame with checkGood := true } := by
  have : (b.recordVerdict p n v).record n =
      (b.setRecord n ((b.record n).applyVerdict v (b.engine p).frame)).record n := by
    unfold Part.recordVerdict Part.record
    rw [Part.contractNoticeIf_table]
  rw [this, Part.setRecord_record b n n _ (Part.record_lt h), if_pos rfl]

theorem Part.judgeRefresh_eases (p : Panel) (n : Nat) (kind : OrderKind) (g : Nat)
    (h : (b.record n).state = .live ∨ (b.record n).state = .stale) : Part.Eases b (b.judgeRefresh p n kind g) := by
  have hfree : (b.record n).state ≠ .free := by rcases h with h | h <;> simp [h]
  refine (b.recordVerdict_eases p n _).trans (.ite (.of_table rfl) (.ite (Part.endOneShot_eases _ _ _ ?_) (.refl _)))
  rw [Part.recordVerdict_record b p n _ hfree]
  rcases Record.applyVerdict_state _ ((b.record n).judge kind) (b.engine p).frame h with h' | h' <;> simp [h']

theorem Record.standsAs_state {r : Record} {n : Nat} {x : Placed} (h : r.standsAs n x = true) :
    r.state = .live ∨ r.state = .stale := by
  simp only [Record.standsAs, Bool.and_eq_true, Bool.or_eq_true, beq_iff_eq] at h
  exact h.2

theorem Part.creditOne_eases (p : Panel) (c : Completion) (x : Placed) : Part.Eases b (b.creditOne p c x) := by
  dsimp only [Part.creditOne]
  refine (b.verify_eases .accounting (x.handle % 64)).trans ?_
  split
  · rename_i h
    have hs := Record.standsAs_state h
    have hfree : ((b.verify .accounting (x.handle % 64)).record (x.handle % 64)).state ≠ .free := by
      rcases hs with h | h <;> simp [h]
    refine (Part.Eases.setRecord _ _ _ (.of_same (r' := Record.credit _ c.sig) rfl rfl rfl rfl)).trans (.ite ?_ (.refl _))
    refine Part.judgeRefresh_eases _ _ _ _ _ ?_
    rw [Part.setRecord_record _ _ _ _ (Part.record_lt hfree), if_pos rfl]
    exact hs
  · exact .refl _

theorem Part.creditOldest_eases (p : Panel) : Part.Eases b (b.creditOldest p) := by
  unfold Part.creditOldest
  split
  · exact .refl b
  · exact (Part.Eases.foldl (fun b x => b.creditOne_eases p _ x) _ b).trans (.of_table rfl)

theorem Part.creditMany_eases (p : Panel) (k : Nat) : Part.Eases b (b.creditMany p k) := by
  induction k generalizing b with
  | zero => exact .refl b
  | succ k ih => exact (b.creditOldest_eases p).trans (ih _)

theorem Part.creditAll_eases (p : Panel) : Part.Eases b (b.creditAll p) := b.creditMany_eases p _

/-! ### The turn claim (R19 to R21) -/

/-- What step 3 leaves: no staged amendment on a LIVE, STALE or SUSPENDED contract (R20). -/
def Record.settled (r : Record) : Prop :=
  r.state = .live ∨ r.state = .stale ∨ r.state = .suspended → r.stagedAmendment = none

/-- What a record in the view with no staged amendment may become: any state, the same parameters. -/
theorem Record.Eases.of_settled {r r' : Record} (hr : r.state ≠ .free) (hv : r.inView = true)
    (hp : r'.panel = r.panel) (hq : r'.params = r.params) (ha : r.stagedAmendment = none)
    (ha' : r'.stagedAmendment = none) : r.Eases r' := by
  have o : ∀ x : Record, x.stagedAmendment = none → x.viewOptions = [x.params] := by
    intro x hx; simp [Record.viewOptions, Record.twoWay, Record.viewParams, hx]
  refine .inr ⟨hr, hp, fun q m => ?_, fun _ => ⟨hv, fun q m => ?_⟩⟩
  · simpa [Record.paramSets, hq, ha, ha'] using m
  · rw [o r' ha'] at m
    rw [o r ha]
    simpa [hq] using m

/-- A contract that takes its staged amendment asks for no more (R20). -/
theorem Record.Eases.of_taken {r r' : Record} {a : Params} (hs : r.state = .staged ∨ r.state = .live ∨ r.state = .stale ∨
    r.state = .suspended) (ha : r.stagedAmendment = some a) (hd : r.turnDrops a = false) (hp : r'.panel = r.panel)
    (hq : r'.params = a) (ha' : r'.stagedAmendment = none) : r.Eases r' := by
  refine .inr ⟨by rcases hs with h | h | h | h <;> simp [h], hp, fun q m => ?_, fun _ => ⟨?_, fun q m => ?_⟩⟩
  · have : q = a := by simpa [Record.paramSets, hq, ha'] using m
    simp [Record.paramSets, ha, this]
  · rcases hs with h | h | h | h <;> simp [Record.inView, h]
  · have hq' : q = a := by
      have : r'.viewOptions = [a] := by simp [Record.viewOptions, Record.twoWay, Record.viewParams, ha', hq]
      simpa [this] using m
    subst hq'
    unfold Record.viewOptions
    split
    · simp [ha]
    · simp [Record.viewParams, ha, hd]

theorem TurnResult.free_eases (t : TurnResult) : t.record.Eases t.free.record := by
  unfold TurnResult.free; split
  · exact .inl rfl
  · exact .refl _

/-- Steps 2 and 3 together ask for no more, and leave the record settled (R19, R20). -/
theorem TurnResult.promote_amend_eases (t : TurnResult) :
    t.record.Eases t.promote.amend.record ∧ t.promote.amend.record.settled := by
  by_cases hst : t.record.state = .staged
  · have hp : t.promote.record.state = .live ∧ t.promote.record.stagedAmendment = t.record.stagedAmendment ∧
        t.promote.record.panel = t.record.panel ∧ t.promote.record.params = t.record.params := by
      unfold TurnResult.promote; rw [if_pos hst]; exact ⟨rfl, rfl, rfl, rfl⟩
    cases ha : t.record.stagedAmendment with
    | none =>
      have he : t.promote.amend = t.promote := by unfold TurnResult.amend; rw [hp.2.1, ha]
      rw [he]
      exact ⟨.of_settled (by simp [hst]) (by simp [Record.inView, hst]) hp.2.2.1 hp.2.2.2 ha (hp.2.1.trans ha),
        fun _ => hp.2.1.trans ha⟩
    | some a =>
      have hd : t.promote.record.turnDrops a = false := by simp [Record.turnDrops, hp.1]
      have he : t.promote.amend.record = t.promote.record.takeAmendment a := by
        unfold TurnResult.amend
        rw [hp.2.1, ha]
        simp [hp.1, hd]
      have keep : (t.promote.record.takeAmendment a).panel = t.promote.record.panel ∧
          (t.promote.record.takeAmendment a).params = a ∧
          (t.promote.record.takeAmendment a).stagedAmendment = none := by
        dsimp only [Record.takeAmendment]
        split <;> split <;> exact ⟨rfl, rfl, rfl⟩
      rw [he]
      exact ⟨.of_taken (.inl hst) ha (by simp [Record.turnDrops, hst]) (keep.1.trans hp.2.2.1) keep.2.1 keep.2.2,
        fun _ => keep.2.2⟩
  · have he : t.promote = t := by unfold TurnResult.promote; rw [if_neg hst]
    rw [he]
    cases ha : t.record.stagedAmendment with
    | none =>
      have : t.amend = t := by unfold TurnResult.amend; rw [ha]
      rw [this]
      exact ⟨.refl _, fun _ => ha⟩
    | some a =>
      by_cases hs : t.record.state = .live ∨ t.record.state = .stale ∨ t.record.state = .suspended
      · cases hd : t.record.turnDrops a with
        | true =>
          have hrec : t.amend.record = { t.record with stagedAmendment := none } := by
            unfold TurnResult.amend; rw [ha]; simp [hs, hd]
          rw [hrec]
          have hstale : t.record.state = .stale ∧ classCrosses t.record.params.cls a.cls = true := by
            simpa [Record.turnDrops] using hd
          refine ⟨.inr ⟨by simp [hstale.1], rfl, fun q m => ?_, fun _ => ⟨by simp [Record.inView, hstale.1], fun q m => ?_⟩⟩,
            fun _ => rfl⟩
          · have : q = t.record.params := by simpa [Record.paramSets] using m
            simp [Record.paramSets, this]
          · have : q = t.record.params := by
              simpa [Record.viewOptions, Record.twoWay, Record.viewParams] using m
            simp [Record.viewOptions, Record.twoWay, hstale.1, ha, hstale.2, this]
        | false =>
          have hrec : t.amend.record = t.record.takeAmendment a := by
            unfold TurnResult.amend; rw [ha]; simp [hs, hd]
          have keep : (t.record.takeAmendment a).panel = t.record.panel ∧ (t.record.takeAmendment a).params = a ∧
              (t.record.takeAmendment a).stagedAmendment = none := by
            dsimp only [Record.takeAmendment]
            split <;> split <;> exact ⟨rfl, rfl, rfl⟩
          rw [hrec]
          exact ⟨.of_taken (.inr hs) ha hd keep.1 keep.2.1 keep.2.2, fun _ => keep.2.2⟩
      · have : t.amend = t := by unfold TurnResult.amend; rw [ha]; simp [hs]
        rw [this]
        exact ⟨.refl _, fun h => absurd h hs⟩

/-- Steps 4 and 5 on a settled record ask for no more (R21, R57, R121). -/
theorem TurnResult.marks_eases (t : TurnResult) (h : t.record.settled) : t.record.Eases t.marks.record := by
  dsimp only [TurnResult.marks]
  split
  · rename_i hs
    split
    · exact .of_same rfl rfl rfl rfl
    · have ha : t.record.stagedAmendment = none := h (by rcases hs.1 with h | h <;> simp [h])
      exact .of_settled (by rcases hs.1 with h | h <;> simp [h])
        (by rcases hs.1 with h | h <;> simp [Record.inView, h]) rfl rfl ha ha
  · split
    · rename_i hs
      have ha : t.record.stagedAmendment = none := h (by simp [hs.1])
      exact .of_settled (by simp [hs.1]) (by simp [Record.inView, hs.1]) rfl rfl ha ha
    · exact .refl _

theorem TurnResult.restart_eases (first : Bool) (t : TurnResult) : t.record.Eases (t.restart first).record := by
  unfold TurnResult.restart; split
  · exact .of_same rfl rfl rfl rfl
  · exact .refl _

theorem TurnResult.age_eases (t : TurnResult) : t.record.Eases t.age.record := by
  unfold TurnResult.age
  split
  · split <;> exact .of_same rfl rfl rfl rfl
  · exact .refl _

/-- Steps 1 to 5 of the turn claim ask for no more. -/
theorem Record.turn_eases (first : Bool) (r : Record) : r.Eases (r.turn first).record := by
  dsimp only [Record.turn]
  refine (TurnResult.free_eases ⟨r, false, false⟩).trans ?_
  obtain ⟨h, hset⟩ := TurnResult.promote_amend_eases (TurnResult.free ⟨r, false, false⟩)
  exact h.trans ((TurnResult.marks_eases _ hset).trans ((TurnResult.restart_eases _ _).trans (TurnResult.age_eases _)))

theorem Part.turnOne_eases (p : Panel) (first : Bool) (n : Nat) : Part.Eases b (b.turnOne p first n) := by
  refine .ite ((Part.Eases.setRecord b n _ (Record.turn_eases first _)).trans (.of_table ?_)) (.refl b)
  rw [Part.contractNoticeIf_table, Part.emptyCandidateIf_table]

/-- What step 6 does to a record that it finds LIVE or STALE: it stays one of them (R122 to R124). -/
theorem Part.breachOne_eases (p : Panel) (n : Nat) (h : (b.record n).state = .live ∨ (b.record n).state = .stale) :
    Part.Eases b (b.breachOne p n) := by
  have same : ∀ r' : Record, r'.state = (b.record n).state → r'.panel = (b.record n).panel →
      r'.params = (b.record n).params → r'.stagedAmendment = (b.record n).stagedAmendment →
      Part.Eases b (b.setRecord n r') := fun r' hs hp hq ha => .setRecord b n r' (.of_same hs hp hq ha)
  have stale : ∀ r' : Record, r'.state = .stale → r'.panel = (b.record n).panel → r'.params = (b.record n).params →
      r'.stagedAmendment = (b.record n).stagedAmendment → Part.Eases b (b.setRecord n r') := fun r' hs hp hq ha =>
    .setRecord b n r' (.of_live_stale h (.inr hs) hp hq ha)
  dsimp only [Part.breachOne]
  refine .ite (.refl b) (.ite (.ite (.refl b) ?_) (.ite ?_ (.ite ?_ (same _ rfl rfl rfl rfl))))
  · exact (stale (b.record n).missed rfl rfl rfl rfl).trans (.of_table rfl)
  · exact (same (b.record n).firstLate rfl rfl rfl rfl).trans (.of_table rfl)
  · exact (stale { (b.record n).stillLate with state := .stale } rfl rfl rfl rfl).trans (.of_table rfl)

/-- Step 6 writes one record alone, and leaves it LIVE or STALE where it was. -/
theorem Part.breachOne_record (p : Panel) (n m : Nat)
    (h : (b.record m).state = .live ∨ (b.record m).state = .stale) :
    ((b.breachOne p n).record m).state = .live ∨ ((b.breachOne p n).record m).state = .stale := by
  have written : ∀ r', ((b.record m).state = .live ∨ (b.record m).state = .stale → m = n →
      r'.state = .live ∨ r'.state = .stale) →
      ((b.setRecord n r').record m).state = .live ∨ ((b.setRecord n r').record m).state = .stale := by
    intro r' hr
    have hlt : m < b.table.length := Part.record_lt (by rcases h with h | h <;> simp [h])
    by_cases hm : m = n
    · subst hm
      rw [Part.setRecord_record b m m r' hlt, if_pos rfl]
      exact hr h rfl
    · rw [Part.setRecord_record_ne b n m r' hm]; exact h
  dsimp only [Part.breachOne]
  split
  · exact h
  · split
    · split
      · exact h
      · exact written _ fun _ _ => .inr rfl
    · split
      · exact written _ fun h e => by subst e; exact h
      · split
        · exact written _ fun _ _ => .inr rfl
        · exact written _ fun h e => by subst e; exact h

theorem Part.breaches_eases (p : Panel) (ns : List Nat)
    (h : ∀ n ∈ ns, (b.record n).state = .live ∨ (b.record n).state = .stale) :
    Part.Eases b (ns.foldl (fun b n => b.breachOne p n) b) := by
  induction ns generalizing b with
  | nil => exact .refl b
  | cons n ns ih =>
    exact (b.breachOne_eases p n (h n (.head _))).trans
      (ih _ fun m hm => b.breachOne_record p n m (h m (.tail _ hm)))

/-- Steps 1 to 5 on one record number leave every other record. -/
theorem Part.turnOne_record_ne (p : Panel) (first : Bool) (n m : Nat) (h : m ≠ n) :
    (b.turnOne p first n).record m = b.record m := by
  unfold Part.turnOne
  dsimp only
  split
  · unfold Part.record
    rw [Part.contractNoticeIf_table, Part.emptyCandidateIf_table]
    exact Part.setRecord_record_ne b n m _ h
  · rfl

theorem Part.turnOne_record (p : Panel) (first : Bool) (n : Nat) (hp : (b.record n).panel = p)
    (hf : (b.record n).state ≠ .free) :
    (b.turnOne p first n).record n = { ((b.record n).turn first).record with checkGood := true } := by
  have : (b.turnOne p first n).record n = (b.setRecord n ((b.record n).turn first).record).record n := by
    unfold Part.turnOne
    dsimp only
    rw [if_pos ⟨hp, hf⟩]
    unfold Part.record
    rw [Part.contractNoticeIf_table, Part.emptyCandidateIf_table]
  rw [this, Part.setRecord_record b n n _ (Part.record_lt hf), if_pos rfl]

/-- Steps 1 to 5 over a list of record numbers, seen at one of them. -/
theorem Part.turns_record (p : Panel) (first : Bool) (ns : List Nat) (hn : ns.Nodup) (n : Nat) (hin : n ∈ ns)
    (hp : (b.record n).panel = p) (hf : (b.record n).state ≠ .free) :
    (ns.foldl (fun b n => b.turnOne p first n) b).record n =
      { ((b.record n).turn first).record with checkGood := true } := by
  have away : ∀ (ns : List Nat) (b : Part), n ∉ ns →
      (ns.foldl (fun b n => b.turnOne p first n) b).record n = b.record n := by
    intro ns
    induction ns with
    | nil => exact fun _ _ => rfl
    | cons m ns ih =>
      intro b hm
      rw [List.foldl_cons, ih _ fun h => hm (.tail _ h)]
      exact b.turnOne_record_ne p first m n fun h => hm (by simp [h])
  induction ns generalizing b with
  | nil => simp at hin
  | cons m ns ih =>
    rw [List.nodup_cons] at hn
    rw [List.foldl_cons]
    rcases List.mem_cons.1 hin with rfl | hin
    · rw [away ns _ hn.1, Part.turnOne_record b p first n hp hf]
    · have hne : n ≠ m := fun h => hn.1 (h ▸ hin)
      have hr := b.turnOne_record_ne p first m n hne
      rw [ih (b.turnOne p first m) hn.2 hin (by rw [hr]; exact hp) (by rw [hr]; exact hf), hr]

theorem recordNumbers_nodup : recordNumbers.Nodup := List.nodup_range

/-- The turn claim asks for no more (R18, R30). -/
theorem Part.turnClaim_eases (p : Panel) (first : Bool) : Part.Eases b (b.turnClaim p first) := by
  dsimp only [Part.turnClaim]
  refine (b.verifyAll_eases .turnClaim).trans
    ((Part.Eases.foldl (fun b n => b.turnOne_eases p first n) recordNumbers (b.verifyAll .turnClaim)).trans ?_)
  refine Part.breaches_eases _ p _ fun n hn => ?_
  obtain ⟨hin, haged⟩ := List.mem_filter.1 hn
  simp only [Record.agedAtTurn, Bool.and_eq_true, Bool.or_eq_true, beq_iff_eq, bne_iff_ne] at haged
  rw [Part.turns_record _ p first _ recordNumbers_nodup n hin haged.1.1.1 haged.1.1.2]
  exact haged.2

/-! ### Teardown and touch -/

theorem Part.freeRetiring_eases (p : Panel) : Part.Eases b (b.freeRetiring p) :=
  .foldl (fun b n => .ite (b.freeContract_eases n none) (.refl b)) _ b

theorem Record.releaseQuietly_eases (r : Record) : r.Eases r.releaseQuietly := by
  unfold Record.releaseQuietly; split
  · exact .of_same rfl rfl rfl rfl
  · exact .refl _

theorem Part.releaseZones_eases : Part.Eases b b.releaseZones :=
  .foldl (fun b n => .ite (.setRecord b n _ (Record.releaseQuietly_eases _)) (.refl b)) _ b

/-- A record that eases, written into a part with the same table. -/
theorem Part.Eases.set_after {b b₀ : Part} (ht : b₀.table = b.table) (n : Nat) {r' : Record}
    (h : (b.record n).Eases r') : Part.Eases b (b₀.setRecord n r') := by
  refine (Part.Eases.of_table ht).trans (.setRecord b₀ n r' ?_)
  rwa [Part.record, ht]

theorem Part.pressOne_eases (n : Nat) : Part.Eases b (b.pressOne n) := by
  have touched : ∀ f, (b.modTouch f).table = b.table := fun _ => rfl
  dsimp only [Part.pressOne]
  split
  · split
    · exact .of_table rfl
    · refine Part.Eases.trans (b := (b.modTouch _).setRecord n _) (.set_after (touched _) n ?_) (.of_table rfl)
      exact .of_same rfl rfl rfl rfl
  · split
    · split
      · exact .set_after (touched _) n (Record.releaseQuietly_eases _)
      · exact .of_table rfl
    · exact .of_table rfl

end Sys2Proof.Machine
end

