-- ==== Sys2Proof/Laws/Contacts.lean ====
section
/-! SUPPORT. The contact table keeps its law through a tracking event (R151 to R153). -/

namespace Sys2Proof.Machine

/-- The ids of a list of contacts. -/
def contactIds (cs : List Contact) : List Nat := cs.map Contact.id

theorem contactsLawful_iff (cs : List Contact) :
    contactsLawful cs ↔ (contactIds cs).length ≤ 10 ∧ (contactIds cs).Pairwise (· < ·) ∧ ∀ i ∈ contactIds cs, i ≤ 15 := by
  simp [contactsLawful, contactIds, List.pairwise_map]

/-- Only the ids bear on the law. -/
theorem contactsLawful.of_ids {cs cs' : List Contact} (h : contactIds cs' = contactIds cs) (hc : contactsLawful cs) :
    contactsLawful cs' := by
  rw [contactsLawful_iff] at hc ⊢
  rw [h]; exact hc

theorem contactsLawful.sublist {cs cs' : List Contact} (h : cs'.Sublist cs) (hc : contactsLawful cs) :
    contactsLawful cs' :=
  ⟨h.length_le.trans hc.1, hc.2.1.sublist h, fun c m => hc.2.2 c (h.subset m)⟩

/-- Matching keeps the ids in their places (R152). -/
theorem matchPeaks_ids (ks : List Peak) (es : List Tracked) :
    ((matchPeaks ks es).1.map Tracked.contact).map Contact.id = (es.map Tracked.contact).map Contact.id := by
  induction ks generalizing es with
  | nil => rfl
  | cons k ks ih =>
    unfold matchPeaks
    split
    · split
      · rw [ih]
        simp only [List.map_map]
        refine List.map_congr_left fun e _ => ?_
        simp only [Function.comp_apply]
        split <;> rfl
      · exact ih es
    · exact ih es

theorem Tracked.settle_id (e : Tracked) : e.settle.id = e.contact.id := by
  unfold Tracked.settle; split <;> rfl

/-- An id that no record carries, while the table has room for one (R153). -/
theorem freeId_spec (cs : List Contact) (h : cs.length < 10) : freeId cs ≤ 15 ∧ ∀ c ∈ cs, c.id ≠ freeId cs := by
  have hne : (List.range 16).filter (fun i => cs.all fun c => c.id != i) ≠ [] := by
    intro he
    have hsub : List.range 16 ⊆ contactIds cs := by
      intro i hi
      by_contra hno
      have : i ∈ (List.range 16).filter (fun i => cs.all fun c => c.id != i) := by
        refine List.mem_filter.2 ⟨hi, ?_⟩
        simp only [List.all_eq_true, bne_iff_ne]
        exact fun c hc e => hno (by rw [← e]; exact List.mem_map_of_mem hc)
      rw [he] at this
      simp at this
    have := (List.nodup_range.subperm hsub).length_le
    simp [contactIds] at this
    omega
  obtain ⟨i, is, hi⟩ := List.exists_cons_of_ne_nil hne
  have hm : i ∈ (List.range 16).filter (fun i => cs.all fun c => c.id != i) := by rw [hi]; exact .head _
  have hf : freeId cs = i := by unfold freeId; rw [hi]; rfl
  rw [hf]
  obtain ⟨hr, ha⟩ := List.mem_filter.1 hm
  simp only [List.all_eq_true, bne_iff_ne] at ha
  have := List.mem_range.1 hr
  exact ⟨by omega, ha⟩

theorem insertBy_perm {α : Type} (before : α → α → Bool) (x : α) (xs : List α) : (insertBy before x xs).Perm (x :: xs) := by
  induction xs with
  | nil => exact .refl _
  | cons y ys ih =>
    unfold insertBy
    split
    · exact (ih.cons y).trans (.swap x y ys)
    · exact .refl _

theorem insertBy_id_sorted (x : Contact) (cs : List Contact) (hs : cs.Pairwise fun a b => a.id < b.id)
    (hx : ∀ c ∈ cs, c.id ≠ x.id) : (insertBy (fun a b => decide (a.id < b.id)) x cs).Pairwise fun a b => a.id < b.id := by
  induction cs with
  | nil => simp [insertBy]
  | cons c cs ih =>
    rw [List.pairwise_cons] at hs
    unfold insertBy
    by_cases h : c.id < x.id
    · rw [if_pos (by simpa using h), List.pairwise_cons]
      refine ⟨fun y hy => ?_, ih hs.2 fun d hd => hx d (.tail _ hd)⟩
      rcases List.mem_cons.1 ((insertBy_perm _ _ _).mem_iff.1 hy) with rfl | hy
      · exact h
      · exact hs.1 y hy
    · rw [if_neg (by simpa using h), List.pairwise_cons]
      have hlt : x.id < c.id := by have := hx c (.head _); omega
      refine ⟨fun y hy => ?_, List.pairwise_cons.2 hs⟩
      rcases List.mem_cons.1 hy with rfl | hy
      · exact hlt
      · exact hlt.trans (hs.1 y hy)

/-- Touchdowns keep the law (R151, R153). -/
theorem touchDown_lawful (ks : List Peak) (cs : List Contact) (h : contactsLawful cs) :
    contactsLawful (touchDown cs ks).1 := by
  induction ks generalizing cs with
  | nil => exact h
  | cons k ks ih =>
    unfold touchDown
    split
    · rename_i hlt
      obtain ⟨hle, hne⟩ := freeId_spec cs hlt
      refine ih _ ⟨?_, insertBy_id_sorted _ _ h.2.1 hne, fun c hc => ?_⟩
      · rw [(insertBy_perm _ _ _).length_eq, List.length_cons]; omega
      · rcases List.mem_cons.1 ((insertBy_perm _ _ _).mem_iff.1 hc) with rfl | hc
        · exact hle
        · exact h.2.2 c hc
    · exact ih cs h

/-- The contact table keeps its law through steps 1 and 2 of a tracking event (R151). -/
theorem updateContacts_lawful (ps : List Peak) (cs : List Contact) (h : contactsLawful cs) :
    contactsLawful (updateContacts ps cs).1 := by
  unfold updateContacts
  refine touchDown_lawful _ _ (contactsLawful.of_ids ?_ (h.sublist (List.filter_sublist (p := fun c => c.state != .lifted))))
  unfold contactIds
  rw [List.map_map]
  have := matchPeaks_ids ps ((cs.filter fun c => c.state != .lifted).map fun c => ({ contact := c, matched := false } : Tracked))
  rw [List.map_map, List.map_map, List.map_map] at this
  refine Eq.trans (Eq.trans ?_ this) ?_
  · exact List.map_congr_left fun e _ => e.settle_id
  · exact List.map_congr_left fun _ _ => rfl

theorem Contact.associate_id (t : List Record) (c : Contact) : (c.associate t).id = c.id := by
  unfold Contact.associate; split <;> rfl

theorem Touch.associate_lawful (t : List Record) (x : Touch) (h : contactsLawful x.contacts) :
    contactsLawful (x.associate t).contacts := by
  refine h.of_ids ?_
  unfold contactIds Touch.associate
  rw [List.map_map]
  exact List.map_congr_left fun c _ => c.associate_id t

theorem contactsLawful_nil : contactsLawful [] := ⟨by simp, .nil, by simp⟩

end Sys2Proof.Machine
end

