-- ==== Sys2Proof/Laws/Calm.lean ====
section
/-! SUPPORT. The calm updates: what no command but a transaction, a reset or a fault control does to the client ports,
the strap, the controls of the fault banks and the size of the table. Every operation of the timelines, of touch and of
the contract manager is one. -/

namespace Sys2Proof.Machine

/-- A calm update: ports change in their notice sets alone; strap, table size, bank controls and inject enable stand; a
count below its threshold stays so; a lawful contact table stays so. -/
structure Part.Calm (b b' : Part) : Prop where
  strap : b'.strap = b.strap
  size : b'.table.length = b.table.length
  ports : ∀ p, (b'.port p).SameButNotices (b.port p)
  controls : ∀ k, (b'.bank k).enabled = (b.bank k).enabled ∧ (b'.bank k).mask = (b.bank k).mask ∧
    (b'.bank k).threshold = (b.bank k).threshold
  counts : ∀ k, (b.bank k).count < (b.bank k).threshold → (b'.bank k).count < (b'.bank k).threshold
  injectEnable : b'.faults.injectEnable = b.faults.injectEnable
  contacts : b.ContactsLawful → b'.ContactsLawful

namespace Part.Calm

theorem refl (b : Part) : Calm b b :=
  ⟨rfl, rfl, fun _ => rfl, fun _ => ⟨rfl, rfl, rfl⟩, fun _ h => h, rfl, id⟩

theorem trans {a b c : Part} (h₁ : Calm a b) (h₂ : Calm b c) : Calm a c where
  strap := h₂.strap.trans h₁.strap
  size := h₂.size.trans h₁.size
  ports p := (h₁.ports p).trans (h₂.ports p)
  controls k :=
    ⟨(h₂.controls k).1.trans (h₁.controls k).1, (h₂.controls k).2.1.trans (h₁.controls k).2.1,
      (h₂.controls k).2.2.trans (h₁.controls k).2.2⟩
  counts k h := h₂.counts k (h₁.counts k h)
  injectEnable := h₂.injectEnable.trans h₁.injectEnable
  contacts h := h₂.contacts (h₁.contacts h)

theorem ite {c : Prop} {_ : Decidable c} {a b b' : Part} (h : Calm a b) (h' : Calm a b') :
    Calm a (if c then b else b') := by split <;> assumption

theorem foldl {α : Type} {f : Part → α → Part} (hf : ∀ b x, Calm b (f b x)) :
    ∀ (xs : List α) (b : Part), Calm b (xs.foldl f b)
  | [], b => refl b
  | x :: xs, b => (hf b x).trans (foldl hf xs (f b x))

/-- What writes neither ports, strap, table, faults nor touch is calm. -/
theorem of_eq {b b' : Part} (hp : b'.ports = b.ports) (hs : b'.strap = b.strap) (ht : b'.table = b.table)
    (hf : b'.faults = b.faults) (hx : b'.touch = b.touch) : Calm b b' where
  strap := hs
  size := by rw [ht]
  ports p := by simp [Part.port, hp, ClientPort.SameButNotices.refl]
  controls k := by simp [Part.bank, hf]
  counts k h := by simpa [Part.bank, hf] using h
  injectEnable := by rw [hf]
  contacts h := by unfold Part.ContactsLawful at *; rw [hx]; exact h

/-- An update of touch that keeps the contact table's law is calm. -/
theorem modTouch (b : Part) (f : Touch → Touch) (h : ∀ t, contactsLawful t.contacts → contactsLawful (f t).contacts) :
    Calm b (b.modTouch f) :=
  ⟨rfl, rfl, fun _ => rfl, fun _ => ⟨rfl, rfl, rfl⟩, fun _ h => h, rfl, fun hc => h b.touch hc⟩

end Part.Calm

theorem Part.Quiet.calm {b b' : Part} (h : Quiet b b') : Calm b b' :=
  ⟨h.strap, h.size, h.ports, h.controls, h.counts, h.injectEnable, h.contactsLawful⟩

variable (b : Part)

/-! ### Links and engines -/

theorem Part.modEngine_calm (p : Panel) (f : Engine → Engine) : Calm b (b.modEngine p f) := .of_eq rfl rfl rfl rfl rfl
theorem Part.modLink_calm (p : Panel) (f : Link → Link) : Calm b (b.modLink p f) := .of_eq rfl rfl rfl rfl rfl
theorem Part.modCredit_calm (p : Panel) (f : CreditQueue → CreditQueue) : Calm b (b.modCredit p f) :=
  .of_eq rfl rfl rfl rfl rfl
theorem Part.send_calm (p : Panel) (m : LinkMessage) : Calm b (b.send p m) := .of_eq rfl rfl rfl rfl rfl
theorem Part.setOutcome_calm (p : Panel) (j : Nat) (o : EntryOutcome) : Calm b (b.setOutcome p j o) :=
  .of_eq rfl rfl rfl rfl rfl

theorem Part.enterState_calm (p : Panel) (st : PanelState) : Calm b (b.enterState p st) :=
  (b.modEngine_calm p _).trans (Part.raiseAll_quiet _ _).calm

theorem Part.applyStop_calm (p : Panel) : Calm b (b.applyStop p) := (b.send_calm p _).trans (Part.modEngine_calm _ _ _)

theorem Part.stopPanel_calm (p : Panel) (st : PanelState) : Calm b (b.stopPanel p st) :=
  ((((b.modEngine_calm p _).trans (Part.modLink_calm _ _ _)).trans (Part.modCredit_calm _ _ _)).trans
    (Part.applyStop_calm _ _)).trans (Part.enterState_calm _ _ _)

theorem Part.suspendTouch_calm (p : Panel) : Calm b (b.suspendTouch p) := by
  cases p
  · exact .refl b
  · exact (Part.Calm.modTouch b Touch.suspend fun _ _ => contactsLawful_nil).trans (Part.releaseZones_quiet _).calm

theorem Part.teardown_calm (p : Panel) (st : PanelState) : Calm b (b.teardown p st) :=
  (((b.verifyAll_quiet _).calm.trans (Part.stopPanel_calm _ _ _)).trans (Part.freeRetiring_quiet _ _).calm).trans
    (Part.suspendTouch_calm _ _)

/-! ### Slots and turns -/

theorem Part.timeoutOrder_calm (p : Panel) (o : Order) : Calm b (b.timeoutOrder p o) :=
  (((b.modLink_calm p _).trans (Part.setOutcome_calm _ _ _ _)).trans (Part.claim_quiet _ _ _).calm).trans
    (.ite (Part.claim_quiet _ _ _).calm (.refl _))

theorem Part.linkEndOfSlot_calm (p : Panel) : Calm b (b.linkEndOfSlot p) := by
  unfold Part.linkEndOfSlot
  split
  · exact .refl b
  · exact .foldl (fun b o => b.timeoutOrder_calm p o) _ b

theorem Part.issue_calm (p : Panel) (kind : OrderKind) (g slot : Nat) : Calm b (b.issue p kind g slot) :=
  (b.send_calm p _).trans (Part.modLink_calm _ _ _)

theorem Part.startBurst_calm (p : Panel) (pl : Plan) (row slot : Nat) : Calm b (b.startBurst p pl row slot) :=
  (b.send_calm p _).trans (.modTouch _ _ fun _ h => h)

theorem Part.carryOut_calm (p : Panel) (slot : Nat) : Calm b (b.carryOut p slot) := by
  unfold Part.carryOut
  split
  · exact .refl b
  · split
    · exact .refl b
    · exact (b.issue_calm _ _ _ _).trans (Part.captures_quiet _ _ _).calm
    · exact b.issue_calm _ _ _ _
    · exact b.startBurst_calm _ _ _ _
    · exact b.setOutcome_calm _ _ _
    · exact b.setOutcome_calm _ _ _
    · exact b.setOutcome_calm _ _ _

theorem Part.startSlot_calm (p : Panel) (j : Nat) : Calm b (b.startSlot p j) :=
  (b.modEngine_calm p _).trans (Part.carryOut_calm _ _ _)

theorem Touch.startFrame_contacts (t : Touch) : t.startFrame.contacts = t.contacts := rfl

theorem Touch.takeScanSet_contacts (new : RowSet) (t : Touch) : (t.takeScanSet new).contacts = t.contacts := by
  unfold Touch.takeScanSet
  split
  · rfl
  · split <;> rfl

theorem Part.rescan_calm (p : Panel) : Calm b (b.rescan p) := by
  cases p
  · exact .refl b
  · exact (b.verifyAll_quiet _).calm.trans (.modTouch _ _ fun t h => by rw [Touch.takeScanSet_contacts]; exact h)

theorem Part.buildPlan_calm (p : Panel) : Calm b (b.buildPlan p) := by
  unfold Part.buildPlan
  dsimp only
  exact (((b.claimDeferred_quiet _).trans (Part.verifyAll_quiet _ _)).trans
    (Part.claimShort_quiet _ _ _)).calm.trans (Part.modEngine_calm _ _ _)

theorem Part.frameTurn_calm (p : Panel) (first : Bool) : Calm b (b.frameTurn p first) :=
  ((((b.modEngine_calm p _).trans (Part.turnClaim_quiet _ _ _).calm).trans (Part.rescan_calm _ _)).trans
    (Part.buildPlan_calm _ _)).trans (Part.startSlot_calm _ _ _)

theorem Part.dropBurst_calm (p : Panel) : Calm b (b.dropBurst p) := by
  cases p
  · exact .refl b
  · exact .modTouch b Touch.stopBurst fun _ h => h

theorem Part.creditOldest_calm (p : Panel) : Calm b (b.creditOldest p) := by
  unfold Part.creditOldest
  split
  · exact .refl b
  · exact (Part.Calm.foldl (fun b x => (b.creditOne_quiet p _ x).calm) _ b).trans (Part.modCredit_calm _ _ _)

theorem Part.creditMany_calm (p : Panel) (k : Nat) : Calm b (b.creditMany p k) := by
  induction k generalizing b with
  | zero => exact .refl b
  | succ k ih => exact (b.creditOldest_calm p).trans (ih _)

theorem Part.creditAll_calm (p : Panel) : Calm b (b.creditAll p) := b.creditMany_calm p _

theorem Part.endSlot_calm (p : Panel) (j : Nat) : Calm b (b.endSlot p j) := by
  unfold Part.endSlot
  exact ((b.dropBurst_calm p).trans (Part.linkEndOfSlot_calm _ _)).trans
    (.ite (Part.startSlot_calm _ _ _) ((Part.creditAll_calm _ _).trans (Part.frameTurn_calm _ _ _)))

theorem Part.slotBoundary_calm (p : Panel) : Calm b (b.slotBoundary p) := by
  unfold Part.slotBoundary
  split
  · exact b.endSlot_calm p _
  · exact .refl b

theorem Part.orderTimeout_calm (p : Panel) : Calm b (b.orderTimeout p) := .ite (b.linkEndOfSlot_calm p) (.refl b)

/-! ### Events -/

theorem Part.expireStart_calm (p : Panel) : Calm b (b.expireStart p) :=
  .ite ((b.teardown_calm p _).trans (Part.claim_quiet _ _ _).calm) (.refl b)

theorem Part.takeReady_calm (p : Panel) : Calm b (b.takeReady p) :=
  .ite ((((b.creditAll_calm p).trans (Part.modEngine_calm _ _ _)).trans (Part.enterState_calm _ _ _)).trans
    (Part.frameTurn_calm _ _ _)) (.refl b)

theorem Part.takeDone_calm (p : Panel) (g : Nat) (sig : Signature) : Calm b (b.takeDone p g sig) := by
  unfold Part.takeDone
  split
  · exact ((b.modLink_calm p _).trans (Part.setOutcome_calm _ _ _ _)).trans (Part.modCredit_calm _ _ _)
  · exact .refl b

theorem Part.takeHalt_calm (p : Panel) : Calm b (b.takeHalt p) :=
  (b.modEngine_calm p _).trans (.ite (Part.teardown_calm _ _ _) (.refl _))

theorem Part.bringUp_calm (p : Panel) : Calm b (b.bringUp p) :=
  ((b.send_calm p _).trans (Part.modEngine_calm _ _ _)).trans (Part.enterState_calm _ _ _)

theorem Part.takeDown_calm (p : Panel) : Calm b (b.takeDown p) := by
  unfold Part.takeDown
  split
  · exact b.teardown_calm p _
  · exact b.teardown_calm p _
  · exact (b.applyStop_calm p).trans (Part.enterState_calm _ _ _)
  · exact .refl b

/-! ### Touch -/

theorem Part.takePeaks_calm (h : HandOver) : Calm b (b.takePeaks h) := by
  have : Calm b (b.modTouch (Touch.setContacts (updateContacts h.orderedPeaks b.touch.contacts).1)) :=
    ⟨rfl, rfl, fun _ => rfl, fun _ => ⟨rfl, rfl, rfl⟩, fun _ h => h, rfl, updateContacts_lawful _ _⟩
  exact this.trans (.foldl (fun b _ => (b.claim_quiet _ _).calm) _ _)

theorem Part.associateContacts_calm : Calm b b.associateContacts :=
  (b.verifyAll_quiet _).calm.trans (.modTouch _ _ fun _ h => Touch.associate_lawful _ _ h)

theorem Part.track_calm (h : HandOver) : Calm b (b.track h) :=
  (b.takePeaks_calm h).trans ((Part.associateContacts_calm _).trans
    ((Part.updatePresses_quiet _).calm.trans (Part.noticeContacts_quiet _ _).calm))

theorem Part.completeFrame_calm (f : TouchFrame) : Calm b (b.completeFrame f) :=
  (((Part.Calm.modTouch b (Touch.writeMap f) fun _ h => h).trans (Part.track_calm _ (b.touch.handOver f))).trans
    (.modTouch _ (Touch.drift f) fun _ h => h)).trans (.modTouch _ Touch.nextFrame fun _ h => h)

theorem Part.completeIfDone_calm : Calm b b.completeIfDone := by
  unfold Part.completeIfDone
  split
  · exact .ite (b.completeFrame_calm _) (.refl b)
  · exact .refl b

theorem Part.fileGood_calm (u : Burst) (counts : List Nat) : Calm b (b.fileGood u counts) :=
  .ite (.refl b) (.ite ((Part.Calm.modTouch b (Touch.measure u.row counts) fun _ h => h).trans (Part.completeIfDone_calm _))
    (.ite (b.claim_quiet _ _).calm
      ((Part.Calm.modTouch b (Touch.calibrate u.row counts) fun _ h => h).trans (Part.completeIfDone_calm _))))

theorem Part.fileBurst_calm (u : Burst) (counts : List Nat) : Calm b (b.fileBurst u counts) :=
  .ite ((b.setOutcome_calm _ _ _).trans (Part.claim_quiet _ _ _).calm)
    ((b.setOutcome_calm _ _ _).trans (Part.fileGood_calm _ _ _))

theorem Part.senseComplete_calm (counts : List Nat) : Calm b (b.senseComplete counts) := by
  unfold Part.senseComplete
  split
  · exact .refl b
  · rename_i u _
    exact (Part.Calm.modTouch b (Touch.endBurst u counts) fun _ h => h).trans (Part.fileBurst_calm _ _ _)

theorem Touch.recalibrate_contacts (t : Touch) : t.recalibrate.contacts = t.contacts := by
  unfold Touch.recalibrate
  dsimp only
  split <;> rfl

/-! ### Warm reset -/

theorem Part.warmResetPanel_calm (p : Panel) : Calm b (b.warmResetPanel p) :=
  .ite ((((b.stopPanel_calm p _).trans (Part.freeRetiring_quiet _ _).calm).trans (Part.suspendTouch_calm _ _)).trans
    (Part.modEngine_calm _ _ _))
    (((b.applyStop_calm p).trans (Part.modLink_calm _ _ _)).trans (Part.modEngine_calm _ _ _))

/-- Every record freed and every notice set replaced, as warm reset does last (R28, R193). -/
theorem Part.endWarmReset_calm :
    Calm b { b with
      table := freeAll b.table
      ports := b.ports.mapEach fun _ q => { q with noticeSet := NoticeSet.afterWarmReset } } :=
  ⟨rfl, by simp [freeAll], fun p => by cases p <;> rfl, fun _ => ⟨rfl, rfl, rfl⟩, fun _ h => h, rfl, id⟩

theorem Part.warmReset_calm : Calm b b.warmReset :=
  ((b.warmResetPanel_calm .cluster).trans (Part.warmResetPanel_calm _ .centre)).trans
    ((Part.Calm.modTouch _ Touch.warmReset fun _ _ => contactsLawful_nil).trans (Part.endWarmReset_calm _))

/-! ### What a calm update carries -/

namespace Part.Calm

variable {b b' : Part}

theorem tableSized (h : Calm b b') (hb : b.TableSized) : b'.TableSized := h.size.trans hb

theorem countsBelow (h : Calm b b') (hb : b.CountsBelow) : b'.CountsBelow := fun k => h.counts k (hb k)

theorem portsCoherent (h : Calm b b') (hb : b.PortsCoherent) : b'.PortsCoherent := fun p => by
  rw [h.ports p]; exact hb p

end Part.Calm

end Sys2Proof.Machine
end

