-- ==== Sys2Proof/Laws/Teardown.lean ====
section
/-! SUPPORT. What the panel commands make of a timeline: teardown, warm reset, the states entered, READY, the start
limit, the halt, and the completion of an order (R46 to R51, R66, R93). Each keeps both panels sound (R43, R45, R69, R91)
and the flag rule (R52). -/

namespace Sys2Proof.Machine

variable (b : Part)

/-! ### A stopped panel -/

/-- The engine a stop leaves: state entered, nothing running, range kept, flag clear (R46). -/
structure Stopped (st : PanelState) (e e' : Engine) : Prop where
  state : e'.state = st
  cfg : e'.cfg = e.cfg
  duty : e'.duty = e.duty
  staged : e'.stagedDuty = e.stagedDuty
  slot : e'.slot = none
  timer : e'.startLeft = none
  plan : e'.plan = none
  flag : e'.critical = false

/-- A coherent engine that is DOWN or HALTED has no slot, no timer and no plan (R45, R46). -/
theorem Engine.coherent.idle {e : Engine} (h : e.coherent) (hact : ¬ e.state.active = true) :
    e.slot = none ∧ e.startLeft = none ∧ e.plan = none := by
  unfold Engine.coherent at h
  revert h hact
  cases e.state <;> simp_all [PanelState.active]

theorem Stopped.sound {st : PanelState} {e e' : Engine} {l' : Link} (h : Stopped st e e') (hst : st.active = false)
    (hr : e.inRange) (hl : l' = Link.reset) : PanelSound e' l' := by
  subst hl
  refine ⟨?_, ?_, ?_, ?_, ?_⟩
  · unfold Engine.inRange; rw [h.cfg, h.duty, h.staged]; exact hr
  · unfold Engine.coherent
    rw [h.state, h.slot, h.timer, h.plan]
    cases st <;> first | exact ⟨rfl, rfl, rfl⟩ | cases hst
  · rw [h.plan]; simp
  · unfold linkFits
    rw [h.plan]
    cases e'.state <;> rfl
  · exact Nat.zero_le _

theorem Part.enterState_engine (p q : Panel) (st : PanelState) :
    (b.enterState p st).engine q = if q = p then { b.engine p with state := st } else b.engine q := by
  unfold Part.enterState
  simp

theorem Part.enterState_link (p q : Panel) (st : PanelState) : (b.enterState p st).link q = b.link q := rfl

theorem Part.applyStop_engine (p q : Panel) :
    (b.applyStop p).engine q = if q = p then (b.engine p).stopOutput else b.engine q := by
  unfold Part.applyStop
  simp

theorem Part.applyStop_link (p q : Panel) : (b.applyStop p).link q = b.link q := rfl

/-- The stop of one panel: it is stopped with its list empty, and the other stands (R46, R101). -/
theorem Part.stopPanel_spec (p : Panel) (st : PanelState) :
    Aside p b (b.stopPanel p st) ∧ Stopped st (b.engine p) ((b.stopPanel p st).engine p) ∧
      (b.stopPanel p st).link p = Link.reset := by
  have heng : ∀ q, (b.stopPanel p st).engine q =
      if q = p then { (((b.engine p).stopRun (b.link p).orders).stopOutput) with state := st } else b.engine q := by
    intro q
    unfold Part.stopPanel
    dsimp only
    rw [Part.enterState_engine, Part.applyStop_engine, Part.applyStop_engine]
    by_cases hq : q = p
    · subst hq; simp
    · simp [hq]
  have hlink : ∀ q, (b.stopPanel p st).link q = if q = p then Link.reset else b.link q := by
    intro q
    unfold Part.stopPanel
    dsimp only
    rw [Part.enterState_link, Part.applyStop_link]
    simp
  refine ⟨⟨fun q hq => ?_, fun q hq h => ?_, fun q hq => ?_⟩, ?_, ?_⟩
  · rw [heng q, if_neg hq]; exact .refl _
  · rw [heng q, if_neg hq] at h; exact .inl h
  · rw [hlink q, if_neg hq]
  · rw [heng p, if_pos rfl]; exact ⟨rfl, rfl, rfl, rfl, rfl, rfl, rfl, rfl⟩
  · rw [hlink p, if_pos rfl]

theorem Engine.Similar.stopped {st : PanelState} {e e₀ e' : Engine} (h : e₀.Similar e) (k : Stopped st e₀ e') :
    Stopped st e e' :=
  ⟨k.state, k.cfg.trans h.cfg, k.duty.trans h.duty, k.staged.trans h.staged, k.slot, k.timer, k.plan, k.flag⟩

/-- A stopped panel stays stopped where its timeline stands and its flag cannot rise. -/
theorem Stopped.still {st : PanelState} {e e₁ e' : Engine} (h : Stopped st e e₁) (hst : st.active = false)
    (k : e'.Similar e₁) (f : e'.critical = true → e₁.critical = true ∨ e₁.state = .running) : Stopped st e e' := by
  refine ⟨k.state.trans h.state, k.cfg.trans h.cfg, k.duty.trans h.duty, k.staged.trans h.staged, k.slot.trans h.slot,
    k.timer.trans h.timer, ?_, ?_⟩
  · rw [← Engine.kinds_eq_none, k.kinds, Engine.kinds_eq_none]; exact h.plan
  · rw [Bool.eq_false_iff]
    intro hc
    rcases f hc with h' | h'
    · rw [h.flag] at h'; cases h'
    · rw [h.state] at h'; subst h'; cases hst

/-- A panel teardown: its panel is stopped with its list empty, and the other stands (R46). -/
theorem Part.teardown_spec (p : Panel) (st : PanelState) (hst : st.active = false) :
    Aside p b (b.teardown p st) ∧ Stopped st (b.engine p) ((b.teardown p st).engine p) ∧
      (b.teardown p st).link p = Link.reset := by
  have s₁ := (b.verifyAll_quiet .teardown).still
  obtain ⟨a₂, h₂, l₂⟩ := (b.verifyAll .teardown).stopPanel_spec p st
  have s₃ : Still ((b.verifyAll .teardown).stopPanel p st) (b.teardown p st) :=
    (Part.freeRetiring_quiet _ p).still.trans (Part.suspendTouch_still _ p)
  refine ⟨(Part.Aside.of_still s₁).trans (a₂.trans (.of_still s₃)), ?_, (s₃.links p).trans l₂⟩
  exact ((s₁.engines p).stopped h₂).still hst (s₃.engines p) (s₃.flags p)

/-! ### From one panel to both -/

/-- A panel made sound beside one that stands. -/
theorem Part.Aside.sound {p : Panel} {b b' : Part} (h : Aside p b b') (hb : b.TimelineSound)
    (hp : PanelSound (b'.engine p) (b'.link p)) : b'.TimelineSound := h.timelineSound (fun q _ => hb q) hp

/-- A panel whose flag obeys R52 beside one that stands. -/
theorem Part.Aside.flagRule {p : Panel} {b b' : Part} (h : Aside p b b') (hb : b.FlagsOnlyRunning)
    (hp : (b'.engine p).critical = true → (b'.engine p).state = .running) : b'.FlagsOnlyRunning := fun q hc => by
  by_cases hq : q = p
  · subst hq; exact hp hc
  · rw [(h.engines q hq).state]
    rcases h.flags q hq hc with h' | h'
    · exact hb q h'
    · exact h'

/-- What a command keeps of the timelines: both panels sound, and the flag rule (R52). -/
structure Part.Keeps (b b' : Part) : Prop where
  sound : b.TimelineSound → b'.TimelineSound
  flags : b.FlagsOnlyRunning → b'.FlagsOnlyRunning

namespace Part.Keeps

theorem refl (b : Part) : Keeps b b := ⟨id, id⟩

theorem trans {a b c : Part} (h : Keeps a b) (k : Keeps b c) : Keeps a c :=
  ⟨fun x => k.sound (h.sound x), fun x => k.flags (h.flags x)⟩

theorem of_still {b b' : Part} (h : Still b b') : Keeps b b' := ⟨h.timelineSound, h.flagsOnlyRunning⟩

theorem ite {c : Prop} {_ : Decidable c} {a b b' : Part} (h : Keeps a b) (h' : Keeps a b') :
    Keeps a (if c then b else b') := by split <;> assumption

end Part.Keeps

/-! ### The flag through slots and turns (R52) -/

/-- Panel states stand, and flags rise only while RUNNING. -/
def Part.FlagStep (b b' : Part) : Prop :=
  ∀ q, (b'.engine q).state = (b.engine q).state ∧
    ((b'.engine q).critical = true → (b.engine q).critical = true ∨ (b.engine q).state = .running)

namespace Part.FlagStep

theorem refl (b : Part) : FlagStep b b := fun _ => ⟨rfl, .inl⟩

theorem trans {a b c : Part} (h : FlagStep a b) (k : FlagStep b c) : FlagStep a c := fun q =>
  ⟨(k q).1.trans (h q).1, fun hc => by
    rcases (k q).2 hc with h' | h'
    · exact (h q).2 h'
    · exact .inr ((h q).1 ▸ h')⟩

theorem ite {c : Prop} {_ : Decidable c} {a b b' : Part} (h : FlagStep a b) (h' : FlagStep a b') :
    FlagStep a (if c then b else b') := by split <;> assumption

theorem of_still {b b' : Part} (h : Still b b') : FlagStep b b' := fun q => ⟨(h.engines q).state, h.flags q⟩

theorem of_engines {b b' : Part} (h : b'.engines = b.engines) : FlagStep b b' := fun q => by
  rw [Part.engine, Part.engine, h]; exact ⟨rfl, .inl⟩

theorem modEngine (b : Part) (p : Panel) (f : Engine → Engine) (hs : ∀ e, (f e).state = e.state)
    (hc : ∀ e, (f e).critical = e.critical) : FlagStep b (b.modEngine p f) := fun q => by
  rw [Part.modEngine_engine]
  split
  · rename_i hq; subst hq; exact ⟨hs _, fun h => .inl (by rwa [hc] at h)⟩
  · exact ⟨rfl, .inl⟩

theorem flagsOnlyRunning {b b' : Part} (h : FlagStep b b') (hb : b.FlagsOnlyRunning) : b'.FlagsOnlyRunning := fun q hc => by
  rw [(h q).1]
  rcases (h q).2 hc with h' | h'
  · exact hb q h'
  · exact h'

end Part.FlagStep

theorem Part.carryOut_flags (p : Panel) (j : Nat) : FlagStep b (b.carryOut p j) := by
  unfold Part.carryOut
  split
  · exact .refl _
  · split
    · exact .refl _
    · exact .trans (b := Part.issue p _ _ _ _) (.of_engines rfl) (.of_still (Part.captures_quiet _ _ _).still)
    · exact .of_engines rfl
    · exact .of_still (Part.startBurst_still _ _ _ _ _)
    · exact .of_still (Part.setOutcome_still _ _ _ _)
    · exact .of_still (Part.setOutcome_still _ _ _ _)
    · exact .of_still (Part.setOutcome_still _ _ _ _)

theorem Part.startSlot_flags (p : Panel) (j : Nat) : FlagStep b (b.startSlot p j) :=
  (FlagStep.modEngine b p (Engine.enterSlot j) (fun _ => rfl) (fun _ => rfl)).trans (Part.carryOut_flags _ _ _)

theorem Part.buildPlan_flags (p : Panel) : FlagStep b (b.buildPlan p) := by
  unfold Part.buildPlan
  dsimp only
  exact (FlagStep.of_still (((b.claimDeferred_quiet _).trans (Part.verifyAll_quiet _ _)).trans
    (Part.claimShort_quiet _ _ _)).still).trans (.modEngine _ p _ (fun _ => rfl) (fun _ => rfl))

theorem Part.frameTurn_flags (p : Panel) (first : Bool) : FlagStep b (b.frameTurn p first) :=
  ((((FlagStep.modEngine b p Engine.beginTurn (fun _ => rfl) (fun _ => rfl)).trans
    (.of_still (Part.turnClaim_quiet _ _ _).still)).trans (.of_still (Part.rescan_still _ _))).trans
    (Part.buildPlan_flags _ _)).trans (Part.startSlot_flags _ _ _)

theorem Part.linkEndOfSlot_flags (p : Panel) : FlagStep b (b.linkEndOfSlot p) := by
  unfold Part.linkEndOfSlot
  split
  · exact .refl b
  · rename_i j hj
    generalize (b.link p).overdue j = os
    clear hj
    induction os generalizing b with
    | nil => exact .refl b
    | cons o os ih =>
      obtain ⟨a, e, -, f⟩ := b.timeoutOrder_spec p o
      refine FlagStep.trans (b := b.timeoutOrder p o) (fun q => ?_) (ih _)
      by_cases hq : q = p
      · subst hq; exact ⟨e.state, f⟩
      · exact ⟨(a.engines q hq).state, a.flags q hq⟩

theorem Part.endSlot_flags (p : Panel) (j : Nat) : FlagStep b (b.endSlot p j) := by
  unfold Part.endSlot
  exact ((FlagStep.of_still (b.dropBurst_still p)).trans (Part.linkEndOfSlot_flags _ _)).trans
    (.ite (Part.startSlot_flags _ _ _) ((FlagStep.of_still (Part.creditAll_still _ _)).trans (Part.frameTurn_flags _ _ _)))

/-! ### The commands -/

theorem Part.teardown_keeps (p : Panel) (st : PanelState) (hst : st.active = false) : Keeps b (b.teardown p st) := by
  obtain ⟨a, h, l⟩ := b.teardown_spec p st hst
  exact ⟨fun hb => a.sound hb (h.sound hst (hb p).range l), fun hb => a.flagRule hb fun hc => by rw [h.flag] at hc; cases hc⟩

theorem Part.expireStart_keeps (p : Panel) : Keeps b (b.expireStart p) :=
  .ite ((b.teardown_keeps p .down rfl).trans (.of_still (Part.claim_quiet _ _ _).still)) (.refl b)

/-- A change of one engine that the laws do not see. -/
theorem Part.modEngine_still (p : Panel) (f : Engine → Engine) (h : ((f (b.engine p))).Similar (b.engine p))
    (hc : (f (b.engine p)).critical = (b.engine p).critical) : Still b (b.modEngine p f) := by
  refine ⟨fun q => ?_, fun q => ?_, fun _ => rfl⟩
  · rw [Part.modEngine_engine]
    split
    · rename_i hq; subst hq; exact h
    · exact .refl _
  · rw [Part.modEngine_engine]
    split
    · rename_i hq; subst hq; rw [hc]; exact .inl
    · exact .inl

theorem Part.takeHalt_keeps (p : Panel) : Keeps b (b.takeHalt p) :=
  (Keeps.of_still (b.modEngine_still p _ ⟨rfl, rfl, rfl, rfl, rfl, rfl, rfl, rfl, rfl⟩ rfl)).trans
    (.ite (Part.teardown_keeps _ p .halted rfl) (.refl _))

/-- A panel that does not run has no order in flight (R91). -/
theorem PanelSound.idle_orders {e : Engine} {l : Link} (h : PanelSound e l) (hr : e.state ≠ .running) : l.orders = [] := by
  have := h.fits
  unfold linkFits at this
  cases hs : e.state with
  | running => exact absurd hs hr
  | down => simpa [hs] using this
  | starting => simpa [hs] using this
  | halted => simpa [hs] using this

theorem Part.bringUp_keeps (p : Panel) (h : (b.engine p).state.active = false) : Keeps b (b.bringUp p) := by
  have heng : ∀ q, (b.bringUp p).engine q =
      if q = p then { b.engine p with startLeft := some Config.startLimit, state := .starting } else b.engine q := by
    intro q
    unfold Part.bringUp
    rw [Part.enterState_engine]
    by_cases hq : q = p
    · subst hq; simp
    · simp [hq]
  have hlink : ∀ q, (b.bringUp p).link q = b.link q := fun _ => rfl
  have a : Aside p b (b.bringUp p) := by
    refine ⟨fun q hq => ?_, fun q hq hc => ?_, fun q _ => hlink q⟩
    · rw [heng q, if_neg hq]; exact .refl _
    · rw [heng q, if_neg hq] at hc; exact .inl hc
  have hne : (b.engine p).state ≠ .running := by intro hs; rw [hs] at h; cases h
  refine ⟨fun hb => a.sound hb ?_, fun hb => a.flagRule hb fun hc => ?_⟩
  · have hp := hb p
    have hcoh := hp.coherent
    have hslot : (b.engine p).slot = none ∧ (b.engine p).plan = none := by
      unfold Engine.coherent at hcoh
      revert hcoh h
      cases (b.engine p).state <;> simp_all [PanelState.active]
    rw [heng p, if_pos rfl, hlink p]
    refine ⟨hp.range, ?_, ?_, ?_, hp.count⟩
    · exact ⟨hslot.1, ⟨_, rfl, Nat.le_refl _⟩, hslot.2⟩
    · dsimp only; rw [hslot.2]; simp
    · exact hp.idle_orders hne
  · rw [heng p, if_pos rfl] at hc
    exact absurd (hb p hc) hne

theorem Part.takeDown_keeps (p : Panel) : Keeps b (b.takeDown p) := by
  unfold Part.takeDown
  split
  · exact b.teardown_keeps p .down rfl
  · exact b.teardown_keeps p .down rfl
  · rename_i hs
    have heng : ∀ q, ((b.applyStop p).enterState p .down).engine q =
        if q = p then { (b.engine p).stopOutput with state := .down } else b.engine q := by
      intro q
      rw [Part.enterState_engine, Part.applyStop_engine, Part.applyStop_engine]
      by_cases hq : q = p
      · subst hq; simp
      · simp [hq]
    have a : Aside p b ((b.applyStop p).enterState p .down) := by
      refine ⟨fun q hq => ?_, fun q hq hc => ?_, fun q _ => rfl⟩
      · rw [heng q, if_neg hq]; exact .refl _
      · rw [heng q, if_neg hq] at hc; exact .inl hc
    refine ⟨fun hb => a.sound hb ?_, fun hb => a.flagRule hb fun hc => ?_⟩
    · have hp := hb p
      have hcoh := hp.coherent
      simp only [Engine.coherent, hs] at hcoh
      rw [heng p, if_pos rfl]
      refine ⟨hp.range, hcoh, ?_, hp.idle_orders (by simp [hs]), hp.count⟩
      show ∀ pl, (b.engine p).plan = some pl → _
      rw [hcoh.2.2]; simp
    · rw [heng p, if_pos rfl] at hc
      have := hb p hc
      rw [hs] at this
      cases this
  · exact .refl b

theorem Part.takeReady_keeps (p : Panel) : Keeps b (b.takeReady p) := by
  unfold Part.takeReady
  split
  · rename_i hs
    have s₁ := b.creditAll_still p
    have e₁ := s₁.engines p
    have l₁ := s₁.links p
    have a₁ : Aside p b (((b.creditAll p).modEngine p fun e => { e with startLeft := none }).enterState p .running) := by
      refine ⟨fun q hq => ?_, fun q hq hc => ?_, fun q hq => s₁.links q⟩
      · rw [Part.enterState_engine, if_neg hq, Part.modEngine_engine, if_neg hq]; exact s₁.engines q
      · rw [Part.enterState_engine, if_neg hq, Part.modEngine_engine, if_neg hq] at hc; exact s₁.flags q hc
    have he : (((b.creditAll p).modEngine p fun e => { e with startLeft := none }).enterState p .running).engine p =
        { (b.creditAll p).engine p with startLeft := none, state := .running } := by
      rw [Part.enterState_engine, if_pos rfl, Part.modEngine_engine, if_pos rfl]
    have hl : (((b.creditAll p).modEngine p fun e => { e with startLeft := none }).enterState p .running).link p =
        b.link p := l₁
    have turn : b.TimelineSound → _ := fun hb =>
      Part.frameTurn_spec (((b.creditAll p).modEngine p fun e => { e with startLeft := none }).enterState p .running) p
        true (by rw [he]; unfold Engine.inRange; dsimp only; rw [e₁.cfg, e₁.duty, e₁.staged]; exact (hb p).range)
        (by rw [he]) (by rw [he]) (by rw [hl]; exact (hb p).idle_orders (by simp [hs]))
        (by rw [hl]; exact (hb p).count)
    refine ⟨fun hb => ?_, fun hb => ?_⟩
    · obtain ⟨a₂, p₂, -⟩ := turn hb
      exact (a₁.trans a₂).sound hb p₂
    · exact (Part.frameTurn_flags _ p true).flagsOnlyRunning (by
        intro q hc
        by_cases hq : q = p
        · subst hq; rw [he]
        · rw [(a₁.engines q hq).state]
          rcases a₁.flags q hq hc with h' | h'
          · exact hb q h'
          · exact h')
  · exact .refl b

/-- Fewer orders in flight fit as well (R91). -/
theorem linkFits.sublist {e : Engine} {l l' : Link} (h : linkFits e l) (hs : l'.orders.Sublist l.orders) : linkFits e l' := by
  unfold linkFits at *
  split
  · rename_i pl j h₁ h₂ h₃
    rw [h₁, h₂, h₃] at h
    exact ⟨h.1.sublist hs, fun o ho => h.2 o (hs.subset ho)⟩
  · rename_i hno
    have : l.orders = [] := by
      split at h
      · rename_i pl j h₁ h₂ h₃
        exact absurd h₃ (hno pl j h₁ h₂)
      · exact h
    rw [this] at hs
    exact List.sublist_nil.1 hs

/-- A DONE keeps the timelines (R93). -/
theorem Part.takeDone_keeps (p : Panel) (g : Nat) (sig : Signature) : Keeps b (b.takeDone p g sig) := by
  unfold Part.takeDone
  split
  · rename_i o _
    have s : Still (b.modLink p (Link.complete o)) (b.completeOrder p o sig) :=
      (Part.setOutcome_still _ p o.slot .done).trans (.of_eq rfl rfl)
    have a : Aside p b (b.completeOrder p o sig) := (Part.Aside.modLink p _ b).trans (.of_still s)
    have e : ((b.completeOrder p o sig).engine p).Similar (b.engine p) := by simpa using s.engines p
    have l : (b.completeOrder p o sig).link p = (b.link p).complete o := by simpa using s.links p
    have f := s.flags p
    refine ⟨fun hb => a.sound hb ?_, fun hb => a.flagRule hb fun hc => ?_⟩
    · have hp := hb p
      refine PanelSound.similar (e := b.engine p) ?_ e
      rw [l]
      exact ⟨hp.range, hp.coherent, hp.lawful, hp.fits.sublist List.erase_sublist, Nat.zero_le _⟩
    · rw [e.state]
      rcases f hc with h' | h'
      · exact hb p (by simpa using h')
      · simpa using h'
  · exact .refl b

/-- The end of a slot alone keeps the timelines (R96, R97). -/
theorem Part.orderTimeout_keeps (p : Panel) : Keeps b (b.orderTimeout p) := by
  refine .ite ⟨fun hb => ?_, (b.linkEndOfSlot_flags p).flagsOnlyRunning⟩ (.refl b)
  cases hj : (b.engine p).slot with
  | none => have : b.linkEndOfSlot p = b := by unfold Part.linkEndOfSlot; rw [hj]
            rw [this]; exact hb
  | some j =>
    by_cases hr : (b.engine p).state = .running
    · obtain ⟨pl, i, hpl, hi, hlt, ht, hlaw, hfit⟩ := (hb p).running hr
      obtain ⟨a, e, sub, -, c, -⟩ := b.linkEndOfSlot_spec p j hj hfit.nodup
      refine a.sound hb (PanelSound.similar (e := b.engine p) ?_ e)
      have hp := hb p
      exact ⟨hp.range, hp.coherent, hp.lawful, hp.fits.sublist sub, c hp.count⟩
    · have ho := (hb p).idle_orders hr
      have : b.linkEndOfSlot p = b := by
        unfold Part.linkEndOfSlot
        rw [hj]
        dsimp only
        unfold Link.overdue
        rw [ho]
        rfl
      rw [this]; exact hb

/-- Warm reset of one panel keeps the timelines (R66, R101). -/
theorem Part.warmResetPanel_keeps (p : Panel) : Keeps b (b.warmResetPanel p) := by
  unfold Part.warmResetPanel
  split
  · obtain ⟨a₁, h₁, l₁⟩ := b.stopPanel_spec p .down
    have s₂ : Still (b.stopPanel p .down) (((b.stopPanel p .down).freeRetiring p).suspendTouch p) :=
      (Part.freeRetiring_quiet _ p).still.trans (Part.suspendTouch_still _ p)
    have h₂ := h₁.still rfl (s₂.engines p) (s₂.flags p)
    have l₂ := (s₂.links p).trans l₁
    generalize hb₂ : ((b.stopPanel p .down).freeRetiring p).suspendTouch p = b₂ at *
    have a : Aside p b (b₂.modEngine p fun e => { e with duty := e.stagedDuty }) :=
      a₁.trans ((Part.Aside.of_still s₂).trans (.modEngine p _ _))
    have he : (b₂.modEngine p fun e => { e with duty := e.stagedDuty }).engine p =
        { b₂.engine p with duty := (b₂.engine p).stagedDuty } := by simp
    have h₃ : Stopped .down { b.engine p with duty := (b.engine p).stagedDuty }
        ((b₂.modEngine p fun e => { e with duty := e.stagedDuty }).engine p) := by
      rw [he]
      exact ⟨h₂.state, h₂.cfg, h₂.staged, h₂.staged, h₂.slot, h₂.timer, h₂.plan, h₂.flag⟩
    refine ⟨fun hb => a.sound hb (h₃.sound rfl ?_ (by simpa using l₂)), fun hb => a.flagRule hb fun hc => ?_⟩
    · have := (hb p).range
      exact ⟨this.1, this.2.2, this.2.2⟩
    · rw [h₃.flag] at hc; cases hc
  · rename_i hact
    have heng : ∀ q, (((b.applyStop p).modLink p fun _ => Link.reset).modEngine p fun e =>
        { e with state := .down, critical := false }).engine q =
        if q = p then { (b.engine p).stopOutput with state := .down, critical := false } else b.engine q := by
      intro q
      rw [Part.modEngine_engine, Part.modLink_engine, Part.modLink_engine, Part.applyStop_engine, Part.applyStop_engine]
      by_cases hq : q = p
      · subst hq; simp
      · simp [hq]
    have hlink : ∀ q, (((b.applyStop p).modLink p fun _ => Link.reset).modEngine p fun e =>
        { e with state := .down, critical := false }).link q = if q = p then Link.reset else b.link q := by
      intro q
      rw [Part.modEngine_link, Part.modLink_link]
      rfl
    have a : Aside p b (((b.applyStop p).modLink p fun _ => Link.reset).modEngine p fun e =>
        { e with state := .down, critical := false }) := by
      refine ⟨fun q hq => ?_, fun q hq hc => ?_, fun q hq => ?_⟩
      · rw [heng q, if_neg hq]; exact .refl _
      · rw [heng q, if_neg hq] at hc; exact .inl hc
      · rw [hlink q, if_neg hq]
    refine ⟨fun hb => a.sound hb ?_, fun hb => a.flagRule hb fun hc => ?_⟩
    · have hp := hb p
      have hn := Engine.coherent.idle hp.coherent hact
      rw [heng p, hlink p, if_pos rfl, if_pos rfl]
      refine ⟨hp.range, hn, ?_, rfl, Nat.zero_le _⟩
      show ∀ pl, (b.engine p).plan = some pl → _
      rw [hn.2.2]; simp
    · rw [heng p, if_pos rfl] at hc; cases hc

theorem Part.warmReset_keeps : Keeps b b.warmReset :=
  ((b.warmResetPanel_keeps .cluster).trans (Part.warmResetPanel_keeps _ .centre)).trans (.of_still (.of_eq rfl rfl))

/-- An accepted PANEL_CONFIG keeps the timelines (R44). -/
theorem Part.configure_keeps (p : Panel) (c : PanelConfig) (hd : (b.engine p).state = .down) (hc : c.inRange = true) :
    Keeps b (b.modEngine p (Engine.configure c)) := by
  have a := Part.Aside.modEngine p (Engine.configure c) b
  have he : (b.modEngine p (Engine.configure c)).engine p = (b.engine p).configure c := by simp
  refine ⟨fun hb => a.sound hb ?_, fun hb => a.flagRule hb fun h => ?_⟩
  · have hp := hb p
    have hcoh := hp.coherent
    simp only [Engine.coherent, hd] at hcoh
    rw [he]
    refine ⟨⟨hc, Nat.min_le_right _ _, Nat.min_le_right _ _⟩, ?_, ?_, ?_, hp.count⟩
    · simp only [Engine.coherent, Engine.configure, hd]; exact hcoh
    · show ∀ pl, (b.engine p).plan = some pl → _
      rw [hcoh.2.2]; simp
    · show linkFits _ (b.link p)
      have := hp.idle_orders (by simp [hd])
      simp only [linkFits, Engine.configure, hd]; exact this
  · rw [he] at h
    have := hb p h
    rw [hd] at this
    cases this

/-- A BACKLIGHT whose duty the period admits keeps the timelines (R62). -/
theorem Part.takeDuty_keeps (p : Panel) (d : Nat) (hd : d ≤ (b.engine p).cfg.blPeriod) :
    Keeps b (b.modEngine p (Engine.takeDuty d)) := by
  have a := Part.Aside.modEngine p (Engine.takeDuty d) b
  have he : (b.modEngine p (Engine.takeDuty d)).engine p = (b.engine p).takeDuty d := by simp
  refine ⟨fun hb => a.sound hb ?_, fun hb => a.flagRule hb fun h => ?_⟩
  · have hp := hb p
    obtain ⟨hr, hc, hl, hf, hn⟩ := hp
    rw [he]
    unfold Engine.takeDuty
    split
    · exact ⟨⟨hr.1, hr.2.1, hd⟩, hc, hl, hf, hn⟩
    · rename_i hact
      refine ⟨⟨hr.1, hd, hd⟩, hc, fun pl hpl => ?_, hf, hn⟩
      rw [(Engine.coherent.idle hc hact).2.2] at hpl
      cases hpl
  · rw [he] at h ⊢
    have : ((b.engine p).takeDuty d).critical = (b.engine p).critical ∧
        ((b.engine p).takeDuty d).state = (b.engine p).state := by
      unfold Engine.takeDuty; split <;> exact ⟨rfl, rfl⟩
    rw [this.2]
    exact hb p (by rw [← this.1]; exact h)

/-- ACK_CRITICAL keeps the timelines (R176). -/
theorem Part.clearFlag_keeps (p : Panel) : Keeps b (b.modEngine p fun e => { e with critical := false }) := by
  have a := Part.Aside.modEngine p (fun e => { e with critical := false }) b
  have he : (b.modEngine p fun e => { e with critical := false }).engine p = { b.engine p with critical := false } := by
    simp
  refine ⟨fun hb => a.sound hb ?_, fun hb => a.flagRule hb fun h => ?_⟩
  · rw [he]
    obtain ⟨hr, hc, hl, hf, hn⟩ := hb p
    exact ⟨hr, hc, hl, hf, hn⟩
  · rw [he] at h; cases h

/-- A slot boundary keeps the timelines (R53, R91). -/
theorem Part.slotBoundary_keeps (p : Panel) : Keeps b (b.slotBoundary p) := by
  unfold Part.slotBoundary
  split
  · rename_i j hs hj
    refine ⟨fun hb => ?_, (b.endSlot_flags p _).flagsOnlyRunning⟩
    obtain ⟨a, h, -⟩ := b.endSlot_spec p _ (hb p) hs hj
    exact a.sound hb h
  · exact .refl b

end Sys2Proof.Machine
end

