-- ==== Sys2Proof/Laws/Lessens.lean ====
section
/-! SUPPORT. Which operations leave what admission promised standing (R33 to R35, R38): those that ask for no more of the
table and leave every configuration. Admission itself, OPEN and AMEND admitted, and an accepted slot count bring it
about. -/

namespace Sys2Proof.Machine

/-- Every record asks for no more, and every configuration stands. -/
structure Part.Lessens (b b' : Part) : Prop where
  eases : b.Eases b'
  cfg : ∀ q, (b'.engine q).cfg = (b.engine q).cfg

namespace Part.Lessens

theorem refl (b : Part) : Lessens b b := ⟨.refl b, fun _ => rfl⟩

theorem trans {a b c : Part} (h : Lessens a b) (k : Lessens b c) : Lessens a c :=
  ⟨h.eases.trans k.eases, fun q => (k.cfg q).trans (h.cfg q)⟩

theorem ite {c : Prop} {_ : Decidable c} {a b b' : Part} (h : Lessens a b) (h' : Lessens a b') :
    Lessens a (if c then b else b') := by split <;> assumption

theorem foldl {α : Type} {f : Part → α → Part} (hf : ∀ b x, Lessens b (f b x)) :
    ∀ (xs : List α) (b : Part), Lessens b (xs.foldl f b)
  | [], b => refl b
  | x :: xs, b => (hf b x).trans (foldl hf xs (f b x))

/-- A quiet update that eases. -/
theorem of_quiet {b b' : Part} (h : Quiet b b') (k : b.Eases b') : Lessens b b' :=
  ⟨k, fun q => by rw [(h.engines q).1]⟩

/-- An update of neither table nor configuration. -/
theorem of_eq {b b' : Part} (ht : b'.table = b.table) (he : ∀ q, (b'.engine q).cfg = (b.engine q).cfg) : Lessens b b' :=
  ⟨.of_table ht, he⟩

theorem modEngine (b : Part) (p : Panel) (f : Engine → Engine) (h : ∀ e, (f e).cfg = e.cfg) :
    Lessens b (b.modEngine p f) := .of_eq rfl fun q => by
  rw [Part.modEngine_engine]
  split
  · rename_i hq; subst hq; exact h _
  · rfl

/-- What admission promised stands, and contracts stay in range. -/
theorem promised {b b' : Part} (h : Lessens b b') (hb : b.ContractsRanged ∧ b.Admitted) :
    b'.ContractsRanged ∧ b'.Admitted :=
  ⟨h.eases.contractsRanged hb.1, fun p => by rw [h.cfg p]; exact h.eases.admitted hb.1 p _ (hb.2 p)⟩

end Part.Lessens

variable (b : Part)

theorem Part.modTouch_lessens (f : Touch → Touch) : Lessens b (b.modTouch f) := .of_eq rfl fun _ => rfl
theorem Part.modLink_lessens (p : Panel) (f : Link → Link) : Lessens b (b.modLink p f) := .of_eq rfl fun _ => rfl
theorem Part.modCredit_lessens (p : Panel) (f : CreditQueue → CreditQueue) : Lessens b (b.modCredit p f) :=
  .of_eq rfl fun _ => rfl
theorem Part.send_lessens (p : Panel) (m : LinkMessage) : Lessens b (b.send p m) := .of_eq rfl fun _ => rfl
theorem Part.issue_lessens (p : Panel) (kind : OrderKind) (g slot : Nat) : Lessens b (b.issue p kind g slot) :=
  .of_eq rfl fun _ => rfl
theorem Part.startBurst_lessens (p : Panel) (pl : Plan) (row slot : Nat) : Lessens b (b.startBurst p pl row slot) :=
  .of_eq rfl fun _ => rfl

theorem Part.verify_lessens (who : Reader) (n : Nat) : Lessens b (b.verify who n) :=
  .of_quiet (b.verify_quiet _ _) (b.verify_eases _ _)

theorem Part.verifyAll_lessens (who : Reader) : Lessens b (b.verifyAll who) :=
  .of_quiet (b.verifyAll_quiet _) (b.verifyAll_eases _)

theorem Part.claim_lessens (k : Bank) (c : Claim) : Lessens b (b.claim k c) := .of_quiet (b.claim_quiet _ _) (.of_table rfl)

theorem Part.freeContract_lessens (n : Nat) (sender : Option Port) : Lessens b (b.freeContract n sender) :=
  .of_quiet (b.freeContract_quiet _ _) (b.freeContract_eases _ _)

theorem Part.freeRetiring_lessens (p : Panel) : Lessens b (b.freeRetiring p) :=
  .of_quiet (b.freeRetiring_quiet p) (b.freeRetiring_eases p)

theorem Part.suspendTouch_lessens (p : Panel) : Lessens b (b.suspendTouch p) := by
  cases p
  · exact .refl b
  · exact (b.modTouch_lessens Touch.suspend).trans (.of_quiet (Part.releaseZones_quiet _) (Part.releaseZones_eases _))

theorem Part.enterState_lessens (p : Panel) (st : PanelState) : Lessens b (b.enterState p st) :=
  .of_eq rfl fun q => by
    rw [Part.enterState_engine]
    split
    · rename_i hq; subst hq; rfl
    · rfl

theorem Part.applyStop_lessens (p : Panel) : Lessens b (b.applyStop p) := .of_eq rfl fun q => by
  rw [Part.applyStop_engine]
  split
  · rename_i hq; subst hq; rfl
  · rfl

theorem Part.stopPanel_lessens (p : Panel) (st : PanelState) : Lessens b (b.stopPanel p st) := .of_eq rfl fun q => by
  obtain ⟨a, h, -⟩ := b.stopPanel_spec p st
  by_cases hq : q = p
  · subst hq; exact h.cfg
  · exact (a.engines q hq).cfg

theorem Part.teardown_lessens (p : Panel) (st : PanelState) : Lessens b (b.teardown p st) :=
  (((b.verifyAll_lessens .teardown).trans (Part.stopPanel_lessens _ p st)).trans (Part.freeRetiring_lessens _ p)).trans
    (Part.suspendTouch_lessens _ p)

theorem Part.setOutcome_lessens (p : Panel) (j : Nat) (o : EntryOutcome) : Lessens b (b.setOutcome p j o) :=
  .of_eq rfl fun q => ((b.setOutcome_still p j o).engines q).cfg

theorem Part.timeoutOrder_lessens (p : Panel) (o : Order) : Lessens b (b.timeoutOrder p o) := by
  exact ((b.modLink_lessens p (Link.timeOut o)).trans
    (Part.setOutcome_lessens _ p o.slot .timedOut)).trans ((Part.claim_lessens _ _ _).trans
    (.ite (Part.claim_lessens _ _ _) (.refl _)))

theorem Part.linkEndOfSlot_lessens (p : Panel) : Lessens b (b.linkEndOfSlot p) := by
  unfold Part.linkEndOfSlot
  split
  · exact .refl b
  · exact .foldl (fun b o => b.timeoutOrder_lessens p o) _ b

theorem Part.carryOut_lessens (p : Panel) (slot : Nat) : Lessens b (b.carryOut p slot) := by
  unfold Part.carryOut
  split
  · exact .refl b
  · split
    · exact .refl b
    · exact (b.issue_lessens p .drive _ slot).trans
        (.of_quiet (Part.captures_quiet _ _ _) (Part.captures_eases _ _ _))
    · exact b.issue_lessens _ _ _ _
    · exact b.startBurst_lessens _ _ _ _
    · exact b.setOutcome_lessens _ _ _
    · exact b.setOutcome_lessens _ _ _
    · exact b.setOutcome_lessens _ _ _

theorem Part.startSlot_lessens (p : Panel) (j : Nat) : Lessens b (b.startSlot p j) :=
  (Lessens.modEngine b p (Engine.enterSlot j) fun _ => rfl).trans (Part.carryOut_lessens _ _ _)

theorem Part.rescan_lessens (p : Panel) : Lessens b (b.rescan p) := by
  cases p
  · exact .refl b
  · exact (b.verifyAll_lessens .scanSet).trans (Part.modTouch_lessens _ _)

theorem Part.claimDeferred_lessens (sp : SensePlan) : Lessens b (b.claimDeferred sp) := .ite (.refl b) (b.claim_lessens _ _)

theorem Part.claimShort_lessens (p : Panel) (skipped : List Nat) : Lessens b (b.claimShort p skipped) := by
  unfold Part.claimShort
  split
  · exact .refl b
  · exact b.claim_lessens _ _

theorem Part.buildPlan_lessens (p : Panel) : Lessens b (b.buildPlan p) := by
  unfold Part.buildPlan
  dsimp only
  exact (((b.claimDeferred_lessens _).trans (Part.verifyAll_lessens _ _)).trans
    (Part.claimShort_lessens _ _ _)).trans (.modEngine _ p _ fun _ => rfl)

theorem Part.frameTurn_lessens (p : Panel) (first : Bool) : Lessens b (b.frameTurn p first) :=
  ((((Lessens.modEngine b p Engine.beginTurn fun _ => rfl).trans
    (.of_quiet (Part.turnClaim_quiet _ _ _) (Part.turnClaim_eases _ _ _))).trans (Part.rescan_lessens _ _)).trans
    (Part.buildPlan_lessens _ _)).trans (Part.startSlot_lessens _ _ _)

theorem Part.creditOldest_lessens (p : Panel) : Lessens b (b.creditOldest p) :=
  ⟨b.creditOldest_eases p, fun q => ((b.creditOldest_still p).engines q).cfg⟩

theorem Part.creditAll_lessens (p : Panel) : Lessens b (b.creditAll p) :=
  ⟨b.creditAll_eases p, fun q => ((b.creditAll_still p).engines q).cfg⟩

theorem Part.dropBurst_lessens (p : Panel) : Lessens b (b.dropBurst p) := by
  cases p
  · exact .refl b
  · exact b.modTouch_lessens _

/-! ### The commands that only lessen -/

theorem Part.slotBoundary_lessens (p : Panel) : Lessens b (b.slotBoundary p) := by
  unfold Part.slotBoundary
  split
  · unfold Part.endSlot
    exact ((b.dropBurst_lessens p).trans (Part.linkEndOfSlot_lessens _ _)).trans
      (.ite (Part.startSlot_lessens _ _ _) ((Part.creditAll_lessens _ _).trans (Part.frameTurn_lessens _ _ _)))
  · exact .refl b

theorem Part.orderTimeout_lessens (p : Panel) : Lessens b (b.orderTimeout p) := .ite (b.linkEndOfSlot_lessens p) (.refl b)

theorem Part.expireStart_lessens (p : Panel) : Lessens b (b.expireStart p) :=
  .ite ((b.teardown_lessens p .down).trans (Part.claim_lessens _ _ _)) (.refl b)

theorem Part.takeReady_lessens (p : Panel) : Lessens b (b.takeReady p) :=
  .ite ((((b.creditAll_lessens p).trans
    (.modEngine (b.creditAll p) p (fun e => { e with startLeft := none }) fun _ => rfl)).trans
    (Part.enterState_lessens _ p .running)).trans (Part.frameTurn_lessens _ p true)) (.refl b)

theorem Part.takeDone_lessens (p : Panel) (g : Nat) (sig : Signature) : Lessens b (b.takeDone p g sig) := by
  unfold Part.takeDone
  split
  · rename_i o _
    exact ((b.modLink_lessens p (Link.complete o)).trans
      (Part.setOutcome_lessens _ p o.slot .done)).trans (Part.modCredit_lessens _ _ _)
  · exact .refl b

theorem Part.takeHalt_lessens (p : Panel) : Lessens b (b.takeHalt p) :=
  (Lessens.modEngine b p (fun e => { e with haltHanded := false }) fun _ => rfl).trans (.ite (Part.teardown_lessens _ p .halted) (.refl _))

theorem Part.bringUp_lessens (p : Panel) : Lessens b (b.bringUp p) :=
  ((b.send_lessens p .start).trans
    (.modEngine _ p (fun e => { e with startLeft := some Config.startLimit }) fun _ => rfl)).trans
    (Part.enterState_lessens _ p .starting)

theorem Part.takeDown_lessens (p : Panel) : Lessens b (b.takeDown p) := by
  unfold Part.takeDown
  split
  · exact b.teardown_lessens p .down
  · exact b.teardown_lessens p .down
  · exact (b.applyStop_lessens p).trans (Part.enterState_lessens _ p .down)
  · exact .refl b

theorem Part.takePeaks_lessens (h : HandOver) : Lessens b (b.takePeaks h) :=
  (b.modTouch_lessens _).trans (.foldl (fun b _ => b.claim_lessens _ _) _ _)

theorem Part.pressOne_lessens (n : Nat) : Lessens b (b.pressOne n) := .of_quiet (b.pressOne_quiet n) (b.pressOne_eases n)

theorem Part.associateContacts_lessens : Lessens b b.associateContacts :=
  (b.verifyAll_lessens .tracker).trans (Part.modTouch_lessens _ _)

theorem Part.updatePresses_lessens : Lessens b b.updatePresses := .foldl (fun b n => b.pressOne_lessens n) _ b

theorem Part.noticeContacts_lessens (before : List Contact) : Lessens b (b.noticeContacts before) :=
  .of_quiet (b.noticeContacts_quiet before) (.ite (.refl _) (.of_table rfl))

theorem Part.track_lessens (h : HandOver) : Lessens b (b.track h) :=
  (b.takePeaks_lessens h).trans ((Part.associateContacts_lessens _).trans
    ((Part.updatePresses_lessens _).trans (Part.noticeContacts_lessens _ _)))

theorem Part.completeFrame_lessens (f : TouchFrame) : Lessens b (b.completeFrame f) :=
  (b.modTouch_lessens (Touch.writeMap f)).trans
    ((Part.track_lessens _ (b.touch.handOver f)).trans
      ((Part.modTouch_lessens _ (Touch.drift f)).trans (Part.modTouch_lessens _ Touch.nextFrame)))

theorem Part.completeIfDone_lessens : Lessens b b.completeIfDone := by
  unfold Part.completeIfDone
  split
  · exact .ite (b.completeFrame_lessens _) (.refl b)
  · exact .refl b

theorem Part.fileGood_lessens (u : Burst) (counts : List Nat) : Lessens b (b.fileGood u counts) :=
  .ite (.refl b) (.ite
    ((b.modTouch_lessens (Touch.measure u.row counts)).trans (Part.completeIfDone_lessens _))
    (.ite (b.claim_lessens _ _) ((b.modTouch_lessens (Touch.calibrate u.row counts)).trans
      (Part.completeIfDone_lessens _))))

theorem Part.senseComplete_lessens (counts : List Nat) : Lessens b (b.senseComplete counts) := by
  unfold Part.senseComplete
  split
  · exact .refl b
  · rename_i u _
    exact (b.modTouch_lessens (Touch.endBurst u counts)).trans
      (.ite ((Part.setOutcome_lessens _ _ _ _).trans (Part.claim_lessens _ _ _))
        ((Part.setOutcome_lessens _ _ _ _).trans (Part.fileGood_lessens _ _ _)))

theorem Part.warmResetPanel_lessens (p : Panel) : Lessens b (b.warmResetPanel p) :=
  .ite ((((b.stopPanel_lessens p .down).trans (Part.freeRetiring_lessens _ p)).trans (Part.suspendTouch_lessens _ p)).trans
    (.modEngine _ p _ fun _ => rfl))
    ((b.applyStop_lessens p).trans
      ((Part.modLink_lessens _ p fun _ => Link.reset).trans
        (.modEngine _ p _ fun _ => rfl)))

theorem freeAll_getD (t : List Record) (n : Nat) : ((freeAll t).getD n (Record.freeWith 0)).state = .free := by
  unfold freeAll
  rw [List.getD_eq_getElem?_getD, List.getElem?_map]
  cases t[n]? with
  | none => rfl
  | some r =>
    simp only [Option.map_some, Option.getD_some]
    split
    · assumption
    · rfl

theorem Part.warmReset_lessens : Lessens b b.warmReset := by
  refine ((b.warmResetPanel_lessens .cluster).trans (Part.warmResetPanel_lessens _ .centre)).trans
    ⟨⟨?_, fun n => .of_free ?_⟩, fun _ => rfl⟩
  · show (freeAll _).length = _
    simp [freeAll]
  · exact freeAll_getD _ n

end Sys2Proof.Machine
end

