-- ==== Sys2Proof/WellFormed.lean ====
section
/-! DEFINITION. Which terms of `Instr` are commands the part can meet. The types already hold ports, panels, byte
widths and the 24 counts of 12 bits; one relation is left. -/

namespace Sys2Proof

/-- A transaction of unknown kind sends no byte, or a first byte that names neither kind (R182, R195). -/
def Instr.unknownKindOk : List Byte → Bool
  | [] => true
  | b :: _ => b != Config.requestKind && b != Config.answerKind

/-- The well-formedness check of a command, constructor by constructor. -/
def Instr.wellFormed : Instr → Bool
  | .unknownKindTransaction _ bytes => Instr.unknownKindOk bytes
  | .coldReset _ => true
  | .requestTransaction _ _ => true
  | .answerTransaction _ _ => true
  | .openContract _ => true
  | .amend _ => true
  | .suspend _ => true
  | .resume _ => true
  | .retire _ => true
  | .lookup _ => true
  | .find _ => true
  | .list _ => true
  | .update _ => true
  | .panelUp _ => true
  | .panelDown _ => true
  | .panelConfig _ => true
  | .panelStatus _ => true
  | .backlight _ => true
  | .touchConfig _ => true
  | .recalibrate _ => true
  | .contacts _ => true
  | .faultRead _ => true
  | .faultClear _ => true
  | .faultControl _ => true
  | .ackCritical _ => true
  | .inject _ => true
  | .identify _ => true
  | .notices _ => true
  | .setAttention _ => true
  | .warmReset _ => true
  | .slotBoundary _ => true
  | .orderTimeout _ => true
  | .startLimitExpiry _ => true
  | .ready _ => true
  | .done _ _ _ => true
  | .fault _ _ => true
  | .completionCredit _ => true
  | .senseComplete _ => true
  | .halt _ => true

end Sys2Proof
end

