-- ==== Sys2Proof/Laws/PerInstr.lean ====
section
/-! SUPPORT. What is said of every command, one constructor at a time: a command is ill formed in one way only. -/

namespace Sys2Proof.Laws.F

/-- A command fails the well-formedness check exactly where it is a transaction of unknown kind whose first byte names a
kind (R182, R195). -/
def Statement (i : Instr) : Prop :=
  i.wellFormed = false ↔
    ∃ p b bytes, i = .unknownKindTransaction p (b :: bytes) ∧ (b = Config.requestKind ∨ b = Config.answerKind)

/-- A constructor without a check of its own meets the statement. -/
theorem of_unchecked {i : Instr} (h : i.wellFormed = true) (hn : ∀ p bytes, i ≠ .unknownKindTransaction p bytes) :
    Statement i := by
  constructor
  · intro hf; rw [h] at hf; cases hf
  · rintro ⟨p, b, bytes, rfl, _⟩; exact absurd rfl (hn p (b :: bytes))

theorem coldReset (strap : Option (BitVec 2)) : Statement (.coldReset strap) :=
  of_unchecked rfl fun _ _ h => by cases h

theorem requestTransaction (port : Port) (frame : List Byte) : Statement (.requestTransaction port frame) :=
  of_unchecked rfl fun _ _ h => by cases h

theorem answerTransaction (port : Port) (clocked : Nat) : Statement (.answerTransaction port clocked) :=
  of_unchecked rfl fun _ _ h => by cases h

theorem unknownKindTransaction (port : Port) (bytes : List Byte) : Statement (.unknownKindTransaction port bytes) := by
  cases bytes with
  | nil =>
    constructor
    · intro h; cases h
    · rintro ⟨_, _, _, h, _⟩; cases h
  | cons k rest =>
    constructor
    · intro h
      have h' : (k != Config.requestKind && k != Config.answerKind) = false := h
      refine ⟨port, k, rest, rfl, ?_⟩
      simpa [or_iff_not_imp_left] using h'
    · rintro ⟨_, _, _, h, hk⟩
      cases h
      change (k != Config.requestKind && k != Config.answerKind) = false
      rcases hk with rfl | rfl <;> rfl

theorem openContract (port : Port) : Statement (.openContract port) :=
  of_unchecked rfl fun _ _ h => by cases h

theorem amend (port : Port) : Statement (.amend port) :=
  of_unchecked rfl fun _ _ h => by cases h

theorem suspend (port : Port) : Statement (.suspend port) :=
  of_unchecked rfl fun _ _ h => by cases h

theorem resume (port : Port) : Statement (.resume port) :=
  of_unchecked rfl fun _ _ h => by cases h

theorem retire (port : Port) : Statement (.retire port) :=
  of_unchecked rfl fun _ _ h => by cases h

theorem lookup (port : Port) : Statement (.lookup port) :=
  of_unchecked rfl fun _ _ h => by cases h

theorem find (port : Port) : Statement (.find port) :=
  of_unchecked rfl fun _ _ h => by cases h

theorem list (port : Port) : Statement (.list port) :=
  of_unchecked rfl fun _ _ h => by cases h

theorem update (port : Port) : Statement (.update port) :=
  of_unchecked rfl fun _ _ h => by cases h

theorem panelUp (port : Port) : Statement (.panelUp port) :=
  of_unchecked rfl fun _ _ h => by cases h

theorem panelDown (port : Port) : Statement (.panelDown port) :=
  of_unchecked rfl fun _ _ h => by cases h

theorem panelConfig (port : Port) : Statement (.panelConfig port) :=
  of_unchecked rfl fun _ _ h => by cases h

theorem panelStatus (port : Port) : Statement (.panelStatus port) :=
  of_unchecked rfl fun _ _ h => by cases h

theorem backlight (port : Port) : Statement (.backlight port) :=
  of_unchecked rfl fun _ _ h => by cases h

theorem touchConfig (port : Port) : Statement (.touchConfig port) :=
  of_unchecked rfl fun _ _ h => by cases h

theorem recalibrate (port : Port) : Statement (.recalibrate port) :=
  of_unchecked rfl fun _ _ h => by cases h

theorem contacts (port : Port) : Statement (.contacts port) :=
  of_unchecked rfl fun _ _ h => by cases h

theorem faultRead (port : Port) : Statement (.faultRead port) :=
  of_unchecked rfl fun _ _ h => by cases h

theorem faultClear (port : Port) : Statement (.faultClear port) :=
  of_unchecked rfl fun _ _ h => by cases h

theorem faultControl (port : Port) : Statement (.faultControl port) :=
  of_unchecked rfl fun _ _ h => by cases h

theorem ackCritical (port : Port) : Statement (.ackCritical port) :=
  of_unchecked rfl fun _ _ h => by cases h

theorem inject (port : Port) : Statement (.inject port) :=
  of_unchecked rfl fun _ _ h => by cases h

theorem identify (port : Port) : Statement (.identify port) :=
  of_unchecked rfl fun _ _ h => by cases h

theorem notices (port : Port) : Statement (.notices port) :=
  of_unchecked rfl fun _ _ h => by cases h

theorem setAttention (port : Port) : Statement (.setAttention port) :=
  of_unchecked rfl fun _ _ h => by cases h

theorem warmReset (port : Port) : Statement (.warmReset port) :=
  of_unchecked rfl fun _ _ h => by cases h

theorem slotBoundary (panel : Panel) : Statement (.slotBoundary panel) :=
  of_unchecked rfl fun _ _ h => by cases h

theorem orderTimeout (panel : Panel) : Statement (.orderTimeout panel) :=
  of_unchecked rfl fun _ _ h => by cases h

theorem startLimitExpiry (panel : Panel) : Statement (.startLimitExpiry panel) :=
  of_unchecked rfl fun _ _ h => by cases h

theorem ready (panel : Panel) : Statement (.ready panel) :=
  of_unchecked rfl fun _ _ h => by cases h

theorem done (panel : Panel) (rowGroup : Nat) (signature : Signature) : Statement (.done panel rowGroup signature) :=
  of_unchecked rfl fun _ _ h => by cases h

theorem fault (panel : Panel) (code : Byte) : Statement (.fault panel code) :=
  of_unchecked rfl fun _ _ h => by cases h

theorem completionCredit (panel : Panel) : Statement (.completionCredit panel) :=
  of_unchecked rfl fun _ _ h => by cases h

theorem senseComplete (counts : Vector RawCount 24) : Statement (.senseComplete counts) :=
  of_unchecked rfl fun _ _ h => by cases h

theorem halt (panel : Panel) : Statement (.halt panel) :=
  of_unchecked rfl fun _ _ h => by cases h

end Sys2Proof.Laws.F
end

