-- ==== Sys2Proof/Laws/Serve.lean ====
section
/-! SUPPORT. What the shared steps of a request row do (R4, R183, R185): the owner takes the request in hand, reads the
record it names, and its answer is placed. -/

namespace Sys2Proof.Machine

variable (b : Part)

/-! ### The part as a command finds it -/

@[simp] theorem State.fresh_ports (s : State) : s.fresh.ports = s.part.ports := rfl
@[simp] theorem State.fresh_strap (s : State) : s.fresh.strap = s.part.strap := rfl
@[simp] theorem State.fresh_table (s : State) : s.fresh.table = s.part.table := rfl
@[simp] theorem State.fresh_touch (s : State) : s.fresh.touch = s.part.touch := rfl
@[simp] theorem State.fresh_faults (s : State) : s.fresh.faults = s.part.faults := rfl
@[simp] theorem State.fresh_out (s : State) : s.fresh.out = [] := rfl
@[simp] theorem State.fresh_port (s : State) (p : Port) : s.fresh.port p = s.part.port p := rfl
@[simp] theorem State.fresh_engine (s : State) (p : Panel) : s.fresh.engine p = s.part.engine p := rfl
@[simp] theorem State.fresh_link (s : State) (p : Panel) : s.fresh.link p = s.part.link p := rfl
@[simp] theorem State.fresh_credit (s : State) (p : Panel) : s.fresh.credit p = s.part.credit p := rfl
@[simp] theorem State.fresh_bank (s : State) (k : Bank) : s.fresh.bank k = s.part.bank k := rfl
@[simp] theorem State.fresh_record (s : State) (n : Nat) : s.fresh.record n = s.part.record n := rfl
@[simp] theorem State.fresh_role (s : State) (p : Port) : s.fresh.role p = s.part.role p := rfl

/-! ### A request in hand -/

theorem Part.holds_state {p : Port} {name : RequestName} {ps : List Byte} {b : Part} (h : b.holds p name ps = true) :
    (b.port p).state = .working ∧ (b.port p).inHand = some { name := name, params := ps } := by
  simpa [Part.holds] using h

/-- The owner takes the request a port holds, and its answer is placed (R183, R185). -/
theorem Part.serve_holds {p : Port} {name : RequestName} {ps : List Byte} {b : Part} (h : b.holds p name ps = true)
    (f : List Byte → Part → Part × Reply) : b.serve name p f = (f ps b).1.place p (f ps b).2 := by
  obtain ⟨hs, hh⟩ := Part.holds_state h
  unfold Part.serve
  rw [hs, hh]
  simp

/-- Nothing is taken from a port that holds no request of the name. -/
theorem Part.serve_not {p : Port} {name : RequestName} {b : Part} (h : ∀ ps, b.holds p name ps = false)
    (f : List Byte → Part → Part × Reply) : b.serve name p f = b := by
  unfold Part.serve
  split
  · rename_i rq hs hh
    split
    · rename_i hn
      have := h rq.params
      subst hn
      simp [Part.holds, hs, hh] at this
    · rfl
  · rfl

/-- A request row on a state whose port holds the request. -/
theorem State.take_serve {s : State} {p : Port} {name : RequestName} {ps : List Byte}
    (h : s.fresh.holds p name ps = true) (f : List Byte → Part → Part × Reply) :
    s.take (Part.serve name p f) = .next { s with part := (f ps s.fresh).1.place p (f ps s.fresh).2 } := by
  show Host.Outcome.next { s with part := s.fresh.serve name p f } = _
  rw [Part.serve_holds h]

/-- Every command that takes a function of the part answers next, with the queue as it was. -/
theorem State.take_eq (s : State) (f : Part → Part) : s.take f = .next { s with part := f s.fresh } := rfl

/-! ### Records that agree with their check -/

/-- Reading a good record changes nothing (R26). -/
theorem Part.verify_good {b : Part} {n : Nat} (who : Reader) (h : (b.record n).checkGood = true) : b.verify who n = b := by
  unfold Part.verify
  dsimp only
  rw [if_pos h]

/-- Reading a table of good records changes nothing (R26). -/
theorem Part.verifyAll_good {b : Part} (who : Reader) (h : b.allGood = true) : b.verifyAll who = b := by
  have all : ∀ n ∈ recordNumbers, (b.record n).checkGood = true := by simpa [Part.allGood] using h
  unfold Part.verifyAll
  revert all
  generalize recordNumbers = ns
  intro all
  induction ns with
  | nil => rfl
  | cons n ns ih =>
    rw [List.foldl_cons, Part.verify_good who (all n (.head _))]
    exact ih fun m hm => all m (.tail _ hm)

/-- A handle that its record bears is honoured, and its reading changes nothing (R4). -/
theorem Part.onHandle_bears {b : Part} {ps : List Byte} (h : b.bears (handleOf ps) = true)
    (f : Nat → Part → Part × Reply) : b.onHandle ps f = f (handleOf ps % 64) b := by
  simp only [Part.bears, Bool.and_eq_true] at h
  have hr : b.readHandle (handleOf ps) = b := by
    unfold Part.readHandle
    split
    · exact Part.verify_good .request h.2
    · rfl
  unfold Part.onHandle
  dsimp only
  rw [hr, if_pos h.1]

/-- A handle that is not honoured is refused, where the record it would name is good (R4). -/
theorem Part.onHandle_not {b : Part} {ps : List Byte} (h : b.honours (handleOf ps) = false)
    (hg : handleOf ps < 16384 → (b.record (handleOf ps % 64)).checkGood = true) (f : Nat → Part → Part × Reply) :
    b.onHandle ps f = (b, Reply.bare .badHandle) := by
  have hr : b.readHandle (handleOf ps) = b := by
    unfold Part.readHandle
    split
    · rename_i hlt; exact Part.verify_good .request (hg hlt)
    · rfl
  unfold Part.onHandle
  dsimp only
  rw [hr, h]
  rfl

/-! ### The answer placed -/

/-- The port that answers: ANSWERED, with the answer held and the dropped mark gone into it (R185). -/
theorem Part.place_answered (p : Port) (r : Reply) :
    ((b.place p r).port p).state = .answered ∧ ((b.place p r).port p).inHand = none ∧
      ((b.place p r).port p).dropped = false ∧
      ((b.place p r).port p).held = some { status := r.status, dropped := (b.port p).dropped, payload := r.payload } := by
  simp [ClientPort.place]

end Sys2Proof.Machine
end

