-- ==== Sys2Proof/Laws/Replies.lean ====
section
/-! SUPPORT. Small facts the statements about transactions, requests and credits rest on: frames, handle lists, the
class of an amendment, the credit of one listed contract. -/

namespace Sys2Proof.Machine

/-! ### Frames (R195) -/

/-- The bytes of a frame sum to 0. -/
theorem byteSum_withCheck (bs : List Byte) : byteSum (withCheck bs) = 0 := by
  unfold withCheck byteSum
  rw [List.foldl_append]
  simp

/-- A frame that sums to 0 ends with the check byte of what stands before it. -/
theorem eq_withCheck {bs : List Byte} {k : Byte} (h : byteSum (bs ++ [k]) = 0) : bs ++ [k] = withCheck bs := by
  have : k = -byteSum bs := by
    have h' : byteSum bs + k = 0 := by rw [← h]; simp [byteSum, List.foldl_append]
    have := congrArg (fun x => -byteSum bs + x) h'
    simpa [← BitVec.add_assoc, BitVec.add_left_neg] using this
  rw [this]
  rfl

/-- The frames that pass the framing check are those a request code and at most 61 parameter bytes make (R183). -/
theorem wellFramed_iff (frame : List Byte) :
    wellFramed frame = true ↔ ∃ code ps, ps.length ≤ 61 ∧ frame = requestFrame code ps := by
  constructor
  · intro h
    match frame, h with
    | code :: len :: rest, h =>
      simp only [wellFramed, Bool.and_eq_true, decide_eq_true_eq, beq_iff_eq, List.length_cons] at h
      obtain ⟨⟨h₁, h₂⟩, h₃⟩ := h
      have hl : rest.length = len.toNat + 1 := by omega
      have hne : rest ≠ [] := by rintro rfl; simp at hl
      have hd : rest.dropLast ++ [rest.getLast hne] = rest := List.dropLast_append_getLast hne
      refine ⟨code, rest.dropLast, by simp; omega, ?_⟩
      have hlen : BitVec.ofNat 8 rest.dropLast.length = len := by simp [hl]
      unfold requestFrame
      rw [hlen]
      have hs : code :: len :: rest = ([code, len] ++ rest.dropLast) ++ [rest.getLast hne] := by
        rw [List.append_assoc, hd]
        rfl
      rw [hs] at h₃ ⊢
      exact eq_withCheck h₃
  · rintro ⟨code, ps, h, rfl⟩
    have hs := byteSum_withCheck ([code, BitVec.ofNat 8 ps.length] ++ ps)
    unfold requestFrame withCheck at *
    simp only [List.cons_append, List.nil_append, wellFramed, Bool.and_eq_true, decide_eq_true_eq, beq_iff_eq] at *
    exact ⟨⟨by simp; omega, by simp; omega⟩, hs⟩

theorem frameParams_requestFrame (code : Byte) (ps : List Byte) : frameParams (requestFrame code ps) = ps := by
  simp [frameParams, requestFrame, withCheck]

theorem firstByte_requestFrame (code : Byte) (ps : List Byte) : firstByte (requestFrame code ps) = code := rfl

/-! ### Handle lists (R24, R25) -/

theorem handlesWhere_eq {b : Part} (h : b.TableSized) (c : Record → Bool) :
    handlesWhere c b.table = ((List.range 64).filter fun n => c (b.record n)).map fun n => (b.record n).handle n := by
  have hz : numbered b.table = (List.range 64).map fun n => (n, b.record n) := by
    have h64 : b.table.length = 64 := h
    apply List.ext_getElem
    · simp [numbered, recordNumbers, h64]
    · intro i h₁ h₂
      simp only [List.length_map, List.length_range] at h₂
      simp [numbered, recordNumbers, Part.record, List.getD, h64, h₂]
  unfold handlesWhere
  rw [hz, List.filter_map, List.map_map]
  rfl

/-! ### The class of an amendment (R11) -/

theorem ContractClass.rank_ofNat? {n : Nat} {c : ContractClass} (h : ContractClass.ofNat? n = some c) : c.rank = n := by
  unfold ContractClass.ofNat? at h
  split at h <;> first | (cases h; rfl) | cases h

/-- The parameters of an OPEN or AMEND carry the class of its byte. -/
theorem paramsOf_cls {p : Panel} {f l cls per lat fl a b c d deb dv : Byte} {q : Params}
    (h : paramsOf p f l cls per lat fl a b c d deb dv = some q) : ContractClass.ofNat? cls.toNat = some q.cls := by
  unfold paramsOf at h
  cases hc : ContractClass.ofNat? cls.toNat with
  | none => rw [hc] at h; cases h
  | some x =>
    rw [hc] at h
    simp only [Option.ite_none_right_eq_some, Option.some.injEq] at h
    rw [← h.2]

theorem amendParams_cls {q : Panel} {ps : List Byte} {a : Params} (h : amendParams q ps = some a) :
    a.cls.rank = amendClassByte ps := by
  unfold amendParams at h
  split at h
  · exact ContractClass.rank_ofNat? (paramsOf_cls h)
  · cases h

/-! ### Credit (R110) -/

/-- A notice that no port is due. -/
theorem Part.raiseWhere_none (b : Part) (c : Port → Bool) (k : Notice) (h : ∀ p, c p = false) : b.raiseWhere c k = b := by
  unfold Part.raiseWhere PerPort.mapEach
  simp [h, ClientPort.raiseIf]

/-- The oldest completion of a panel leaves. -/
theorem Part.modCredit_pop (b : Part) (q : Panel) (c : Completion) (cs : List Completion)
    (h : (b.credit q).completions = c :: cs) :
    b.modCredit q CreditQueue.pop =
      b.modCredit q fun k => { completions := cs, keptPlaced := if cs = [] then none else k.keptPlaced } := by
  have h' : (b.credits.get q).completions = c :: cs := h
  have : (b.credits.get q).pop =
      { completions := cs, keptPlaced := if cs = [] then none else (b.credits.get q).keptPlaced } := by
    unfold CreditQueue.pop
    rw [h']
    cases cs <;> simp
  unfold Part.modCredit PerPanel.modify
  rw [this]

/-- A completion in the scope of one listed contract. -/
theorem Part.creditOldest_one (b : Part) (q : Panel) (c : Completion) (cs : List Completion) (x : Placed)
    (h : (b.credit q).completions = c :: cs)
    (hx : (b.creditList q).filter (fun y => y.band.has c.rowGroup) = [x]) :
    b.creditOldest q = (b.creditOne q c x).modCredit q CreditQueue.pop := by
  unfold Part.creditOldest scopeOf
  rw [h]
  dsimp only
  rw [hx]
  rfl

/-- The last write of a record stands. -/
theorem Part.setRecord_setRecord (b : Part) (n : Nat) (r r' : Record) :
    (b.setRecord n r).setRecord n r' = b.setRecord n r' := by
  unfold Part.setRecord
  simp [List.set_set]

/-- A record that is not FREE stands in the table. -/
theorem Part.record_in_table {b : Part} {n : Nat} (h : (b.record n).state ≠ .free) : n < b.table.length := by
  by_contra hn
  refine h ?_
  unfold Part.record
  rw [List.getD_eq_default _ _ (by omega)]
  rfl

end Sys2Proof.Machine
end

