-- ==== Sys2Proof/Laws/Requests.lean ====
section
/-! SUPPORT. What the work of a request keeps, before its answer is placed (Chapter 11): every law of the part. The
shared lemma of each request says so once. -/

namespace Sys2Proof.Machine

/-- What a command keeps of the part's laws: table size (R1), ports (R182), counts (R169), contacts (R151), timelines (R43,
R69, R91), the flag rule (R52), and the promises of admission (R33 to R38). -/
structure Part.Upholds (b b' : Part) : Prop where
  size : b.TableSized → b'.TableSized
  ports : b.PortsCoherent → b'.PortsCoherent
  counts : b.CountsBelow → b'.CountsBelow
  contacts : b.ContactsLawful → b'.ContactsLawful
  sound : b.TimelineSound → b'.TimelineSound
  flags : b.FlagsOnlyRunning → b'.FlagsOnlyRunning
  promised : b.ContractsRanged ∧ b.Admitted → b'.ContractsRanged ∧ b'.Admitted

namespace Part.Upholds

theorem refl (b : Part) : Upholds b b := ⟨id, id, id, id, id, id, id⟩

theorem trans {a b c : Part} (h : Upholds a b) (k : Upholds b c) : Upholds a c :=
  ⟨fun x => k.size (h.size x), fun x => k.ports (h.ports x), fun x => k.counts (h.counts x),
    fun x => k.contacts (h.contacts x), fun x => k.sound (h.sound x), fun x => k.flags (h.flags x),
    fun x => k.promised (h.promised x)⟩

theorem ite {c : Prop} {_ : Decidable c} {a b b' : Part} (h : Upholds a b) (h' : Upholds a b') :
    Upholds a (if c then b else b') := by split <;> assumption

/-- A calm update that keeps the timelines and asks for no more. -/
theorem of_parts {b b' : Part} (h : Calm b b') (k : Keeps b b') (l : Lessens b b') : Upholds b b' :=
  ⟨h.tableSized, h.portsCoherent, h.countsBelow, h.contacts, k.sound, k.flags, l.promised⟩

/-- A quiet update whose table keeps the promises. -/
theorem of_quiet {b b' : Part} (h : Quiet b b')
    (l : b.ContractsRanged ∧ b.Admitted → b'.ContractsRanged ∧ b'.Admitted) : Upholds b b' :=
  ⟨h.tableSized, h.portsCoherent, h.countsBelow, h.contactsLawful, h.still.timelineSound, h.still.flagsOnlyRunning, l⟩

/-- A quiet update whose records ask for no more. -/
theorem of_eases {b b' : Part} (h : Quiet b b') (k : b.Eases b') : Upholds b b' := of_quiet h (Lessens.of_quiet h k).promised

end Part.Upholds

variable (b : Part)

theorem Part.verifyAll_upholds (who : Reader) : Upholds b (b.verifyAll who) :=
  .of_eases (b.verifyAll_quiet who) (b.verifyAll_eases who)

theorem Part.readHandle_upholds (h : Nat) : Upholds b (b.readHandle h) :=
  .ite (.of_eases (b.verify_quiet _ _) (b.verify_eases _ _)) (.refl b)

/-- Reading one record leaves every other (R26). -/
theorem Part.verify_record_ne (who : Reader) {n m : Nat} (h : m ≠ n) : (b.verify who n).record m = b.record m := by
  unfold Part.verify
  dsimp only
  split
  · rfl
  · exact Part.setRecord_record_ne b n m _ h

/-- A record that has been read agrees with its check code (R26). -/
theorem Part.verify_record_good (who : Reader) (n : Nat) : ((b.verify who n).record n).checkGood = true := by
  unfold Part.verify
  dsimp only
  split
  · assumption
  · rename_i hg
    show ((b.setRecord n (b.record n).freed).record n).checkGood = true
    by_cases hn : n < b.table.length
    · rw [Part.setRecord_record b n n _ hn, if_pos rfl]
    · have : b.record n = Record.freeWith 0 := List.getD_eq_default _ _ (Nat.le_of_not_lt hn)
      rw [this] at hg
      exact absurd rfl hg

/-- Reading the whole table leaves a record that agrees with its check code (R26). -/
theorem Part.verifyAll_record (who : Reader) {n : Nat} (h : (b.record n).checkGood = true) :
    (b.verifyAll who).record n = b.record n := by
  unfold Part.verifyAll
  generalize recordNumbers = ns
  induction ns generalizing b with
  | nil => rfl
  | cons m ns ih =>
    have hm : (b.verify who m).record n = b.record n := by
      by_cases hmn : n = m
      · subst hmn; rw [Part.verify_good who h]
      · exact b.verify_record_ne who hmn
    rw [List.foldl_cons, ih _ (by rw [hm]; exact h), hm]

/-- A request that reads a handle keeps what its own steps keep. -/
theorem Part.onHandle_upholds (ps : List Byte) (f : Nat → Part → Part × Reply)
    (h : ∀ n b, (b.record n).state ≠ .free → (b.record n).checkGood = true → Upholds b (f n b).1) :
    Upholds b (b.onHandle ps f).1 := by
  refine (b.readHandle_upholds (handleOf ps)).trans ?_
  unfold Part.onHandle
  dsimp only
  split
  · rename_i hh
    simp only [Part.honours, Bool.and_eq_true, decide_eq_true_eq, bne_iff_ne] at hh
    refine h _ _ hh.1.2 ?_
    unfold Part.readHandle
    rw [if_pos hh.1.1]
    exact b.verify_record_good _ _
  · exact .refl _

/-! ### Records written (R10 to R16, R105) -/

/-- A record written that asks for no more. -/
theorem Part.setRecord_upholds (n : Nat) (r : Record) (h : (b.record n).Eases r) : Upholds b (b.setRecord n r) :=
  .of_eases (b.setRecord_quiet n r) (.setRecord b n r h)

theorem Part.suspendAt_upholds (p : Port) (n : Nat) : Upholds b (b.suspendAt p n).1 := by
  dsimp only [Part.suspendAt]
  split
  · exact .refl b
  · split
    · exact b.setRecord_upholds n _ (.of_same rfl rfl rfl rfl)
    · split
      · exact b.setRecord_upholds n _ (.of_same rfl rfl rfl rfl)
      · exact .refl b

theorem Part.resumeAt_upholds (p : Port) (n : Nat) : Upholds b (b.resumeAt p n).1 := by
  dsimp only [Part.resumeAt]
  split
  · exact .refl b
  · split
    · exact b.setRecord_upholds n _ (.of_same rfl rfl rfl rfl)
    · split
      · exact b.setRecord_upholds n _ (.of_same rfl rfl rfl rfl)
      · exact .refl b

theorem Part.retireAt_upholds (p : Port) (n : Nat) (h : (b.record n).state ≠ .free) : Upholds b (b.retireAt p n).1 := by
  dsimp only [Part.retireAt]
  split
  · exact .refl b
  · split
    · exact .refl b
    · split
      · exact .of_eases ((b.setRecord_quiet n _).trans (Part.contractNotice_quiet _ _ _ _))
          ((Part.Eases.setRecord b n _ (Record.retired_eases _ h)).trans (.of_table rfl))
      · exact .of_eases (b.freeContract_quiet _ _) (b.freeContract_eases _ _)

theorem Part.updateAt_upholds (p : Port) (ps : List Byte) (n : Nat) : Upholds b (b.updateAt p ps n).1 := by
  dsimp only [Part.updateAt]
  split
  · exact .refl b
  · split
    · exact .refl b
    · split
      · exact .refl b
      · split
        · exact .refl b
        · exact b.setRecord_upholds n _ (.of_same rfl rfl rfl rfl)

/-! ### Admission (R33 to R38) -/

/-- There is no objection exactly where every choice keeps exclusivity, fit and budget (R36 to R38). -/
theorem admissionObjection_eq_none {p : Panel} {slots subject : Nat} {table : List Record} :
    admissionObjection p slots subject table = none ↔ admitted p slots table := by
  unfold admissionObjection admitted
  rw [List.findSome?_eq_none_iff]
  refine forall₂_congr fun v _ => ?_
  unfold View.objection View.budgetObjection
  cases v.exclusive <;> cases v.fits p slots <;> cases v.withinBudget p slots <;> simp

/-- Where a choice fails, the request is answered CONFLICT or NO_BUDGET (R36, R39). -/
theorem admissionObjection_reply {p : Panel} {slots subject : Nat} {table : List Record} (h : ¬admitted p slots table) :
    ∃ o, admissionObjection p slots subject table = some o ∧
      ((o.reply table).status = .conflict ∨ (o.reply table).status = .noBudget) := by
  cases ho : admissionObjection p slots subject table with
  | none => exact absurd (admissionObjection_eq_none.1 ho) h
  | some o => exact ⟨o, rfl, by cases o <;> simp [Objection.reply]⟩

/-- A place of a list that meets no condition, before or after it is written, leaves the selection alone. -/
theorem filter_zip_set {α β : Type} (c : α × β → Bool) (ks : List α) (l : List β) (n : Nat) (r : β)
    (hr : ∀ k, c (k, r) = false) (hl : ∀ k x, l[n]? = some x → c (k, x) = false) :
    (ks.zip (l.set n r)).filter c = (ks.zip l).filter c := by
  induction l generalizing ks n with
  | nil => rfl
  | cons y l ih =>
    cases ks with
    | nil => rfl
    | cons k ks =>
      cases n with
      | zero => simp [hr k, hl k y rfl]
      | succ n =>
        rw [List.set_cons_succ, List.zip_cons_cons, List.zip_cons_cons, List.filter_cons, List.filter_cons,
          ih ks n fun k x h => hl k x (by simpa using h)]

/-- A record of one panel written over one of that panel, or over a FREE one, leaves the other panel's view (R29). -/
theorem viewRecords_set {q : Panel} {table : List Record} {n : Nat} {r : Record} (hr : r.panel ≠ q)
    (hold : ∀ x, table[n]? = some x → x.panel ≠ q ∨ x.state = .free) :
    viewRecords q (table.set n r) = viewRecords q table := by
  refine filter_zip_set _ _ _ _ _ (fun k => by simp [hr]) fun k x hx => ?_
  rcases hold x hx with h | h <;> simp [h, Record.inView]

/-- The record of a number in the table is the record of that number. -/
theorem Part.record_of_getElem? {b : Part} {n : Nat} {x : Record} (h : b.table[n]? = some x) : b.record n = x := by
  simp [Part.record, List.getD, h]

/-- A record admitted on its panel, in range, keeps the promises of both panels (R33 to R38). -/
theorem Part.admit_promised {n : Nat} {r : Record} (hr : r.ranged)
    (hold : (b.record n).panel = r.panel ∨ (b.record n).state = .free)
    (ha : admitted r.panel (b.engine r.panel).cfg.slots (b.table.set n r)) (hb : b.ContractsRanged ∧ b.Admitted) :
    (b.setRecord n r).ContractsRanged ∧ (b.setRecord n r).Admitted := by
  obtain ⟨b₁, h₁⟩ : ∃ b₁ : Part, b₁ = { b with table := b.table.set n r } := ⟨_, rfl⟩
  have ranged₁ : b₁.ContractsRanged := by
    intro m
    by_cases hl : n < b.table.length
    · by_cases hm : m = n
      · subst hm
        have : b₁.record m = r := by simp [h₁, Part.record, List.getD, hl]
        rw [this]; exact hr
      · have : b₁.record m = b.record m := by simp [h₁, Part.record, List.getD, Ne.symm hm]
        rw [this]; exact hb.1 m
    · have : b₁.record m = b.record m := by
        simp [h₁, Part.record, List.set_eq_of_length_le (Nat.le_of_not_lt hl)]
      rw [this]; exact hb.1 m
  have admitted₁ : b₁.Admitted := by
    intro q
    by_cases hq : q = r.panel
    · subst hq; rw [h₁]; exact ha
    · have hv : viewRecords q (b.table.set n r) = viewRecords q b.table := viewRecords_set (Ne.symm hq) fun x hx => by
        have := Part.record_of_getElem? hx
        rw [this] at hold
        rcases hold with h | h
        · exact .inl (by rw [h]; exact Ne.symm hq)
        · exact .inr h
      have := hb.2 q
      rw [h₁]
      unfold admitted at this ⊢
      dsimp only
      rw [hv]
      exact this
  have l : Lessens b₁ (b.setRecord n r) := by
    refine ⟨⟨by simp [h₁], fun m => ?_⟩, fun _ => by rw [h₁]; rfl⟩
    by_cases hl : n < b.table.length
    · rw [Part.setRecord_record b n m r hl]
      by_cases hm : m = n
      · subst hm
        have : b₁.record m = r := by simp [h₁, Part.record, List.getD, hl]
        rw [if_pos rfl, this]; exact (Record.Eases.refl r).good
      · have : b₁.record m = b.record m := by simp [h₁, Part.record, List.getD, Ne.symm hm]
        rw [if_neg hm, this]; exact .refl _
    · have : (b.setRecord n r).record m = b₁.record m := by
        simp [h₁, Part.record, List.set_eq_of_length_le (Nat.le_of_not_lt hl)]
      rw [this]; exact .refl _
  exact l.promised ⟨ranged₁, admitted₁⟩

/-- Parameters that pass the checks of R9 are in range. -/
theorem paramsOf_inRange {p : Panel} {first last cls per lat flags z1h z1l z2h z2l deb dv : Byte} {q : Params}
    (h : paramsOf p first last cls per lat flags z1h z1l z2h z2l deb dv = some q) : q.inRange p = true := by
  have pick : ∀ (c : Bool) (q' : Params), (if c && q'.inRange p then some q' else none) = some q → q.inRange p = true := by
    intro c q' h
    split at h
    · rename_i hq
      rw [← Option.some.inj h]
      exact (Bool.and_eq_true_iff.1 hq).2
    · exact absurd h (by simp)
  unfold paramsOf at h
  split at h
  · exact absurd h (by simp)
  · exact pick _ _ h

theorem openArgs_inRange {ps : List Byte} {a : OpenArgs} (h : openArgs ps = some a) : a.params.inRange a.panel = true := by
  unfold openArgs at h
  split at h
  · split at h
    · split at h
      · rename_i hq
        rw [← Option.some.inj h]
        exact paramsOf_inRange hq
      · exact absurd h (by simp)
    · exact absurd h (by simp)
  · exact absurd h (by simp)

theorem amendParams_inRange {p : Panel} {ps : List Byte} {q : Params} (h : amendParams p ps = some q) :
    q.inRange p = true := by
  unfold amendParams at h
  split at h
  · exact paramsOf_inRange h
  · exact absurd h (by simp)

theorem Part.emptyCandidateIf_engine (c : Bool) (n : Nat) (q : Panel) :
    (b.emptyCandidateIf c n).engine q = b.engine q := by cases c <;> rfl

/-- The record that `freeRecord` finds is FREE (R9). -/
theorem freeRecord_free {b : Part} {n : Nat} (h : freeRecord b.table = some n) : (b.record n).state = .free := by
  unfold freeRecord at h
  rw [List.findIdx?_eq_some_iff_getElem] at h
  obtain ⟨hl, hs, -⟩ := h
  have : b.record n = b.table[n] := by simp [Part.record, List.getD, List.getElem?_eq_getElem hl]
  rw [this]
  simpa using hs

/-- The lowest-numbered FREE record is the one that `freeRecord` finds (R9). -/
theorem freeRecord_of_firstFree {b : Part} {n : Nat} (hs : b.TableSized) (h : b.firstFree n) :
    freeRecord b.table = some n := by
  obtain ⟨hn, hfree, hlow⟩ := h
  have hs : b.table.length = 64 := hs
  have hget : ∀ j, j < 64 → ∃ hj : j < b.table.length, b.record j = b.table[j] := fun j hj =>
    ⟨by omega, by simp [Part.record, List.getD, List.getElem?_eq_getElem (show j < b.table.length by omega)]⟩
  unfold freeRecord
  rw [List.findIdx?_eq_some_iff_getElem]
  obtain ⟨hl, he⟩ := hget n hn
  refine ⟨hl, by rw [← he, hfree]; rfl, fun j hj => ?_⟩
  obtain ⟨hl', he'⟩ := hget j (by omega)
  have := hlow j hj
  rw [he'] at this
  simpa using this

theorem Part.admitOpen_upholds (p : Port) (n : Nat) (a : OpenArgs) (ha : a.params.inRange a.panel = true)
    (hf : (b.record n).state = .free) : Upholds b (b.admitOpen p n a).1 := by
  unfold Part.admitOpen
  dsimp only
  split
  · exact .refl b
  · rename_i ho
    refine .of_quiet ((b.setRecord_quiet n _).trans ((Part.emptyCandidateIf_quiet _ _ _).trans
      (Part.contractNotice_quiet _ _ _ _))) fun hb => ?_
    have k := b.admit_promised (r := (b.record n).opened p a) (n := n) (fun _ => ⟨ha, by simp [Record.opened, Record.freeWith]⟩)
      (.inr hf) (admissionObjection_eq_none.1 ho) hb
    exact (Part.Lessens.of_eq ((Part.contractNoticeIf_table _ true _ _ _).trans (Part.emptyCandidateIf_table _ _ _)) fun q =>
      congrArg Engine.cfg (Part.emptyCandidateIf_engine _ _ _ q)).promised k

theorem Part.open_upholds (p : Port) (ps : List Byte) : Upholds b (b.open p ps).1 := by
  unfold Part.open
  split
  · exact .refl b
  · rename_i a ha
    split
    · exact .refl b
    · dsimp only
      refine (b.verifyAll_upholds .request).trans ?_
      split
      · dsimp only; exact .refl _
      · rename_i n hn
        exact Part.admitOpen_upholds _ p n a (openArgs_inRange ha) (freeRecord_free hn)

/-- The record of an admitted AMEND is in range (R11). -/
theorem Record.amended_ranged {r : Record} {a : Params} (hr : r.ranged) (ha : a.inRange r.panel = true) :
    (r.amended a).ranged := by
  unfold Record.amended
  split
  · rename_i hs
    intro _
    exact ⟨ha, (hr (by simp [hs])).2⟩
  · intro hf
    exact ⟨(hr hf).1, by simpa using ha⟩

theorem Part.admitAmend_upholds (n : Nat) (a : Params) (ha : a.inRange (b.record n).panel = true) :
    Upholds b (b.admitAmend n a).1 := by
  unfold Part.admitAmend
  dsimp only
  split
  · exact .refl b
  · rename_i ho
    have hp : ((b.record n).amended a).panel = (b.record n).panel := by unfold Record.amended; split <;> rfl
    refine .of_quiet ((b.setRecord_quiet n _).trans (Part.emptyCandidateIf_quiet _ _ _)) fun hb => ?_
    have k := b.admit_promised (r := (b.record n).amended a) (n := n) (Record.amended_ranged (hb.1 n) ha) (.inl hp.symm)
      (by rw [hp]; exact admissionObjection_eq_none.1 ho) hb
    exact (Part.Lessens.of_eq (Part.emptyCandidateIf_table _ _ _) fun q =>
      congrArg Engine.cfg (Part.emptyCandidateIf_engine _ _ _ q)).promised k

theorem Part.amendAt_upholds (p : Port) (ps : List Byte) (n : Nat) (hg : (b.record n).checkGood = true) :
    Upholds b (b.amendAt p ps n).1 := by
  unfold Part.amendAt
  dsimp only
  split
  · exact .refl b
  · split
    · exact .refl b
    · split
      · exact .refl b
      · rename_i a ha
        split
        · exact .refl b
        · refine (b.verifyAll_upholds .request).trans (Part.admitAmend_upholds _ n a ?_)
          rw [b.verifyAll_record .request hg]
          exact amendParams_inRange ha

/-! ### Panel requests (R44, R47, R50, R62, R64) -/

/-- No objection to a slot count means that every choice fits it and keeps its budget (R38, R41). -/
theorem configObjection_eq_none {p : Panel} {slots : Nat} {table : List Record} :
    configObjection p slots table = none ↔
      ∀ v ∈ choicesOf (viewRecords p table), v.fits p slots = true ∧ v.withinBudget p slots = true := by
  unfold configObjection
  rw [List.findSome?_eq_none_iff]
  refine forall₂_congr fun v _ => ?_
  unfold View.budgetObjection
  cases v.fits p slots <;> cases v.withinBudget p slots <;> simp

theorem panelConfigArgs_inRange {ps : List Byte} {p : Panel} {c : PanelConfig} (h : panelConfigArgs ps = some (p, c)) :
    c.inRange = true := by
  unfold panelConfigArgs at h
  split at h
  · split at h
    · dsimp only at h
      split at h
      · rename_i hc
        rw [← (Prod.mk.inj (Option.some.inj h)).2]
        exact hc
      · exact absurd h (by simp)
    · exact absurd h (by simp)
  · exact absurd h (by simp)

theorem Part.panelUp_upholds (ps : List Byte) : Upholds b (b.panelUp ps).1 := by
  unfold Part.panelUp
  split
  · exact .refl b
  · rename_i p _
    split
    · exact .refl b
    · rename_i h
      exact .of_parts (b.bringUp_calm p) (b.bringUp_keeps p (by simpa using h)) (b.bringUp_lessens p)

theorem Part.panelDown_upholds (ps : List Byte) : Upholds b (b.panelDown ps).1 := by
  unfold Part.panelDown
  split
  · exact .refl b
  · exact .of_parts (b.takeDown_calm _) (b.takeDown_keeps _) (b.takeDown_lessens _)

/-- An accepted slot count keeps the promises (R41). -/
theorem Part.configure_promised (p : Panel) (c : PanelConfig) (h : configObjection p c.slots b.table = none)
    (hb : b.ContractsRanged ∧ b.Admitted) :
    (b.modEngine p (Engine.configure c)).ContractsRanged ∧ (b.modEngine p (Engine.configure c)).Admitted := by
  refine ⟨hb.1, fun q => ?_⟩
  show admitted q ((b.modEngine p (Engine.configure c)).engine q).cfg.slots b.table
  rw [Part.modEngine_engine]
  split
  · rename_i hq
    subst hq
    exact fun v hv => ⟨(hb.2 q v hv).1, configObjection_eq_none.1 h v hv⟩
  · exact hb.2 q

theorem Part.panelConfig_upholds (ps : List Byte) : Upholds b (b.panelConfig ps).1 := by
  unfold Part.panelConfig
  split
  · exact .refl b
  · rename_i p c hc
    split
    · exact .refl b
    · rename_i hs
      have hs : (b.engine p).state = .down := by simpa using hs
      refine (b.verifyAll_upholds .request).trans ?_
      dsimp only
      split
      · dsimp only; exact .refl _
      · rename_i ho
        have hd : ((b.verifyAll .request).engine p).state = .down := by
          rw [((b.verifyAll_quiet .request).still.engines p).state]; exact hs
        have k := Part.configure_keeps (b.verifyAll .request) p c hd (panelConfigArgs_inRange hc)
        have m := Part.modEngine_calm (b.verifyAll .request) p (Engine.configure c)
        exact ⟨m.tableSized, m.portsCoherent, m.countsBelow, m.contacts, k.sound, k.flags,
          Part.configure_promised _ p c ho⟩

theorem Part.backlight_upholds (ps : List Byte) : Upholds b (b.backlight ps).1 := by
  unfold Part.backlight
  split
  · exact .refl b
  · rename_i p d _
    split
    · exact .refl b
    · rename_i h
      exact .of_parts (b.modEngine_calm p _) (b.takeDuty_keeps p d (Nat.le_of_not_lt h))
        (.modEngine b p _ fun e => by unfold Engine.takeDuty; split <;> rfl)

/-! ### Touch requests (R141, R142) -/

/-- An update of touch that leaves a lawful contact table. -/
theorem Part.modTouch_upholds (f : Touch → Touch) (h : ∀ t, contactsLawful t.contacts → contactsLawful (f t).contacts) :
    Upholds b (b.modTouch f) :=
  .of_parts (.modTouch b f h) (.of_still (b.modTouch_still f)) (b.modTouch_lessens f)

theorem Part.touchConfig_upholds (ps : List Byte) : Upholds b (b.touchConfig ps).1 := by
  unfold Part.touchConfig
  split
  · exact .refl b
  · rename_i c _
    exact b.modTouch_upholds (fun t => { t with cfg := c }) fun _ h => h

theorem Part.recalibrate_upholds (p : Port) : Upholds b (b.recalibrate p).1 := by
  refine Upholds.trans (b := b.readZones p) (.ite (.refl b) (b.verifyAll_upholds .request)) ?_
  unfold Part.recalibrate
  dsimp only
  split
  · exact Part.modTouch_upholds _ _ fun t h => by rw [Touch.recalibrate_contacts]; exact h
  · exact .refl _

/-! ### Fault requests (R176 to R180) -/

/-- An update of the fault monitor that keeps every count below its threshold. -/
theorem Part.modFaults_upholds (m : FaultMonitor)
    (h : ∀ k, (b.bank k).count < (b.bank k).threshold → (m.banks.get k).count < (m.banks.get k).threshold) :
    Upholds b { b with faults := m } :=
  ⟨id, id, fun hb k => h k (hb k), id, id, id, id⟩

theorem Part.faultClear_upholds (ps : List Byte) : Upholds b (b.faultClear ps).1 := by
  unfold Part.faultClear
  split
  · exact .refl b
  · rename_i k _
    refine b.modFaults_upholds _ fun j hj => ?_
    rw [FaultMonitor.setBank_get]
    split
    · rename_i h; subst h; exact hj
    · exact hj

theorem faultControlArgs_threshold {ps : List Byte} {a : FaultControlArgs} (h : faultControlArgs ps = some a) :
    1 ≤ a.threshold := by
  unfold faultControlArgs at h
  split at h
  · split at h
    · split at h
      · rename_i hq
        rw [← Option.some.inj h]
        exact hq.2
      · exact absurd h (by simp)
    · exact absurd h (by simp)
  · exact absurd h (by simp)

theorem Part.faultControl_upholds (ps : List Byte) : Upholds b (b.faultControl ps).1 := by
  unfold Part.faultControl
  split
  · exact .refl b
  · rename_i a ha
    refine b.modFaults_upholds _ fun j hj => ?_
    dsimp only
    rw [PerBank.get_set]
    split
    · have := faultControlArgs_threshold ha
      unfold FaultBank.controlled
      dsimp only
      split <;> omega
    · exact hj

theorem Part.ackCritical_upholds (ps : List Byte) : Upholds b (b.ackCritical ps).1 := by
  unfold Part.ackCritical
  split
  · exact .refl b
  · rename_i p _
    exact Part.Upholds.trans (b := (if (b.engine p).critical then b.modEngine p fun e => { e with critical := false } else b))
      (.ite (.of_parts (b.modEngine_calm p _) (b.clearFlag_keeps p) (.modEngine b p _ fun _ => rfl)) (.refl b))
      (by split <;> exact .refl _)

theorem Part.inject_upholds (ps : List Byte) : Upholds b (b.inject ps).1 := by
  unfold Part.inject
  split
  · exact .refl b
  · split
    · exact .of_eases (b.claimAs_quiet true _ _) (.of_table rfl)
    · exact .refl b

/-! ### Requests of the port and of the part (R190, R191, R193) -/

/-- A change of notices and mask alone. -/
theorem Part.modPort_upholds (p : Port) (f : ClientPort → ClientPort) (h : ∀ q, q.coherent → (f q).coherent) :
    Upholds b (b.modPort p f) := by
  refine ⟨id, fun hb q => ?_, id, id, id, id, id⟩
  rw [Part.modPort_port]
  split
  · exact h _ (hb p)
  · exact hb q

theorem Part.notices_upholds (p : Port) : Upholds b (b.notices p).1 := b.modPort_upholds p _ fun _ h => h

theorem Part.setAttention_upholds (p : Port) (ps : List Byte) : Upholds b (b.setAttention p ps).1 := by
  unfold Part.setAttention
  split
  · exact .refl b
  · exact b.modPort_upholds p _ fun _ h => h

theorem Part.warmReset_upholds : Upholds b b.warmReset :=
  .of_parts b.warmReset_calm b.warmReset_keeps b.warmReset_lessens

/-! ### The answer placed (R185) -/

theorem Part.place_upholds (p : Port) (r : Reply) : Upholds b (b.place p r) :=
  b.modPort_upholds p _ fun _ _ => ⟨rfl, rfl, rfl⟩

/-- A request row keeps what the work of its request keeps. -/
theorem Part.serve_upholds (name : RequestName) (p : Port) (f : List Byte → Part → Part × Reply)
    (h : ∀ ps, Upholds b (f ps b).1) : Upholds b (b.serve name p f) := by
  unfold Part.serve
  split
  · split
    · exact (h _).trans (Part.place_upholds _ _ _)
    · exact .refl b
  · exact .refl b

end Sys2Proof.Machine
end

