-- ==== Sys2Proof/Laws/TornDown.lean ====
section
/-! SUPPORT. A panel teardown, field by field (R22, R46, R58, R101, R110, R143, R162). -/

namespace Sys2Proof.Machine

/-- A number beyond the table reads as a FREE record. -/
theorem Part.record_of_length_le {b : Part} {n : Nat} (h : b.table.length ≤ n) : b.record n = Record.freeWith 0 := by
  unfold Part.record; rw [List.getD_eq_default _ _ h]

/-- What freeing the RETIRING contracts of a panel among some record numbers does (R22). -/
structure Part.FreedRetiring (q : Panel) (b b' : Part) (ns : List Nat) : Prop where
  len : b'.table.length = b.table.length
  recs : ∀ m, b'.record m =
    if m ∈ ns ∧ (b.record m).panel = q ∧ (b.record m).state = .retiring then (b.record m).freed else b.record m
  same : b' = { b with table := b'.table, ports := b'.ports }
  ports : ∀ p, b'.port p =
    { b.port p with noticeSet := { (b.port p).noticeSet with contract := (b'.port p).noticeSet.contract } }
  notice : ∀ p m, m < 64 → (b'.port p).noticeSet.contract.getLsbD m = ((b.port p).noticeSet.contract.getLsbD m ||
      decide (m ∈ ns ∧ (b.record m).panel = q ∧ (b.record m).state = .retiring ∧
        ((b.record m).owner = p.bits ∨ (b.record m).feeder = p.bits)))

/-- Adding one member to a notice set (R189). -/
theorem getLsbD_or_bitOf (v : BitVec 64) (n m : Nat) (hm : m < 64) :
    (v ||| bitOf 64 n).getLsbD m = (v.getLsbD m || decide (m = n)) := by
  unfold bitOf
  rw [BitVec.getLsbD_or, BitVec.getLsbD_shiftLeft]
  congr 1
  by_cases h : m = n
  · subst h; simp [hm]
  · by_cases h2 : m < n
    · simp [hm, h2, h]
    · have : m - n ≠ 0 := by omega
      simp [hm, h2, h, this]

/-- The RETIRING contracts of a panel freed, with their notices (R7, R22). -/
theorem Part.freeRetiring_freed (q : Panel) (b : Part) (ns : List Nat) (hnd : ns.Nodup) :
    Part.FreedRetiring q b (ns.foldl (fun b n =>
      if (b.record n).panel = q ∧ (b.record n).state = .retiring then b.freeContract n none else b) b) ns := by
  induction ns generalizing b with
  | nil => exact ⟨rfl, by simp, rfl, fun _ => rfl, by simp⟩
  | cons n ns ih =>
    rw [List.foldl_cons]
    rw [List.nodup_cons] at hnd
    by_cases hc : (b.record n).panel = q ∧ (b.record n).state = .retiring
    · rw [if_pos hc]
      have hl : n < b.table.length := by
        by_contra h
        rw [Part.record_of_length_le (by omega)] at hc; cases hc.2
      have hrec : ∀ m, (b.freeContract n none).record m = if m = n then (b.record n).freed else b.record m := by
        intro m
        show (Part.raiseWhere _ _ _).record m = _
        show (b.setRecord n (b.record n).freed).record m = _
        rw [Part.setRecord_record _ _ _ _ hl]
        rfl
      have hp : ∀ p, (b.freeContract n none).port p =
          (b.port p).raiseIf (p.bits == (b.record n).owner || p.bits == (b.record n).feeder) (.contract n) := by
        intro p
        unfold Part.freeContract Part.contractNotice
        rw [Part.raiseWhere_port]
        have : (some p != none) = true := rfl
        rw [this, Bool.and_true]; rfl
      obtain ⟨h1, h2, h3, h4, h5⟩ := ih (b.freeContract n none) hnd.2
      refine ⟨?_, ?_, ?_, ?_, ?_⟩
      · rw [h1]; simp [Part.freeContract, Part.contractNotice, Part.raiseWhere, Part.setRecord]
      · intro m
        rw [h2 m, hrec m]
        by_cases hm : m = n
        · subst hm
          simp [hnd.1, hc]
        · simp [hm]
      · rw [h3]; rfl
      · intro p
        rw [h4 p, hp p]
        unfold ClientPort.raiseIf ClientPort.raise
        split <;> rfl
      · intro p m hm
        rw [h5 p m hm, hrec m, hp p]
        unfold ClientPort.raiseIf ClientPort.raise
        by_cases hmn : m = n
        · subst hmn
          simp only [hnd.1, false_and, decide_false, Bool.or_false, List.mem_cons, true_or, true_and, hc]
          split
          · rename_i ho
            show (_ ||| bitOf 64 m).getLsbD m = _
            rw [getLsbD_or_bitOf _ _ _ hm]
            simp only [Bool.or_eq_true, beq_iff_eq] at ho
            have : (b.record m).owner = p.bits ∨ (b.record m).feeder = p.bits := by rcases ho with h | h <;> simp [h]
            simp [this]
          · rename_i ho
            simp only [Bool.or_eq_true, beq_iff_eq] at ho
            have : ¬ ((b.record m).owner = p.bits ∨ (b.record m).feeder = p.bits) := by
              rintro (h | h) <;> simp [h] at ho
            simp [this]
        · simp only [List.mem_cons, hmn, false_or]
          congr 1
          split
          · show (_ ||| bitOf 64 n).getLsbD m = _
            rw [getLsbD_or_bitOf _ _ _ hm]; simp [hmn]
          · rfl
    · rw [if_neg hc]
      obtain ⟨h1, h2, h3, h4, h5⟩ := ih b hnd.2
      refine ⟨h1, ?_, h3, h4, ?_⟩
      · intro m
        rw [h2 m]
        by_cases hm : m = n
        · subst hm; simp [hc]
        · simp [hm]
      · intro p m hm
        rw [h5 p m hm]
        by_cases hmn : m = n
        · subst hmn
          congr 1
          have : ¬((b.record m).panel = q ∧ (b.record m).state = .retiring ∧
              ((b.record m).owner = p.bits ∨ (b.record m).feeder = p.bits)) := fun h => hc ⟨h.1, h.2.1⟩
          simp [this]
        · simp [hmn]

/-- The PRESSED zones set to IDLE (R162). -/
theorem Part.releaseZones_spec (b : Part) (ns : List Nat) (hnd : ns.Nodup) (b' : Part)
    (h : b' = ns.foldl (fun b n =>
      if (b.record n).isZoneContract ∧ ZoneState.isPressed (b.record n).zoneState then
        b.setRecord n (b.record n).releaseQuietly
      else b) b) : b' = { b with table := b'.table } ∧ ∀ m, b'.record m =
        if m ∈ ns ∧ (b.record m).isZoneContract = true ∧ ZoneState.isPressed (b.record m).zoneState = true then
          { b.record m with zoneState := some .idle, checkGood := true }
        else b.record m := by
  induction ns generalizing b with
  | nil => subst h; exact ⟨rfl, by simp⟩
  | cons n ns ih =>
    rw [List.foldl_cons] at h
    rw [List.nodup_cons] at hnd
    by_cases hc : (b.record n).isZoneContract = true ∧ ZoneState.isPressed (b.record n).zoneState = true
    · rw [if_pos hc] at h
      obtain ⟨h1, h2⟩ := ih _ hnd.2 h
      have hl : n < b.table.length := by
        by_contra h
        rw [Part.record_of_length_le (by omega)] at hc; cases hc.2
      refine ⟨by rw [h1]; rfl, fun m => ?_⟩
      rw [h2 m, Part.setRecord_record _ _ _ _ hl]
      by_cases hm : m = n
      · subst hm; simp [hnd.1, hc]; unfold Record.releaseQuietly; simp [hc.2]
      · simp [hm]
    · rw [if_neg hc] at h
      obtain ⟨h1, h2⟩ := ih _ hnd.2 h
      refine ⟨h1, fun m => ?_⟩
      rw [h2 m]
      by_cases hm : m = n
      · subst hm; simp [hnd.1]; intro a b; exact absurd ⟨a, b⟩ hc
      · simp [hm]

/-- A teardown of a part whose records agree with their check codes (R46). -/
theorem Part.teardown_tornDown (b : Part) (q : Panel) (st : PanelState) (hg : b.allGood = true) :
    TornDown q st b (b.teardown q st) := by
  have good : ∀ n, n < 64 → (b.record n).checkGood = true := by
    intro n hn
    have := List.all_eq_true.1 hg n (by simp [recordNumbers, hn])
    exact this
  unfold Part.teardown
  rw [Part.verifyAll_good _ hg]
  have hF := Part.freeRetiring_freed q (b.stopPanel q st) recordNumbers (List.nodup_range)
  have e0 : (b.stopPanel q st).freeRetiring q = recordNumbers.foldl (fun b n =>
      if (b.record n).panel = q ∧ (b.record n).state = .retiring then b.freeContract n none else b)
        (b.stopPanel q st) := rfl
  rw [← e0] at hF
  generalize hb1 : (b.stopPanel q st).freeRetiring q = b1 at *
  obtain ⟨h1, h2, h3, h4, h5⟩ := hF
  have sp : ∀ p, (b.stopPanel q st).port p = (b.port p).raise (.panel q) := by
    intro p
    unfold Part.stopPanel Part.enterState
    dsimp only
    rw [Part.raiseAll_port]; rfl
  have srec : ∀ n, (b.stopPanel q st).record n = b.record n := fun _ => rfl
  have rtd : ∀ n, n < 64 →
      (if q = .centre ∧ (b1.record n).isZoneContract = true ∧ ZoneState.isPressed (b1.record n).zoneState = true then
        ({ b1.record n with zoneState := some .idle, checkGood := true } : Record)
      else b1.record n) = (b.record n).tornDown q := by
    intro n hn
    rw [h2 n, srec]
    have hm : n ∈ recordNumbers := by simp [recordNumbers, hn]
    unfold Record.tornDown
    have g := good n hn
    simp only [hm, true_and]
    cases q
    · simp
    · by_cases hc : (b.record n).panel = .centre ∧ (b.record n).state = .retiring
      · rw [if_pos hc, if_pos hc, if_neg]
        rintro ⟨_, hz, _⟩; cases hz
      · rw [if_neg hc, if_neg hc]
        simp only [true_and]
        by_cases hz : (b.record n).isZoneContract = true ∧ ZoneState.isPressed (b.record n).zoneState = true
        · rw [if_pos hz, if_pos hz]
          generalize b.record n = r at g ⊢; cases r; cases g; rfl
        · rw [if_neg hz, if_neg hz]
  have fin : ∃ b2, b1.suspendTouch q = b2 ∧
      b2 = { b1 with table := b2.table, touch := (if q = .cluster then b1.touch else b1.touch.suspend) } ∧
      ∀ n, n < 64 → b2.record n = (b.record n).tornDown q := by
    refine ⟨_, rfl, ?_, ?_⟩
    · cases q
      · rfl
      · have := (Part.releaseZones_spec (b1.modTouch Touch.suspend) recordNumbers List.nodup_range _ rfl).1
        show (b1.modTouch Touch.suspend).releaseZones = _
        unfold Part.releaseZones
        rw [this]; rfl
    · intro n hn
      rw [← rtd n hn]
      cases q
      · rfl
      · have := (Part.releaseZones_spec (b1.modTouch Touch.suspend) recordNumbers List.nodup_range _ rfl).2 n
        show ((b1.modTouch Touch.suspend).releaseZones).record n = _
        unfold Part.releaseZones
        rw [this]
        have hm : n ∈ recordNumbers := by simp [recordNumbers, hn]
        simp only [hm, true_and]
        rfl
  obtain ⟨b2, e2, f1, f2⟩ := fin
  rw [e2]
  have pe : ∀ p, b2.port p = b1.port p := by intro p; rw [f1]; rfl
  have heng : ∀ p, b2.engine p = (b.stopPanel q st).engine p := by intro p; rw [f1, h3]; rfl
  have hlink : ∀ p, b2.link p = (b.stopPanel q st).link p := by intro p; rw [f1, h3]; rfl
  have hcr : ∀ p, b2.credit p = (b.stopPanel q st).credit p := by intro p; rw [f1, h3]; rfl
  have hout : b2.out = (b.stopPanel q st).out := by rw [f1, h3]
  have htouch : b2.touch = if q = .cluster then b.touch else b.touch.suspend := by rw [f1, h3]; cases q <;> rfl
  refine { engine := ?_, link := ?_, completions := ?_, placedList := ?_, sent := ?_
           records := f2, touch := ?_, others := ?_, faults := ?_, strap := ?_, ports := ?_
           panelNotice := ?_, contractNotice := ?_, otherNotices := ?_ }
  · rw [heng]
    unfold Part.stopPanel
    dsimp only
    rw [Part.enterState_engine, if_pos rfl, Part.applyStop_engine, if_pos rfl]
    have : ((((b.modEngine q (Engine.stopRun (b.link q).orders)).modLink q fun _ => Link.reset).modCredit q
      (CreditQueue.keep (b.engine q).plan)).engine q) = (b.engine q).stopRun (b.link q).orders := by
      rw [Part.modCredit_engine, Part.modLink_engine, Part.modEngine_engine, if_pos rfl]
    rw [this]
    unfold Engine.stopOutput Engine.stopRun
    dsimp only
    cases (b.engine q).cfg.policy <;> rfl
  · rw [hlink]
    cases q <;> rfl
  · rw [hcr]; cases q <;> rfl
  · rw [hcr]
    cases q <;> (
    show (CreditQueue.keep _ _).keptPlaced = _
    unfold CreditQueue.keep
    dsimp only
    cases (b.engine _).plan <;> simp <;> rfl)
  · rw [hout]
    cases q
    · show b.out ++ [Output.link _ (StopPolicy.message (b.engine _).cfg.policy)] = _
      cases (b.engine Panel.cluster).cfg.policy <;> rfl
    · show b.out ++ [Output.link _ (StopPolicy.message (b.engine _).cfg.policy)] = _
      cases (b.engine Panel.centre).cfg.policy <;> rfl
  · rw [htouch]; rfl
  · intro p hp
    rw [heng, hlink, hcr]
    cases q <;> cases p <;> first | exact absurd rfl hp | exact ⟨rfl, rfl, rfl⟩
  · rw [f1, h3]; rfl
  · rw [f1, h3]; rfl
  · intro p
    rw [pe, h4 p, sp]; rfl
  · intro p
    rw [pe, h4 p, sp]; rfl
  · intro p n hn
    rw [pe, h5 p n hn, sp, srec]
    have hm : n ∈ recordNumbers := by simp [recordNumbers, hn]
    simp only [hm, true_and]
    rfl
  · intro p
    rw [pe, h4 p, sp]; rfl

end Sys2Proof.Machine
end

