-- ==== Sys2Proof/Laws/Tracking.lean ====
section
/-! SUPPORT. What a tracking event leaves of the touch sense engine: all but the contact table and the press candidates
(R148). -/

namespace Sys2Proof.Machine

/-- Touch stands but for its contact table and its press candidates. -/
def Touch.SameButContacts (t' t : Touch) : Prop := ∃ cs ks, t' = { t with contacts := cs, candidates := ks }

namespace Touch.SameButContacts

theorem refl (t : Touch) : t.SameButContacts t := ⟨_, _, rfl⟩

theorem trans {a b c : Touch} (h : b.SameButContacts a) (k : c.SameButContacts b) : c.SameButContacts a := by
  obtain ⟨_, _, rfl⟩ := h
  obtain ⟨cs, ks, rfl⟩ := k
  exact ⟨cs, ks, rfl⟩

theorem of_eq {t t' : Touch} (h : t' = t) : t'.SameButContacts t := h ▸ refl t

theorem foldl {α : Type} {f : Part → α → Part} (hf : ∀ b x, (f b x).touch.SameButContacts b.touch) :
    ∀ (xs : List α) (b : Part), (xs.foldl f b).touch.SameButContacts b.touch
  | [], b => refl b.touch
  | x :: xs, b => (hf b x).trans (foldl hf xs (f b x))

end Touch.SameButContacts

section
variable (b : Part)

theorem Part.verify_touch (who : Reader) (n : Nat) : (b.verify who n).touch = b.touch := by
  unfold Part.verify
  dsimp only
  split <;> rfl

theorem Part.verifyAll_touch (who : Reader) : (b.verifyAll who).touch = b.touch := by
  have gen : ∀ (ns : List Nat) (b : Part), (ns.foldl (fun b n => b.verify who n) b).touch = b.touch := by
    intro ns
    induction ns with
    | nil => exact fun _ => rfl
    | cons n ns ih => exact fun b => (ih _).trans (b.verify_touch who n)
  exact gen _ b

theorem Part.pressOne_touch (n : Nat) : (b.pressOne n).touch.SameButContacts b.touch := by
  unfold Part.pressOne
  dsimp only
  split
  · split <;> exact ⟨_, _, rfl⟩
  · split
    · split <;> exact ⟨_, _, rfl⟩
    · exact ⟨_, _, rfl⟩

theorem Part.takePeaks_touch (h : HandOver) : (b.takePeaks h).touch.SameButContacts b.touch := by
  unfold Part.takePeaks
  dsimp only
  have h₁ (cs : List Contact) : (b.modTouch (Touch.setContacts cs)).touch.SameButContacts b.touch := ⟨_, _, rfl⟩
  exact (h₁ _).trans (.foldl (f := fun b k => b.claim .touch (overflowClaim k)) (fun _ _ => .refl _) _ _)

/-- A tracking event writes contacts and press candidates alone (R148). -/
theorem Part.track_touch (h : HandOver) : (b.track h).touch.SameButContacts b.touch := by
  have h₁ : ((b.takePeaks h).associateContacts).touch.SameButContacts (b.takePeaks h).touch := by
    unfold Part.associateContacts Part.associateZones
    refine .trans (.of_eq ((b.takePeaks h).verifyAll_touch .tracker)) ⟨_, _, rfl⟩
  have h₂ (b : Part) : b.updatePresses.touch.SameButContacts b.touch := .foldl (fun b n => b.pressOne_touch n) _ b
  have h₃ (b : Part) (cs : List Contact) : (b.noticeContacts cs).touch = b.touch := by
    unfold Part.noticeContacts
    split <;> rfl
  exact (((b.takePeaks_touch h).trans h₁).trans (h₂ _)).trans (.of_eq (h₃ _ _))

end
end Sys2Proof.Machine
end

