-- ==== Sys2Proof/Laws/Turns.lean ====
section
/-! SUPPORT. What the start of a frame leaves: slot 0, the plan and its length, the engine after a turn, and the
completions of a panel after they were all taken. -/

namespace Sys2Proof.Machine
open Sys2Proof.Machine.Part

/-- What a frame turn leaves of its panel's engine, with the rest of the timelines aside. -/
structure FrameBegun (q : Panel) (b t : Part) : Prop where
  state : (t.engine q).state = (b.engine q).state
  timer : (t.engine q).startLeft = (b.engine q).startLeft
  slot : (t.engine q).slot = some 0
  frame : (t.engine q).frame = (b.engine q).frame + 1
  duty : (t.engine q).duty = (b.engine q).stagedDuty
  staged : (t.engine q).stagedDuty = (b.engine q).stagedDuty
  output : (t.engine q).output = decide (0 % (b.engine q).cfg.blPeriod < (b.engine q).stagedDuty)
  cfg : (t.engine q).cfg = (b.engine q).cfg
  completions : (t.credit q).completions = (b.credit q).completions
  plan : ∃ pl, (t.engine q).plan = some pl ∧ pl.entries.length = (b.engine q).cfg.slots
  others : Aside q b t

/-- What the start of slot 0 leaves of its panel's engine. -/
structure SlotBegun (q : Panel) (b t : Part) : Prop where
  engine : (t.engine q).Similar ((b.engine q).enterSlot 0)
  credits : t.credits = b.credits
  others : Aside q b t

section
variable (b : Part)

theorem Part.carryOut_similar (q : Panel) (j : Nat) :
    ((b.carryOut q j).engine q).Similar (b.engine q) ∧ (b.carryOut q j).credits = b.credits ∧
      Aside q b (b.carryOut q j) := by
  have out (o : EntryOutcome) : ((b.setOutcome q j o).engine q).Similar (b.engine q) ∧
      (b.setOutcome q j o).credits = b.credits ∧ Aside q b (b.setOutcome q j o) :=
    ⟨(b.setOutcome_still q j o).engines q, rfl, .of_still (b.setOutcome_still q j o)⟩
  have sent (kind : OrderKind) (g : Nat) : Aside q b (b.issue q kind g j) := by
    have h : Aside q b (b.send q (kind.message g)) := .of_still (.of_eq rfl rfl)
    exact h.trans (Aside.modLink q _ _)
  unfold Part.carryOut
  split
  · exact ⟨.refl _, rfl, .refl _ _⟩
  · split
    · exact ⟨.refl _, rfl, .refl _ _⟩
    · rename_i g _ _
      have h := (b.issue q .drive g j).captures_quiet q j
      exact ⟨h.still.engines q, h.credits, (sent _ _).trans (.of_still h.still)⟩
    · exact ⟨.refl _, rfl, sent _ _⟩
    · exact ⟨.refl _, rfl, .of_still (b.startBurst_still _ _ _ _)⟩
    · exact out _
    · exact out _
    · exact out _

theorem Part.startSlot_begun (q : Panel) : SlotBegun q b (b.startSlot q 0) := by
  have e : (b.modEngine q (Engine.enterSlot 0)).engine q = (b.engine q).enterSlot 0 := by
    rw [Part.modEngine_engine, if_pos rfl]
  obtain ⟨h₁, h₂, h₃⟩ := (b.modEngine q (Engine.enterSlot 0)).carryOut_similar q 0
  exact ⟨e ▸ h₁, h₂, (Aside.modEngine q _ b).trans h₃⟩

theorem placeAll_length (dr : Draft) (due : List (Nat × Record)) : (placeAll dr due).draft.length = dr.length := by
  have gen : ∀ (due : List (Nat × Record)) (x : Build), (due.foldl Build.take x).draft.length = x.draft.length := by
    intro due
    induction due with
    | nil => exact fun _ => rfl
    | cons d ds ih =>
      intro x
      rw [List.foldl_cons, ih]
      unfold Build.take
      dsimp only
      split <;> simp
  exact gen due _

/-- A plan has one entry for each slot (R69). -/
theorem Part.buildPlan_length (p : Panel) :
    ∃ b₁ pl, Quiet b b₁ ∧ pl.entries.length = (b.engine p).cfg.slots ∧
      b.buildPlan p = b₁.modEngine p fun e => { e with plan := some pl } := by
  refine ⟨_, _, (b.claimDeferred_quiet _).trans ((Part.verifyAll_quiet _ _).trans (Part.claimShort_quiet _ _ _)), ?_, rfl⟩
  dsimp only
  unfold Draft.finish
  rw [List.length_map, placeAll_length]
  simp [draftOf]

theorem Part.rescan_credits (p : Panel) : (b.rescan p).credits = b.credits := by
  have h (f : Touch → Touch) (b : Part) : (b.modTouch f).credits = b.credits := rfl
  cases p
  · rfl
  · unfold Part.rescan Part.recomputeScanSet Part.compareScanSet
    rw [h, (b.verifyAll_quiet _).credits]

/-- A frame turn (R54 to R57). -/
theorem Part.frameTurn_begun (q : Panel) (first : Bool) : FrameBegun q b (b.frameTurn q first) := by
  set b₁ := b.modEngine q Engine.beginTurn with hb₁
  have e₁ : b₁.engine q = (b.engine q).beginTurn := by rw [hb₁, Part.modEngine_engine, if_pos rfl]
  have s₂ : Still b₁ ((b₁.turnClaim q first).rescan q) := (b₁.turnClaim_quiet _ _).still.trans (Part.rescan_still _ _)
  obtain ⟨b₃, pl, q₃, hl, hb⟩ := ((b₁.turnClaim q first).rescan q).buildPlan_length q
  have s₃ := s₂.trans q₃.still
  have e₃ := s₃.engines q
  rw [e₁] at e₃
  set b₄ := b₃.modEngine q fun e => { e with plan := some pl } with hb₄
  have e₄ : b₄.engine q = { b₃.engine q with plan := some pl } := by rw [hb₄, Part.modEngine_engine, if_pos rfl]
  have k := b₄.startSlot_begun q
  have ht : b.frameTurn q first = b₄.startSlot q 0 := by
    unfold Part.frameTurn
    rw [← hb₁, hb]
  rw [ht]
  have ke := k.engine
  rw [e₄] at ke
  refine ⟨ke.state.trans e₃.state, ke.timer.trans e₃.timer, ke.slot, ke.frame.trans e₃.frame, ke.duty.trans e₃.duty,
    ke.staged.trans e₃.staged, ke.output.trans ?_, ke.cfg.trans e₃.cfg, ?_, ?_, ?_⟩
  · show decide (0 % (b₃.engine q).cfg.blPeriod < (b₃.engine q).duty) = _
    rw [e₃.cfg, e₃.duty]
    rfl
  · show ((b₄.startSlot q 0).credits.get q).completions = _
    rw [k.credits]
    show (b₃.credits.get q).completions = _
    rw [q₃.credits, Part.rescan_credits, (b₁.turnClaim_quiet _ _).credits]
    rfl
  · have hk : ((b₄.startSlot q 0).engine q).kinds = some (pl.entries.map Entry.kind) := ke.kinds
    unfold Engine.kinds at hk
    cases hp : ((b₄.startSlot q 0).engine q).plan with
    | none => rw [hp] at hk; cases hk
    | some pl' =>
      rw [hp] at hk
      refine ⟨pl', rfl, ?_⟩
      have hlen := congrArg List.length (Option.some.inj hk)
      simp only [List.length_map] at hlen
      rw [hlen, hl, (s₂.engines q).cfg, e₁]
      rfl
  · exact (Aside.modEngine q _ b).trans ((Aside.of_still s₃).trans ((Aside.modEngine q _ b₃).trans k.others))

/-- Taking as many completions as wait, or more, leaves none (R103). -/
theorem Part.creditMany_done (p : Panel) (k : Nat) (h : (b.credit p).completions.length ≤ k) :
    ((b.creditMany p k).credit p).completions = [] := by
  induction k generalizing b with
  | zero => exact List.eq_nil_of_length_eq_zero (Nat.le_zero.1 h)
  | succ k ih =>
    refine ih _ ?_
    unfold Part.creditOldest
    split
    · rename_i hc
      rw [hc]
      exact Nat.zero_le _
    · rename_i c cs hc
      have same (xs : List Placed) : (xs.foldl (fun b x => b.creditOne p c x) b).credit p = b.credit p := by
        have := (Quiet.foldl (fun b x => b.creditOne_quiet p c x) xs b).credits
        simp [Part.credit, this]
      show ((Part.modCredit p CreditQueue.pop _).credit p).completions.length ≤ k
      rw [Part.modCredit_credit, if_pos rfl, same]
      show (b.credit p).completions.tail.length ≤ k
      rw [hc] at h ⊢
      simp at h ⊢
      omega

theorem Part.creditAll_done (p : Panel) : ((b.creditAll p).credit p).completions = [] :=
  b.creditMany_done p _ (Nat.le_refl _)

end
end Sys2Proof.Machine
end

