-- ==== Sys2Proof/Tests/Slice0.lean ====
section
/-! SUPPORT. Tests: the well-formedness check, numbers of the manual's worked examples, and for every statement with
hypotheses a state and operands that meet them, each clause at a boundary value of its range. -/

namespace Sys2Proof.Tests

-- One theorem at a time: each waits for the kernel, and a thread for each of them is too many.
set_option Elab.async false
open Sys2Proof.Machine

/-! ### Small states -/

/-- A part as a machine with no command waiting. -/
def at0 (b : Part) : State := { part := b, pending := [] }

/-- The part after cold reset. -/
def base : Part := Part.reset .cp2

/-- A port WORKING on a request. -/
def asks (name : RequestName) (p : Port) (ps : List Byte) (b : Part) : State :=
  at0 (b.modPort p (ClientPort.hand { name := name, params := ps }))

/-- A contract of a panel: CP1 owns it, CP0 feeds it, row groups 20 to 23, GAUGE, generation 1. -/
def contract (q : Panel) (st : ContractState) : Record :=
  { Record.freeWith 1 with
    state := st, owner := 1, feeder := 0, panel := q
    params := { band := { first := 20, last := 23 }, cls := .gauge, period := 10, latency := some 3, checking := true,
                zone := none, oneShot := false } }

/-- The part with a record at number 3; its handle is 67. -/
def with3 (r : Record) : Part := base.setRecord 3 r

/-- A record at number 3 that fails its check code. -/
def spoiled : Part := { base with table := base.table.set 3 { contract .cluster .live with checkGood := false } }

/-- A table of 64 contracts, none FREE. -/
def full : Part := { base with table := List.replicate 64 (contract .centre .staged) }

/-- A panel in a state. -/
def panelIn (q : Panel) (st : PanelState) (b : Part) : Part := b.modEngine q fun e => { e with state := st }

/-- A plan of 100 entries that begin as given, the rest IDLE, the last CLOSING. -/
def planOf (ks : List EntryKind) (placed : List Placed) : Plan :=
  { entries := (ks ++ List.replicate (99 - ks.length) EntryKind.idle ++ [EntryKind.closing]).map fun k =>
      { kind := k, outcome := .pending }
    placed := placed, carried := none }

/-- A RUNNING panel in slot j of a plan. -/
def running (q : Panel) (j : Nat) (pl : Plan) (b : Part) : Part :=
  b.modEngine q fun e => { e with state := .running, slot := some j, plan := some pl, cfg := { e.cfg with slots := 100 } }

/-- The placed-contract item of record 3. -/
def item (kind : OrderKind) : Placed := { handle := 67, kind := kind, band := { first := 20, last := 23 }, captureSlot := some 0 }

/-- A RUNNING cluster panel with record 3 placed and one completion waiting. -/
def crediting (kind : OrderKind) (r : Record) (sig : Signature) : State :=
  at0 ((running .cluster 5 (planOf [.drive 20 3, .drive 21 3, .drive 22 3, .drive 23 3] [item kind]) (with3 r)).modCredit
    .cluster fun c => { c with completions := [{ rowGroup := 23, sig := sig, kind := kind, slot := 3 }] })

/-- Record 3 with some row groups of the frame done. -/
def partDone (groups : Nat) (sum : Signature) (r : Record) : Record :=
  { r with accum := { groups := groups, sum := sum, tag := some 7, expected := some 0xA40 } }

/-- SCANNING transmit rows, with a burst on row 3 in slot 1. -/
def sensing (rows : RowSet) (calibrated : RowSet) (disturbed lost : Bool) : State :=
  at0 ((running .centre 1 (planOf [.idle, .sense 3] []) base).modTouch fun t =>
    { t with
      state := .scanning, scanSet := rows, calibrated := calibrated
      frame := some { rows := rows, results := List.replicate 15 none, threshold := 60, placement := .lead }
      burst := some { row := 3, slot := 1, disturbed := disturbed, lost := lost } })

/-- The state a step gives; the state itself where it gives none. -/
def after (c : Instr) (s : State) : State :=
  match step { s with pending := [c] } with
  | .next t => t
  | .fault _ => s
  | .refused _ => s

/-- The answer a port holds, as the frame a client reads. -/
def answerOf (p : Port) (s : State) : List Byte := (s.part.port p).answer.frame

/-! ### Well-formedness -/

theorem test_wf_refuses_request_kind : Instr.wellFormed (.unknownKindTransaction .cp0 [0xA5]) = false := by decide
theorem test_wf_refuses_answer_kind : Instr.wellFormed (.unknownKindTransaction .cp1 [0x5A, 0]) = false := by decide
theorem test_wf_takes_other_kinds : Instr.wellFormed (.unknownKindTransaction .cp2 [0x00, 0xA5]) = true := by decide
theorem test_wf_takes_no_byte : Instr.wellFormed (.unknownKindTransaction .cp2 []) = true := by decide

/-! ### Numbers of the manual's examples -/

/-- Section 11.6: the LOOKUP frame of handle 65. -/
theorem test_lookup_frame : requestFrame 0x15 [0x00, 0x41] = [0x15, 0x02, 0x00, 0x41, 0xA8] := by decide

/-- Section 11.6: the frame reaches the owner, and an answer transaction meanwhile gives NOT_READY. -/
theorem test_lookup_handed :
    (((after (.requestTransaction .cp1 [0x15, 0x02, 0x00, 0x41, 0xA8]) State.reset).part.port .cp1).inHand =
      some { name := .lookup, params := [0x00, 0x41] }) ∧
    answerOf .cp1 (after (.requestTransaction .cp1 [0x15, 0x02, 0x00, 0x41, 0xA8]) State.reset) = [0x02, 0, 0, 0xFE] := by
  decide +kernel

/-- Section 11.6: a handle that is not honoured answers BAD_HANDLE. -/
theorem test_lookup_bad_handle :
    answerOf .cp1 (after (.lookup .cp1) (asks .lookup .cp1 [0x00, 0x41] base)) = [0x13, 0, 0, 0xED] := by decide +kernel

/-- Section 11.6: a lookup record of 40 bytes, with LIVE at offset 0 and CENTRE at offset 3. -/
theorem test_lookup_record :
    ((contract .centre .live).lookupBytes.length, (contract .centre .live).lookupBytes[0]?,
      (contract .centre .live).lookupBytes[3]?) = (40, some 2, some 1) := by decide +kernel

/-- R186: a port with nothing held answers NO_REQUEST. -/
theorem test_idle_answer :
    (after (.answerTransaction .cp0 4) State.reset).part.out = [.bytes .cp0 [0xFF, 0x03, 0, 0, 0xFD]] := by decide +kernel

/-- R192: the identification. -/
theorem test_identify :
    answerOf .cp0 (after (.identify .cp0) (asks .identify .cp0 [] base)) =
      [0, 0, 7, 0x4F, 0x52, 0x42, 0x26, 3, 2, 0, 0xEB] := by decide +kernel

/-- R188: a DISPLAY port may not send PANEL_DOWN. -/
theorem test_display_port_refused :
    ((after (.requestTransaction .cp0 (requestFrame 0x31 [0])) State.reset).part.port .cp0).held =
      some { status := .noAuthority, dropped := false, payload := [] } := by decide +kernel

/-- R184: a request sent without reading sets the dropped mark and claims PORT_OVERRUN. -/
theorem test_overrun :
    ((after (.requestTransaction .cp0 (requestFrame 0x15 [0, 9])) (asks .update .cp0 [0, 9, 0, 7, 0, 0, 0, 0, 0] base)).part.port
        .cp0).dropped = true ∧
      ((after (.requestTransaction .cp0 (requestFrame 0x15 [0, 9]))
        (asks .update .cp0 [0, 9, 0, 7, 0, 0, 0, 0, 0] base)).part.bank .core).record.map FaultRecord.code =
        some .portOverrun := by decide +kernel

/-- R182: a transaction of neither kind claims FRAME_CHECK with its first byte. -/
theorem test_unknown_kind :
    ((after (.unknownKindTransaction .cp0 [7, 1]) State.reset).part.bank .core).record.map FaultRecord.detail = some 7 := by
  decide +kernel

/-- R10: the first OPEN takes record 0 and answers STAGED with handle 0. -/
theorem test_open :
    ((after (.openContract .cp1) (asks .openContract .cp1 [0, 20, 23, 1, 10, 3, 1, 0, 0, 0, 0, 0, 0, 0] base)).part.port
      .cp1).held = some { status := .staged, dropped := false, payload := [0, 0] } := by decide +kernel

/-- R39: 90 row groups with P 1 on a cluster panel of 64 slots fail the fit check, 4032 being the budget. -/
theorem test_open_no_budget :
    ((after (.openContract .cp1) (asks .openContract .cp1 [0, 0, 89, 1, 1, 0, 0, 0, 0, 0, 0, 0, 0, 0]
      (base.modEngine .cluster fun e => { e with cfg := { e.cfg with slots := 64 } }))).part.port .cp1).held =
        some { status := .noBudget, dropped := false, payload := [0, 0, 0x0F, 0xC0, 0, 0, 0x16, 0x80] } := by
  decide +kernel

/-- R12: an AMEND of a STAGED contract is taken at once. -/
theorem test_amend :
    ((after (.amend .cp1) (asks .amend .cp1 [0, 67, 20, 25, 1, 9, 0, 0, 0, 0, 0, 0, 0, 0]
      (with3 (contract .cluster .staged)))).part.record 3).params.band = { first := 20, last := 25 } := by decide +kernel

/-- R14, R15, R16: the marks and the state of a contract on a RUNNING panel. -/
theorem test_suspend :
    ((after (.suspend .cp1) (asks .suspend .cp1 [0, 67] (with3 (contract .cluster .live)))).part.record 3).suspendMark =
      true := by decide +kernel
theorem test_resume :
    ((after (.resume .cp1) (asks .resume .cp1 [0, 67] (with3 (contract .cluster .suspended)))).part.record 3).resumeMark =
      true := by decide +kernel
theorem test_retire :
    ((after (.retire .cp1) (asks .retire .cp1 [0, 67]
      (running .cluster 0 (planOf [] []) (with3 (contract .cluster .live))))).part.record 3).state = .retiring := by
  decide +kernel

/-- R24, R25: the handles a FIND and a LIST answer. -/
theorem test_find :
    ((after (.find .cp0) (asks .find .cp0 [0, 23, 30] (with3 (contract .cluster .live)))).part.port .cp0).held =
      some { status := .ok, dropped := false, payload := [1, 0, 67] } := by decide +kernel
theorem test_list :
    ((after (.list .cp0) (asks .list .cp0 [1] (with3 (contract .cluster .live)))).part.port .cp0).held =
      some { status := .ok, dropped := false, payload := [1, 0, 67] } := by decide +kernel

/-- R105: an UPDATE by the feeder is pending. -/
theorem test_update :
    ((after (.update .cp0) (asks .update .cp0 [0, 67, 0, 7, 1, 0, 0, 0x0A, 0x40] (with3 (contract .cluster .live)))).part.record
      3).pending = some { tag := 7, sig := some 0xA40, age := 0 } := by decide +kernel

/-- R47, R48: PANEL_UP sends START and counts from 64; READY begins frame 1 with its CLOSING entry in slot 99. -/
theorem test_panel_up :
    let t := after (.panelUp .cp2) (asks .panelUp .cp2 [0] base)
    t.part.out = [.link .cluster .start] ∧ (t.part.engine .cluster).state = .starting ∧
      (t.part.engine .cluster).startLeft = some 64 := by decide +kernel
theorem test_ready :
    let t := after (.ready .cluster) (at0 (panelIn .cluster .starting base))
    (t.part.engine .cluster).state = .running ∧ (t.part.engine .cluster).frame = 1 ∧
      ((t.part.engine .cluster).plan.map fun pl => pl.entries.length) = some 100 := by decide +kernel

/-- R49: the start limit claims START_FAIL; each idle step counts one slot period (the model's choice, log 4). -/
theorem test_start_limit :
    let t := after (.startLimitExpiry .centre) (at0 (panelIn .centre .starting base))
    (t.part.engine .centre).state = .down ∧ (t.part.bank .centre).record.map FaultRecord.code = some .startFail := by
  decide +kernel
theorem test_idle_step :
    (match step (at0 (base.modEngine .cluster fun e => { e with state := .starting, startLeft := some 64 })) with
      | .next t => (t.part.engine .cluster).startLeft
      | .fault _ => none
      | .refused _ => none) = some 63 := by decide +kernel

/-- R92, R96: an order is issued in its slot, and times out at the boundary that ends the slot after it. -/
theorem test_slot_boundary :
    (after (.slotBoundary .cluster) (at0 (running .cluster 3 (planOf [.idle, .idle, .idle, .idle, .drive 20 3] []) base))).part.out =
      [.link .cluster (.drive 20)] := by decide +kernel
theorem test_order_timeout :
    let t := after (.orderTimeout .cluster) (at0 ((running .cluster 4 (planOf [.idle, .idle, .idle, .drive 20 3] []) base).modLink
      .cluster fun l => { l with orders := [{ rowGroup := 20, kind := .drive, slot := 3 }] }))
    (t.part.link .cluster).orders = [] ∧ (t.part.link .cluster).timeouts = 1 ∧
      (t.part.bank .cluster).record.map FaultRecord.code = some .orderTimeout := by decide +kernel

/-- R93: a DONE matches by row group. -/
theorem test_done :
    let t := after (.done .cluster 20 5) (at0 ((running .cluster 4 (planOf [.idle, .idle, .idle, .drive 20 3] []) base).modLink
      .cluster fun _ => { orders := [{ rowGroup := 20, kind := .drive, slot := 3 }], timeouts := 2 }))
    (t.part.link .cluster).orders = [] ∧ (t.part.link .cluster).timeouts = 0 ∧
      (t.part.credit .cluster).completions = [{ rowGroup := 20, sig := 5, kind := .drive, slot := 3 }] := by decide +kernel

/-- R99, R51: a FAULT hands a halt, and the halt stops the panel. -/
theorem test_fault_and_halt :
    let t := after (.fault .cluster 9) (at0 (running .cluster 4 (planOf [] []) base))
    (t.part.engine .cluster).haltHanded = true ∧ ((after (.halt .cluster) t).part.engine .cluster).state = .halted := by
  decide +kernel

/-- Section 6.9, case A: the fourth DONE completes the band; the newer update stays pending. -/
theorem test_credit_serves_captured :
    let r := { partDone 3 0x630 (contract .cluster .live) with pending := some { tag := 8, sig := some 0xA80, age := 1 } }
    let t := after (.completionCredit .cluster) (crediting .drive r 0x410)
    (t.part.record 3).lastServed = some 7 ∧ (t.part.record 3).confirmed = some 0xA40 ∧
      (t.part.record 3).pending = some { tag := 8, sig := some 0xA80, age := 1 } := by decide +kernel

/-- Section 6.9, case C: a sum that is neither signature is a mismatch. -/
theorem test_credit_mismatch :
    let r := { partDone 3 0x640 (contract .cluster .live) with
      pending := some { tag := 8, sig := some 0xA80, age := 1 }, confirmed := some 0xA00 }
    let t := after (.completionCredit .cluster) (crediting .drive r 0x420)
    (t.part.record 3).state = .stale ∧ (t.part.bank .cluster).record.map FaultRecord.detail = some 23 := by decide +kernel

/-- Section 7.9: a good calibration burst sets the row's baselines. -/
theorem test_calibration :
    let t := after (.senseComplete (Vector.replicate 24 2000)) (sensing 0x18 0 false false)
    t.part.touch.calibrated = 0x08 ∧ t.part.touch.baselines[3]? = some (List.replicate 24 2000) := by decide +kernel

/-- R135: a disturbed burst is discarded with SENSE_DISTURBED. -/
theorem test_disturbed :
    ((after (.senseComplete (Vector.replicate 24 2000)) (sensing 0x18 0 true false)).part.bank .touch).record.map
      FaultRecord.code = some .senseDisturbed := by decide +kernel

/-- Section 8.10, F1: the peak at node (3, 2) stands at (210, 298). -/
theorem test_touchdown :
    let rowOf (r : Nat) : List Nat :=
      (List.range 24).map fun c =>
        if r = 3 ∧ c = 1 then 30 else if r = 3 ∧ c = 2 then 150 else if r = 3 ∧ c = 3 then 60 else if r = 4 ∧ c = 2 then 45 else 0
    let b := (sensing 0x20 0x38 false false).part.modTouch fun t =>
      { t with
        scanSet := 0x38, baselines := List.replicate 15 (List.replicate 24 2000)
        burst := some { row := 5, slot := 1, disturbed := false, lost := false }
        frame := some { rows := 0x38
                        results := (List.range 15).map fun r =>
                          if r = 3 ∨ r = 4 then some { raw := List.replicate 24 2000, deltas := rowOf r } else none
                        threshold := 60, placement := .lead } }
    (after (.senseComplete (Vector.replicate 24 2000)) (at0 b)).part.touch.contacts =
      [{ id := 0, state := .touchdown, x := 210, y := 298, strength := 150, framesHeld := 0, zone := none }] := by
  decide +kernel

/-- R176 to R180: the record an INJECT leaves, as FAULT_READ shows it (section 9.6, step 12). -/
theorem test_inject :
    let s := asks .inject .cp2 [0, 2, 8, 1, 9] { base with faults := { base.faults with injectEnable := true } }
    let t := after (.inject .cp2) s
    (t.part.bank .cluster).record.map (fun r => (r.cls, r.code, r.detail, r.injected)) =
      some (.critical, .panelFault, 9, true) ∧ (t.part.engine .cluster).haltHanded = false := by decide +kernel
theorem test_fault_read :
    (((after (.faultRead .cp0) (asks .faultRead .cp0 [3] base)).part.port .cp0).held.map fun a => a.payload.length) =
      some 17 := by decide +kernel
theorem test_fault_clear :
    (((after (.faultClear .cp2) (asks .faultClear .cp2 [0] (at0 base).part)).part.bank .cluster).record) = none := by
  decide +kernel
theorem test_fault_control :
    ((after (.faultControl .cp2) (asks .faultControl .cp2 [0, 1, 7, 3, 1] base)).part.bank .cluster).threshold = 3 := by
  decide +kernel
theorem test_ack_critical :
    ((after (.ackCritical .cp2) (asks .ackCritical .cp2 [0] base)).part.port .cp2).held =
      some { status := .nothingPending, dropped := false, payload := [] } := by decide +kernel

/-- R44, R62, R64: configuration, duty and status of a panel that is DOWN. -/
theorem test_panel_config :
    ((after (.panelConfig .cp2) (asks .panelConfig .cp2 [1, 32, 0, 20, 1, 2, 2] base)).part.engine .centre).cfg =
      { slots := 32, slotPeriod := 20, grace := 1, policy := .blank, blPeriod := 2 } := by decide +kernel
theorem test_panel_down :
    ((after (.panelDown .cp2) (asks .panelDown .cp2 [0] (panelIn .cluster .halted base))).part.engine .cluster).state =
      .down := by decide +kernel
theorem test_backlight :
    ((after (.backlight .cp2) (asks .backlight .cp2 [0, 10] base)).part.engine .cluster).duty = 10 := by decide +kernel
theorem test_panel_status :
    (((after (.panelStatus .cp0) (asks .panelStatus .cp0 [0] base)).part.port .cp0).held.map fun a =>
      a.payload.take 9) = some [0, 100, 0, 167, 4, 1, 10, 10, 10] := by decide +kernel

/-- R141, R142, R161: the touch requests. -/
theorem test_touch_config :
    (after (.touchConfig .cp2) (asks .touchConfig .cp2 [3, 0xFF, 1] base)).part.touch.cfg =
      { threshold := 1023, placement := .split } := by decide +kernel
theorem test_recalibrate :
    (after (.recalibrate .cp2) (asks .recalibrate .cp2 [] (base.modTouch fun t => { t with calibrated := 0x7FFF }))).part.touch.calibrated =
      0 := by decide +kernel
theorem test_contacts :
    ((after (.contacts .cp0) (asks .contacts .cp0 [] base)).part.port .cp0).held =
      some { status := .ok, dropped := false, payload := [0, 0, 0, 0, 0, 0, 0, 0] } := by decide +kernel

/-- R189, R190, R193: notices, attention, warm and cold reset. -/
theorem test_notices :
    (((after (.notices .cp0) (asks .notices .cp0 [] (base.raiseAll (.panel .centre)))).part.port .cp0).noticeSet) =
      NoticeSet.empty := by decide +kernel
theorem test_set_attention :
    ((after (.setAttention .cp0) (asks .setAttention .cp0 [0x7F] base)).part.port .cp0).mask = 0x7F := by decide +kernel
theorem test_warm_reset :
    ((after (.warmReset .cp2) (asks .warmReset .cp2 [] (with3 (contract .cluster .live)))).part.record 3).generation = 2 := by
  decide +kernel
theorem test_cold_reset : (after (.coldReset (some 3)) State.reset).part.strap = .cp2 := by decide +kernel

/-! ### Premises of the statements, each met by a state and operands -/

/-- Every record that is not number 3 is FREE in `with3`. -/
theorem with3_free (r : Record) (n : Nat) (h : n ≠ 3) : ((with3 r).record n).state = .free := by
  unfold with3
  rw [Part.setRecord_record_ne _ _ _ _ h]
  show ((List.replicate 64 (Record.freeWith 0)).getD n (Record.freeWith 0)).state = _
  rw [List.getD_eq_getElem?_getD, List.getElem?_replicate]
  split <;> rfl

theorem test_met_EveryStepAnswersNext : State.reset.pending = [] := rfl

theorem test_met_RequestRefusedWhileWorking : ((asks .update .cp0 [] base).part.port .cp0).state = .working := by decide

/-- A frame one byte too long, and the longest one. -/
theorem test_met_RequestJudged_too_long :
    ((at0 base).part.port .cp0).state ≠ .working ∧
      ∀ code ps, ps.length ≤ 61 → requestFrame 0x15 (List.replicate 62 0) ≠ requestFrame code ps := by
  refine ⟨by decide, fun code ps h e => ?_⟩
  have := congrArg List.length e
  simp [requestFrame, withCheck] at this
  omega
theorem test_met_RequestJudged_no_byte : ∀ code ps, ps.length ≤ 61 → ([] : List Byte) ≠ requestFrame code ps := by
  intro code ps _ e
  have := congrArg List.length e
  simp [requestFrame, withCheck] at this
theorem test_met_RequestJudged_longest :
    ((at0 base).part.port .cp0).state ≠ .working ∧ (List.replicate 61 (0 : Byte)).length ≤ 61 := by decide

theorem test_met_AnswerTransactionReturnsFrame :
    ((at0 base).part.port .cp0).state = .idle ∧ ((asks .list .cp0 [] base).part.port .cp0).state = .working ∧
      ((at0 (base.modPort .cp0 (ClientPort.answerSelf .badArg))).part.port .cp0).state = .answered ∧
      ((at0 (base.modPort .cp0 (ClientPort.answerSelf .badArg))).part.port .cp0).held =
        some { status := .badArg, dropped := false, payload := [] } := by decide
theorem test_met_AnswerTransactionReturnsFrame_answers : ∃ answers : List Byte → Prop, ∀ frame,
    answers frame ↔ exec (.answerTransaction .cp0 4) State.reset = .next { State.reset with
      part := State.reset.fresh.sendBytes .cp0
        ([0xFF] ++ frame.take 4 ++ List.replicate (4 - frame.length) 0xFF) } := ⟨_, fun _ => Iff.rfl⟩

/-- R186, R195: NOT_READY with the dropped mark clear and set, clocked to its end; a held answer clocked short of its
end, and beyond it. -/
theorem test_answer_frames :
    let out (clocked : Nat) (s : State) := (after (.answerTransaction .cp0 clocked) s).part.out
    let busy (dropped : Bool) := at0 ((asks .list .cp0 [] base).part.modPort .cp0 fun q => { q with dropped := dropped })
    let answered := at0 (base.modPort .cp0 (ClientPort.answerSelf .badArg))
    out 4 (busy false) = [.bytes .cp0 [0xFF, 0x02, 0, 0, 0xFE]] ∧ out 4 (busy true) = [.bytes .cp0 [0xFF, 0x02, 1, 0, 0xFD]] ∧
      out 1 answered = [.bytes .cp0 [0xFF, 0x12]] ∧ out 5 answered = [.bytes .cp0 [0xFF, 0x12, 0, 0, 0xEE, 0xFF]] := by
  decide +kernel

theorem test_met_UnknownKindIgnored : (0xA4 : Byte) ≠ 0xA5 ∧ (0xA4 : Byte) ≠ 0x5A := by decide

theorem test_met_RequestRowTakesRequest : (asks .identify .cp0 [] base).fresh.holds .cp0 .identify [] = true := by decide

theorem test_met_RequestRowTakesRequest_none : ∀ ps, State.reset.fresh.holds .cp0 .identify ps = false := fun _ => rfl

theorem test_met_PortsAreIndependent :
    Port.cp1 ≠ Port.cp0 ∧ ∃ t, exec (RequestName.row .notices .cp0) State.reset = .next t := ⟨by decide, _, rfl⟩

/-- The last handle of no record, the last record that is FREE, and a handle of another generation. -/
theorem test_met_HandleChecksRefuse_handle :
    let s (ps : List Byte) := asks .lookup .cp0 ps (with3 (contract .cluster .live))
    (s [0x40, 0]).fresh.holds .cp0 .lookup [0x40, 0] = true ∧ 16384 ≤ handleOf [0x40, 0] ∧
      handleOf [0x3F, 0xFF] < 16384 ∧ ((s [0x3F, 0xFF]).part.record (handleOf [0x3F, 0xFF] % 64)).state = .free ∧
      ((s [0x3F, 0xFF]).part.record (handleOf [0x3F, 0xFF] % 64)).checkGood = true ∧
      ((s [0, 3]).part.record (handleOf [0, 3] % 64)).generation.toNat ≠ handleOf [0, 3] / 64 ∧
      ((s [0, 3]).part.record (handleOf [0, 3] % 64)).checkGood = true := by decide +kernel

theorem test_met_TableCheckFreesRecord :
    (asks .update .cp0 [0, 67] spoiled).fresh.holds .cp0 .update [0, 67] = true ∧
      (asks .update .cp0 [0, 67] spoiled).part.table.length = 64 ∧ handleOf [0, 67] < 16384 ∧
      ((asks .update .cp0 [0, 67] spoiled).part.record (handleOf [0, 67] % 64)).checkGood = false := by decide +kernel

theorem test_met_HandleChecksRefuse_port :
    let s (name : RequestName) (p : Port) := asks name p [0, 67] (with3 (contract .cluster .live))
    (s .suspend .cp2).fresh.holds .cp2 .suspend [0, 67] = true ∧ (s .suspend .cp2).fresh.bears 67 = true ∧
      ((s .suspend .cp2).part.record 3).owner ≠ Port.cp2.bits ∧ Port.cp0 ≠ (s .retire .cp0).part.strap ∧
      ((s .retire .cp0).part.record 3).owner ≠ Port.cp0.bits ∧
      ((s .update .cp1).part.record 3).feeder ≠ Port.cp1.bits := by decide +kernel

/-- SUSPEND, RESUME, RETIRE, AMEND and LOOKUP: every state of a contract, its handle, its owner. -/
theorem test_met_SuspendAndResumeActByState_and_others :
    ∀ st ∈ [ContractState.staged, .live, .suspended, .stale, .retiring], ∀ fb ∈ [false, true],
      ∀ name ∈ [RequestName.suspend, .resume, .retire, .amend, .lookup],
        let s := asks name .cp1 [0, 67] (with3 { contract .cluster st with fallback := fb })
        s.fresh.holds .cp1 name [0, 67] = true ∧ s.fresh.bears (handleOf [0, 67]) = true ∧
          (s.part.record (handleOf [0, 67] % 64)).state = st ∧ (s.part.record (handleOf [0, 67] % 64)).fallback = fb ∧
          (s.part.record (handleOf [0, 67] % 64)).owner = Port.cp1.bits := by decide +kernel

/-- RETIRE of a LIVE contract, its panel RUNNING and not. -/
theorem test_met_RetireActsByState :
    ((asks .retire .cp2 [0, 67] (running .cluster 0 (planOf [] []) (with3 (contract .cluster .live)))).part.engine
        .cluster).state = .running ∧
      ((asks .retire .cp2 [0, 67] (with3 (contract .cluster .live))).part.engine .cluster).state ≠ .running ∧
      Port.cp2 = (asks .retire .cp2 [0, 67] base).part.strap := by decide +kernel

/-- A zone contract of the centre panel: row groups 20 to 23, columns 100 to 299. -/
def zoned (st : ContractState) (divisor : Nat) : Record :=
  { contract .centre st with
    params := { (contract .centre st).params with
      zone := some { firstCol := 100, lastCol := 299, debounce := 2, divisor := divisor } }
    zoneState := some .idle }

/-- Load: the least and the greatest bound; reserve: the least and the greatest divisor, on one transmit row. -/
theorem test_met_AdmissionCounts :
    let least : Params := { (contract .cluster .live).params with band := { first := 0, last := 0 }, period := 1, latency := none }
    let most : Params := { (contract .centre .live).params with
      band := { first := 0, last := 149 }, period := 255, latency := some 255 }
    let view (d : Nat) : View := [(3, (zoned .live d).params), (4, most)]
    least.band.first ≤ least.band.last ∧ least.load = 64 ∧ most.band.first ≤ most.band.last ∧ most.load = 38 ∧
      (view 1).reserve .centre = 3 ∧ (view 8).reserve .centre = 3 ∧ (view 8).rowCount = 1 ∧
      View.reserve .centre [(4, most)] = 0 ∧ base.table.length = 64 := by decide +kernel

/-- An OPEN of a TELLTALE contract by the safety port that fills the drive budget of 32 slots to the last unit. -/
theorem test_met_OpenAdmitted :
    let ps : List Byte := [0, 0, 30, 0, 1, 0, 1, 2, 0, 0, 0, 0, 0, 0]
    let s := asks .openContract .cp2 ps (base.modEngine .cluster fun e => { e with cfg := { e.cfg with slots := 32 } })
    ∃ a, s.fresh.holds .cp2 .openContract ps = true ∧ openArgs ps = some a ∧ s.part.table.length = 64 ∧
      s.fresh.allGood = true ∧ (a.params.cls = .telltale → Port.cp2 = s.part.strap) ∧
      ((s.part.record 0).state = .free ∧ ∀ m, m < 0 → (s.part.record m).state ≠ .free) ∧
      (∀ v ∈ choicesOf (viewRecords .cluster (s.part.table.set 0 ((s.part.record 0).opened .cp2 a))),
        v.exclusive = true ∧ v.fits .cluster 32 = true ∧ v.withinBudget .cluster 32 = true) :=
  ⟨_, by decide +kernel, rfl, by decide +kernel, by decide +kernel, by decide +kernel, by decide +kernel,
    by decide +kernel⟩

/-- A cluster panel of 32 slots. -/
def small (b : Part) : Part := b.modEngine .cluster fun e => { e with cfg := { e.cfg with slots := 32 } }

/-- What each choice of a panel's view keeps, in the order of R38: exclusivity, fit, budget. -/
def kept (q : Panel) (b : Part) (table : List Record) : List (Bool × Bool × Bool) :=
  (choicesOf (viewRecords q table)).map fun v =>
    (v.exclusive, v.fits q (b.engine q).cfg.slots, v.withinBudget q (b.engine q).cfg.slots)

theorem admitted_iff_kept (q : Panel) (b : Part) (table : List Record) :
    admitted q (b.engine q).cfg.slots table ↔ ∀ k ∈ kept q b table, k = (true, true, true) := by
  simp [admitted, kept]

/-- What each choice keeps once an OPEN fills record 0. -/
def keptOpen (p : Port) (ps : List Byte) (b : Part) : Option (List (Bool × Bool × Bool)) :=
  (openArgs ps).map fun a => kept a.panel b (b.table.set 0 ((b.record 0).opened p a))

/-- A LIVE contract of row groups 0 to 15 with P 1, and its staged amendment to TELLTALE. -/
def crossing : Record :=
  { contract .cluster .live with
    params := { band := { first := 0, last := 15 }, cls := .gauge, period := 1, latency := none, checking := true,
                zone := none, oneShot := false }
    stagedAmendment := some { band := { first := 0, last := 15 }, cls := .telltale, period := 1, latency := none,
                              checking := true, zone := none, oneShot := false } }

/-- OPEN refused: a bad argument, a TELLTALE from a display port, a full table. -/
theorem test_met_OpenRefusedInOrder :
    openArgs [0, 0, 90, 0, 1, 0, 1, 2, 0, 0, 0, 0, 0, 0] = none ∧
      ((openArgs [0, 0, 30, 0, 1, 0, 1, 2, 0, 0, 0, 0, 0, 0]).map fun a => a.params.cls) = some .telltale ∧
      Port.cp0 ≠ base.strap ∧ full.table.length = 64 ∧ full.allGood = true ∧
      (∀ m, m < 64 → (full.record m).state ≠ .free) := by decide +kernel

/-- The ranges of R9: each byte at the ends of its range, and one beyond; a panel and a port that there are not. -/
theorem test_met_amendableInRange :
    amendableInRange .centre 149 149 0 1 7 1919 1919 7 8 ∧ amendableInRange .centre 0 0 3 255 4 0 0 1 1 ∧
      amendableInRange .cluster 89 89 1 1 0 1 0 0 0 ∧
      ¬amendableInRange .cluster 1 0 1 1 0 0 0 0 0 ∧ ¬amendableInRange .cluster 90 90 1 1 0 0 0 0 0 ∧
      ¬amendableInRange .centre 150 150 1 1 0 0 0 0 0 ∧ ¬amendableInRange .centre 0 0 4 1 0 0 0 0 0 ∧
      ¬amendableInRange .centre 0 0 1 0 0 0 0 0 0 ∧ ¬amendableInRange .centre 0 0 1 1 8 0 0 0 0 ∧
      ¬amendableInRange .centre 0 0 0 1 0 0 0 0 0 ∧ ¬amendableInRange .cluster 0 0 1 1 4 0 0 1 1 ∧
      ¬amendableInRange .centre 0 0 1 1 4 1 0 1 1 ∧ ¬amendableInRange .centre 0 0 1 1 4 0 1920 1 1 ∧
      ¬amendableInRange .centre 0 0 1 1 4 0 0 0 1 ∧ ¬amendableInRange .centre 0 0 1 1 4 0 0 8 1 ∧
      ¬amendableInRange .centre 0 0 1 1 4 0 0 1 0 ∧ ¬amendableInRange .centre 0 0 1 1 4 0 0 1 9 := by
  refine ⟨?_, ?_, ?_, ?_, ?_, ?_, ?_, ?_, ?_, ?_, ?_, ?_, ?_, ?_, ?_, ?_, ?_⟩ <;> (unfold amendableInRange; decide +kernel)
theorem test_met_OpenRefusedInOrder_names : (∀ q : Panel, q.num ≠ (2 : Byte).toNat) ∧ ∀ f : Port, f.num ≠ (3 : Byte).toNat :=
  ⟨fun q => by cases q <;> decide, fun f => by cases f <;> decide⟩

/-- R196: the parameters that the bytes of an OPEN carry, L byte 0 absent, the zone bytes read with bit 2 alone. -/
theorem test_open_bytes :
    (openArgs [1, 0, 149, 0, 255, 0, 7, 2, 0x07, 0x7F, 0x07, 0x7F, 7, 8]).map (fun a => (a.panel, a.feeder, a.params)) =
        some (.centre, .cp2, { band := { first := 0, last := 149 }, cls := .telltale, period := 255, latency := none
                               checking := true, oneShot := true
                               zone := some { firstCol := 1919, lastCol := 1919, debounce := 7, divisor := 8 } }) ∧
      (openArgs [0, 89, 89, 3, 1, 255, 0, 0, 9, 9, 0, 0, 0, 0]).map (fun a => (a.panel, a.feeder, a.params)) =
        some (.cluster, .cp0, { band := { first := 89, last := 89 }, cls := .ambient, period := 1, latency := some 255
                                checking := false, oneShot := false, zone := none }) := by decide +kernel

/-- OPEN refused at checks 4 to 6: one choice in conflict; the second choice alone in conflict; 32 row groups where 31
slots are left for drive; a load one contract too large. -/
theorem test_met_OpenRefusedInOrder_choices :
    keptOpen .cp2 [0, 23, 23, 0, 1, 0, 1, 2, 0, 0, 0, 0, 0, 0] (with3 (contract .cluster .live)) =
        some [(false, true, true)] ∧
      keptOpen .cp1 [0, 15, 15, 1, 1, 0, 0, 0, 0, 0, 0, 0, 0, 0] (with3 crossing) =
        some [(true, true, true), (false, true, true)] ∧
      keptOpen .cp1 [0, 0, 31, 1, 1, 0, 0, 0, 0, 0, 0, 0, 0, 0] (small base) = some [(true, false, false)] ∧
      keptOpen .cp1 [0, 16, 31, 1, 1, 0, 0, 0, 0, 0, 0, 0, 0, 0]
        (small (with3 { crossing with stagedAmendment := none })) = some [(true, true, false)] ∧
      (small (with3 crossing)).firstFree 0 ∧ (small (with3 crossing)).allGood = true := by
  unfold Part.firstFree
  decide +kernel

/-- R34, R39: what those OPENs answer: the handle that stands in the way, and the figures of FIT and LOAD. -/
theorem test_open_refusals :
    let held (p : Port) (ps : List Byte) (b : Part) :=
      ((after (.openContract p) (asks .openContract p ps b)).part.port p).held.map fun a => (a.status, a.payload)
    held .cp2 [0, 23, 23, 0, 1, 0, 1, 2, 0, 0, 0, 0, 0, 0] (with3 (contract .cluster .live)) =
        some (.conflict, [0, 67]) ∧
      held .cp1 [0, 0, 31, 1, 1, 0, 0, 0, 0, 0, 0, 0, 0, 0] (small base) =
        some (.noBudget, [0, 0, 0x07, 0xC0, 0, 0, 0x08, 0x00]) ∧
      held .cp1 [0, 16, 31, 1, 1, 0, 0, 0, 0, 0, 0, 0, 0, 0]
        (small (with3 { crossing with stagedAmendment := none })) =
          some (.noBudget, [1, 0, 0x07, 0xC0, 0, 0, 0x08, 0x00]) := by decide +kernel

/-- AMEND: parameters admitted for a STAGED, a LIVE and a STALE contract, a class change that a STALE one refuses, an
argument out of range, and a band in conflict with a TELLTALE contract. -/
theorem test_met_AmendAdmitted :
    ∀ st ∈ [ContractState.staged, .live, .suspended, .stale],
      (amendParams .cluster [0, 67, 0, 89, 3, 1, 0, 0, 0, 0, 0, 0, 0, 0]).map (fun a =>
        decide (a.cls ≠ .telltale ∧
          ∀ v ∈ choicesOf (viewRecords .cluster
              ((with3 (contract .cluster st)).table.set 3 ((contract .cluster st).amended a))),
            v.exclusive = true ∧ v.fits .cluster 100 = true ∧ v.withinBudget .cluster 100 = true)) = some true := by
  decide +kernel
theorem test_met_AmendRefusedInOrder :
    amendParams .cluster [0, 67, 0, 90, 3, 1, 0, 0, 0, 0, 0, 0, 0, 0] = none ∧
      ((amendParams .cluster [0, 67, 0, 89, 0, 1, 0, 1, 0, 0, 0, 0, 0, 0]).map fun a => a.cls) = some .telltale := by
  decide +kernel

/-- AMEND of a STALE contract: class bytes that ask for a change to TELLTALE and from it; one that changes a GAUGE to
AMBIENT, with bytes that R9 takes and with P 0. -/
theorem test_met_AmendRefusedInOrder_bytes :
    ((contract .cluster .stale).params.cls.rank ≠ (0 : Byte).toNat ∧ (1 : Byte).toNat ≠ ContractClass.telltale.rank ∧
      (3 : Byte).toNat ≠ 0 ∧ (contract .cluster .stale).params.cls ≠ .telltale) ∧
      amendableInRange .cluster 0 89 3 1 0 0 0 0 0 ∧ ¬amendableInRange .cluster 0 89 3 0 0 0 0 0 0 := by
  unfold amendableInRange
  decide +kernel
theorem test_amend_stale :
    let held (r : Record) (ps : List Byte) := ((after (.amend .cp1) (asks .amend .cp1 ps (with3 r))).part.port .cp1).held.map
      fun a => a.status
    let lamp := { contract .cluster .stale with params := { (contract .cluster .stale).params with cls := .telltale } }
    held (contract .cluster .stale) [0, 67, 0, 89, 0, 1, 0, 1, 0, 0, 0, 0, 0, 0] = some .badState ∧
      held lamp [0, 67, 0, 89, 1, 1, 0, 1, 0, 0, 0, 0, 0, 0] = some .badState ∧
      held (contract .cluster .stale) [0, 67, 0, 89, 3, 0, 0, 0, 0, 0, 0, 0, 0, 0] = some .badArg ∧
      held (contract .cluster .stale) [0, 67, 0, 89, 3, 1, 0, 0, 0, 0, 0, 0, 0, 0] = some .staged := by decide +kernel

/-- What each choice keeps once an AMEND of record 3 is admitted. -/
def keptAmend (ps : List Byte) (b : Part) : Option (List (Bool × Bool × Bool)) :=
  (amendParams .cluster ps).map fun a => kept .cluster b (b.table.set 3 ((b.record 3).amended a))

/-- AMEND refused at checks 4 to 6: a TELLTALE band that meets that of record 5, 32 row groups where 31 slots are left,
and a load one contract too large; its record LIVE and STAGED. -/
theorem test_met_AmendRefusedInOrder_choices :
    ∀ st ∈ [ContractState.live, .staged],
      let b := (with3 { contract .cluster st with owner := 2 }).setRecord 5 (contract .cluster .live)
      (b.record 3).owner = Port.cp2.bits ∧ Port.cp2 = b.strap ∧ b.bears 67 = true ∧
        keptAmend [0, 67, 23, 24, 0, 1, 0, 1, 0, 0, 0, 0, 0, 0] b =
          some (if st = .live then [(true, true, true), (false, true, true)] else [(false, true, true)]) ∧
        keptAmend [0, 67, 0, 31, 1, 1, 0, 0, 0, 0, 0, 0, 0, 0] (small b) = some [(true, false, false)] ∧
        keptAmend [0, 67, 0, 29, 1, 1, 0, 0, 0, 0, 0, 0, 0, 0] (small b) = some [(true, true, false)] ∧
        (small b).allGood = true := by decide +kernel

/-- LOOKUP: the 40 bytes of a record that holds something at every offset. -/
theorem test_lookup_bytes :
    ({ zoned .stale 8 with
        confirmed := some 0x01020304, pending := some { tag := 0x1122, sig := some 0x0A0B0C0D, age := 6 }
        lastServed := some 0x3344, stagedAmendment := some (contract .centre .live).params
        zoneState := some (.pressed 9), resumeMark := true, lateMark := true, lastRefresh := some 0x55667788, age := 7
        lateFrames := 5, accum := { groups := 2, sum := 0, tag := none, expected := none }
        lateness := 0x0102 } : Record).lookupBytes =
      [4, 1, 0, 1, 20, 23, 1, 10, 3, 0xFD, 0x36, 1, 2, 3, 4, 0x11, 0x22, 0x0A, 0x0B, 0x0C, 0x0D, 6, 0x33, 0x44, 0, 100, 1, 43,
        2, 8, 9, 7, 5, 2, 1, 2, 0x55, 0x66, 0x77, 0x88] := by decide +kernel

/-- FIND and LIST: the last row group of a panel, the last port, and one beyond each. -/
theorem test_met_FindAndListHandles_find :
    (asks .find .cp0 [1, 149, 149] base).fresh.holds .cp0 .find [1, 149, 149] = true ∧
      Panel.ofNat? (1 : Byte).toNat = some .centre ∧ (149 : Byte).toNat < Config.rowGroups .centre ∧
      Config.rowGroups .centre ≤ (150 : Byte).toNat ∧ (0 : Byte).toNat < (1 : Byte).toNat ∧
      Panel.ofNat? (2 : Byte).toNat = none ∧ base.table.length = 64 ∧
      (asks .find .cp0 [1, 149, 149] base).fresh.allGood = true := by decide +kernel
theorem test_met_FindAndListHandles_list :
    (asks .list .cp0 [2] base).fresh.holds .cp0 .list [2] = true ∧ (2 : Byte).toNat ≤ 2 ∧ 2 < (3 : Byte).toNat ∧
      (asks .list .cp0 [2] base).fresh.allGood = true := by decide +kernel

/-- UPDATE: without a signature where one is needed, with an unnamed flag, and with one, pending before or not. -/
theorem test_met_UpdateActsOnPending :
    let r := contract .cluster .live
    let s := asks .update .cp0 [0, 67, 0, 7, 1, 0, 0, 0, 9] (with3 r)
    s.fresh.holds .cp0 .update [0, 67, 0, 7, 1, 0, 0, 0, 9] = true ∧ s.fresh.bears 67 = true ∧
      (s.part.record 3).feeder = Port.cp0.bits ∧ (s.part.record 3).params.checking = true ∧
      updateArgs [0, 67, 0, 7, 2, 0, 0, 0, 9] = none ∧ updateArgs [0, 67, 0, 7, 0, 0, 0, 0, 9] = some (7, none) ∧
      updateArgs [0, 67, 0, 7, 1, 0, 0, 0, 9] = some (7, some 9) ∧ (s.part.record 3).pending = none ∧
      ((with3 { r with pending := some { tag := 1, sig := none, age := 2 } }).record 3).pending =
        some { tag := 1, sig := none, age := 2 } ∧
      ((with3 (contract .cluster .retiring)).record 3).state = .retiring := by decide +kernel

/-- R105, R196: the greatest tag and signature, and a signature that its flag leaves unread. -/
theorem test_update_bytes :
    updateArgs [0, 67, 0xFF, 0xFF, 1, 0xFF, 0xFE, 0xFD, 0xFC] = some (0xFFFF, some 0xFFFEFDFC) ∧
      updateArgs [0, 67, 0, 0, 0, 1, 2, 3, 4] = some (0, none) := by decide +kernel

/-- Record 3 fails its check: as the first reader of a request, as one of a placed list, with no row NEEDED; a display
port sends the RECALIBRATE. -/
theorem test_met_TableChecksFound :
    spoiled.table.length = 64 ∧ (spoiled.record (67 % 64)).checkGood = false ∧ spoiled.touch.neededRows = [] ∧
      (asks .recalibrate .cp1 [] spoiled).fresh.holds .cp1 .recalibrate [] = true ∧ Port.cp1 ≠ spoiled.strap ∧
      findArgs [1, 0, 149] ≠ none ∧ listArgs [2] ≠ none ∧ (panelConfigArgs [0, 32, 0, 20, 1, 0, 2]).isSome = true ∧
      (spoiled.engine .cluster).state = .down := by decide +kernel
theorem test_met_TableChecksFound_amend :
    let b := spoiled.setRecord 5 (contract .cluster .stale)
    b.bears 69 = true ∧ handleOf [0, 69] = 69 ∧ (b.record (69 % 64)).owner = Port.cp1.bits ∧
      (amendParams .cluster [0, 69, 0, 89, 3, 1, 0, 0, 0, 0, 0, 0, 0, 0]).map (fun a => a.cls) = some .ambient ∧
      (openArgs [0, 0, 30, 1, 1, 0, 1, 2, 0, 0, 0, 0, 0, 0]).map (fun a => a.params.cls) = some .gauge ∧
      (b.record 3).checkGood = false := by decide +kernel

/-- R26: LIST frees the record that fails, and leaves it out. -/
theorem test_list_check :
    let t := after (.list .cp0) (asks .list .cp0 [1] spoiled)
    (t.part.port .cp0).held.map (fun a => a.payload) = some [0] ∧ (t.part.record 3).state = .free ∧
      (t.part.bank .core).record.map (fun r => (r.code, r.detail, r.handle)) = some (.tableCheck, 1, some 67) := by
  decide +kernel

/-- The panel requests: every state of a panel, with a panel that there is and one that there is not. -/
theorem test_met_PanelUpAndDownActByState_and_status :
    ∀ st ∈ [PanelState.down, .starting, .running, .halted],
      ∀ name ∈ [RequestName.panelUp, .panelDown, .panelStatus, .ackCritical],
        let s := asks name .cp2 [1] (panelIn .centre st base)
        s.fresh.holds .cp2 name [1] = true ∧ panelArg [1] = some .centre ∧ panelArg [2] = none ∧
          (s.part.engine .centre).state = st ∧ s.fresh.allGood = true := by decide +kernel

/-- PANEL_CONFIG: a contract of 31 row groups with P 1 needs 31 drive slots; 32 slots give them, a smaller S is out of
range, and beside a second contract 32 are too few. -/
theorem test_met_PanelConfigJudged :
    let r := { contract .cluster .live with params := { (contract .cluster .live).params with
      band := { first := 0, last := 30 }, period := 1 } }
    let ok (slots : Nat) (t : List Record) : Bool :=
      decide (∀ v ∈ choicesOf (viewRecords .cluster t), v.fits .cluster slots = true ∧ v.withinBudget .cluster slots = true)
    panelConfigArgs [0, 31, 0, 20, 1, 0, 2] = none ∧
      ((panelConfigArgs [0, 32, 0, 20, 1, 0, 2]).map fun qc => (qc.1, qc.2.slots)) = some (.cluster, 32) ∧
      ok 32 (with3 r).table = true ∧ ok 32 ((with3 r).setRecord 4 r).table = false ∧
      (with3 r).allGood = true ∧ ((with3 r).engine .cluster).state = .down ∧
      ((panelIn .cluster .running (with3 r)).engine .cluster).state ≠ .down := by decide +kernel

/-- PANEL_CONFIG: each byte at the ends of its range, and one beyond. -/
theorem test_met_PanelConfigJudged_bytes :
    (∀ ps ∈ ([[0, 32, 0, 20, 1, 0, 2], [1, 192, 0x03, 0xE8, 15, 2, 192], [1, 33, 0, 21, 2, 1, 33]] : List (List Byte)),
      (panelConfigArgs ps).isSome = true) ∧
      ∀ ps ∈ ([[2, 32, 0, 20, 1, 0, 2], [0, 31, 0, 20, 1, 0, 2], [0, 193, 0, 20, 1, 0, 2], [0, 32, 0, 19, 1, 0, 2],
          [0, 32, 0x03, 0xE9, 1, 0, 2], [0, 32, 0, 20, 0, 0, 2], [0, 32, 0, 20, 16, 0, 2], [0, 32, 0, 20, 1, 3, 2],
          [0, 32, 0, 20, 1, 0, 1], [0, 32, 0, 20, 1, 0, 33]] : List (List Byte)),
        panelConfigArgs ps = none := by decide +kernel

/-- BACKLIGHT: the duty of the whole period, and one more. -/
theorem test_met_PanelStatusAndBacklight :
    (asks .backlight .cp2 [0, 10] base).fresh.holds .cp2 .backlight [0, 10] = true ∧
      (10 : Byte).toNat ≤ (base.engine .cluster).cfg.blPeriod ∧ (base.engine .cluster).cfg.blPeriod < (11 : Byte).toNat ∧
      Panel.ofNat? (0 : Byte).toNat = some .cluster ∧ Panel.ofNat? (2 : Byte).toNat = none := by decide +kernel

/-- PANEL_STATUS: with a plan, without one but with the last plan's summary, and with neither. -/
theorem test_panel_status_bytes :
    let m : PlanSummary :=
      { drive := 1, fallback := 2, sense := 3, guard := 4, idle := 5, closing := 6, pending := 7, done := 8, timedOut := 9,
        disturbed := 10, abandoned := 11 }
    let b := running .cluster 2 (planOf [.drive 20 3, .fallback 21 3, .idle] []) base
    (b.engine .cluster).statusBytes (b.link .cluster) =
        [2, 100, 0, 167, 4, 1, 10, 10, 10, 0x14, 0, 0, 0, 0, 2, 0, 0, 0, 1, 1, 0, 0, 97, 1, 100, 0, 0, 0, 0] ∧
      ((base.modEngine .cluster fun e => { e with lastSummary := some m }).engine .cluster).statusBytes (base.link .cluster) =
        [0, 100, 0, 167, 4, 1, 10, 10, 10, 0x10, 0, 0, 0, 0, 0, 0, 0, 0, 1, 2, 3, 4, 5, 6, 7, 8, 9, 10, 11] ∧
      (base.engine .cluster).plan = none ∧ (base.engine .cluster).lastSummary = none := by decide +kernel

theorem test_met_StartLimitAndHaltTearDown_limit :
    ((at0 (panelIn .centre .starting base)).part.engine .centre).state = .starting ∧
      (at0 (panelIn .centre .starting base)).fresh.allGood = true ∧ ((at0 base).part.engine .centre).state ≠ .starting := by
  decide +kernel

theorem test_met_StartLimitAndHaltTearDown_halt :
    (((at0 (panelIn .centre .running base)).part.engine .centre).state = .running ∨
        ((at0 (panelIn .centre .running base)).part.engine .centre).state = .starting) ∧
      (at0 (panelIn .centre .running base)).fresh.allGood = true ∧
      ((at0 (panelIn .centre .halted base)).part.engine .centre).state = .halted := by decide +kernel

theorem test_met_ReadyStartsRun :
    ((at0 (panelIn .centre .starting base)).part.engine .centre).state = .starting ∧
      ((at0 (panelIn .centre .running base)).part.engine .centre).state ≠ .starting := by decide

/-- The next slot holds an entry of each kind, with an order of the ending slot in flight. -/
theorem test_met_SlotStartsByKind :
    ∀ k ∈ [EntryKind.drive 20 3, .fallback 20 3, .sense 3, .guard, .idle, .closing],
      let pl := planOf [.drive 21 3, k] []
      let s := at0 ((running .centre 0 pl base).modLink .centre fun l =>
        { l with orders := [{ rowGroup := 21, kind := .drive, slot := 0 }] })
      (s.part.engine .centre).state = .running ∧ (s.part.engine .centre).slot = some 0 ∧
        0 + 1 < (s.part.engine .centre).cfg.slots ∧ (∀ o ∈ (s.part.link .centre).orders, 0 ≤ o.slot) ∧
        (s.part.engine .centre).plan = some pl ∧ pl.entries[0 + 1]? = some { kind := k, outcome := .pending } := by
  decide +kernel
/-- A boundary with an overdue order, the oldest that there is. -/
theorem test_met_SlotStartsByKind_overdue :
    let s := at0 ((running .cluster 4 (planOf [.idle, .idle, .idle, .drive 20 3, .drive 21 3] []) base).modLink .cluster
      fun l => { l with orders := [{ rowGroup := 20, kind := .drive, slot := 3 }, { rowGroup := 21, kind := .drive, slot := 4 }] })
    (∃ t, exec (.orderTimeout .cluster) s = .next t) ∧ ((s.part.link .cluster).overdue 4).length = 1 :=
  ⟨⟨_, rfl⟩, by decide +kernel⟩
/-- Two contracts whose capture slot is the slot that starts; one that is suspended, one of another slot. -/
theorem test_met_SlotStartsByKind_captures :
    let of (n slot : Nat) : Placed := { handle := 64 + n, kind := .drive, band := { first := 20, last := 23 }, captureSlot := some slot }
    let pl := planOf [.idle, .drive 20 3] [of 3 1, of 4 1, of 5 1, of 6 2]
    let r := { contract .cluster .live with pending := some { tag := 7, sig := some 9, age := 0 } }
    let b := running .cluster 0 pl ((((with3 r).setRecord 4 { r with pending := none, confirmed := some 8 }).setRecord 5
      (contract .cluster .suspended)).setRecord 6 r)
    (b.engine .cluster).plan = some pl ∧ pl.entries[1]?.map Entry.kind = some (.drive 20 3) ∧ b.table.length = 64 ∧
      b.allGood = true ∧
      (b.startSlot .cluster 1).table.map (fun r => (r.accum.tag, r.accum.expected)) =
        List.replicate 3 (none, none) ++ [(some 7, some 9), (none, some 8)] ++ List.replicate 59 (none, none) := by
  decide +kernel
/-- R72: a burst of the split run is judged by slot M - 2, one of the lead run by the carried outcome; a slot M - 2 that
issued no order, and a lead run without a carried outcome, disturb none. -/
theorem test_met_SlotStartsByKind_disturbed :
    let pl (k : EntryKind) (o : EntryOutcome) (carried : Option EntryOutcome) : Plan :=
      let whole := planOf ([.sense 3] ++ List.replicate 47 .idle ++ [k, .guard, .sense 4]) []
      { whole with entries := whole.entries.modify 48 fun x => { x with outcome := o }, carried := carried }
    let disturbed (j : Nat) (pl : Plan) := ((running .centre 0 pl base).startSlot .centre j).touch.burst.map fun u =>
      (u.row, u.disturbed)
    disturbed 50 (pl (.drive 20 3) .timedOut none) = some (4, true) ∧
      disturbed 50 (pl (.fallback 20 3) .timedOut none) = some (4, true) ∧
      disturbed 50 (pl (.drive 20 3) .done (some .timedOut)) = some (4, false) ∧
      disturbed 50 (pl .idle .timedOut (some .timedOut)) = some (4, false) ∧
      disturbed 0 (pl (.drive 20 3) .done (some .timedOut)) = some (3, true) ∧
      disturbed 0 (pl (.drive 20 3) .timedOut none) = some (3, false) := by decide +kernel
theorem test_met_SlotStartsByKind_stopped : ((at0 base).part.engine .centre).slot = none := by decide

theorem test_met_FrameTurnBeginsFrame :
    let s := at0 (running .cluster 99 (planOf [] []) base)
    (s.part.engine .cluster).state = .running ∧ (s.part.engine .cluster).slot = some 99 ∧
      (s.part.engine .cluster).cfg.slots ≤ 99 + 1 := by decide +kernel

/-- A turn over a RETIRING, a STAGED and a SUSPENDED contract, the last with its resume mark. -/
theorem test_met_TurnTakesRecords :
    let b := ((with3 (zoned .retiring 1)).setRecord 4 (zoned .staged 1)).setRecord 5
      { zoned .suspended 1 with resumeMark := true, zoneState := some (.pressed 2) }
    b.table.length = 64 ∧ b.allGood = true ∧ (b.record 5).panel = .centre ∧ (b.record 5).resumeMark = true := by
  decide +kernel

/-- Record by record: an amendment taken, with and without a change of band; one to TELLTALE, which clears the late mark;
one that a STALE contract drops; the suspend mark of a LIVE contract, and of one in fallback; a first turn. -/
theorem test_met_TurnTakesRecords_record :
    let r := { contract .cluster .live with
      age := 5, pending := some { tag := 7, sig := some 9, age := 1 }, confirmed := some 8, lateMark := true, lateFrames := 2 }
    let newer (cls : ContractClass) (last : Nat) : Option Params :=
      some { r.params with cls := cls, band := { first := 20, last := last } }
    let turn (first : Bool) (r : Record) := (r.turn first).record
    turn false { r with stagedAmendment := newer .info 23 } =
        { r with params := { r.params with cls := .info }, age := 6, pending := some { tag := 7, sig := some 9, age := 2 } } ∧
      turn false { r with stagedAmendment := newer .info 24 } =
        { r with params := { r.params with cls := .info, band := { first := 20, last := 24 } }, age := 10, pending := none
                 confirmed := none } ∧
      turn false { r with stagedAmendment := newer .telltale 23 } =
        { r with params := { r.params with cls := .telltale }, age := 6, pending := some { tag := 7, sig := some 9, age := 2 }
                 lateMark := false, lateFrames := 0 } ∧
      turn false { r with state := .stale, stagedAmendment := newer .telltale 23 } =
        { r with state := .stale, age := 6, pending := some { tag := 7, sig := some 9, age := 2 } } ∧
      turn false { r with suspendMark := true } = { r with state := .suspended, lateMark := false, lateFrames := 0 } ∧
      turn false { r with state := .stale, fallback := true, suspendMark := true } =
        { r with state := .stale, fallback := true, age := 6, pending := some { tag := 7, sig := some 9, age := 2 } } ∧
      turn true r = { r with age := 10 } ∧ (r.turn true).fresh = true := by decide +kernel

/-- R159: the turn that resumes a contract sets its press state IDLE and empties its candidate, with no ZONE notice. -/
theorem test_resume_press_state :
    let b := (with3 { zoned .suspended 1 with resumeMark := true, zoneState := some (.pressed 2) }).modTouch fun t =>
      { t with candidates := t.candidates.set 3 (some { handle := 67, contact := 2, run := 3 }) }
    let c := b.turnClaim .centre false
    ((c.record 3).state, (c.record 3).zoneState, c.touch.candidate 3) = (.live, some .idle, none) ∧
      (c.port .cp1).noticeSet.zone = 0 := by decide +kernel

/-- The bounds met exactly and passed by one; the greatest count of late frames at the least and the greatest grace. -/
theorem test_met_BreachActsByClass :
    let r := { contract .cluster .live with age := 10, pending := some { tag := 1, sig := none, age := 3 } }
    r.breached = false ∧ ({ r with age := 11 } : Record).breachDetail = 1 ∧
      ({ r with pending := some { tag := 1, sig := none, age := 4 } } : Record).breachDetail = 2 ∧
      ({ r with age := 11, pending := some { tag := 1, sig := none, age := 4 } } : Record).breachDetail = 3 ∧
      (∀ k ∈ [0, 1, 15, 16],
        let late := { r with age := 11, lateMark := true, lateFrames := k }
        ((with3 late).engine .cluster).cfg.grace = 4 ∧
          ((with3 late).breachOne .cluster 3).record 3 =
            { late with lateFrames := if k < 16 then k + 1 else k, state := if 4 ≤ k then .stale else .live }) := by
  decide +kernel

/-- No zone; a zone on row 2 that is new, and one whose scan set is held, SCANNING. -/
theorem test_met_ScanSetRecomputed :
    let b := with3 (zoned .live 1)
    base.allGood = true ∧ (base.rescan .centre).touch.scanSet = 0 ∧ b.allGood = true ∧
      (b.rescan .centre).touch.scanSet = 0x04 ∧ (b.rescan .centre).touch.state = .scanning ∧
      ((b.rescan .centre).rescan .centre).touch = (b.rescan .centre).touch := by decide +kernel

/-- A band that fits the free slots exactly, and one slot short of it. -/
theorem test_met_PlanPlacesContracts :
    let r := { contract .cluster .live with age := 10 }
    let x (free : Nat) : Build :=
      { draft := [some .idle] ++ List.replicate free none ++ [some (.drive 21 9), some .closing], placed := [], skipped := [] }
    r.isDue .cluster = true ∧ r.params.band.last < 256 ∧ (with3 r).table.length = 64 ∧
      (x 3).take (3, r) =
        { draft := [some .idle, some (.drive 20 3), some (.drive 22 3), some (.drive 23 3), some (.drive 21 9), some .closing]
          placed := [{ handle := 67, kind := .drive, band := { first := 20, last := 23 }, captureSlot := some 1 }]
          skipped := [] } ∧
      (x 2).take (3, r) = { x 2 with skipped := [67] } := by decide +kernel

/-- A centre panel of 32 slots, each of them an edge: every SENSE is deferred, a band of 32 row groups is skipped beside
the one CLOSING slot, and the old plan's slot S - 2 timed out. -/
theorem test_met_PlanPlacesContracts_plan :
    let whole := planOf (List.replicate 98 .idle ++ [.drive 20 3]) []
    let old := { whole with entries := whole.entries.modify 98 fun x => { x with outcome := .timedOut } }
    let wide := { contract .centre .live with
      age := 10, params := { (contract .centre .live).params with band := { first := 0, last := 31 } } }
    let b := ((running .centre 99 old ((with3 (zoned .live 1)).setRecord 4 wide)).modEngine .centre fun e =>
      { e with cfg := { e.cfg with slots := 32, blPeriod := 2 }, duty := 1 }).modTouch fun t =>
        { t with state := .scanning, scanSet := 0x7FFE
                 frame := some { rows := 0x7FFE, results := List.replicate 15 none, threshold := 60, placement := .lead } }
    let c := b.buildPlan .centre
    (c.bank .touch).record.map (fun r => (r.code, r.detail)) = some (.senseDeferred, 1) ∧
      (c.bank .centre).record.map (fun r => (r.code, r.handle, r.detail)) = some (.planShort, some 68, 1) ∧
      (c.engine .centre).plan.map (fun pl => (pl.placed, pl.carried, pl.entries.length)) = some ([], some .timedOut, 32) := by
  decide +kernel
/-- The due order: a fallback mark first; of equal slack the class of lower rank, then the lower number. -/
theorem test_met_PlanPlacesContracts_due :
    let r := { contract .cluster .live with age := 10 }
    let b := (((with3 { r with params := { r.params with cls := .info } }).setRecord 4 r).setRecord 5 r).setRecord 6
      { r with state := .stale, fallback := true, params := { r.params with cls := .telltale } }
    b.table.length = 64 ∧ (dueSet .cluster b.table).map Prod.fst = [6, 4, 5, 3] ∧
      (dueSet .cluster b.table).map (fun x => x.2.slack) = [0, 0, 0, 0] := by decide +kernel

/-- SCANNING all fifteen rows, the least divisor 1 and 8; no row; each placement, the GUARD behind a second walk. -/
theorem test_met_PlanPlacesSenses :
    let at15 (pl : Placement) (d : Nat) : Part := (with3 (zoned .live d)).modTouch fun t =>
      { t with state := .scanning, scanSet := 0x7FFF
               frame := some { rows := 0x7FFF, results := List.replicate 15 none, threshold := 60, placement := pl } }
    let edge (j : Nat) : Bool := j == 0 || j == 4
    ((at15 .lead 8).sensePlanFor .centre edge 8 = { sense := [1, 2], idle := [0], guard := none, deferred := 0 }) ∧
      ((at15 .lead 1).sensePlanFor .centre edge 8 = { sense := [1, 2, 3, 5, 6], idle := [0, 4], guard := none, deferred := 10 }) ∧
      ((at15 .split 8).sensePlanFor .centre edge 8 = { sense := [1, 5], idle := [0, 4], guard := some 3, deferred := 0 }) ∧
      ((at15 .split 1).sensePlanFor .centre edge 2 = { sense := [], idle := [], guard := none, deferred := 15 }) ∧
      base.touch.state ≠ .scanning ∧ [1, 5].Nodup ∧ [1, 5].length ≤ (at15 .split 8).touch.neededRows.length := by decide +kernel

/-- The order of slot 3 times out at the boundary that ends slot 4, as the third in a row; that of slot 4 does not. -/
theorem test_met_OrderTimesOut :
    let pl := planOf [.idle, .idle, .idle, .drive 20 3, .drive 21 3] [item .drive]
    let o : Order := { rowGroup := 20, kind := .drive, slot := 3 }
    let o' : Order := { rowGroup := 21, kind := .drive, slot := 4 }
    let s := at0 ((running .cluster 4 pl (with3 (contract .cluster .live))).modLink .cluster fun _ =>
      { orders := [o, o'], timeouts := 2 })
    (s.part.engine .cluster).state = .running ∧ (s.part.engine .cluster).slot = some 4 ∧
      (s.part.engine .cluster).plan = some pl ∧ (s.part.link .cluster).orders = [o, o'] ∧ o.slot < 4 ∧
      (∀ x ∈ [o'], 4 ≤ x.slot) ∧ (s.part.link .cluster).timeouts = 2 := by decide +kernel

theorem test_met_DoneCompletesOrDiscards :
    let o : Order := { rowGroup := 20, kind := .drive, slot := 3 }
    let o' : Order := { rowGroup := 21, kind := .drive, slot := 4 }
    let s := at0 ((running .cluster 4 (planOf [] []) base).modLink .cluster fun l => { l with orders := [o, o'] })
    (s.part.engine .cluster).state = .running ∧ (s.part.link .cluster).orders = [o] ++ o' :: [] ∧ o'.rowGroup = 21 ∧
      (∀ x ∈ [o], x.rowGroup ≠ 21) ∧ (∀ x ∈ (s.part.link .cluster).orders, x.rowGroup ≠ 22) := by decide +kernel

theorem test_met_PanelFaultHandsHalt :
    ((at0 base).part.bank (Bank.ofPanel .centre)).enabled = true ∧
      ((at0 base).part.bank (Bank.ofPanel .centre)).record = none ∧
      ((at0 (base.setBank .centre { base.bank .centre with enabled := false })).part.bank (Bank.ofPanel .centre)).enabled =
        false := by decide

/-- A completion credited short of the band's end. -/
theorem test_met_CompletionCredited :
    let s := crediting .drive (partDone 2 0x320 (contract .cluster .live)) 0x310
    let r := s.part.record 3
    (s.part.credit .cluster).completions = [{ rowGroup := 23, sig := 0x310, kind := .drive, slot := 3 }] ∧
      (s.part.creditList .cluster).filter (fun y => y.band.has 23) = [item .drive] ∧ 3 = (item .drive).handle % 64 ∧
      r.checkGood = true ∧ r.handle 3 = (item .drive).handle ∧ r.state = .live ∧
      r.accum.groups + 1 ≠ (item .drive).band.size := by decide +kernel

/-- A row group of two listed contracts, the higher number listed first: the lower is credited and judged before. Both
mismatch, and the record slot keeps the first claim. -/
theorem test_met_CompletionCredited_shared :
    let r := { partDone 3 0x640 (contract .cluster .live) with confirmed := some 0xA00 }
    let other : Placed := { item .drive with handle := 69 }
    let c : Completion := { rowGroup := 23, sig := 0x420, kind := .drive, slot := 3 }
    let s := at0 ((running .cluster 5 (planOf [.drive 20 3, .drive 21 3, .drive 22 3, .drive 23 3] [other, item .drive])
      ((with3 r).setRecord 5 r)).modCredit .cluster fun k => { k with completions := [c] })
    let t := after (.completionCredit .cluster) s
    (s.part.credit .cluster).completions = [c] ∧
      [item .drive, other].Perm ((s.part.creditList .cluster).filter fun y => y.band.has 23) ∧
      [item .drive, other].Pairwise (fun x y => x.handle % 64 < y.handle % 64) ∧
      (s.part.record 3).checkGood = true ∧ (s.part.record 3).handle 3 = (item .drive).handle ∧
      (t.part.record 3).state = .stale ∧ (t.part.record 5).state = .stale ∧
      (t.part.bank .cluster).record.map (fun r => (r.handle, r.overflow)) = some (some 67, true) := by decide +kernel

/-- No completion; a completion of a contract that was suspended, and one of a record that was freed meanwhile. -/
theorem test_met_CompletionCredited_none :
    ((at0 base).part.credit .cluster).completions = [] ∧
      ∀ r ∈ [contract .cluster .suspended, Record.freeWith 2],
        let s := crediting .drive r 0x310
        (∀ y ∈ s.part.creditList .cluster, y.band.has 23 = true →
          (s.part.record (y.handle % 64)).checkGood = true ∧
            ((s.part.record (y.handle % 64)).handle (y.handle % 64) ≠ y.handle ∨
              ((s.part.record (y.handle % 64)).state ≠ .live ∧ (s.part.record (y.handle % 64)).state ≠ .stale))) := by
  decide +kernel

/-- The last group of a band, in each case of the judgement: the order's kind, the record before, the signature that
comes, and what the record shows after it: state, tag served, confirmed signature, whether an update is still pending. -/
def judgements : List (OrderKind × Record × Signature × (ContractState × Option Tag × Option Signature × Bool)) :=
  let r := partDone 3 0x630 (contract .cluster .live)
  let u : PendingUpdate := { tag := 7, sig := some 0xA40, age := 1 }
  let plain (r : Record) : Record := { r with params := { r.params with checking := false } }
  [ (.fallback, { r with pending := some u }, 0x410, (.live, none, none, true)),
    (.drive, plain r, 0x410, (.live, none, none, false)),
    (.drive, plain { r with pending := some u, state := .stale, fallback := true }, 0x999, (.stale, some 7, none, false)),
    (.drive, { r with pending := some u, state := .stale, fallback := true }, 0x410, (.live, some 7, some 0xA40, false)),
    (.drive, { r with pending := some { u with tag := 8 } }, 0x410, (.live, some 7, some 0xA40, true)),
    (.drive, r, 0x410, (.live, some 7, some 0xA40, false)),
    (.drive, { r with accum := { r.accum with tag := none }, confirmed := some 0xA40 }, 0x410, (.live, none, some 0xA40, false)),
    (.drive, { r with pending := some { u with tag := 8, sig := some 0xA41 } }, 0x411, (.live, some 8, some 0xA41, false)),
    (.drive, { r with state := .stale }, 0x411, (.live, none, some 0xA41, false)) ]

/-- The premises of every case but the mismatch, with what each leaves: a FALLBACK refresh; without checking, nothing
pending and an update served; the captured update served, one newer left, one replaced by nothing; nothing captured; newer
content already drawn; first sight. -/
theorem test_met_CompleteRefreshJudged :
    ∀ x ∈ judgements,
      let s := crediting x.1 x.2.1 x.2.2.1
      let r := s.part.record 3
      let t := after (.completionCredit .cluster) s
      (s.part.creditList .cluster).filter (fun y => y.band.has 23) = [item x.1] ∧ r.checkGood = true ∧
        r.handle 3 = (item x.1).handle ∧ (r.state = .live ∨ r.state = .stale) ∧
        r.accum.groups + 1 = (item x.1).band.size ∧ s.part.table.length = 64 ∧
        ((t.part.record 3).state, (t.part.record 3).lastServed, (t.part.record 3).confirmed,
          (t.part.record 3).pending.isSome) = x.2.2.2 := by decide +kernel

/-- A one-shot contract whose update is served ends: RETIRING on a RUNNING panel, FREE where the panel was stopped. -/
theorem test_met_CompleteRefreshJudged_oneShot :
    let r := partDone 3 0x630 (contract .cluster .live)
    let s := crediting .drive { r with
      params := { r.params with oneShot := true }, pending := some { tag := 7, sig := some 0xA40, age := 1 } } 0x410
    let stopped := at0 (((s.part.modEngine .cluster fun e => { e with state := .down, plan := none }).modCredit .cluster
      fun k => { k with keptPlaced := some [item .drive] }))
    ((after (.completionCredit .cluster) s).part.record 3).state = .retiring ∧
      (stopped.part.creditList .cluster).filter (fun y => y.band.has 23) = [item .drive] ∧
      ((after (.completionCredit .cluster) stopped).part.record 3) = Record.freeWith 2 := by decide +kernel

/-- A mismatch: nothing pending and a confirmed signature; a pending update of another signature. -/
theorem test_met_CompleteRefreshJudged_mismatch :
    let r := { partDone 3 0x630 (contract .cluster .live) with confirmed := some 0xA00 }
    r.accum.expected ≠ some (r.accum.sum + 0x411) ∧ (∀ u ∈ r.pending, u.sig ≠ some (r.accum.sum + 0x411)) ∧
      (r.pending = none → r.confirmed ≠ none) ∧
      ((after (.completionCredit .cluster) (crediting .drive r 0x411)).part.record 3).state = .stale ∧
      ((after (.completionCredit .cluster) (crediting .drive
        { r with confirmed := none, pending := some { tag := 8, sig := some 1, age := 0 } } 0x411)).part.record 3).state =
          .stale := by decide +kernel

/-- No burst; a disturbed one; one of a lost touch frame; one of a row not needed; a count at each end of the range. -/
theorem test_met_SenseCompleteFiled :
    (at0 base).part.touch.burst = none ∧
      (sensing 0x18 0 true false).part.touch.burst = some { row := 3, slot := 1, disturbed := true, lost := false } ∧
      (sensing 0x18 0 false true).part.touch.burst = some { row := 3, slot := 1, disturbed := false, lost := true } ∧
      (3 ∉ (sensing 0x10 0 false false).part.touch.neededRows) ∧ 3 ∈ (sensing 0x18 0 false false).part.touch.neededRows ∧
      (sensing 0x18 0 false false).part.touch.calibrated.getLsbD 3 = false := by decide +kernel
theorem test_met_SenseCompleteFiled_counts :
    (∃ c ∈ (Vector.replicate 24 (0 : RawCount)).toList, c = 0 ∨ c = 4095) ∧
      ∃ c ∈ (Vector.replicate 24 (4095 : RawCount)).toList, c = 0 ∨ c = 4095 :=
  ⟨⟨0, by simp, .inl rfl⟩, ⟨4095, by simp, .inr rfl⟩⟩

/-- A calibration burst at both ends of the good range, with another row needed and not; a measurement burst. -/
theorem test_met_GoodBurstScansRow :
    (sensing 0x18 0 false false).part.touch.state = .scanning ∧
      (sensing 0x18 0 false false).part.touch.calibrated.getLsbD 3 = false ∧
      (sensing 0x18 0x18 false false).part.touch.calibrated.getLsbD 3 = true ∧
      (sensing 0x18 0 false false).part.touch.neededRows = [3, 4] ∧
      (sensing 0x08 0 false false).part.touch.neededRows = [3] ∧
      ((sensing 0x08 0 false false).part.touch.frame.map fun f => f.results.length) = some 15 := by decide +kernel
theorem test_met_GoodBurstScansRow_counts :
    (∀ c ∈ (Vector.replicate 24 (1 : RawCount)).toList, c ≠ 0 ∧ c ≠ 4095) ∧
      ∀ c ∈ (Vector.replicate 24 (4094 : RawCount)).toList, c ≠ 0 ∧ c ≠ 4095 := by
  refine ⟨fun c h => ?_, fun c h => ?_⟩ <;>
    (obtain rfl : c = _ := by simpa using h
     decide)

/-- A delta map of rows 0 and 14 with a peak in each corner they have, and two equal neighbours, the first of them a peak. -/
def corners : HandOver :=
  { map := [[100, 0] ++ List.replicate 21 0 ++ [99]] ++ List.replicate 13 (List.replicate 24 0) ++
      [[70, 70] ++ List.replicate 21 0 ++ [60]]
    threshold := 60, rows := 0x7FFF, calibrated := 0x7FFF }

/-- Nodes at the edges of the panel; a record at distance 160 and one at 161; the table with nine records and with ten. -/
theorem test_met_PeaksBecomeContacts :
    let c (id x : Nat) : Contact := { id := id, state := .held, x := x, y := 40, strength := 9, framesHeld := 255, zone := none }
    let k : Peak := { row := 0, x := 40, y := 40, strength := 100 }
    corners.isPeak 0 0 = true ∧ corners.isPeak 0 23 = true ∧ corners.isPeak 14 0 = true ∧ corners.isPeak 14 1 = false ∧
      corners.isPeak 14 23 = true ∧ corners.orderedPeaks.map Peak.strength = [100, 99, 70, 60] ∧
      matchPeaks [k] [{ contact := c 0 201, matched := false }, { contact := c 1 200, matched := false }] =
        ([{ contact := c 0 201, matched := false },
          { contact := { c 1 200 with x := 40, strength := 100 }, matched := true }], []) ∧
      matchPeaks [k] [{ contact := c 0 201, matched := false }] = ([{ contact := c 0 201, matched := false }], [k]) ∧
      (touchDown ((List.range 9).map fun n => c n 0) [k]).1.map Contact.id = List.range 10 ∧
      (touchDown ((List.range 10).map fun n => c n 0) [k]).2 = [k] := by decide +kernel

/-- A contact at each corner of a zone's rectangle and beyond; a run at the debounce and one short of it; the contact that
presses leaves while another stays. -/
theorem test_met_ZonesFollowContacts :
    let c (id x y : Nat) : Contact :=
      { id := id, state := .held, x := x, y := y, strength := 9, framesHeld := 0, zone := some 67 }
    let b (z : ZoneState) (k : Option PressCandidate) (cs : List Contact) : Part :=
      (with3 { zoned .live 1 with zoneState := some z }).modTouch fun t =>
        { t with contacts := cs, candidates := t.candidates.set 3 k }
    let run (n : Nat) : Option PressCandidate := some { handle := 67, contact := 4, run := n }
    let z (b : Part) := ((b.pressOne 3).record 3).zoneState
    (∀ xy ∈ [(100, 160), (299, 160), (100, 191), (299, 191)],
      ((c 4 xy.1 xy.2).associate (with3 (zoned .live 1)).table).zone = some 67) ∧
      (∀ xy ∈ [(99, 160), (300, 160), (100, 159), (299, 192)],
        ((c 4 xy.1 xy.2).associate (with3 (zoned .live 1)).table).zone = none) ∧
      z (b .idle (run 1) [c 4 100 160]) = some (.pressed 4) ∧ z (b .idle none [c 4 100 160]) = some .idle ∧
      z (b (.pressed 4) (run 7) []) = some .idle ∧ z (b (.pressed 4) (run 7) [c 4 100 160, c 5 100 160]) = some (.pressed 4) ∧
      z (b (.pressed 3) (run 7) [c 4 100 160, c 5 100 160]) = some (.pressed 4) ∧
      ((b .idle (some { handle := 3, contact := 4, run := 7 }) [c 4 100 160]).pressOne 3).touch.candidate 3 = run 1 ∧
      (b .idle none []).allGood = true ∧ (with3 (zoned .live 1)).table.length = 64 := by decide +kernel

/-- R161: a contact with a zone and one without. -/
theorem test_contact_bytes :
    let c (zone : Option Nat) : Contact :=
      { id := 15, state := .lifted, x := 1919, y := 1199, strength := 0x0102, framesHeld := 255, zone := zone }
    (((after (.contacts .cp0) (asks .contacts .cp0 [] (base.modTouch fun t =>
        { t with contacts := [c (some 67), c none] }))).part.port .cp0).held.map fun a => a.payload) =
      some [0, 0, 0, 0, 0, 0, 0, 2, 15, 2, 0x07, 0x7F, 0x04, 0xAF, 1, 2, 255, 0, 67,
        15, 2, 0x07, 0x7F, 0x04, 0xAF, 1, 2, 255, 0xFF, 0xFF] := by decide +kernel

/-- TOUCH_CONFIG: the ends of the threshold's range and of the placement's; RECALIBRATE from a display port with a zone and without one. -/
theorem test_met_TouchRequestsAct :
    touchConfigArgs [0, 0, 0] = none ∧ touchConfigArgs [4, 0, 0] = none ∧ touchConfigArgs [0, 1, 2] = none ∧
      touchConfigArgs [0, 1, 0] = some { threshold := 1, placement := .lead } ∧
      touchConfigArgs [3, 0xFF, 1] = some { threshold := 1023, placement := .split } ∧
      (asks .recalibrate .cp1 [] base).fresh.holds .cp1 .recalibrate [] = true ∧
      (asks .recalibrate .cp1 [] base).fresh.allGood = true ∧
      ¬ (Port.cp1 = base.strap ∨ ∃ r ∈ base.table,
        r.state ≠ .free ∧ r.panel = .centre ∧ r.params.zone.isSome = true ∧ r.owner = Port.cp1.bits) ∧
      (∃ r ∈ (with3 { contract .centre .live with params := { (contract .centre .live).params with
          zone := some { firstCol := 0, lastCol := 1919, debounce := 7, divisor := 8 } } }).table,
        r.state ≠ .free ∧ r.panel = .centre ∧ r.params.zone.isSome = true ∧ r.owner = Port.cp1.bits) ∧
      (asks .contacts .cp1 [] base).fresh.holds .cp1 .contacts [] = true := by decide +kernel

/-- FAULT_READ, FAULT_CLEAR, ACK_CRITICAL: the last bank and one beyond, a set flag and a clear one. -/
theorem test_met_FaultReadClearAck :
    (asks .faultRead .cp2 [3] base).fresh.holds .cp2 .faultRead [3] = true ∧
      (asks .faultClear .cp2 [3] base).fresh.holds .cp2 .faultClear [3] = true ∧ bankArg [3] = some .core ∧
      bankArg [4] = none ∧ panelArg [1] = some .centre ∧ panelArg [2] = none ∧ (base.engine .centre).critical = false ∧
      ((base.modEngine .centre fun e => { e with critical := true }).engine .centre).critical = true := by decide +kernel

/-- FAULT_READ: a record with everything in it, and an empty slot; NOTICES: members at both ends of each set. -/
theorem test_fault_read_bytes :
    let r : FaultRecord := { cls := .critical, code := .tableCheck, scope := .part, panel := some .centre, handle := some 0x1234,
                             detail := 7, frame := 0x01020304, overflow := true, injected := true }
    ({ base.bank .core with record := some r, mask := 5, count := 3 } : FaultBank).readBytes true =
        [0x1F, 2, 16, 2, 1, 0x12, 0x34, 7, 1, 2, 3, 4, 1, 5, 16, 3, 1] ∧
      (base.bank .core).readBytes false = [0, 0, 0, 0, 0, 0xFF, 0xFF, 0, 0, 0, 0, 0, 1, 7, 16, 0, 0] := by decide +kernel
theorem test_notices_bytes :
    ({ contract := bitOf 64 0 ||| bitOf 64 63, zone := bitOf 64 15, contacts := true, panel := 3, fault := 8, threshold := 1
       critical := 2 } : NoticeSet).bytes =
      [0x7F, 1, 0, 0, 0, 0, 0, 0, 0x80, 0, 0x80, 0, 0, 0, 0, 0, 0, 3, 8, 1, 2] := by decide +kernel

/-- FAULT_CONTROL: each argument at the end of its range and one beyond. -/
theorem test_met_FaultControlReplaces :
    (asks .faultControl .cp2 [3, 1, 7, 255, 1] base).fresh.holds .cp2 .faultControl [3, 1, 7, 255, 1] = true ∧
      Bank.ofNat? (3 : Byte).toNat = some .core ∧ (1 : Byte).toNat ≤ 1 ∧ (7 : Byte).toNat < 8 ∧ (255 : Byte) ≠ 0 ∧
      Bank.ofNat? (4 : Byte).toNat = none ∧ 1 < (2 : Byte).toNat ∧ 8 ≤ (8 : Byte).toNat ∧ (0 : Byte) = 0 := by
  decide +kernel

/-- INJECT: each byte at the ends of its range and one beyond; the enable off and on. -/
theorem test_met_InjectTakesClaim :
    (asks .inject .cp2 [3, 2, 16, 2, 255] base).fresh.holds .cp2 .inject [3, 2, 16, 2, 255] = true ∧
      (injectArgs [3, 2, 16, 2, 255]).isSome = true ∧ (injectArgs [0, 0, 1, 0, 0]).isSome = true ∧
      injectArgs [0, 0, 0, 0, 0] = none ∧ injectArgs [0, 0, 17, 0, 0] = none ∧ injectArgs [4, 0, 1, 0, 0] = none ∧
      injectArgs [0, 3, 1, 0, 0] = none ∧ injectArgs [0, 0, 1, 3, 0] = none ∧ base.faults.injectEnable = false ∧
      ({ base with faults := { base.faults with injectEnable := true } } : Part).faults.injectEnable = true := by
  decide +kernel

/-- A corrected claim one short of the threshold, at an enabled bank and at a disabled one; a held record of each class. -/
theorem test_met_ClaimTakenAtBank :
    let c : Claim := { code := .late, cls := .corrected, scope := .contract, panel := some .centre, handle := some 67, detail := 1 }
    let held (cls : FaultClass) : FaultBank := { base.bank .centre with
      count := 15, record := some (FaultRecord.ofClaim { c with cls := cls } 0 false false) }
    (base.bank .centre).threshold = 16 ∧ (base.bank .centre).reports .corrected = true ∧
      (∀ cls ∈ [FaultClass.corrected, .contained, .critical],
        let b := (base.setBank .centre (held cls)).claim .centre c
        (b.bank .centre).count = 0 ∧ (b.bank .centre).record.map FaultRecord.overflow = some true ∧
          (b.port .cp2).noticeSet.threshold = 2) ∧
      ((base.setBank .centre { held .corrected with enabled := false }).claim .centre c).bank .centre =
        { held .corrected with enabled := false } ∧
      (base.claim .centre c).port .cp2 = (base.raiseAt .cp2 (.fault .centre)).port .cp2 := by decide +kernel

/-- Each scope at an enabled bank and a disabled one: CONTRACT with the flag clear, with it set and on a stopped panel;
PANEL with LINK_LOSS; PART with TABLE_CHECK. What it leaves: flag and halt mark of the cluster panel, halt mark of the
centre panel, the CRITICAL notice. -/
theorem test_met_EscalationActsByScope :
    ∀ enabled ∈ [true, false],
      let c (code : FaultCode) (scope : FaultScope) : Claim :=
        { code := code, cls := .critical, scope := scope, panel := some .cluster, handle := some 67, detail := 1 }
      let left (b : Part) (c : Claim) :=
        let t := (b.setBank .cluster { b.bank .cluster with enabled := enabled }).claim .cluster c
        ((t.engine .cluster).critical, (t.engine .cluster).haltHanded, (t.engine .centre).haltHanded,
          (t.port .cp2).noticeSet.critical)
      let run := running .cluster 0 (planOf [] []) base
      left run (c .telltaleMiss .contract) = (true, false, false, 1) ∧
        left (run.modEngine .cluster fun e => { e with critical := true }) (c .sigMismatch .contract) =
          (true, true, false, 1) ∧
        left base (c .sigMismatch .contract) = (false, false, false, 1) ∧
        left run (c .linkLoss .panel) = (false, true, false, 1) ∧
        left run (c .tableCheck .part) = (false, true, true, 3) := by decide +kernel

/-- SET_ATTENTION: all seven kinds, and the unnamed bit. -/
theorem test_met_PortRequestsAct :
    (asks .setAttention .cp1 [127] base).fresh.holds .cp1 .setAttention [127] = true ∧ (127 : Byte).toNat < 128 ∧
      128 ≤ (128 : Byte).toNat ∧ (asks .notices .cp1 [] base).fresh.holds .cp1 .notices [] = true ∧
      (asks .identify .cp1 [] base).fresh.holds .cp1 .identify [] = true := by decide +kernel

theorem test_met_WarmResetEveryBlock :
    let s := asks .warmReset .cp2 [] (running .cluster 0 (planOf [] []) (with3 (contract .cluster .live)))
    s.fresh.holds .cp2 .warmReset [] = true ∧ (s.part.engine .cluster).state = .running ∧
      (s.part.engine .centre).state = .down := by decide +kernel

/-! ### States the laws hold of -/

/-- A RUNNING cluster panel in slot 4, the order of slot 4 in flight. -/
def flying : Part :=
  (running .cluster 4 (planOf [.idle, .idle, .idle, .idle, .drive 20 3] [item .drive]) (with3 (contract .cluster .live))).modLink
    .cluster fun _ => { orders := [{ rowGroup := 20, kind := .drive, slot := 4 }], timeouts := 2 }

theorem test_met_laws_step : ∃ t, step { at0 flying with pending := [.slotBoundary .cluster] } = .next t := ⟨_, rfl⟩

theorem test_met_TableKeepsItsSize : flying.TableSized := by unfold Part.TableSized; decide +kernel

theorem test_met_PortsStayCoherent : (asks .update .cp0 [] base).part.PortsCoherent := by
  intro p
  cases p <;> first | exact ⟨rfl, rfl⟩ | exact ⟨rfl, rfl, rfl⟩

theorem test_met_CountsStayBelow : (base.setBank .core { base.bank .core with count := 15 }).CountsBelow := by
  intro k
  cases k <;> decide

theorem test_met_FlagsStayOnlyRunning : (flying.modEngine .cluster fun e => { e with critical := true }).FlagsOnlyRunning := by
  intro p
  cases p <;> decide +kernel

/-- Entries without a SENSE keep SENSE off every slot. -/
theorem no_sense (ks : List EntryKind) (h : ∀ k ∈ ks, k.isSense = false) {edge : Nat → Bool} (j row : Nat)
    (hj : ks[j]? = some (.sense row)) : edge j = false := by
  have := h _ (List.mem_of_getElem? hj)
  cases this

theorem test_met_TimelinesStaySound : flying.EnginesCoherent ∧ flying.PlansLawful ∧ flying.LinksFit := by
  refine ⟨fun p => ?_, fun p pl h => ?_, fun p => ?_⟩
  · cases p
    · exact ⟨⟨by decide +kernel, by decide +kernel, by decide +kernel⟩, ⟨4, rfl, by decide +kernel⟩, rfl, rfl⟩
    · exact ⟨⟨by decide +kernel, by decide +kernel, by decide +kernel⟩, rfl, rfl, rfl⟩
  · cases p
    · cases h
      refine ⟨⟨by decide +kernel, by decide +kernel, by decide +kernel, ?_⟩, false, ?_⟩
      · repeat' first | exact trivial | (refine ⟨by decide, ?_⟩)
      · exact no_sense _ (by decide +kernel)
    · cases h
  · cases p
    · refine ⟨⟨by decide +kernel, by decide +kernel⟩, by decide +kernel⟩
    · exact ⟨rfl, by decide⟩

theorem test_met_ContactsStayLawful :
    (base.modTouch fun t => { t with contacts := (List.range 10).map fun n =>
      { id := n + 6, state := .held, x := 0, y := 0, strength := 0, framesHeld := 0, zone := none } }).ContactsLawful := by
  refine ⟨by decide +kernel, by decide +kernel, by decide +kernel⟩

theorem test_met_PromisesStayKept :
    (with3 (contract .cluster .live)).ContractsRanged ∧ (with3 (contract .cluster .live)).Admitted := by
  refine ⟨fun n h => ?_, fun p => ?_⟩
  · by_cases hn : n = 3
    · subst hn
      exact ⟨by decide +kernel, by decide +kernel⟩
    · exact absurd (with3_free _ n hn) h
  · unfold admitted
    cases p <;> decide +kernel

end Sys2Proof.Tests
end

/-!
# The family of refresh contracts: reset, table size, requests that bear a handle

The lemmas come in the order of the definitions they speak of; each obligation is settled where its lemmas stand.
-/

namespace Sys2Proof.Machine
open Sys2Proof.Machine.Part

/-! ### After cold reset (R27) -/

theorem Part.reset_table (strap : Port) : (Part.reset strap).table = List.replicate 64 (Record.freeWith 0) := rfl

/-- After cold reset every number, in the table or beyond it, reads as a FREE record of generation 0 (R27). -/
theorem Part.reset_record (strap : Port) (n : Nat) : (Part.reset strap).record n = Record.freeWith 0 := by
  unfold Part.record
  rw [Part.reset_table, List.getD_eq_getElem?_getD, List.getElem?_replicate]
  split <;> rfl

/-- Settles O4: every record after cold reset is the FREE record of generation 0, so record 0 is the lowest FREE one. -/
theorem coldResetTable : Obligations.ColdResetTable := by
  unfold Obligations.ColdResetTable
  intro strap s
  refine ⟨_, rfl, List.length_replicate, fun n _ => Part.reset_record _ n, ?_, ?_⟩
  · refine ⟨by decide, ?_, fun m hm => absurd hm (Nat.not_lt_zero m)⟩
    show ((Part.reset (strapPort strap)).record 0).state = .free
    rw [Part.reset_record]
    rfl
  · show ((Part.reset (strapPort strap)).record 0).handle 0 = 0
    rw [Part.reset_record]
    rfl

/-- No record of a table of FREE records is in a view (R29). -/
theorem viewRecords_replicate_free (p : Panel) (k : Nat) (g : BitVec 8) :
    viewRecords p (List.replicate k (Record.freeWith g)) = [] := by
  refine List.filter_eq_nil_iff.2 fun x hx => ?_
  have hr : x.2 = Record.freeWith g := List.eq_of_mem_replicate (List.of_mem_zip hx).2
  simp [hr, Record.inView, Record.freeWith]

/-- The empty view passes every check (R33 to R35). -/
theorem admitted_of_viewRecords_nil {p : Panel} {slots : Nat} {table : List Record} (h : viewRecords p table = []) :
    admitted p slots table := by
  unfold admitted
  rw [h]
  intro v hv
  obtain rfl : v = [] := by simpa [choicesOf] using hv
  exact ⟨rfl, rfl, by simp [View.withinBudget, View.loadSum]⟩

/-- A timeline engine after cold reset is in range and DOWN (R43, R65). -/
theorem Engine.reset_sound (p : Panel) : (Engine.reset p).inRange ∧ (Engine.reset p).coherent := by
  cases p <;> exact ⟨⟨by decide, by decide, by decide⟩, rfl, rfl, rfl⟩

theorem Part.reset_engine (strap : Port) (p : Panel) : (Part.reset strap).engine p = Engine.reset p := by
  cases p <;> rfl

theorem Part.reset_link (strap : Port) (p : Panel) : (Part.reset strap).link p = Link.reset := by cases p <;> rfl

theorem Part.reset_port (strap p : Port) : (Part.reset strap).port p = ClientPort.reset := by cases p <;> rfl

theorem Part.reset_bank (strap : Port) (k : Bank) : (Part.reset strap).bank k = FaultBank.reset := by cases k <;> rfl

/-- Settles O53, law by law, from the reset values of the blocks. -/
theorem lawsHoldAtReset : Obligations.LawsHoldAtReset := by
  unfold Obligations.LawsHoldAtReset
  intro strap
  refine ⟨List.length_replicate, fun p => ?_, fun k => ?_, fun p hc => ?_, fun p => ?_, fun p pl hp => ?_,
    fun p => ?_, ⟨Nat.zero_le 10, List.Pairwise.nil, fun c hc => absurd hc List.not_mem_nil⟩, fun n hf => ?_, fun p => ?_,
    rfl, rfl⟩
  · rw [Part.reset_port]
    exact ⟨rfl, rfl, rfl⟩
  · rw [Part.reset_bank]
    decide
  · rw [Part.reset_engine] at hc
    cases hc
  · rw [Part.reset_engine]
    exact Engine.reset_sound p
  · rw [Part.reset_engine] at hp
    cases hp
  · rw [Part.reset_engine, Part.reset_link]
    exact ⟨rfl, by decide⟩
  · rw [Part.reset_record] at hf
    exact absurd rfl hf
  · rw [Part.reset_table]
    exact admitted_of_viewRecords_nil (viewRecords_replicate_free p 64 0)

/-! ### The table keeps its size (R1) -/

/-- An update that leaves a table of 64 records with 64 records (R1). -/
def Part.KeepsSize (f : Part → Part) : Prop := ∀ b : Part, b.TableSized → (f b).TableSized

theorem Part.KeepsSize.of_calm {f : Part → Part} (h : ∀ b, Calm b (f b)) : KeepsSize f := fun b => (h b).tableSized

theorem Part.KeepsSize.of_quiet {f : Part → Part} (h : ∀ b, Quiet b (f b)) : KeepsSize f := fun b => (h b).tableSized

/-- The work of a request keeps the size when what its owner does keeps every law. -/
theorem Part.KeepsSize.serve (name : RequestName) (p : Port) {f : List Byte → Part → Part × Reply}
    (h : ∀ ps b, Upholds b (f ps b).1) : KeepsSize (Part.serve name p f) :=
  fun b => (b.serve_upholds name p f fun ps => h ps b).size

/-- A request that bears a handle keeps the size when its own steps on a good record keep every law. -/
theorem Part.KeepsSize.serveHandle (name : RequestName) (p : Port) {f : List Byte → Nat → Part → Part × Reply}
    (h : ∀ ps n b, (b.record n).state ≠ .free → (b.record n).checkGood = true → Upholds b (f ps n b).1) :
    KeepsSize (Part.serve name p fun ps b => b.onHandle ps (f ps)) :=
  .serve name p fun ps b => b.onHandle_upholds ps (f ps) (h ps)

theorem Part.find_upholds (ps : List Byte) (b : Part) : Upholds b (b.find ps).1 := by
  unfold Part.find
  split
  · exact .refl b
  · dsimp only
    exact b.verifyAll_upholds .request

theorem Part.list_upholds (ps : List Byte) (b : Part) : Upholds b (b.list ps).1 := by
  unfold Part.list
  split
  · exact .refl b
  · dsimp only
    exact b.verifyAll_upholds .request

theorem Part.panelStatus_upholds (ps : List Byte) (b : Part) : Upholds b (b.panelStatus ps).1 := by
  unfold Part.panelStatus
  split <;> exact .refl b

theorem Part.faultRead_upholds (ps : List Byte) (b : Part) : Upholds b (b.faultRead ps).1 := by
  unfold Part.faultRead
  split <;> exact .refl b

/-- A request transaction writes no record (R183, R184). -/
theorem Part.requestTransaction_table (b : Part) (p : Port) (frame : List Byte) :
    (b.requestTransaction p frame).table = b.table := by
  unfold Part.requestTransaction Part.acceptFrame
  dsimp only
  split
  · rfl
  · split <;> rfl

/-- A transaction of neither kind writes no record (R182). -/
theorem Part.unknownTransaction_table (b : Part) (p : Port) (bytes : List Byte) :
    (b.unknownTransaction p bytes).table = b.table := by
  unfold Part.unknownTransaction
  split
  · rfl
  · split
    · exact b.requestTransaction_table p _
    · split <;> rfl

/-- A command that takes a size-keeping update of the part leaves 64 records. -/
theorem State.take_tableSized {s t : State} {f : Part → Part} (hf : KeepsSize f) (hs : s.part.TableSized)
    (h : s.take f = .next t) : t.part.TableSized := by
  rw [State.take_eq] at h
  cases h
  exact hf s.fresh hs

/-- Every command leaves 64 records (R1). -/
theorem exec_tableSized (c : Instr) {s t : State} (hs : s.part.TableSized) (h : exec c s = .next t) :
    t.part.TableSized := by
  suffices ∃ f, exec c s = s.take f ∧ KeepsSize f by
    obtain ⟨f, hf, hk⟩ := this
    exact State.take_tableSized hk hs (hf ▸ h)
  cases c with
  | coldReset strap => exact ⟨fun _ => Part.reset (strapPort strap), rfl, fun _ _ => List.length_replicate⟩
  | requestTransaction p frame =>
    exact ⟨_, rfl, fun b hb => (congrArg List.length (b.requestTransaction_table p frame)).trans hb⟩
  | answerTransaction p clocked => exact ⟨_, rfl, fun _ hb => hb⟩
  | unknownKindTransaction p bytes =>
    exact ⟨_, rfl, fun b hb => (congrArg List.length (b.unknownTransaction_table p bytes)).trans hb⟩
  | openContract p => exact ⟨_, rfl, .serve _ p fun ps b => b.open_upholds p ps⟩
  | amend p => exact ⟨_, rfl, .serveHandle _ p fun ps n b _ hg => b.amendAt_upholds p ps n hg⟩
  | suspend p => exact ⟨_, rfl, .serveHandle _ p fun _ n b _ _ => b.suspendAt_upholds p n⟩
  | resume p => exact ⟨_, rfl, .serveHandle _ p fun _ n b _ _ => b.resumeAt_upholds p n⟩
  | retire p => exact ⟨_, rfl, .serveHandle _ p fun _ n b hf _ => b.retireAt_upholds p n hf⟩
  | lookup p => exact ⟨_, rfl, .serveHandle _ p fun _ _ b _ _ => .refl b⟩
  | find p => exact ⟨_, rfl, .serve _ p fun ps b => b.find_upholds ps⟩
  | list p => exact ⟨_, rfl, .serve _ p fun ps b => b.list_upholds ps⟩
  | update p => exact ⟨_, rfl, .serveHandle _ p fun ps n b _ _ => b.updateAt_upholds p ps n⟩
  | panelUp p => exact ⟨_, rfl, .serve _ p fun ps b => b.panelUp_upholds ps⟩
  | panelDown p => exact ⟨_, rfl, .serve _ p fun ps b => b.panelDown_upholds ps⟩
  | panelConfig p => exact ⟨_, rfl, .serve _ p fun ps b => b.panelConfig_upholds ps⟩
  | panelStatus p => exact ⟨_, rfl, .serve _ p fun ps b => b.panelStatus_upholds ps⟩
  | backlight p => exact ⟨_, rfl, .serve _ p fun ps b => b.backlight_upholds ps⟩
  | touchConfig p => exact ⟨_, rfl, .serve _ p fun ps b => b.touchConfig_upholds ps⟩
  | recalibrate p => exact ⟨_, rfl, .serve _ p fun _ b => b.recalibrate_upholds p⟩
  | contacts p => exact ⟨_, rfl, .serve _ p fun _ b => .refl b⟩
  | faultRead p => exact ⟨_, rfl, .serve _ p fun ps b => b.faultRead_upholds ps⟩
  | faultClear p => exact ⟨_, rfl, .serve _ p fun ps b => b.faultClear_upholds ps⟩
  | faultControl p => exact ⟨_, rfl, .serve _ p fun ps b => b.faultControl_upholds ps⟩
  | ackCritical p => exact ⟨_, rfl, .serve _ p fun ps b => b.ackCritical_upholds ps⟩
  | inject p => exact ⟨_, rfl, .serve _ p fun ps b => b.inject_upholds ps⟩
  | identify p => exact ⟨_, rfl, .serve _ p fun _ b => .refl b⟩
  | notices p => exact ⟨_, rfl, .serve _ p fun _ b => b.notices_upholds p⟩
  | setAttention p => exact ⟨_, rfl, .serve _ p fun ps b => b.setAttention_upholds p ps⟩
  | warmReset p => exact ⟨_, rfl, .serve _ p fun _ b => b.warmReset_upholds⟩
  | slotBoundary q => exact ⟨_, rfl, .of_calm fun b => b.slotBoundary_calm q⟩
  | orderTimeout q => exact ⟨_, rfl, .of_calm fun b => b.orderTimeout_calm q⟩
  | startLimitExpiry q => exact ⟨_, rfl, .of_calm fun b => b.expireStart_calm q⟩
  | ready q => exact ⟨_, rfl, .of_calm fun b => b.takeReady_calm q⟩
  | done q g sig => exact ⟨_, rfl, .of_calm fun b => b.takeDone_calm q g sig⟩
  | fault q code => exact ⟨_, rfl, .of_quiet fun b => b.claim_quiet _ _⟩
  | completionCredit q => exact ⟨_, rfl, .of_calm fun b => b.creditOldest_calm q⟩
  | senseComplete counts => exact ⟨_, rfl, .of_calm fun b => b.senseComplete_calm _⟩
  | halt q => exact ⟨_, rfl, .of_calm fun b => b.takeHalt_calm q⟩

/-- Settles O54: an idle step writes no record, and every command keeps the size. -/
theorem tableKeepsItsSize : Obligations.TableKeepsItsSize := by
  unfold Obligations.TableKeepsItsSize
  intro s t hs h
  unfold step at h
  split at h
  · cases h
    exact hs
  · rename_i c rest _
    exact exec_tableSized c (s := { s with pending := rest }) hs h

end Sys2Proof.Machine

/-! # Requests that bear a handle: what R4 and R26 make of it, SUSPEND, RESUME, RETIRE, LOOKUP -/

namespace Sys2Proof.Machine

/-! ### A record that fails its check (R26) -/

/-- Reading a record that fails its check frees it by R26. -/
theorem Part.verify_bad {b : Part} {n : Nat} (who : Reader) (h : (b.record n).checkGood = false) :
    b.verify who n = b.freedByCheck who.detail n := by
  unfold Part.verify
  dsimp only
  rw [if_neg (by simp [h])]
  rfl

/-- Freeing a record by its check writes that record alone (R26). -/
theorem Part.freedByCheck_record {b : Part} {n : Nat} (d : Byte) (m : Nat) (h : n < b.table.length) :
    (b.freedByCheck d n).record m = if m = n then Record.freeWith ((b.record n).generation + 1) else b.record m :=
  Part.setRecord_record b n m _ h

/-! ### The handle of a request (R3, R4) -/

/-- The handle of a record number is a given handle where the generations agree (R3). -/
theorem Record.handle_mod_eq_iff (r : Record) (h : Nat) : r.handle (h % 64) = h ↔ r.generation.toNat = h / 64 := by
  unfold Record.handle
  omega

/-- A handle is not honoured where it names no record, a FREE record, or one of another generation (R4). -/
theorem Part.honours_eq_false {b : Part} {h : Nat} (hr : 16384 ≤ h ∨ (b.record (h % 64)).state = .free ∨
    (b.record (h % 64)).generation.toNat ≠ h / 64) : b.honours h = false := by
  rcases hr with hr | hr | hr
  · simp [Part.honours, hr]
  · simp [Part.honours, hr]
  · simp [Part.honours, Record.handle_mod_eq_iff, hr]

/-- A handle that is borne names a good record that is not FREE (R4, R26). -/
theorem Part.bears_record {b : Part} {h : Nat} (hb : b.bears h = true) :
    (b.record (h % 64)).state ≠ .free ∧ (b.record (h % 64)).checkGood = true := by
  simp only [Part.bears, Part.honours, Bool.and_eq_true, bne_iff_ne] at hb
  exact ⟨hb.1.1.2, hb.2⟩

/-- A handle whose record fails its check is refused once that record is freed (R4, R26). -/
theorem Part.onHandle_bad {b : Part} {ps : List Byte} (hs : b.TableSized) (hh : handleOf ps < 16384)
    (hg : (b.record (handleOf ps % 64)).checkGood = false) (f : Nat → Part → Part × Reply) :
    b.onHandle ps f = (b.freedByCheck 1 (handleOf ps % 64), Reply.bare .badHandle) := by
  have hn : handleOf ps % 64 < b.table.length := by
    have h64 : b.table.length = 64 := hs
    omega
  have hread : b.readHandle (handleOf ps) = b.freedByCheck 1 (handleOf ps % 64) := by
    unfold Part.readHandle
    rw [if_pos hh, Part.verify_bad _ hg]
    rfl
  have hfree : (b.freedByCheck 1 (handleOf ps % 64)).honours (handleOf ps) = false := by
    refine Part.honours_eq_false (.inr (.inl ?_))
    rw [Part.freedByCheck_record _ _ hn, if_pos rfl]
    rfl
  unfold Part.onHandle
  dsimp only
  rw [hread, hfree]
  rfl

/-- The requests that bear a handle have their own work behind one handle check (R4). -/
theorem exec_row_onHandle {name : RequestName} (p : Port) (ps : List Byte)
    (hn : name = .amend ∨ name = .suspend ∨ name = .resume ∨ name = .retire ∨ name = .lookup ∨ name = .update) :
    ∃ f : Nat → Part → Part × Reply, ∀ s : State, s.fresh.holds p name ps = true →
      exec (name.row p) s =
        .next { s with part := (s.fresh.onHandle ps f).1.place p (s.fresh.onHandle ps f).2 } := by
  rcases hn with rfl | rfl | rfl | rfl | rfl | rfl
  · exact ⟨Part.amendAt p ps, fun s h => State.take_serve h _⟩
  · exact ⟨Part.suspendAt p, fun s h => State.take_serve h _⟩
  · exact ⟨Part.resumeAt p, fun s h => State.take_serve h _⟩
  · exact ⟨Part.retireAt p, fun s h => State.take_serve h _⟩
  · exact ⟨Part.lookupAt, fun s h => State.take_serve h _⟩
  · exact ⟨Part.updateAt p ps, fun s h => State.take_serve h _⟩

/-! ### A request whose handle is borne

Each of the six rows then does its own work on the record number, and the answer is placed. -/

section
variable {s : State} {p : Port} {ps : List Byte}

/-- A request row whose owner answers and leaves a given part. -/
theorem State.take_serve_eq {name : RequestName} {b : Part} {r : Reply} {f : List Byte → Part → Part × Reply}
    (h : s.fresh.holds p name ps = true) (hf : f ps s.fresh = (b, r)) :
    s.take (Part.serve name p f) = .next { s with part := b.place p r } := by
  rw [State.take_serve h, hf]

/-- A request that bears a handle, on a state that bears it. -/
theorem State.take_serve_bears {name : RequestName} {b : Part} {r : Reply} {f : List Byte → Nat → Part → Part × Reply}
    (h : s.fresh.holds p name ps = true) (hb : s.fresh.bears (handleOf ps) = true)
    (hf : f ps (handleOf ps % 64) s.fresh = (b, r)) :
    s.take (Part.serve name p fun ps b => b.onHandle ps (f ps)) = .next { s with part := b.place p r } :=
  State.take_serve_eq h ((Part.onHandle_bears hb _).trans hf)

end

/-! ### Authority (R4, R8) -/

section
variable (b : Part) (p : Port) (ps : List Byte) (n : Nat)

theorem Record.ownedBy_iff (r : Record) : r.ownedBy p = true ↔ r.owner = p.bits := by simp [Record.ownedBy]

theorem Part.role_eq_safety_iff : b.role p = .safety ↔ p = b.strap := by
  unfold Part.role
  split <;> simp_all

variable {b p n}

theorem Part.amendAt_notOwner (h : (b.record n).owner ≠ p.bits) :
    b.amendAt p ps n = (b, Reply.bare .notOwner) := by simp [Part.amendAt, Record.ownedBy, h]

theorem Part.suspendAt_notOwner (h : (b.record n).owner ≠ p.bits) :
    b.suspendAt p n = (b, Reply.bare .notOwner) := by simp [Part.suspendAt, Record.ownedBy, h]

theorem Part.resumeAt_notOwner (h : (b.record n).owner ≠ p.bits) :
    b.resumeAt p n = (b, Reply.bare .notOwner) := by simp [Part.resumeAt, Record.ownedBy, h]

theorem Part.retireAt_notOwner (h : (b.record n).owner ≠ p.bits) (hs : p ≠ b.strap) :
    b.retireAt p n = (b, Reply.bare .notOwner) := by simp [Part.retireAt, Record.ownedBy, Part.role, h, hs]

theorem Part.updateAt_notFeeder (h : (b.record n).feeder ≠ p.bits) :
    b.updateAt p ps n = (b, Reply.bare .notFeeder) := by simp [Part.updateAt, h]

end

/-- Settles O11: the handle is not honoured, or the request's own first check refuses. -/
theorem handleChecksRefuse : Obligations.HandleChecksRefuse := by
  unfold Obligations.HandleChecksRefuse
  intro name p ps s h
  refine ⟨fun hn hr hg => ?_, fun hb => ⟨fun hn ho => ?_, fun hn hf => ?_⟩⟩
  · obtain ⟨f, hf⟩ := exec_row_onHandle p ps hn
    rw [hf s h, Part.onHandle_not (b := s.fresh) (Part.honours_eq_false hr) hg f]
    rfl
  · rcases hn with rfl | rfl | rfl | ⟨rfl, hp⟩
    · exact State.take_serve_bears h hb (Part.amendAt_notOwner ps ho)
    · exact State.take_serve_bears h hb (Part.suspendAt_notOwner ho)
    · exact State.take_serve_bears h hb (Part.resumeAt_notOwner ho)
    · exact State.take_serve_bears h hb (Part.retireAt_notOwner ho hp)
  · subst hn
    exact State.take_serve_bears h hb (Part.updateAt_notFeeder ps hf)

/-- Settles O12: the record read is freed by its check, and its handle is then refused. -/
theorem tableCheckFreesRecord : Obligations.TableCheckFreesRecord := by
  unfold Obligations.TableCheckFreesRecord
  intro name p ps s hn h hs hh hg
  obtain ⟨f, hf⟩ := exec_row_onHandle p ps hn
  rw [hf s h, Part.onHandle_bad (b := s.fresh) hs hh hg f]
  rfl

/-! ### SUSPEND and RESUME (R14, R15) -/

section
variable {b : Part} {p : Port} {n : Nat}

theorem Part.suspendAt_marks (ho : (b.record n).owner = p.bits)
    (hs : (b.record n).state = .live ∨ ((b.record n).state = .stale ∧ (b.record n).fallback = false)) :
    b.suspendAt p n =
      (b.setRecord n { b.record n with suspendMark := true, resumeMark := false }, Reply.bare .staged) := by
  simp [Part.suspendAt, Record.ownedBy, ho, hs]

theorem Part.suspendAt_suspended (ho : (b.record n).owner = p.bits) (hs : (b.record n).state = .suspended) :
    b.suspendAt p n = (b.setRecord n { b.record n with resumeMark := false }, Reply.bare .ok) := by
  simp [Part.suspendAt, Record.ownedBy, ho, hs]

theorem Part.suspendAt_badState (ho : (b.record n).owner = p.bits)
    (hs : (b.record n).state = .staged ∨ (b.record n).state = .retiring ∨
      ((b.record n).state = .stale ∧ (b.record n).fallback = true)) :
    b.suspendAt p n = (b, Reply.bare .badState) := by
  rcases hs with hs | hs | ⟨hs, hf⟩
  · simp [Part.suspendAt, Record.ownedBy, ho, hs]
  · simp [Part.suspendAt, Record.ownedBy, ho, hs]
  · simp [Part.suspendAt, Record.ownedBy, ho, hs, hf]

theorem Part.resumeAt_marks (ho : (b.record n).owner = p.bits) (hs : (b.record n).state = .suspended) :
    b.resumeAt p n = (b.setRecord n { b.record n with resumeMark := true }, Reply.bare .staged) := by
  simp [Part.resumeAt, Record.ownedBy, ho, hs]

theorem Part.resumeAt_running (ho : (b.record n).owner = p.bits)
    (hs : (b.record n).state = .live ∨ (b.record n).state = .stale) :
    b.resumeAt p n = (b.setRecord n { b.record n with suspendMark := false }, Reply.bare .ok) := by
  rcases hs with hs | hs
  · simp [Part.resumeAt, Record.ownedBy, ho, hs]
  · simp [Part.resumeAt, Record.ownedBy, ho, hs]

theorem Part.resumeAt_badState (ho : (b.record n).owner = p.bits)
    (hs : (b.record n).state = .staged ∨ (b.record n).state = .retiring) :
    b.resumeAt p n = (b, Reply.bare .badState) := by
  rcases hs with hs | hs
  · simp [Part.resumeAt, Record.ownedBy, ho, hs]
  · simp [Part.resumeAt, Record.ownedBy, ho, hs]

end

/-- Settles O13: one lemma on each meaning for each state of the contract. -/
theorem suspendAndResumeActByState : Obligations.SuspendAndResumeActByState := by
  unfold Obligations.SuspendAndResumeActByState
  rintro p ps s n r hb rfl rfl ho
  refine ⟨fun h => ⟨fun hst => ?_, fun hst => ?_, fun hst => ?_⟩,
    fun h => ⟨fun hst => ?_, fun hst => ?_, fun hst => ?_⟩⟩
  · exact State.take_serve_bears h hb (Part.suspendAt_marks ho hst)
  · exact State.take_serve_bears h hb (Part.suspendAt_suspended ho hst)
  · exact State.take_serve_bears h hb (Part.suspendAt_badState ho hst)
  · exact State.take_serve_bears h hb (Part.resumeAt_marks ho hst)
  · exact State.take_serve_bears h hb (Part.resumeAt_running ho hst)
  · exact State.take_serve_bears h hb (Part.resumeAt_badState ho hst)

/-! ### RETIRE (R16) -/

section
variable {b : Part} {p : Port} {n : Nat}

/-- The owner and the safety port may retire a contract (R16). -/
theorem Part.mayRetire (ho : (b.record n).owner = p.bits ∨ p = b.strap) :
    ((b.record n).ownedBy p || b.role p == .safety) = true := by
  simpa [Record.ownedBy_iff, Part.role_eq_safety_iff] using ho

/-- A CONTRACT notice is kept from the port that sent the request (R7). -/
theorem Part.contractNotice_some (b : Part) (n : Nat) (r : Record) (p : Port) :
    b.contractNotice n r (some p) =
      b.raiseWhere (fun q => (q.bits == r.owner || q.bits == r.feeder) && q != p) (.contract n) := rfl

theorem Part.retireAt_freed (ho : (b.record n).owner = p.bits ∨ p = b.strap)
    (hs : (b.record n).state = .staged ∨ (b.record n).state = .suspended ∨
      (((b.record n).state = .live ∨ (b.record n).state = .stale) ∧
        (b.engine (b.record n).panel).state ≠ .running)) :
    b.retireAt p n = (b.freeContract n (some p), Reply.bare .ok) := by
  have hauth := Part.mayRetire ho
  have hret : (b.record n).state ≠ .retiring := by rcases hs with hs | hs | ⟨hs | hs, _⟩ <;> simp [hs]
  have hrun : ¬(((b.record n).state = .live ∨ (b.record n).state = .stale) ∧
      (b.engine (b.record n).panel).state = .running) := by rcases hs with hs | hs | ⟨_, hs⟩ <;> simp [hs]
  unfold Part.retireAt
  dsimp only
  rw [hauth, if_neg (by simp), if_neg hret, if_neg hrun]

theorem Part.retireAt_retired (ho : (b.record n).owner = p.bits ∨ p = b.strap)
    (hs : (b.record n).state = .live ∨ (b.record n).state = .stale)
    (hrun : (b.engine (b.record n).panel).state = .running) :
    b.retireAt p n = ((b.setRecord n (b.record n).retired).contractNotice n (b.record n) (some p),
      Reply.bare .staged) := by
  have hauth := Part.mayRetire ho
  have hret : (b.record n).state ≠ .retiring := by rcases hs with hs | hs <;> simp [hs]
  unfold Part.retireAt
  dsimp only
  rw [hauth, if_neg (by simp), if_neg hret, if_pos ⟨hs, hrun⟩]

theorem Part.retireAt_badState (ho : (b.record n).owner = p.bits ∨ p = b.strap)
    (hs : (b.record n).state = .retiring) : b.retireAt p n = (b, Reply.bare .badState) := by
  have hauth := Part.mayRetire ho
  unfold Part.retireAt
  dsimp only
  rw [hauth, if_neg (by simp), if_pos hs]

end

/-- Settles O14: one lemma on the meaning for each state of the contract and of its panel. -/
theorem retireActsByState : Obligations.RetireActsByState := by
  unfold Obligations.RetireActsByState
  rintro p ps s n r h hb rfl rfl ho
  refine ⟨fun hst => ?_, fun hst hrun => ?_, fun hst => ?_⟩
  · exact State.take_serve_bears h hb (Part.retireAt_freed ho hst)
  · exact State.take_serve_bears h hb (Part.retireAt_retired ho hst hrun)
  · exact State.take_serve_bears h hb (Part.retireAt_badState ho hst)

/-! ### LOOKUP (R23, Table 11-5) -/

theorem byte1_length (n : Nat) : (byte1 n).length = 1 := rfl

theorem byte2_length (n : Nat) : (byte2 n).length = 2 := rfl

theorem byte4_length (n : Nat) : (byte4 n).length = 4 := rfl

theorem zoneBytes_length (z : Option Zone) : (zoneBytes z).length = 6 := by cases z <;> rfl

/-- The lookup record has 40 bytes (Table 11-5). -/
theorem Record.lookupBytes_length (r : Record) : r.lookupBytes.length = 40 := by
  unfold Record.lookupBytes
  repeat rw [List.length_append]
  rw [zoneBytes_length]
  rfl

/-- Offset 9 of the lookup record as a sum of bits (Table 11-5). -/
theorem Record.presenceFlags_eq (r : Record) : [r.presenceFlags] =
    byte1 (r.params.checking.toNat + 2 * r.params.oneShot.toNat + 4 * r.confirmed.isSome.toNat +
      8 * r.pending.isSome.toNat + 16 * (r.pending.any fun u => u.sig.isSome).toNat + 32 * r.lastServed.isSome.toNat +
      64 * r.params.zone.isSome.toNat + 128 * r.stagedAmendment.isSome.toNat) := by
  have hsig : (r.pending.bind PendingUpdate.sig).isSome = r.pending.any fun u => u.sig.isSome := by
    cases r.pending <;> rfl
  unfold Record.presenceFlags flagByte byte1
  rw [hsig]
  congr 2
  simp only [bitsToNat]
  ring

/-- Offset 10 of the lookup record as a sum of bits (Table 11-5). -/
theorem Record.markFlags_eq (r : Record) : [r.markFlags] =
    byte1 (r.suspendMark.toNat + 2 * r.resumeMark.toNat + 4 * r.lateMark.toNat + 8 * r.fallback.toNat +
      16 * r.lastRefresh.isSome.toNat + 32 * (match r.zoneState with
        | some (.pressed _) => 1
        | _ => 0)) := by
  have hz : (ZoneState.isPressed r.zoneState).toNat = match r.zoneState with
      | some (.pressed _) => 1
      | _ => 0 := by
    rcases r.zoneState with _ | _ | _ <;> rfl
  unfold Record.markFlags flagByte byte1
  congr 2
  simp only [bitsToNat, hz]
  ring

/-- The two flag bytes of the lookup record stand one after the other. -/
theorem Record.append_flags (r : Record) (xs : List Byte) :
    xs ++ [r.presenceFlags, r.markFlags] = xs ++ [r.presenceFlags] ++ [r.markFlags] := by simp

/-- Settles O20: the bytes written out are those of the model's lookup record, field by field. -/
theorem lookupReportsRecord : Obligations.LookupReportsRecord := by
  unfold Obligations.LookupReportsRecord
  intro p ps s r bytes h hb hr hbytes
  have hrec : bytes = r.lookupBytes := by
    rw [hbytes]
    unfold Record.lookupBytes
    rw [Record.append_flags]
    iterate 22 refine congrArg₂ (· ++ ·) ?_ ?_
    · cases r.state <;> rfl
    · rfl
    · rfl
    · cases r.panel <;> rfl
    · rfl
    · rfl
    · cases r.params.cls <;> rfl
    · rfl
    · cases r.params.latency <;> rfl
    · exact r.presenceFlags_eq.symm
    · exact r.markFlags_eq.symm
    · cases r.confirmed <;> rfl
    · cases r.pending <;> rfl
    · rcases r.pending with _ | ⟨tag, _ | sig, age⟩ <;> rfl
    · cases r.pending <;> rfl
    · cases r.lastServed <;> rfl
    · cases r.params.zone <;> rfl
    · rcases r.zoneState with _ | _ | contact <;> rfl
    · rfl
    · rfl
    · rfl
    · rfl
    · cases r.lastRefresh <;> rfl
  have hlook : Part.lookupAt (handleOf ps % 64) s.fresh = (s.fresh, { status := .ok, payload := bytes }) := by
    rw [hrec, hr, ← State.fresh_record]
    rfl
  exact ⟨hrec ▸ r.lookupBytes_length, State.take_serve_bears (f := fun _ => Part.lookupAt) h hb hlook⟩

end Sys2Proof.Machine

/-! # FIND and LIST, and the admission of OPEN and AMEND -/

namespace Sys2Proof.Machine

/-! ### FIND and LIST (R24, R25) -/

theorem findArgs_eq_some {pn first last : Byte} {q : Panel} (hq : Panel.ofNat? pn.toNat = some q)
    (h : first.toNat ≤ last.toNat) (hl : last.toNat < Config.rowGroups q) :
    findArgs [pn, first, last] = some (q, { first := first.toNat, last := last.toNat }) := by
  simp [findArgs, hq, h, hl]

theorem findArgs_eq_none {pn first last : Byte} (h : Panel.ofNat? pn.toNat = none ∨ last.toNat < first.toNat ∨
    ∃ q, Panel.ofNat? pn.toNat = some q ∧ Config.rowGroups q ≤ last.toNat) : findArgs [pn, first, last] = none := by
  rcases h with h | h | ⟨q, hq, h⟩
  · simp [findArgs, h]
  · cases hq : Panel.ofNat? pn.toNat with
    | none => simp [findArgs, hq]
    | some q => simp [findArgs, hq, Nat.not_le.2 h]
  · simp [findArgs, hq, Nat.not_lt.2 h]

theorem Part.find_badArg {b : Part} {ps : List Byte} (h : findArgs ps = none) :
    b.find ps = (b, Reply.bare .badArg) := by simp [Part.find, h]

theorem Part.list_badArg {b : Part} {ps : List Byte} (h : listArgs ps = none) :
    b.list ps = (b, Reply.bare .badArg) := by simp [Part.list, h]

/-- FIND on a table of good records (R24). -/
theorem Part.find_good {b : Part} {ps : List Byte} {q : Panel} {d : Band} (h : findArgs ps = some (q, d))
    (hg : b.allGood = true) :
    b.find ps = (b, { status := .ok
                      payload := handleListBytes (handlesWhere
                        (fun r => r.state != .free && r.panel == q && r.params.band.meets d) b.table) }) := by
  simp [Part.find, h, Part.verifyAll_good .request hg]

/-- LIST on a table of good records (R25). -/
theorem Part.list_good {b : Part} {ps : List Byte} {q : Port} (h : listArgs ps = some q) (hg : b.allGood = true) :
    b.list ps = (b, { status := .ok
                      payload := handleListBytes (handlesWhere
                        (fun r => r.state != .free && r.owner == q.bits) b.table) }) := by
  simp [Part.list, h, Part.verifyAll_good .request hg]

/-- The port of a number up to 2 has that number (R25). -/
theorem Port.ofNat?_bits {n : Nat} (h : n ≤ 2) : ∃ q, Port.ofNat? n = some q ∧ q.bits.toNat = n := by
  match n, h with
  | 0, _ => exact ⟨.cp0, rfl, rfl⟩
  | 1, _ => exact ⟨.cp1, rfl, rfl⟩
  | 2, _ => exact ⟨.cp2, rfl, rfl⟩

theorem Port.ofNat?_eq_none {n : Nat} (h : 2 < n) : Port.ofNat? n = none := by
  match n, h with
  | n + 3, _ => rfl

/-- Settles O21: both answers are the handles of `handlesWhere`, whose condition is read record by record. -/
theorem findAndListHandles : Obligations.FindAndListHandles := by
  unfold Obligations.FindAndListHandles
  refine ⟨fun p pn first last s h => ⟨fun hbad => ?_, fun q hq hle hlt hs hg => ⟨_, rfl, ?_⟩⟩,
    fun p pt s h => ⟨fun hbad => ?_, fun hle hs hg => ⟨_, rfl, ?_⟩⟩⟩
  · exact State.take_serve_eq h (Part.find_badArg (findArgs_eq_none hbad))
  · refine State.take_serve_eq h ((Part.find_good (findArgs_eq_some hq hle hlt) hg).trans ?_)
    rw [handlesWhere_eq (b := s.fresh) hs]
    simp only [Band.meets, State.fresh_record, Bool.and_assoc]
    rfl
  · exact State.take_serve_eq (f := fun ps b => b.list ps) h (Part.list_badArg (Port.ofNat?_eq_none hbad))
  · obtain ⟨q, hq, hnum⟩ := Port.ofNat?_bits hle
    have howner (n : Nat) : ((s.part.record n).owner == q.bits) = decide ((s.part.record n).owner.toNat = pt.toNat) := by
      rw [← hnum, Bool.eq_iff_iff]
      simp [BitVec.toNat_inj]
    refine State.take_serve_eq (f := fun ps b => b.list ps) h ((Part.list_good (ps := [pt]) hq hg).trans ?_)
    rw [handlesWhere_eq (b := s.fresh) hs]
    simp only [State.fresh_record, howner]
    rfl

/-! ### The parameter bytes of OPEN and AMEND (R9, R196) -/

section
variable {q : Panel} {first last cls per lat flags ah al bh bl deb dv : Byte}

/-- The parameters that the bytes give for a class, in range or not (R196). -/
def Params.ofBytes (c : ContractClass) (first last per lat flags ah al bh bl deb dv : Byte) : Params :=
  { band := { first := first.toNat, last := last.toNat }, cls := c, period := per.toNat,
    latency := if lat.toNat = 0 then none else some lat.toNat,
    checking := flags.getLsbD 0, oneShot := flags.getLsbD 1,
    zone := if flags.getLsbD 2 then
        some { firstCol := be16 ah al, lastCol := be16 bh bl, debounce := deb.toNat, divisor := dv.toNat }
      else none }

theorem paramsOf_eq : paramsOf q first last cls per lat flags ah al bh bl deb dv =
    (ContractClass.ofNat? cls.toNat).bind fun c =>
      if flags.toNat < 8 ∧ (Params.ofBytes c first last per lat flags ah al bh bl deb dv).inRange q = true then
        some (Params.ofBytes c first last per lat flags ah al bh bl deb dv)
      else none := by
  unfold paramsOf
  cases ContractClass.ofNat? cls.toNat with
  | none => rfl
  | some c => simp [Params.ofBytes]

theorem ContractClass.ofNat?_isSome (n : Nat) : (ContractClass.ofNat? n).isSome = true ↔ n ≤ 3 := by
  match n with
  | 0 | 1 | 2 | 3 => simp [ContractClass.ofNat?]
  | n + 4 => simp [ContractClass.ofNat?]

/-- The ranges of R9, one by one. -/
theorem Params.inRange_iff (a : Params) : a.inRange q = true ↔
    a.band.first ≤ a.band.last ∧ a.band.last < Config.rowGroups q ∧ 1 ≤ a.period ∧
      (a.cls = .telltale → a.checking = true) ∧
      ∀ z, a.zone = some z → q = .centre ∧ z.firstCol ≤ z.lastCol ∧ z.lastCol ≤ 1919 ∧ 1 ≤ z.debounce ∧
        z.debounce ≤ 7 ∧ 1 ≤ z.divisor ∧ z.divisor ≤ 8 := by
  have htell : (a.cls != .telltale || a.checking) = true ↔ (a.cls = .telltale → a.checking = true) := by
    simp [imp_iff_not_or]
  unfold Params.inRange
  rw [Bool.and_eq_true, Bool.and_eq_true, htell]
  cases hz : a.zone with
  | none => simp [and_assoc]
  | some z => simp [and_assoc]

/-- The ranges of R9 on the parameters the bytes give. -/
theorem Params.ofBytes_inRange {c : ContractClass} (hc : ContractClass.ofNat? cls.toNat = some c) :
    (flags.toNat < 8 ∧ (Params.ofBytes c first last per lat flags ah al bh bl deb dv).inRange q = true) ↔
      amendableInRange q first last cls per flags (ah.toNat * 256 + al.toNat) (bh.toNat * 256 + bl.toNat) deb dv := by
  have hle : cls.toNat ≤ 3 := (ContractClass.ofNat?_isSome _).1 (by rw [hc]; rfl)
  have htell : c = .telltale ↔ cls.toNat = 0 := by
    rw [← ContractClass.rank_ofNat? hc]
    cases c <;> simp [ContractClass.rank]
  have hrows : last.toNat < Config.rowGroups q ↔ last.toNat ≤ (match q with
      | .cluster => 89
      | .centre => 149) := by cases q <;> exact Nat.lt_succ_iff
  unfold amendableInRange
  rw [Params.inRange_iff]
  constructor
  · rintro ⟨hf, hb, hl, hp, hch, hz⟩
    exact ⟨hb, hrows.1 hl, hle, hp, by omega, fun h => hch (htell.2 h), fun h => hz _ (if_pos h)⟩
  · rintro ⟨hb, hl, _, hp, hf, hch, hz⟩
    refine ⟨by omega, hb, hrows.2 hl, hp, fun h => hch (htell.1 h), fun z h => ?_⟩
    obtain ⟨h2, rfl⟩ : flags.getLsbD 2 = true ∧ _ = z := by simpa [Params.ofBytes] using h
    exact hz h2

/-- Bytes out of range give no parameters (R9). -/
theorem paramsOf_eq_none (h : ¬amendableInRange q first last cls per flags (ah.toNat * 256 + al.toNat)
    (bh.toNat * 256 + bl.toNat) deb dv) : paramsOf q first last cls per lat flags ah al bh bl deb dv = none := by
  rw [paramsOf_eq]
  cases hc : ContractClass.ofNat? cls.toNat with
  | none => rfl
  | some c => exact if_neg fun hr => h ((Params.ofBytes_inRange hc).1 hr)

/-- The parameters that bytes give are those they carry (R196). -/
theorem Params.ofBytes_carriedBy {c : ContractClass} (hc : ContractClass.ofNat? cls.toNat = some c) :
    (Params.ofBytes c first last per lat flags ah al bh bl deb dv).carriedBy first last cls per lat flags
      (ah.toNat * 256 + al.toNat) (bh.toNat * 256 + bl.toNat) deb dv := by
  refine ⟨rfl, ?_, rfl, rfl, rfl, rfl, rfl⟩
  rw [← ContractClass.rank_ofNat? hc]
  cases c <;> rfl

/-- Bytes in range give the parameters they carry (R9, R196). -/
theorem paramsOf_carriedBy (h : amendableInRange q first last cls per flags (ah.toNat * 256 + al.toNat)
    (bh.toNat * 256 + bl.toNat) deb dv) : ∃ a, paramsOf q first last cls per lat flags ah al bh bl deb dv = some a ∧
      a.carriedBy first last cls per lat flags (ah.toNat * 256 + al.toNat) (bh.toNat * 256 + bl.toNat) deb dv := by
  obtain ⟨c, hc⟩ : ∃ c, ContractClass.ofNat? cls.toNat = some c :=
    Option.isSome_iff_exists.1 ((ContractClass.ofNat?_isSome _).2 h.2.2.1)
  refine ⟨_, ?_, Params.ofBytes_carriedBy hc⟩
  rw [paramsOf_eq, hc]
  exact if_pos ((Params.ofBytes_inRange hc).2 h)

end

end Sys2Proof.Machine

/-! # The admission of OPEN and AMEND: the first choice that fails, and the answers -/

namespace Sys2Proof.Machine

/-! ### The order of a view (R29, R38) -/

/-- The numbered records of a table stand in ascending number. -/
theorem numbered_sorted (table : List Record) : (numbered table).Pairwise fun x y => x.1 < y.1 := by
  rw [List.pairwise_iff_getElem]
  intro i j hi hj hij
  simpa [numbered, recordNumbers] using hij

theorem viewRecords_sorted (p : Panel) (table : List Record) :
    (viewRecords p table).Pairwise fun x y => x.1 < y.1 := (numbered_sorted table).filter _

/-- A choice takes one parameter set for each record, in their order (R38). -/
theorem choicesOf_numbers {xs : List (Nat × Record)} {v : View} (hv : v ∈ choicesOf xs) :
    v.map Prod.fst = xs.map Prod.fst := by
  induction xs generalizing v with
  | nil =>
    simp only [choicesOf, List.mem_singleton] at hv
    rw [hv]
    rfl
  | cons x xs ih =>
    simp only [choicesOf, List.mem_flatMap, List.mem_map] at hv
    obtain ⟨q, -, w, hw, rfl⟩ := hv
    simp [ih hw]

theorem choice_sorted {p : Panel} {table : List Record} {v : View} (hv : v ∈ choicesOf (viewRecords p table)) :
    v.Pairwise fun x y => x.1 < y.1 := by
  have h := List.pairwise_map.2 (viewRecords_sorted p table)
  rw [← choicesOf_numbers hv] at h
  exact List.pairwise_map.1 h

/-! ### The contract a CONFLICT names (R34) -/

theorem Params.forbids_comm (a b : Params) : a.forbids b = b.forbids a := by
  unfold Params.forbids Band.meets
  rw [Bool.or_comm, Bool.and_comm (decide (a.band.first ≤ b.band.last))]

theorem View.inConflict_iff (v : View) (m : Nat) (q : Params) : v.inConflict (m, q) = true ↔
    ∃ m' q', (m', q') ∈ v ∧ m' ≠ m ∧ (q.cls = .telltale ∨ q'.cls = .telltale) ∧
      q.band.first ≤ q'.band.last ∧ q'.band.first ≤ q.band.last := by
  simp only [View.inConflict, List.any_eq_true, Bool.and_eq_true, bne_iff_ne, Prod.exists]
  refine exists₂_congr fun m' q' => and_congr_right fun _ => and_congr_right fun _ => ?_
  rw [Params.forbids_comm]
  simp [Params.forbids, Band.meets]

theorem View.standsAgainst_iff (v : View) (subject m : Nat) :
    v.standsAgainst subject m ↔ ∃ nq ∈ v, nq.1 = m ∧ (nq.1 != subject && v.inConflict nq) = true := by
  simp only [View.standsAgainst, Prod.exists, Bool.and_eq_true, bne_iff_ne, View.inConflict_iff]
  constructor
  · rintro ⟨hm, q, m', q', hq, hrest⟩
    exact ⟨m, q, hq, rfl, hm, m', q', hrest⟩
  · rintro ⟨_, q, hq, rfl, hm, m', q', hrest⟩
    exact ⟨hm, q, m', q', hq, hrest⟩

/-- Where exclusivity fails, two contracts stand against each other, and one of them is not the subject (R34). -/
theorem View.exists_standsAgainst {v : View} (h : v.exclusive = false) (subject : Nat) :
    ∃ m, v.standsAgainst subject m := by
  obtain ⟨⟨m, q⟩, hmem, hc⟩ : ∃ nq ∈ v, v.inConflict nq = true := by simpa [View.exclusive] using h
  obtain ⟨m', q', hmem', hne, hcls, h₁, h₂⟩ := (v.inConflict_iff m q).1 hc
  by_cases hm : m = subject
  · exact ⟨m', hm ▸ hne, q', m, q, hmem', hmem, hne.symm, hcls.symm, h₂, h₁⟩
  · exact ⟨m, hm, q, m', q', hmem, hmem', hne, hcls, h₁, h₂⟩

/-- The first element of an ascending list that meets a condition has the least number of those that do. -/
theorem headD_filter_least {α : Type} {c : Nat × α → Bool} {xs : List (Nat × α)} (hs : xs.Pairwise fun x y => x.1 < y.1)
    (d : Nat) (h : ∃ x ∈ xs, c x = true) :
    ∃ x ∈ xs, c x = true ∧ ((xs.filter c).map Prod.fst).headD d = x.1 ∧ ∀ y ∈ xs, c y = true → x.1 ≤ y.1 := by
  induction xs with
  | nil => simp at h
  | cons x xs ih =>
    obtain ⟨hx, hs⟩ := List.pairwise_cons.1 hs
    by_cases hc : c x = true
    · refine ⟨x, .head _, hc, by simp [hc], fun y hy _ => ?_⟩
      rcases List.mem_cons.1 hy with rfl | hy
      · exact Nat.le_refl _
      · exact Nat.le_of_lt (hx y hy)
    · obtain ⟨y, hy, hcy, hd, hleast⟩ := ih hs (by simpa [hc] using h)
      refine ⟨y, .tail _ hy, hcy, by simpa [hc] using hd, fun z hz hcz => ?_⟩
      rcases List.mem_cons.1 hz with rfl | hz
      · exact absurd hcz hc
      · exact hleast z hz hcz

/-- A CONFLICT names the lowest-numbered contract that stands against another (R34). -/
theorem View.conflicting_least {v : View} (hs : v.Pairwise fun x y => x.1 < y.1) (h : v.exclusive = false)
    (subject : Nat) : v.standsAgainst subject (v.conflicting subject) ∧
      ∀ m, m < v.conflicting subject → ¬v.standsAgainst subject m := by
  obtain ⟨m, hm⟩ := View.exists_standsAgainst h subject
  obtain ⟨nq, hmem, -, hc⟩ := (v.standsAgainst_iff subject m).1 hm
  obtain ⟨x, hx, hcx, hd, hleast⟩ :=
    headD_filter_least (c := fun nq => nq.1 != subject && v.inConflict nq) hs subject ⟨nq, hmem, hc⟩
  have hname : v.conflicting subject = x.1 := hd
  rw [hname]
  refine ⟨(v.standsAgainst_iff subject _).2 ⟨x, hx, rfl, hcx⟩, fun m hlt hst => ?_⟩
  obtain ⟨y, hy, rfl, hcy⟩ := (v.standsAgainst_iff subject m).1 hst
  exact absurd (hleast y hy hcy) (Nat.not_le.2 hlt)

/-! ### The first choice that fails (R36 to R39) -/

theorem View.objection_eq_none_iff (p : Panel) (slots subject : Nat) (v : View) :
    v.objection p slots subject = none ↔ v.passes p slots := by
  unfold View.objection View.budgetObjection View.passes
  cases v.exclusive <;> cases v.fits p slots <;> cases v.withinBudget p slots <;> simp

/-- Writing the record of the subject leaves the record of every other number (R34). -/
theorem Part.table_set_getD_ne (b : Part) (r : Record) {n m : Nat} (h : m ≠ n) :
    (b.table.set n r).getD m (Record.freeWith 0) = b.record m := by
  simp [Part.record, List.getD, Ne.symm h]

/-- The answer to an objection on a choice is the refusal of that choice (R34, R36, R39). -/
theorem View.refusal_of_objection {p : Panel} {slots n : Nat} {v : View} {o : Objection} (b : Part) (r : Record)
    (hs : v.Pairwise fun x y => x.1 < y.1) (h : v.objection p slots n = some o) :
    v.refusal p slots n b (o.reply (b.table.set n r)) := by
  unfold View.objection View.budgetObjection at h
  cases hx : v.exclusive with
  | false =>
    rw [hx] at h
    obtain rfl := Option.some.inj h
    obtain ⟨hst, hleast⟩ := View.conflicting_least hs hx n
    refine .inl ⟨hx, _, hst, hleast, ?_⟩
    unfold Objection.reply
    dsimp only
    rw [Part.table_set_getD_ne b r hst.1]
  | true =>
    refine .inr ⟨hx, ?_⟩
    rw [hx] at h
    cases hf : v.fits p slots with
    | false =>
      rw [hf] at h
      obtain rfl := Option.some.inj h
      simp [Objection.reply, View.figures, View.noBudget, hf]
    | true =>
      rw [hf] at h
      cases hw : v.withinBudget p slots with
      | true => simp [hw] at h
      | false =>
        rw [hw] at h
        obtain rfl := Option.some.inj h
        simp [Objection.reply, View.figures, View.noBudget, hf]

/-- Where a table is not admitted, its first failing choice gives the answer (R36 to R39). -/
theorem admission_refusal {p : Panel} {slots n : Nat} {b : Part} {r : Record}
    (h : ¬admitted p slots (b.table.set n r)) :
    ∃ (o : Objection) (v : View), admissionObjection p slots n (b.table.set n r) = some o ∧
      firstFailing (View.passes p slots) p (b.table.set n r) v ∧
      v.refusal p slots n b (o.reply (b.table.set n r)) := by
  obtain ⟨o, ho, -⟩ := admissionObjection_reply (subject := n) h
  obtain ⟨before, v, after, hsplit, hv, hbefore⟩ := List.findSome?_eq_some_iff.1 ho
  have hmem : v ∈ choicesOf (viewRecords p (b.table.set n r)) := by
    rw [hsplit]
    simp
  refine ⟨o, v, ho, ⟨before, after, hsplit, fun u hu => ?_, fun hpass => ?_⟩,
    View.refusal_of_objection b r (choice_sorted hmem) hv⟩
  · exact (u.objection_eq_none_iff p slots n).1 (hbefore u hu)
  · rw [(v.objection_eq_none_iff p slots n).2 hpass] at hv
    cases hv

/-! ### OPEN (R10, R36) -/

theorem Part.lacksTelltale_eq_false {b : Part} {p : Port} {c : ContractClass} (h : c = .telltale → p = b.strap) :
    b.lacksTelltale p c = false := by
  by_cases hc : c = .telltale
  · simp [Part.lacksTelltale, Part.role, h hc]
  · simp [Part.lacksTelltale, hc]

theorem Part.lacksTelltale_eq_true {b : Part} {p : Port} {c : ContractClass} (hc : c = .telltale) (hp : p ≠ b.strap) :
    b.lacksTelltale p c = true := by simp [Part.lacksTelltale, Part.role, hc, hp]

/-- An OPEN that passes its first checks, on a table of good records with a FREE one (R36). -/
theorem Part.open_admit {b : Part} {p : Port} {ps : List Byte} {a : OpenArgs} {n : Nat} (ha : openArgs ps = some a)
    (hc : a.params.cls = .telltale → p = b.strap) (hg : b.allGood = true) (hs : b.TableSized) (hn : b.firstFree n) :
    b.open p ps = b.admitOpen p n a := by
  unfold Part.open
  simp [ha, Part.lacksTelltale_eq_false hc, Part.verifyAll_good .request hg, freeRecord_of_firstFree hs hn]

/-- An OPEN that is admitted (R10). -/
theorem Part.admitOpen_admitted {b : Part} {p : Port} {n : Nat} {a : OpenArgs}
    (h : admitted a.panel (b.engine a.panel).cfg.slots (b.table.set n ((b.record n).opened p a))) :
    b.admitOpen p n a =
      (((b.setRecord n ((b.record n).opened p a)).emptyCandidateIf a.params.zone.isSome n).contractNotice n
        ((b.record n).opened p a) (some p),
      { status := .staged, payload := byte2 (((b.record n).opened p a).handle n) }) := by
  unfold Part.admitOpen
  dsimp only
  rw [admissionObjection_eq_none.2 h]

theorem Port.bits_beq (p q : Port) : (p.bits == q.bits) = (p == q) := by cases p <;> cases q <;> rfl

/-- The notice of an OPEN goes to a feeder other than the sender (R7, R10). -/
theorem Part.contractNotice_opened (b : Part) (p : Port) (n : Nat) (a : OpenArgs) (r : Record) :
    b.contractNotice n (r.opened p a) (some p) =
      b.raiseWhere (fun q => (q == p || q == a.feeder) && q != p) (.contract n) := by
  rw [Part.contractNotice_some]
  congr 1
  funext q
  rw [← Port.bits_beq q p, ← Port.bits_beq q a.feeder]
  rfl

/-- Settles O16: the OPEN comes to the lowest FREE record and is admitted there. -/
theorem openAdmitted : Obligations.OpenAdmitted := by
  unfold Obligations.OpenAdmitted
  intro p ps s a n r h ha hs hg hc hn hr hadm
  have hopened : r = (s.fresh.record n).opened p a := hr
  subst hopened
  have hopen := (Part.open_admit (b := s.fresh) ha hc hg hs hn).trans (Part.admitOpen_admitted hadm)
  rw [Part.contractNotice_opened] at hopen
  exact State.take_serve_eq (f := fun ps b => b.open p ps) h hopen

/-! ### AMEND (R11 to R13, R37) -/

section
variable {b : Part} {p : Port} {ps : List Byte} {n : Nat} {a : Params}

theorem Record.refusesAmend_iff (r : Record) (k : Nat) : r.refusesAmend k = true ↔
    r.state = .retiring ∨
      (r.state = .stale ∧ k ≠ r.params.cls.rank ∧ (k = 0 ∨ r.params.cls = .telltale)) := by
  simp [Record.refusesAmend, and_assoc]

theorem Part.amendAt_badState (ho : (b.record n).owner = p.bits)
    (hr : (b.record n).refusesAmend (amendClassByte ps) = true) : b.amendAt p ps n = (b, Reply.bare .badState) := by
  simp [Part.amendAt, Record.ownedBy, ho, hr]

theorem Part.amendAt_badArg (ho : (b.record n).owner = p.bits)
    (hr : (b.record n).refusesAmend (amendClassByte ps) = false) (ha : amendParams (b.record n).panel ps = none) :
    b.amendAt p ps n = (b, Reply.bare .badArg) := by
  simp [Part.amendAt, Record.ownedBy, ho, hr, ha]

theorem Part.amendAt_noAuthority (ho : (b.record n).owner = p.bits)
    (hr : (b.record n).refusesAmend (amendClassByte ps) = false) (ha : amendParams (b.record n).panel ps = some a)
    (hc : a.cls = .telltale) (hp : p ≠ b.strap) : b.amendAt p ps n = (b, Reply.bare .noAuthority) := by
  simp [Part.amendAt, Record.ownedBy, ho, hr, ha, Part.lacksTelltale_eq_true hc hp]

/-- An AMEND that passes its first checks reads the whole table and is judged by admission (R37). -/
theorem Part.amendAt_judged (ho : (b.record n).owner = p.bits)
    (hr : (b.record n).refusesAmend (amendClassByte ps) = false) (ha : amendParams (b.record n).panel ps = some a)
    (hc : a.cls = .telltale → p = b.strap) : b.amendAt p ps n = (b.verifyAll .request).admitAmend n a := by
  simp [Part.amendAt, Record.ownedBy, ho, hr, ha, Part.lacksTelltale_eq_false hc]

/-- An AMEND that is admitted (R12, R13). -/
theorem Part.admitAmend_admitted
    (h : admitted (b.record n).panel (b.engine (b.record n).panel).cfg.slots (b.table.set n ((b.record n).amended a))) :
    b.admitAmend n a =
      ((b.setRecord n ((b.record n).amended a)).emptyCandidateIf
        ((b.record n).state == .staged && (b.record n).params.zone != a.zone) n, Reply.bare .staged) := by
  unfold Part.admitAmend
  dsimp only
  rw [admissionObjection_eq_none.2 h]

/-- An AMEND that admission refuses is answered by the first choice that fails (R34, R37 to R39). -/
theorem Part.admitAmend_refused
    (h : ¬admitted (b.record n).panel (b.engine (b.record n).panel).cfg.slots (b.table.set n ((b.record n).amended a))) :
    ∃ v reply, firstFailing (View.passes (b.record n).panel (b.engine (b.record n).panel).cfg.slots) (b.record n).panel
        (b.table.set n ((b.record n).amended a)) v ∧
      v.refusal (b.record n).panel (b.engine (b.record n).panel).cfg.slots n b reply ∧
      b.admitAmend n a = (b, reply) := by
  obtain ⟨o, v, ho, hfirst, hrefusal⟩ := admission_refusal h
  refine ⟨v, _, hfirst, hrefusal, ?_⟩
  unfold Part.admitAmend
  dsimp only
  rw [ho]

end

/-- The class of a parameter set is TELLTALE where its number is 0 (Table 11-4). -/
theorem ContractClass.rank_eq_zero (c : ContractClass) : c.rank = 0 ↔ c = .telltale := by cases c <;> simp [rank]

theorem ContractClass.rank_inj {c d : ContractClass} : c.rank = d.rank ↔ c = d := by
  cases c <;> cases d <;> simp [rank]

/-- Which AMENDs in range the state refuses, by the class asked for (R11). -/
theorem Record.refusesAmend_params {r : Record} {q : Panel} {ps : List Byte} {a : Params}
    (ha : amendParams q ps = some a) : r.refusesAmend (amendClassByte ps) = true ↔
      r.state = .retiring ∨
        (r.state = .stale ∧ r.params.cls ≠ a.cls ∧ (r.params.cls = .telltale ∨ a.cls = .telltale)) := by
  rw [Record.refusesAmend_iff, ← amendParams_cls ha, ContractClass.rank_eq_zero, or_comm (a := a.cls = .telltale), ne_eq,
    ContractClass.rank_inj, ne_comm]

/-- An AMEND admitted on a table of good records (R12, R13, R37). -/
theorem Part.amendAt_admitted {b : Part} {p : Port} {ps : List Byte} {n : Nat} {a : Params}
    (ho : (b.record n).owner = p.bits) (hr : (b.record n).refusesAmend (amendClassByte ps) = false)
    (ha : amendParams (b.record n).panel ps = some a) (hc : a.cls = .telltale → p = b.strap) (hg : b.allGood = true)
    (hadm : admitted (b.record n).panel (b.engine (b.record n).panel).cfg.slots
      (b.table.set n ((b.record n).amended a))) :
    b.amendAt p ps n =
      ((b.setRecord n ((b.record n).amended a)).emptyCandidateIf
        ((b.record n).state == .staged && (b.record n).params.zone != a.zone) n, Reply.bare .staged) := by
  rw [Part.amendAt_judged ho hr ha hc, Part.verifyAll_good .request hg, Part.admitAmend_admitted hadm]

/-- An amendment changes the band or the checking (R12, R20). -/
theorem Params.changesContent_iff (q a : Params) :
    q.changesContent a = true ↔ q.band ≠ a.band ∨ q.checking ≠ a.checking := by simp [Params.changesContent]

/-- The parameters of an amendment put in force (R12, R20). -/
theorem Record.withParams_eq (r : Record) (a : Params) : r.withParams a =
    { r with
      params := a
      pending := if r.params.band ≠ a.band ∨ r.params.checking ≠ a.checking then none else r.pending
      confirmed := if r.params.band ≠ a.band ∨ r.params.checking ≠ a.checking then none else r.confirmed
      zoneState := if r.params.zone = a.zone then r.zoneState else a.zone.map fun _ => .idle } := by
  unfold Record.withParams zoneStateFor
  by_cases h : r.params.changesContent a = true
  · rw [if_pos h, if_pos h, if_pos ((Params.changesContent_iff _ _).1 h),
      if_pos ((Params.changesContent_iff _ _).1 h)]
  · rw [if_neg h, if_neg h, if_neg (mt (Params.changesContent_iff _ _).2 h),
      if_neg (mt (Params.changesContent_iff _ _).2 h)]

theorem Record.amended_staged {r : Record} (a : Params) (h : r.state = .staged) : r.amended a = r.withParams a :=
  if_pos h

theorem Record.amended_held {r : Record} (a : Params) (h : r.state ≠ .staged) :
    r.amended a = { r with stagedAmendment := some a } := if_neg h

/-- Settles O18: the AMEND passes its first checks, admission takes it, and the record is written by its state. -/
theorem amendAdmitted : Obligations.AmendAdmitted := by
  unfold Obligations.AmendAdmitted
  rintro p ps s n r a h hb hg rfl rfl ho ha hc hadm
  have hamend (hr : ¬(s.part.record (handleOf ps % 64)).refusesAmend (amendClassByte ps) = true) :=
    Part.amendAt_admitted (b := s.fresh) ho (Bool.eq_false_iff.2 hr) ha hc hg hadm
  rw [Record.refusesAmend_params ha] at hamend
  refine ⟨fun hst => ?_, fun hst => ?_⟩
  · have hwork := hamend (by simp [hst])
    rw [State.fresh_record, Record.amended_staged a hst, Record.withParams_eq, beq_iff_eq.2 hst] at hwork
    exact State.take_serve_bears (f := fun ps => Part.amendAt p ps) h hb hwork
  · have hns : (s.part.record (handleOf ps % 64)).state ≠ .staged := by
      rcases hst with hst | hst | ⟨hst, _⟩ <;> simp [hst]
    have hwork := hamend (by
      rintro (hret | ⟨hstale, hne, hcls⟩)
      · rcases hst with hst | hst | ⟨hst, _⟩ <;> simp [hst] at hret
      · rcases hst with hst | hst | ⟨_, heq | ⟨h₁, h₂⟩⟩
        · simp [hst] at hstale
        · simp [hst] at hstale
        · exact hne heq
        · exact hcls.elim h₁ h₂)
    rw [State.fresh_record, Record.amended_held a hns, beq_eq_false_iff_ne.2 hns] at hwork
    exact State.take_serve_bears (f := fun ps => Part.amendAt p ps) h hb hwork

/-- Settles O19: the checks in their order, the bytes judged by R9, and the refusal of the first failing choice. -/
theorem amendRefusedInOrder : Obligations.AmendRefusedInOrder := by
  unfold Obligations.AmendRefusedInOrder
  rintro p ps s n r h hb rfl rfl ho
  have hdone {reply : Reply} (hwork : s.fresh.amendAt p ps (handleOf ps % 64) = (s.fresh, reply)) :=
    State.take_serve_bears (f := fun ps => Part.amendAt p ps) h hb hwork
  have hrefuse := (s.part.record (handleOf ps % 64)).refusesAmend_iff (amendClassByte ps)
  have hfirst {c : Params} (hca : amendParams (s.part.record (handleOf ps % 64)).panel ps = some c) :=
    Record.refusesAmend_params (r := s.part.record (handleOf ps % 64)) hca
  refine ⟨fun hst => ?_, fun hret hstale hnone => ?_, fun hh hl first last cls per lat flags ah al bh bl deb dv hps hret =>
    ⟨fun hstale hne hcls => ?_, fun hclass hrange => ?_, fun hrange => ?_⟩, fun a ha hret =>
    ⟨fun hstale hne hcls => ?_, fun hclass => ?_⟩⟩
  · exact hdone (Part.amendAt_badState ho (hrefuse.2 (.inl hst)))
  · have hpass := mt hrefuse.1 (not_or.2 ⟨hret, fun hs => hstale hs.1⟩)
    exact hdone (Part.amendAt_badArg ho (Bool.eq_false_iff.2 hpass) hnone)
  · subst hps
    exact hdone (Part.amendAt_badState ho (hrefuse.2 (.inr ⟨hstale, hne, hcls⟩)))
  · subst hps
    have hpass := mt hrefuse.1 (not_or.2 ⟨hret, fun ⟨hs, hne, hcls⟩ =>
      (hclass hs).elim hne fun ⟨h₀, ht⟩ => hcls.elim h₀ ht⟩)
    exact hdone (Part.amendAt_badArg ho (Bool.eq_false_iff.2 hpass) (paramsOf_eq_none hrange))
  · subst hps
    exact paramsOf_carriedBy hrange
  · exact hdone (Part.amendAt_badState ho ((hfirst ha).2 (.inr ⟨hstale, hne, hcls⟩)))
  · have hpass := Bool.eq_false_iff.2 (mt (hfirst ha).1 (not_or.2 ⟨hret, fun ⟨hs, hne, hcls⟩ =>
      (hclass hs).elim hne fun ⟨h₁, h₂⟩ => hcls.elim h₁ h₂⟩))
    refine ⟨fun hc hp => hdone (Part.amendAt_noAuthority ho hpass ha hc hp), fun hc hg hadm => ?_⟩
    obtain ⟨v, reply, hv, hrefusal, hwork⟩ := Part.admitAmend_refused (b := s.fresh) hadm
    have hjudged := Part.amendAt_judged (b := s.fresh) ho hpass ha hc
    rw [Part.verifyAll_good .request hg] at hjudged
    exact ⟨v, reply, hv, hrefusal, hdone (hjudged.trans hwork)⟩

end Sys2Proof.Machine

/-! # Readings of the whole table (R26) -/

namespace Sys2Proof.Machine
open Sys2Proof.Machine.Part

section
variable {b : Part}

/-! ### A reading checks every record -/

theorem Part.allGood_iff : b.allGood = true ↔ ∀ n, n < 64 → (b.record n).checkGood = true := by
  simp [Part.allGood, recordNumbers]

/-- Reading some records leaves a record that agrees with its check code. -/
theorem Part.foldl_verify_record (who : Reader) (ns : List Nat) (b : Part) {n : Nat}
    (h : (b.record n).checkGood = true) : ((ns.foldl (fun b n => b.verify who n) b).record n) = b.record n := by
  induction ns generalizing b with
  | nil => rfl
  | cons m ns ih =>
    have hm : (b.verify who m).record n = b.record n := by
      by_cases hmn : n = m
      · rw [← hmn, Part.verify_good who h]
      · exact b.verify_record_ne who hmn
    rw [List.foldl_cons, ih _ (hm.symm ▸ h), hm]

/-- Every record among those read agrees with its check code afterwards (R26). -/
theorem Part.foldl_verify_good (who : Reader) (ns : List Nat) (b : Part) {n : Nat} (hn : n ∈ ns) :
    ((ns.foldl (fun b n => b.verify who n) b).record n).checkGood = true := by
  induction ns generalizing b with
  | nil => cases hn
  | cons m ns ih =>
    rcases List.mem_cons.1 hn with rfl | hn
    · rw [List.foldl_cons, Part.foldl_verify_record who ns _ (b.verify_record_good who n)]
      exact b.verify_record_good who n
    · exact ih _ hn

/-- After a reading of the table every record is good (R26). -/
theorem Part.verifyAll_allGood (b : Part) (who : Reader) : (b.verifyAll who).allGood = true :=
  Part.allGood_iff.2 fun _ hn => Part.foldl_verify_good who recordNumbers b (List.mem_range.2 hn)

/-- A table that was read is not changed by reading it again (R26). -/
theorem Part.verifyAll_verifyAll (b : Part) (who who' : Reader) :
    (b.verifyAll who).verifyAll who' = b.verifyAll who :=
  Part.verifyAll_good who' (b.verifyAll_allGood who)

/-- A reading frees the records that fail their check, one after another, and leaves the others (R26). -/
theorem Part.foldl_verify_eq (who : Reader) (ns : List Nat) (hns : ns.Nodup) (b : Part) :
    ns.foldl (fun b n => b.verify who n) b =
      (ns.filter fun n => !(b.record n).checkGood).foldl (fun c n => c.freedByCheck who.detail n) b := by
  induction ns generalizing b with
  | nil => rfl
  | cons n ns ih =>
    obtain ⟨hn, hns⟩ := List.nodup_cons.1 hns
    have hrest : (ns.filter fun m => !((b.verify who n).record m).checkGood) =
        ns.filter fun m => !(b.record m).checkGood :=
      List.filter_congr fun m hm => by rw [b.verify_record_ne who (ne_of_mem_of_not_mem hm hn)]
    rw [List.foldl_cons, ih hns, hrest]
    cases hg : (b.record n).checkGood with
    | true => rw [Part.verify_good who hg, List.filter_cons_of_neg (by simp [hg])]
    | false => rw [Part.verify_bad who hg, List.filter_cons_of_pos (by simp [hg]), List.foldl_cons]

theorem Part.verifyAll_eq (b : Part) (who : Reader) : b.verifyAll who =
    ((List.range 64).filter fun n => !(b.record n).checkGood).foldl (fun c n => c.freedByCheck who.detail n) b :=
  Part.foldl_verify_eq who recordNumbers List.nodup_range b

/-! ### What a reading leaves of the rest -/

theorem Part.verify_clear_out (b : Part) (who : Reader) (n : Nat) :
    Part.verify who n { b with out := [] } = { b.verify who n with out := [] } := by
  unfold Part.verify
  dsimp only
  split <;> rename_i hg
  · exact (if_pos hg).symm ▸ rfl
  · exact (if_neg hg).symm ▸ rfl

/-- A reading of the table before a command is a reading of the table as the command finds it. -/
theorem State.fresh_verifyAll (s : State) (who : Reader) :
    State.fresh { s with part := s.part.verifyAll who } = s.fresh.verifyAll who :=
  (List.foldl_hom (fun b : Part => { b with out := [] }) fun b n => b.verify_clear_out who n).symm

theorem Part.verifyAll_strap (b : Part) (who : Reader) : (b.verifyAll who).strap = b.strap := (b.verifyAll_quiet who).strap

theorem Part.verifyAll_role (b : Part) (who : Reader) (p : Port) : (b.verifyAll who).role p = b.role p := by
  unfold Part.role
  rw [b.verifyAll_strap]

theorem Part.verifyAll_engine_state (b : Part) (who : Reader) (p : Panel) :
    ((b.verifyAll who).engine p).state = (b.engine p).state := ((b.verifyAll_quiet who).engines p).state_eq

/-- A reading of the table leaves the requests in hand. -/
theorem Part.verifyAll_holds (who : Reader) (p : Port) (name : RequestName) (ps : List Byte) :
    (b.verifyAll who).holds p name ps = b.holds p name ps := by
  unfold Part.holds
  rw [(b.verifyAll_quiet who).ports p]

/-- A reading of the table leaves the handles that good records bear (R3, R26). -/
theorem Part.verifyAll_bears (who : Reader) {h : Nat} (hb : b.bears h = true) : (b.verifyAll who).bears h = true := by
  have hr := b.verifyAll_record who (Part.bears_record hb).2
  unfold Part.bears Part.honours at hb ⊢
  rw [hr]
  exact hb

/-- A request row answers and acts as on the table once read, where the work of its request does. -/
theorem State.take_serve_verified {s : State} {p : Port} {name : RequestName} {ps : List Byte}
    {f : List Byte → Part → Part × Reply} (h : s.fresh.holds p name ps = true)
    (hf : f ps s.fresh = f ps (s.fresh.verifyAll .request)) :
    s.take (Part.serve name p f) = State.take (Part.serve name p f) { s with part := s.part.verifyAll .request } := by
  have h' : (State.fresh { s with part := s.part.verifyAll .request }).holds p name ps = true := by
    rw [State.fresh_verifyAll, Part.verifyAll_holds]
    exact h
  rw [State.take_serve h, State.take_serve h', State.fresh_verifyAll, ← hf]

/-! ### The requests that read the table -/

theorem Part.open_verifyAll {p : Port} {ps : List Byte} {a : OpenArgs} (ha : openArgs ps = some a)
    (hc : a.params.cls = .telltale → p = b.strap) : b.open p ps = (b.verifyAll .request).open p ps := by
  have hc' : a.params.cls = .telltale → p = (b.verifyAll .request).strap := by rwa [b.verifyAll_strap]
  unfold Part.open
  simp [ha, Part.lacksTelltale_eq_false hc, Part.lacksTelltale_eq_false hc', Part.verifyAll_verifyAll]

theorem Part.amend_verifyAll {p : Port} {ps : List Byte} {a : Params} (hb : b.bears (handleOf ps) = true)
    (ho : (b.record (handleOf ps % 64)).owner = p.bits)
    (hr : (b.record (handleOf ps % 64)).refusesAmend (amendClassByte ps) = false)
    (ha : amendParams (b.record (handleOf ps % 64)).panel ps = some a) (hc : a.cls = .telltale → p = b.strap) :
    b.onHandle ps (Part.amendAt p ps) = (b.verifyAll .request).onHandle ps (Part.amendAt p ps) := by
  have hrec := b.verifyAll_record .request (Part.bears_record hb).2
  have hbefore := Part.amendAt_judged ho hr ha hc
  rw [← hrec] at ho hr ha
  rw [← b.verifyAll_strap .request] at hc
  rw [Part.onHandle_bears hb, Part.onHandle_bears (Part.verifyAll_bears .request hb), hbefore,
    Part.amendAt_judged ho hr ha hc, Part.verifyAll_verifyAll]

theorem Part.find_verifyAll {ps : List Byte} (h : findArgs ps ≠ none) : b.find ps = (b.verifyAll .request).find ps := by
  unfold Part.find
  split
  · contradiction
  · rw [Part.verifyAll_verifyAll]

theorem Part.list_verifyAll {ps : List Byte} (h : listArgs ps ≠ none) : b.list ps = (b.verifyAll .request).list ps := by
  unfold Part.list
  split
  · contradiction
  · rw [Part.verifyAll_verifyAll]

theorem Part.panelConfig_verifyAll {ps : List Byte} {q : Panel} {c : PanelConfig} (h : panelConfigArgs ps = some (q, c))
    (hd : (b.engine q).state = .down) : b.panelConfig ps = (b.verifyAll .request).panelConfig ps := by
  have hd' : ((b.verifyAll .request).engine q).state = .down := by rwa [b.verifyAll_engine_state]
  unfold Part.panelConfig
  simp [h, hd, hd', Part.verifyAll_verifyAll]

theorem Part.recalibrate_verifyAll {p : Port} (h : p ≠ b.strap) :
    b.recalibrate p = (b.verifyAll .request).recalibrate p := by
  have hread : b.readZones p = b.verifyAll .request := if_neg (mt (b.role_eq_safety_iff p).1 h)
  have hread' : (b.verifyAll .request).readZones p = b.verifyAll .request := by
    unfold Part.readZones
    rw [Part.verifyAll_verifyAll, ite_self]
  unfold Part.recalibrate
  rw [hread, hread']

/-! ### The turns, the tracker and the teardown -/

theorem Part.turnClaim_verifyAll (q : Panel) (first : Bool) :
    b.turnClaim q first = (b.verifyAll .turnClaim).turnClaim q first := by
  unfold Part.turnClaim
  rw [Part.verifyAll_verifyAll]

theorem Part.rescan_verifyAll : b.rescan .centre = (b.verifyAll .scanSet).rescan .centre := by
  unfold Part.rescan Part.recomputeScanSet
  dsimp only
  rw [Part.verifyAll_verifyAll]

theorem Part.associateContacts_verifyAll : b.associateContacts = (b.verifyAll .tracker).associateContacts := by
  unfold Part.associateContacts
  rw [Part.verifyAll_verifyAll]

theorem Part.teardown_verifyAll (q : Panel) (st : PanelState) :
    b.teardown q st = (b.verifyAll .teardown).teardown q st := by
  unfold Part.teardown
  rw [Part.verifyAll_verifyAll]

/-- With no row to sense, no sense entry is deferred, and the table has no part in the sense entries (R73 to R77). -/
theorem Part.sensePlanFor_none {q : Panel} (h : q = .cluster ∨ b.touch.neededRows = []) (edge : Nat → Bool)
    (slots : Nat) : (b.sensePlanFor q edge slots).deferred = 0 ∧
      ∀ c : Part, c.touch = b.touch → c.sensePlanFor q edge slots = b.sensePlanFor q edge slots := by
  cases q with
  | cluster => exact ⟨rfl, fun _ _ => rfl⟩
  | centre =>
    have hn : b.touch.neededRows = [] := h.resolve_left (by simp)
    have hd (d : Nat) : senseDemand b.touch.neededRows d = 0 := by simp [hn, senseDemand]
    have hw (js : List Nat) : senseWalk edge js 0 [] = { sense := [], idle := [], left := 0 } := by
      cases js <;> rfl
    refine ⟨?_, fun c hc => ?_⟩
    · unfold Part.sensePlanFor sensePlacement leadPlacement splitPlacement
      dsimp only
      rw [hd]
      split <;> simp [hw, ceilDiv]
    · unfold Part.sensePlanFor
      dsimp only
      rw [hc, hd, hd]

theorem Part.buildPlan_verifyAll {q : Panel} (h : q = .cluster ∨ b.touch.neededRows = []) :
    b.buildPlan q = (b.verifyAll .planBuilding).buildPlan q := by
  have he := (b.verifyAll_quiet .planBuilding).engine q
  have ht := b.verifyAll_touch .planBuilding
  have hnone (c : Part) {sp : SensePlan} (hsp : sp.deferred = 0) : c.claimDeferred sp = c := if_pos hsp
  obtain ⟨hdef, hsame⟩ := Part.sensePlanFor_none h (isEdge (b.engine q).cfg.blPeriod (b.engine q).duty (b.engine q).output)
    (b.engine q).cfg.slots
  unfold Part.buildPlan
  dsimp only
  rw [he, ht]
  dsimp only
  rw [hsame _ ht, hnone _ hdef, hnone _ hdef, Part.verifyAll_verifyAll]

/-! ### Captures and credits (R26, R108, R110) -/

/-- A record freed by its check stands as no listed contract. -/
theorem Part.freedByCheck_standsAs {n : Nat} (d : Byte) (x : Placed) (h : n < b.table.length) :
    ((b.freedByCheck d n).record n).standsAs n x = false := by
  rw [Part.freedByCheck_record d n h, if_pos rfl]
  simp [Record.standsAs, Record.freeWith]

theorem Part.captureOne_bad {x : Placed} (hn : x.handle % 64 < b.table.length)
    (hg : (b.record (x.handle % 64)).checkGood = false) : b.captureOne x = b.freedByCheck 4 (x.handle % 64) := by
  unfold Part.captureOne
  dsimp only
  rw [Part.verify_bad _ hg, Part.freedByCheck_standsAs _ x hn]
  rfl

theorem Part.creditOne_bad {q : Panel} {c : Completion} {x : Placed} (hn : x.handle % 64 < b.table.length)
    (hg : (b.record (x.handle % 64)).checkGood = false) : b.creditOne q c x = b.freedByCheck 4 (x.handle % 64) := by
  unfold Part.creditOne
  dsimp only
  rw [Part.verify_bad _ hg, Part.freedByCheck_standsAs _ x hn]
  rfl

end

/-- Settles O23: a second reading finds every record good, so whoever reads the table acts as on the table read. -/
theorem tableChecksFound : Obligations.TableChecksFound := by
  unfold Obligations.TableChecksFound
  refine ⟨fun b who d _ hd => ?_, fun p ps s s' hs' => ?_, fun b q first st _ => ?_, fun b q x c n hs hn hg => ?_⟩
  · have hdetail : d = who.detail := by rw [hd]; cases who <;> rfl
    exact ⟨hdetail ▸ b.verifyAll_eq who, b.verifyAll_allGood who⟩
  · subst hs'
    refine ⟨fun a h ha hc => ?_, fun r a h hb hr ho hret ha hclass hc => ?_, fun h ha => ?_, fun h ha => ?_,
      fun q c h ha hd => ?_, fun h hp => ?_⟩
    · exact State.take_serve_verified (f := fun ps b => b.open p ps) h (Part.open_verifyAll ha hc)
    · subst hr
      have hpass := Bool.eq_false_iff.2 (mt (Record.refusesAmend_params ha).1 (not_or.2 ⟨hret, fun ⟨hs, hne, hcls⟩ =>
        (hclass hs).elim hne fun ⟨h₁, h₂⟩ => hcls.elim h₁ h₂⟩))
      exact State.take_serve_verified (f := fun ps b => b.onHandle ps (Part.amendAt p ps)) h
        (Part.amend_verifyAll hb ho hpass ha hc)
    · exact State.take_serve_verified h (Part.find_verifyAll ha)
    · exact State.take_serve_verified h (Part.list_verifyAll ha)
    · exact State.take_serve_verified h (Part.panelConfig_verifyAll ha hd)
    · exact State.take_serve_verified (f := fun _ b => b.recalibrate p) h (Part.recalibrate_verifyAll hp)
  · exact ⟨Part.turnClaim_verifyAll q first, Part.rescan_verifyAll, Part.associateContacts_verifyAll,
      Part.teardown_verifyAll q st, Part.buildPlan_verifyAll⟩
  · subst hn
    have hlt : x.handle % 64 < b.table.length := by
      have h64 : b.table.length = 64 := hs
      omega
    exact ⟨Part.captureOne_bad hlt hg, Part.creditOne_bad hlt hg⟩

end Sys2Proof.Machine

/-! # WARM_RESET, block by block (R28, R66, R101, R146, R193) -/

namespace Sys2Proof.Machine
open Sys2Proof.Machine.Part

/-! ### One record and the table (R28) -/

/-- What a warm reset makes of one record (R28). -/
def Record.warmReset (r : Record) : Record := if r.state = .free then r else r.freed

theorem Record.warmReset_freed (r : Record) (h : r.state ≠ .free) : r.freed.warmReset = r.warmReset := by
  have hfree : r.freed.state = .free := rfl
  unfold Record.warmReset
  rw [if_neg h, if_pos hfree]

/-- A change that leaves state and generation of a contract is lost in a warm reset. -/
theorem Record.warmReset_congr {r r' : Record} (hr : r.state ≠ .free) (hs : r'.state = r.state)
    (hg : r'.generation = r.generation) : r'.warmReset = r.warmReset := by
  unfold Record.warmReset Record.freed
  rw [hs, hg, if_neg hr, if_neg hr]

/-- A zone contract is not FREE (R155). -/
theorem Record.ne_free_of_isZoneContract {r : Record} (h : r.isZoneContract = true) : r.state ≠ .free := by
  simp only [Record.isZoneContract, Bool.and_eq_true, bne_iff_ne] at h
  exact h.1.1

theorem freeAll_record (b : Part) (n : Nat) :
    (freeAll b.table).getD n (Record.freeWith 0) = (b.record n).warmReset := by
  unfold freeAll Part.record
  rw [List.getD_eq_getElem?_getD, List.getD_eq_getElem?_getD, List.getElem?_map]
  cases b.table[n]? <;> rfl

/-! ### The stop of a panel -/

/-- The STOP a policy sends, in one line (R58). -/
theorem StopPolicy.message_eq (k : StopPolicy) : k.message = .stop (decide (k = .blank)) := by cases k <;> rfl

theorem StopPolicy.outputAfter_eq (k : StopPolicy) (level : Bool) :
    k.outputAfter level = if k = .hold then level else false := by cases k <;> rfl

theorem PanelState.active_iff (st : PanelState) : st.active = true ↔ st = .running ∨ st = .starting := by
  cases st <;> simp [PanelState.active]

section
variable (b : Part)

theorem Part.stopPanel_engine (p q : Panel) (st : PanelState) : (b.stopPanel p st).engine q =
    if q = p then { ((b.engine p).stopRun (b.link p).orders).stopOutput with state := st } else b.engine q := by
  cases p <;> cases q <;> rfl

theorem Part.stopPanel_link (p q : Panel) (st : PanelState) :
    (b.stopPanel p st).link q = if q = p then Link.reset else b.link q := by cases p <;> cases q <;> rfl

theorem Part.stopPanel_out (p : Panel) (st : PanelState) :
    (b.stopPanel p st).out = b.out ++ [.link p (b.engine p).cfg.policy.message] := by cases p <;> rfl

/-! ### One panel (R66) -/

/-- What a warm reset of a panel makes of its timeline engine (R66). -/
structure Engine.WarmReset (e e' : Engine) : Prop where
  state : e'.state = .down
  flag : e'.critical = false
  cfg : e'.cfg = e.cfg
  staged : e'.stagedDuty = e.stagedDuty
  frame : e'.frame = e.frame
  output : e'.output = if e.cfg.policy = .hold then e.output else false
  stopped : e.state.active = true →
    e'.slot = none ∧ e'.startLeft = none ∧ e'.plan = none ∧ e'.duty = e.stagedDuty

/-- What a warm reset of one panel leaves of the part; of records and touch it says what the rest of the warm reset
cannot lose (R28, R66, R101, R146). -/
structure Part.PanelReset (q : Panel) (b b' : Part) : Prop where
  engine : (b.engine q).WarmReset (b'.engine q)
  link : b'.link q = Link.reset
  otherEngine : ∀ p, p ≠ q → b'.engine p = b.engine p
  otherLink : ∀ p, p ≠ q → b'.link p = b.link p
  sent : b'.out = b.out ++ [.link q (.stop (decide ((b.engine q).cfg.policy = .blank)))]
  records : ∀ n, (b'.record n).warmReset = (b.record n).warmReset
  touch : b'.touch.warmReset = b.touch.warmReset
  faults : b'.faults = b.faults

/-- What a stop of a panel with its contracts and its touch leaves unsaid by `stopPanel`: table, ports and touch
alone change, and a warm reset loses those changes (R22, R143, R162). -/
structure Part.Released (b b' : Part) : Prop where
  rest : b' = { b with table := b'.table, ports := b'.ports, touch := b'.touch }
  records : ∀ n, (b'.record n).warmReset = (b.record n).warmReset
  touch : b'.touch.warmReset = b.touch.warmReset

theorem Part.Released.trans {a b c : Part} (h : Released a b) (k : Released b c) : Released a c where
  rest := by rw [k.rest, h.rest]
  records n := (k.records n).trans (h.records n)
  touch := k.touch.trans h.touch

theorem Part.freeRetiring_released (p : Panel) : Released b (b.freeRetiring p) := by
  have h : FreedRetiring p b (b.freeRetiring p) recordNumbers :=
    Part.freeRetiring_freed p b recordNumbers List.nodup_range
  generalize b.freeRetiring p = c at h
  have hc := h.same
  refine ⟨by rw [hc], fun n => ?_, by rw [hc]⟩
  rw [h.recs n]
  split
  · rename_i hr
    exact Record.warmReset_freed _ (by simp [hr.2.2])
  · rfl

theorem Part.releaseZones_released : Released b b.releaseZones := by
  obtain ⟨hc, hrec⟩ := Part.releaseZones_spec b recordNumbers List.nodup_range b.releaseZones rfl
  generalize b.releaseZones = c at hc hrec
  refine ⟨by rw [hc], fun n => ?_, by rw [hc]⟩
  rw [hrec n]
  split
  · rename_i hr
    exact Record.warmReset_congr (Record.ne_free_of_isZoneContract hr.2.1) rfl rfl
  · rfl

theorem Part.suspendTouch_released (p : Panel) : Released b (b.suspendTouch p) := by
  cases p with
  | cluster => exact ⟨rfl, fun _ => rfl, rfl⟩
  | centre =>
    have hsuspend : Released b (b.modTouch Touch.suspend) := ⟨rfl, fun _ => rfl, rfl⟩
    exact hsuspend.trans (Part.releaseZones_released _)

/-- The warm reset of one panel (R66). -/
theorem Part.warmResetPanel_reset (q : Panel) : PanelReset q b (b.warmResetPanel q) := by
  unfold Part.warmResetPanel
  split
  · rename_i hact
    have h := ((b.stopPanel q .down).freeRetiring_released q).trans (Part.suspendTouch_released _ q)
    generalize ((b.stopPanel q .down).freeRetiring q).suspendTouch q = c at h
    have hrest := h.rest
    have heng (p : Panel) : c.engine p = (b.stopPanel q .down).engine p := by rw [hrest]; rfl
    have hlink (p : Panel) : c.link p = (b.stopPanel q .down).link p := by rw [hrest]; rfl
    refine ⟨?_, ?_, fun p hp => ?_, fun p hp => ?_, ?_, fun n => ?_, ?_, ?_⟩
    · rw [Part.modEngine_engine, if_pos rfl, heng, Part.stopPanel_engine, if_pos rfl]
      exact ⟨rfl, rfl, rfl, rfl, rfl, StopPolicy.outputAfter_eq _ _, fun _ => ⟨rfl, rfl, rfl, rfl⟩⟩
    · rw [Part.modEngine_link, hlink, Part.stopPanel_link, if_pos rfl]
    · rw [Part.modEngine_engine, if_neg hp, heng, Part.stopPanel_engine, if_neg hp]
    · rw [Part.modEngine_link, hlink, Part.stopPanel_link, if_neg hp]
    · rw [Part.modEngine_out, hrest, ← StopPolicy.message_eq]
      exact b.stopPanel_out q .down
    · exact h.records n
    · exact h.touch
    · rw [Part.modEngine_faults, hrest]
      rfl
  · rename_i hact
    refine ⟨?_, ?_, fun p hp => ?_, fun p hp => ?_, ?_, fun _ => rfl, rfl, rfl⟩
    · rw [Part.modEngine_engine, if_pos rfl, Part.modLink_engine, Part.applyStop_engine, if_pos rfl]
      exact ⟨rfl, rfl, rfl, rfl, rfl, StopPolicy.outputAfter_eq _ _, fun h => absurd h hact⟩
    · rw [Part.modEngine_link, Part.modLink_link, if_pos rfl]
    · rw [Part.modEngine_engine, if_neg hp, Part.modLink_engine, Part.applyStop_engine, if_neg hp]
    · rw [Part.modEngine_link, Part.modLink_link, if_neg hp, Part.applyStop_link]
    · rw [← StopPolicy.message_eq]
      rfl

/-! ### Both panels -/

/-- Both panels after a warm reset (R66, R101). -/
theorem Part.warmReset_panels (q : Panel) :
    (b.engine q).WarmReset (b.warmReset.engine q) ∧ b.warmReset.link q = Link.reset := by
  have h₁ := b.warmResetPanel_reset .cluster
  have h₂ := (b.warmResetPanel .cluster).warmResetPanel_reset .centre
  have heng : b.warmReset.engine q = ((b.warmResetPanel .cluster).warmResetPanel .centre).engine q := rfl
  have hlink : b.warmReset.link q = ((b.warmResetPanel .cluster).warmResetPanel .centre).link q := rfl
  rw [heng, hlink]
  cases q with
  | cluster =>
    rw [h₂.otherEngine .cluster (by simp), h₂.otherLink .cluster (by simp)]
    exact ⟨h₁.engine, h₁.link⟩
  | centre =>
    refine ⟨?_, h₂.link⟩
    rw [← h₁.otherEngine .centre (by simp)]
    exact h₂.engine

/-- Every contract of the table is freed, whatever its panel's reset made of it (R28). -/
theorem Part.warmReset_record (n : Nat) : b.warmReset.record n = (b.record n).warmReset := by
  have h₁ := b.warmResetPanel_reset .cluster
  have h₂ := (b.warmResetPanel .cluster).warmResetPanel_reset .centre
  have hrec : b.warmReset.record n = (((b.warmResetPanel .cluster).warmResetPanel .centre).record n).warmReset :=
    freeAll_record _ n
  rw [hrec, h₂.records, h₁.records]

theorem Part.warmReset_touch : b.warmReset.touch = b.touch.warmReset :=
  ((b.warmResetPanel .cluster).warmResetPanel_reset .centre).touch.trans (b.warmResetPanel_reset .cluster).touch

theorem Part.warmReset_faults : b.warmReset.faults = b.faults :=
  ((b.warmResetPanel .cluster).warmResetPanel_reset .centre).faults.trans (b.warmResetPanel_reset .cluster).faults

/-- One STOP on each link, the cluster panel's first (R66). -/
theorem Part.warmReset_out : b.warmReset.out = b.out ++
    [.link .cluster (.stop (decide ((b.engine .cluster).cfg.policy = .blank))),
     .link .centre (.stop (decide ((b.engine .centre).cfg.policy = .blank)))] := by
  have h₁ := b.warmResetPanel_reset .cluster
  have h₂ := (b.warmResetPanel .cluster).warmResetPanel_reset .centre
  have hout : b.warmReset.out = ((b.warmResetPanel .cluster).warmResetPanel .centre).out := rfl
  rw [hout, h₂.sent, h₁.sent, h₁.otherEngine .centre (by simp), List.append_assoc]
  rfl

/-- Every port stands but for its notices, a PANEL notice naming both panels (R193). -/
theorem Part.warmReset_port (q : Port) :
    b.warmReset.port q = { b.port q with noticeSet := { NoticeSet.empty with panel := 3 } } := by
  have hcalm := (b.warmResetPanel_calm .cluster).trans (Part.warmResetPanel_calm _ .centre)
  have hport : b.warmReset.port q =
      { ((b.warmResetPanel .cluster).warmResetPanel .centre).port q with noticeSet := NoticeSet.afterWarmReset } :=
    PerPort.get_mapEach _ _ _
  rw [hport, hcalm.ports q]
  rfl

end

/-- Settles O52, block by block. -/
theorem warmResetEveryBlock : Obligations.WarmResetEveryBlock := by
  unfold Obligations.WarmResetEveryBlock
  intro p ps s h
  have ht := s.fresh.warmReset_touch
  refine ⟨s.fresh.warmReset, State.take_serve_eq (f := fun _ b => (b.warmReset, Reply.bare .ok)) h rfl,
    s.fresh.warmReset_faults, s.fresh.warmReset_calm.strap, fun n _ => s.fresh.warmReset_record n, fun q => ?_, ?_⟩
  · obtain ⟨he, hl⟩ := s.fresh.warmReset_panels q
    refine ⟨he.state, he.flag, he.cfg, he.staged, he.frame, he.output, by rw [hl]; rfl, by rw [hl]; rfl, fun hact => ?_⟩
    exact he.stopped ((PanelState.active_iff _).2 hact)
  · rw [ht]
    exact ⟨rfl, rfl, rfl, rfl, rfl, rfl, rfl, rfl, rfl, rfl, rfl, rfl, rfl, s.fresh.warmReset_out,
      s.fresh.warmReset_port⟩

end Sys2Proof.Machine

/-! # The turn claim, steps 1 to 5 (R18 to R21, R57, R121) -/

namespace Sys2Proof.Machine
open Sys2Proof.Machine.Part

/-! ### One record, step by step

One function for each step of `Record.turn`, so that the turn is their composition (`Record.turn_eq`). -/

/-- The contract after steps 1 and 2 (R19). -/
def Record.turnEntered (r : Record) : Record :=
  if r.state = .retiring then r.freed
  else if r.state = .staged then { r.agedToP.cleared with state := .live, lateMark := false }
  else r

/-- The contract after step 3 (R20). -/
def Record.turnAmended (r : Record) : Record :=
  match r.stagedAmendment with
  | none => r
  | some a =>
    if r.state = .live ∨ r.state = .stale ∨ r.state = .suspended then
      if r.turnDrops a then { r with stagedAmendment := none } else r.takeAmendment a
    else r

/-- Step 3 takes an amendment that changes the band or the checking, and so sets the age to P (R20). -/
def Record.turnChanges (r : Record) : Bool :=
  match r.stagedAmendment with
  | none => false
  | some a =>
    decide (r.state = .live ∨ r.state = .stale ∨ r.state = .suspended) && !r.turnDrops a && r.params.changesContent a

/-- The contract after step 4 (R21). -/
def Record.turnMarked (r : Record) : Record :=
  if (r.state = .live ∨ r.state = .stale) ∧ r.suspendMark = true then
    if r.state = .stale ∧ r.fallback = true then { r with suspendMark := false }
    else { r.cleared with state := .suspended, suspendMark := false, lateMark := false, lateFrames := 0 }
  else if r.state = .suspended ∧ r.resumeMark = true then r.resumed
  else r

/-- The contract after the restart of a first turn (R57). -/
def Record.turnRestarted (first : Bool) (r : Record) : Record :=
  if first = true ∧ (r.state = .live ∨ r.state = .stale) then r.agedToP.cleared else r

/-- The contract after step 5, where its age was set to P at this turn or not (R121). -/
def Record.turnAged (fresh : Bool) (r : Record) : Record :=
  if r.state = .live ∨ r.state = .stale then
    if fresh then r.cleared
    else { r.cleared with age := satInc 255 r.age, pending := r.pending.map PendingUpdate.aged }
  else r

theorem TurnResult.free_promote_eq (r : Record) :
    (TurnResult.free { record := r, fresh := false, notify := false }).promote =
      { record := r.turnEntered, fresh := decide (r.state = .staged)
        notify := decide (r.state = .retiring) || decide (r.state = .staged) } := by
  have hfreed : r.freed.state = .free := rfl
  unfold Record.turnEntered
  by_cases hr : r.state = .retiring
  · simp [TurnResult.free, TurnResult.promote, hr, hfreed]
  · by_cases hs : r.state = .staged
    · simp [TurnResult.free, TurnResult.promote, hs]
    · simp [TurnResult.free, TurnResult.promote, hr, hs]

theorem TurnResult.amend_eq (t : TurnResult) : t.amend =
    { record := t.record.turnAmended, fresh := t.fresh || t.record.turnChanges
      notify := t.notify || decide ((t.record.state = .live ∨ t.record.state = .stale ∨ t.record.state = .suspended) ∧
        t.record.stagedAmendment ≠ none) } := by
  unfold TurnResult.amend Record.turnAmended Record.turnChanges
  cases ha : t.record.stagedAmendment with
  | none => simp
  | some a =>
    by_cases hs : t.record.state = .live ∨ t.record.state = .stale ∨ t.record.state = .suspended
    · by_cases hd : t.record.turnDrops a = true
      · simp [hs, hd]
      · simp [hs, hd]
    · simp [hs]

theorem TurnResult.marks_eq (t : TurnResult) : t.marks =
    { record := t.record.turnMarked, fresh := t.fresh || t.record.turnResumes
      notify := t.notify || decide (t.record.turnMarked.state ≠ t.record.state) } := by
  unfold TurnResult.marks Record.turnMarked Record.turnResumes
  dsimp only
  by_cases hs : (t.record.state = .live ∨ t.record.state = .stale) ∧ t.record.suspendMark = true
  · have hns : t.record.state ≠ .suspended := by rcases hs.1 with h | h <;> simp [h]
    by_cases hf : t.record.state = .stale ∧ t.record.fallback = true
    · simp [hf, hs.2]
    · simp [hs, hf, hns, hns.symm]
  · rw [if_neg hs, if_neg hs]
    by_cases hr : t.record.state = .suspended ∧ t.record.resumeMark = true
    · simp [hr, Record.resumed]
    · have hr' : (t.record.state == .suspended && t.record.resumeMark) = false := by simpa using hr
      simp [hr, hr']

theorem TurnResult.restart_eq (first : Bool) (t : TurnResult) : t.restart first =
    { record := t.record.turnRestarted first
      fresh := t.fresh || decide (first = true ∧ (t.record.state = .live ∨ t.record.state = .stale))
      notify := t.notify } := by
  unfold TurnResult.restart Record.turnRestarted
  by_cases h : first = true ∧ (t.record.state = .live ∨ t.record.state = .stale)
  · simp [h]
  · simp [h]

theorem TurnResult.age_eq (t : TurnResult) : t.age = { t with record := t.record.turnAged t.fresh } := by
  unfold TurnResult.age Record.turnAged
  split
  · split <;> rfl
  · rfl

/-- Steps 1 to 5 on one record are the steps one after another (R18). -/
theorem Record.turn_eq (first : Bool) (r : Record) : r.turn first =
    { record := (r.turnEntered.turnAmended.turnMarked.turnRestarted first).turnAged
        (decide (r.state = .staged) || r.turnEntered.turnChanges || r.turnEntered.turnAmended.turnResumes ||
          decide (first = true ∧ (r.turnEntered.turnAmended.turnMarked.state = .live ∨
            r.turnEntered.turnAmended.turnMarked.state = .stale)))
      fresh := decide (r.state = .staged) || r.turnEntered.turnChanges || r.turnEntered.turnAmended.turnResumes ||
        decide (first = true ∧ (r.turnEntered.turnAmended.turnMarked.state = .live ∨
          r.turnEntered.turnAmended.turnMarked.state = .stale))
      notify := decide (r.state = .retiring) || decide (r.state = .staged) ||
        decide ((r.turnEntered.state = .live ∨ r.turnEntered.state = .stale ∨ r.turnEntered.state = .suspended) ∧
          r.turnEntered.stagedAmendment ≠ none) ||
        decide (r.turnEntered.turnAmended.turnMarked.state ≠ r.turnEntered.turnAmended.state) } := by
  unfold Record.turn
  dsimp only
  rw [TurnResult.free_promote_eq, TurnResult.amend_eq, TurnResult.marks_eq, TurnResult.restart_eq, TurnResult.age_eq]

/-! ### The amendment of a turn, in the words of R20 -/

theorem classCrosses_iff (c d : ContractClass) :
    classCrosses c d = true ↔ c ≠ d ∧ (c = .telltale ∨ d = .telltale) := by simp [classCrosses]

theorem Record.turnDrops_iff (r : Record) (a : Params) : r.turnDrops a = true ↔
    r.state = .stale ∧ r.params.cls ≠ a.cls ∧ (r.params.cls = .telltale ∨ a.cls = .telltale) := by
  simp [Record.turnDrops, classCrosses_iff]

theorem Record.takeAmendment_eq (r : Record) (a : Params) : r.takeAmendment a =
    { r with
      params := a, stagedAmendment := none
      pending := if r.params.band ≠ a.band ∨ r.params.checking ≠ a.checking then none else r.pending
      confirmed := if r.params.band ≠ a.band ∨ r.params.checking ≠ a.checking then none else r.confirmed
      age := if r.params.band ≠ a.band ∨ r.params.checking ≠ a.checking then a.period else r.age
      zoneState := if r.params.zone = a.zone then r.zoneState else a.zone.map fun _ => .idle
      lateMark := if r.params.cls ≠ .telltale ∧ a.cls = .telltale then false else r.lateMark
      lateFrames := if r.params.cls ≠ .telltale ∧ a.cls = .telltale then 0 else r.lateFrames } := by
  have hch := Params.changesContent_iff r.params a
  unfold Record.takeAmendment
  dsimp only
  rw [Record.withParams_eq]
  by_cases hc : r.params.changesContent a = true <;> by_cases hl : r.params.cls ≠ .telltale ∧ a.cls = .telltale
  · rw [if_pos hl, if_pos hc, if_pos (hch.1 hc), if_pos (hch.1 hc), if_pos (hch.1 hc), if_pos hl, if_pos hl]
    rfl
  · rw [if_neg hl, if_pos hc, if_pos (hch.1 hc), if_pos (hch.1 hc), if_pos (hch.1 hc), if_neg hl, if_neg hl]
    rfl
  · rw [if_pos hl, if_neg hc, if_neg (mt hch.2 hc), if_neg (mt hch.2 hc), if_neg (mt hch.2 hc), if_pos hl, if_pos hl]
  · rw [if_neg hl, if_neg hc, if_neg (mt hch.2 hc), if_neg (mt hch.2 hc), if_neg (mt hch.2 hc), if_neg hl, if_neg hl]

theorem Record.turnAmended_none {r : Record} (ha : r.stagedAmendment = none) : r.turnAmended = r := by
  unfold Record.turnAmended
  rw [ha]

theorem Record.turnAmended_some {r : Record} {a : Params} (ha : r.stagedAmendment = some a) : r.turnAmended =
    if r.state = .live ∨ r.state = .stale ∨ r.state = .suspended then
      if r.state = .stale ∧ r.params.cls ≠ a.cls ∧ (r.params.cls = .telltale ∨ a.cls = .telltale) then
        { r with stagedAmendment := none }
      else r.takeAmendment a
    else r := by
  unfold Record.turnAmended
  rw [ha]
  dsimp only
  by_cases hd : r.turnDrops a = true
  · rw [if_pos hd, if_pos ((r.turnDrops_iff a).1 hd)]
  · rw [if_neg hd, if_neg (mt (r.turnDrops_iff a).2 hd)]

theorem Record.turnChanges_none {r : Record} (ha : r.stagedAmendment = none) : r.turnChanges = false := by
  unfold Record.turnChanges
  rw [ha]

theorem Record.turnChanges_some {r : Record} {a : Params} (ha : r.stagedAmendment = some a) : r.turnChanges =
    decide ((r.state = .live ∨ r.state = .stale ∨ r.state = .suspended) ∧
      ¬(r.state = .stale ∧ r.params.cls ≠ a.cls ∧ (r.params.cls = .telltale ∨ a.cls = .telltale)) ∧
      (r.params.band ≠ a.band ∨ r.params.checking ≠ a.checking)) := by
  unfold Record.turnChanges
  rw [ha]
  dsimp only
  rw [Bool.eq_iff_iff, decide_eq_true_iff, ← Record.turnDrops_iff, ← Params.changesContent_iff]
  simp [and_assoc]

theorem Record.turnResumes_eq (r : Record) :
    r.turnResumes = decide (r.state = .suspended ∧ r.resumeMark = true) := by
  rw [Bool.eq_iff_iff]
  simp [Record.turnResumes]

/-! ### A turn leaves a good record good (R26) -/

theorem Record.setGood {r : Record} (h : r.checkGood = true) : { r with checkGood := true } = r := by
  cases r
  cases h
  rfl

/-- The turn of a good record is a good record. -/
theorem Record.turn_checkGood (first : Bool) {r : Record} (h : r.checkGood = true) :
    (r.turn first).record.checkGood = true := by
  have h₁ : r.turnEntered.checkGood = true := by
    unfold Record.turnEntered
    split
    · rfl
    · split <;> exact h
  have h₂ : r.turnEntered.turnAmended.checkGood = true := by
    generalize r.turnEntered = r at h₁
    unfold Record.turnAmended
    split
    · exact h₁
    · split
      · split
        · exact h₁
        · rw [Record.takeAmendment_eq]
          exact h₁
      · exact h₁
  have h₃ : r.turnEntered.turnAmended.turnMarked.checkGood = true := by
    generalize r.turnEntered.turnAmended = r at h₂
    unfold Record.turnMarked
    split
    · split <;> exact h₂
    · split <;> exact h₂
  have h₄ : (r.turnEntered.turnAmended.turnMarked.turnRestarted first).checkGood = true := by
    unfold Record.turnRestarted
    split <;> exact h₃
  rw [Record.turn_eq]
  dsimp only
  unfold Record.turnAged
  split
  · split <;> exact h₄
  · exact h₄

/-! ### The records of a panel -/

/-- What steps 1 to 5 of the turn claim of a panel do over some record numbers (R18 to R21, R159). -/
structure Part.Turned (q : Panel) (first : Bool) (b b' : Part) (ns : List Nat) : Prop where
  same : b' = { b with
    table := b'.table, ports := b'.ports, touch := { b.touch with candidates := b'.touch.candidates } }
  records : ∀ m, b'.record m =
    if m ∈ ns ∧ (b.record m).panel = q ∧ (b.record m).state ≠ .free then
      { ((b.record m).turn first).record with checkGood := true }
    else b.record m
  candidates : ∀ m, b'.touch.candidate m =
    if m ∈ ns ∧ (b.record m).panel = q ∧ (b.record m).state ≠ .free ∧
      ((b.record m).turnChangesZone || (b.record m).turnResumes) = true then none
    else b.touch.candidate m
  ports : ∀ p, b'.port p =
    { b.port p with noticeSet := { (b.port p).noticeSet with contract := (b'.port p).noticeSet.contract } }
  notices : ∀ p m, m < 64 → (b'.port p).noticeSet.contract.getLsbD m =
    ((b.port p).noticeSet.contract.getLsbD m ||
      decide (m ∈ ns ∧ (b.record m).panel = q ∧ (b.record m).state ≠ .free ∧ ((b.record m).turn first).notify = true ∧
        ((b.record m).owner = p.bits ∨ (b.record m).feeder = p.bits)))

section
variable (b : Part) (q : Panel) (first : Bool)

theorem Part.Turned.nil : Turned q first b b [] :=
  ⟨rfl, fun _ => by simp, fun _ => by simp, fun _ => rfl, fun _ _ _ => by simp⟩

/-- The turn of one more record, of a number not yet taken. -/
theorem Part.Turned.cons {b b₁ b' : Part} {n : Nat} {ns : List Nat} (hn : n ∉ ns) (h : Turned q first b b₁ [n])
    (k : Turned q first b₁ b' ns) : Turned q first b b' (n :: ns) := by
  have hrec {m : Nat} (hm : m ≠ n) : b₁.record m = b.record m := by rw [h.records m]; simp [hm]
  refine ⟨?_, fun m => ?_, fun m => ?_, fun p => ?_, fun p m hm => ?_⟩
  · rw [k.same, h.same]
  · rw [k.records m]
    by_cases hm : m = n
    · subst hm
      simp [hn, h.records m]
    · simp [hm, hrec hm]
  · rw [k.candidates m]
    by_cases hm : m = n
    · subst hm
      simp [hn, h.candidates m]
    · rw [h.candidates m]
      simp [hm, hrec hm]
  · rw [k.ports p, h.ports p]
  · rw [k.notices p m hm, h.notices p m hm]
    by_cases hmn : m = n
    · subst hmn
      simp [hn]
    · simp [hmn, hrec hmn]

theorem Part.emptyCandidateIf_candidate (c : Bool) (n m : Nat) :
    (b.emptyCandidateIf c n).touch.candidate m = if m = n ∧ c = true then none else b.touch.candidate m := by
  cases c with
  | false => simp [Part.emptyCandidateIf]
  | true =>
    by_cases hm : m = n
    · subst hm
      by_cases hl : m < b.touch.candidates.length
      · simp [Part.emptyCandidateIf, Touch.candidate, List.getD, hl]
      · simp [Part.emptyCandidateIf, Touch.candidate, List.getD, hl]
    · simp [Part.emptyCandidateIf, Touch.candidate, List.getD, hm, Ne.symm hm]

theorem Part.emptyCandidateIf_port (c : Bool) (n : Nat) (p : Port) : (b.emptyCandidateIf c n).port p = b.port p := by
  cases c <;> rfl

theorem Part.contractNoticeIf_touch (c : Bool) (n : Nat) (r : Record) (sender : Option Port) :
    (b.contractNoticeIf c n r sender).touch = b.touch := by cases c <;> rfl

/-- The CONTRACT notice of a turn (R7). -/
theorem Part.contractNoticeIf_port (c : Bool) (n : Nat) (r : Record) (p : Port) :
    (b.contractNoticeIf c n r none).port p =
      (b.port p).raiseIf (c && (p.bits == r.owner || p.bits == r.feeder)) (.contract n) := by
  cases c with
  | false => rfl
  | true =>
    have hsender : (some p != (none : Option Port)) = true := rfl
    simp [Part.contractNoticeIf, Part.contractNotice, hsender]

theorem ClientPort.raiseIf_contract (c : Bool) (n : Nat) (k : ClientPort) : k.raiseIf c (.contract n) =
    { k with noticeSet := { k.noticeSet with contract := (k.raiseIf c (.contract n)).noticeSet.contract } } := by
  cases c <;> rfl

theorem ClientPort.raiseIf_contract_getLsbD (c : Bool) (n m : Nat) (k : ClientPort) (hm : m < 64) :
    (k.raiseIf c (.contract n)).noticeSet.contract.getLsbD m =
      (k.noticeSet.contract.getLsbD m || decide (m = n ∧ c = true)) := by
  cases c with
  | false => simp [ClientPort.raiseIf]
  | true =>
    simp only [and_true]
    exact getLsbD_or_bitOf _ n m hm

/-- Emptying a candidate and raising a CONTRACT notice change candidates and ports alone. -/
theorem Part.emptyCandidateIf_contractNoticeIf_same (c k : Bool) (n : Nat) (r : Record) (sender : Option Port)
    {b' : Part} (h : b' = (b.emptyCandidateIf c n).contractNoticeIf k n r sender) :
    b' = { b with ports := b'.ports, touch := { b.touch with candidates := b'.touch.candidates } } := by
  subst h
  cases c <;> cases k <;> rfl

/-- The turn of one record number. -/
theorem Part.turnOne_turned (n : Nat) : Turned q first b (b.turnOne q first n) [n] := by
  by_cases hr : (b.record n).panel = q ∧ (b.record n).state ≠ .free
  · have hb : b.turnOne q first n =
        ((b.setRecord n ((b.record n).turn first).record).emptyCandidateIf
          ((b.record n).turnChangesZone || (b.record n).turnResumes) n).contractNoticeIf
            ((b.record n).turn first).notify n (b.record n) none := if_pos hr
    refine ⟨?_, fun m => ?_, fun m => ?_, fun p => ?_, fun p m hm => ?_⟩
    · have hsame := Part.emptyCandidateIf_contractNoticeIf_same _ _ _ _ _ _ hb
      rw [hsame]
      rfl
    · by_cases hm : m = n
      · subst hm
        rw [b.turnOne_record q first m hr.1 hr.2]
        simp [hr]
      · rw [b.turnOne_record_ne q first n m hm]
        simp [hm]
    · rw [hb, Part.contractNoticeIf_touch, Part.emptyCandidateIf_candidate, Part.setRecord_touch]
      by_cases hm : m = n
      · subst hm
        simp [hr]
      · simp [hm]
    · rw [hb, Part.contractNoticeIf_port, Part.emptyCandidateIf_port, Part.setRecord_port]
      exact ClientPort.raiseIf_contract _ _ _
    · rw [hb, Part.contractNoticeIf_port, Part.emptyCandidateIf_port, Part.setRecord_port,
        ClientPort.raiseIf_contract_getLsbD _ _ _ _ hm]
      congr 1
      by_cases hmn : m = n
      · subst hmn
        simp [hr, eq_comm (a := p.bits)]
      · simp [hmn]
  · have hb : b.turnOne q first n = b := if_neg hr
    have hno {m : Nat} (hm : m ∈ [n]) : ¬((b.record m).panel = q ∧ (b.record m).state ≠ .free) := by
      rw [List.mem_singleton.1 hm]
      exact hr
    rw [hb]
    refine ⟨rfl, fun m => ?_, fun m => ?_, fun _ => rfl, fun p m _ => ?_⟩
    · rw [if_neg fun h => hno h.1 h.2]
    · rw [if_neg fun h => hno h.1 ⟨h.2.1, h.2.2.1⟩]
    · rw [decide_eq_false fun h => hno h.1 ⟨h.2.1, h.2.2.1⟩, Bool.or_false]

/-- Steps 1 to 5 of a turn claim over record numbers, each taken once (R18). -/
theorem Part.turns_turned (ns : List Nat) (hns : ns.Nodup) :
    Turned q first b (ns.foldl (fun b n => b.turnOne q first n) b) ns := by
  induction ns generalizing b with
  | nil => exact Turned.nil b q first
  | cons n ns ih =>
    obtain ⟨hn, hns⟩ := List.nodup_cons.1 hns
    exact Turned.cons q first hn (b.turnOne_turned q first n) (ih _ hns)

end

/-- A turn empties the press candidate of a resumed contract, and of one whose zone an amendment changes (R159). -/
theorem Record.turnChangesZone_or_resumes (r : Record) : (r.turnChangesZone || r.turnResumes) = true ↔
    (r.state = .suspended ∧ r.resumeMark = true) ∨
      ∃ a, r.stagedAmendment = some a ∧ r.params.zone ≠ a.zone ∧
        (r.state = .live ∨ r.state = .stale ∨ r.state = .suspended) ∧
        ¬(r.state = .stale ∧ r.params.cls ≠ a.cls ∧ (r.params.cls = .telltale ∨ a.cls = .telltale)) := by
  rw [Bool.or_eq_true, Record.turnResumes_eq, decide_eq_true_iff, or_comm]
  refine or_congr_right ?_
  unfold Record.turnChangesZone
  cases ha : r.stagedAmendment with
  | none => simp
  | some a =>
    simp only [Option.some.injEq, exists_eq_left', ← Record.turnDrops_iff]
    simp only [Bool.and_eq_true, Bool.or_eq_true, beq_iff_eq, Bool.not_eq_true', bne_iff_ne, ne_eq, Bool.not_eq_true]
    tauto

/-- Settles O31: the record half by `Record.turn_eq`, step by step; the table half by the turn of one record number
after another. -/
theorem turnTakesRecords : Obligations.TurnTakesRecords := by
  unfold Obligations.TurnTakesRecords
  refine ⟨fun first changed resumed set r r₁ r₂ r₃ r₄ h₁ h₂ h₃ h₄ hch hre hset => ?_, fun q first b hs hg => ?_⟩
  · have e₁ : r₁ = r.turnEntered := h₁
    have e₂ : r₂ = r₁.turnAmended ∧ changed = r₁.turnChanges := by
      cases ha : r₁.stagedAmendment with
      | none =>
        rw [ha] at h₂ hch
        rw [Record.turnAmended_none ha, Record.turnChanges_none ha]
        exact ⟨h₂, hch⟩
      | some a =>
        rw [ha] at h₂ hch
        rw [Record.turnAmended_some ha, Record.turnChanges_some ha, Record.takeAmendment_eq]
        exact ⟨h₂, hch⟩
    obtain ⟨e₂, ec⟩ := e₂
    have e₃ : r₃ = r₂.turnMarked := h₃
    have e₄ : r₄ = r₃.turnRestarted first := h₄
    have er : resumed = r₂.turnResumes := by rw [hre, Record.turnResumes_eq]
    clear h₁ h₂ h₃ h₄ hch hre
    subst e₁ e₂ e₃ e₄ ec er
    rw [Record.turn_eq, ← hset]
    exact ⟨rfl, rfl, rfl⟩
  · have good := Part.allGood_iff.1 hg
    have h := b.turns_turned q first recordNumbers recordNumbers_nodup
    refine ⟨recordNumbers.foldl (fun b n => b.turnOne q first n) b, ?_, h.same, fun n hn => ?_, fun n hn => ?_,
      fun p => ⟨h.ports p, fun n hn => ?_⟩⟩
    · unfold Part.turnClaim
      rw [Part.verifyAll_good .turnClaim hg]
      rfl
    · have hmem : n ∈ recordNumbers := List.mem_range.2 hn
      rw [h.records n, Record.setGood (Record.turn_checkGood first (good n hn))]
      simp only [hmem, true_and]
    · have hmem : n ∈ recordNumbers := List.mem_range.2 hn
      rw [h.candidates n]
      simp only [hmem, true_and, Record.turnChangesZone_or_resumes]
    · have hmem : n ∈ recordNumbers := List.mem_range.2 hn
      rw [h.notices p n hn]
      simp only [hmem, true_and]

end Sys2Proof.Machine

/-! # The plan and its contracts (R67, R72, R73, R80 to R85): O34 -/

namespace Sys2Proof.Machine

/-! ### A list sorted by insertion -/

theorem sortBy_perm {α : Type} (before : α → α → Bool) (xs : List α) : (sortBy before xs).Perm xs := by
  induction xs with
  | nil => exact .nil
  | cons x xs ih => exact (insertBy_perm before x _).trans (ih.cons x)

/-- An order that is asymmetric and whose complement is transitive. -/
structure IsWeakOrder {α : Type} (before : α → α → Bool) : Prop where
  asymm : ∀ a b, before a b = true → before b a = false
  negTrans : ∀ a b c, before b a = false → before c b = false → before c a = false

theorem insertBy_pairwise {α : Type} {before : α → α → Bool} (h : IsWeakOrder before) (x : α) {xs : List α}
    (hs : xs.Pairwise fun a b => before b a = false) :
    (insertBy before x xs).Pairwise fun a b => before b a = false := by
  induction xs with
  | nil => simp [insertBy]
  | cons y ys ih =>
    obtain ⟨hy, hys⟩ := List.pairwise_cons.1 hs
    unfold insertBy
    split
    next hyx =>
      refine List.pairwise_cons.2 ⟨fun z hz => ?_, ih hys⟩
      rcases List.mem_cons.1 ((insertBy_perm before x ys).mem_iff.1 hz) with rfl | hz
      · exact h.asymm _ _ hyx
      · exact hy z hz
    next hyx =>
      have hyx : before y x = false := Bool.eq_false_iff.2 hyx
      refine List.pairwise_cons.2 ⟨fun z hz => ?_, hs⟩
      rcases List.mem_cons.1 hz with rfl | hz
      · exact hyx
      · exact h.negTrans _ _ _ hyx (hy z hz)

theorem sortBy_pairwise {α : Type} {before : α → α → Bool} (h : IsWeakOrder before) (xs : List α) :
    (sortBy before xs).Pairwise fun a b => before b a = false := by
  induction xs with
  | nil => exact .nil
  | cons x xs ih => exact insertBy_pairwise h x ih

/-! ### The due set and its order (R80, R81) -/

theorem mem_numbered {table : List Record} (hlen : table.length = 64) (n : Nat) (r : Record) :
    (n, r) ∈ numbered table ↔ table[n]? = some r := by
  rw [List.mem_iff_getElem?]
  constructor
  · rintro ⟨i, hi⟩
    obtain ⟨hn, hr⟩ := List.getElem?_zip_eq_some.1 hi
    obtain ⟨hi, rfl⟩ := List.getElem?_eq_some_iff.1 hn
    simpa [recordNumbers] using hr
  · intro hr
    have hn : n < 64 := hlen ▸ (List.getElem?_eq_some_iff.1 hr).1
    exact ⟨n, List.getElem?_zip_eq_some.2 ⟨by simp [recordNumbers, hn], hr⟩⟩

theorem Record.isDue_iff (q : Panel) (r : Record) : r.isDue q = true ↔
    r.panel = q ∧ (r.state = .live ∨ r.state = .stale) ∧
      (r.pending ≠ none ∨ r.params.period ≤ r.age ∨ r.fallback = true) := by
  simp [Record.isDue, and_assoc, or_assoc, Option.isSome_iff_ne_none]

theorem mem_dueSet {q : Panel} {table : List Record} (hlen : table.length = 64) (n : Nat) (r : Record) :
    (n, r) ∈ dueSet q table ↔ table[n]? = some r ∧ r.panel = q ∧ (r.state = .live ∨ r.state = .stale) ∧
      (r.pending ≠ none ∨ r.params.period ≤ r.age ∨ r.fallback = true) := by
  rw [dueSet, (sortBy_perm _ _).mem_iff, List.mem_filter, mem_numbered hlen, Record.isDue_iff]

/-- The order of R81, stated for two contracts. -/
theorem dueBefore_iff (x y : Nat × Record) : dueBefore x y = true ↔
    (x.2.fallback = true ∧ (y.2.fallback = false ∨ x.1 < y.1)) ∨
      (x.2.fallback = false ∧ y.2.fallback = false ∧
        (x.2.slack < y.2.slack ∨ (x.2.slack = y.2.slack ∧
          (x.2.params.cls.rank < y.2.params.cls.rank ∨ (x.2.params.cls = y.2.params.cls ∧ x.1 < y.1))))) := by
  rw [← ContractClass.rank_inj, dueBefore]
  cases x.2.fallback <;> cases y.2.fallback <;> simp
  split
  next hs =>
    split
    next hc => simp [hs, hc]
    next hc => simp [hs, hc]
  next hs => simp [hs]

theorem dueBefore_isWeakOrder : IsWeakOrder dueBefore where
  asymm a b h := by
    rw [← Bool.not_eq_true, dueBefore_iff, ← ContractClass.rank_inj]
    rw [dueBefore_iff, ← ContractClass.rank_inj] at h
    grind
  negTrans a b c h₁ h₂ := by
    rw [← Bool.not_eq_true, dueBefore_iff, ← ContractClass.rank_inj] at h₁ h₂ ⊢
    grind

/-- Two contracts of different numbers stand in one order or the other. -/
theorem dueBefore_total {x y : Nat × Record} (hne : x.1 ≠ y.1) (h : dueBefore y x = false) : dueBefore x y = true := by
  rw [← Bool.not_eq_true, dueBefore_iff, ← ContractClass.rank_inj] at h
  rw [dueBefore_iff, ← ContractClass.rank_inj]
  grind

theorem dueSet_numbers_ne (q : Panel) (table : List Record) : (dueSet q table).Pairwise fun x y => x.1 ≠ y.1 :=
  ((sortBy_perm _ _).pairwise_iff fun h => Ne.symm h).2 (((numbered_sorted table).filter _).imp Nat.ne_of_lt)

theorem dueSet_sorted (q : Panel) (table : List Record) :
    (dueSet q table).Pairwise fun x y => dueBefore x y = true :=
  (sortBy_pairwise dueBefore_isWeakOrder _).imp₂ (fun _ _ h hne => dueBefore_total hne h) (dueSet_numbers_ne q table)

/-! ### The slack (R81) -/

theorem Record.slack_byPeriod {r : Record} (h : r.pending = none ∨ r.params.latency = none) :
    r.slack = (r.params.period : Int) - r.age := by
  unfold Record.slack
  rcases h with h | h
  · rw [h]
  · rw [h]; cases r.pending <;> rfl

theorem Record.slack_byLatency {r : Record} {u : PendingUpdate} {l : Nat} (hu : r.pending = some u)
    (hl : r.params.latency = some l) : r.slack =
      if (r.params.period : Int) - r.age ≤ (l : Int) - u.age then (r.params.period : Int) - r.age
      else (l : Int) - u.age := by
  unfold Record.slack
  rw [hu, hl]
  exact min_def _ _

/-! ### The row groups a contract lacks, and the free slots (R82) -/

theorem filter_le_range {last N : Nat} (h : last < N) :
    (List.range N).filter (fun g => decide (g ≤ last)) = List.range (last + 1) := by
  obtain ⟨k, rfl⟩ := Nat.exists_eq_add_of_le (Nat.succ_le_of_lt h)
  rw [List.range_add, List.filter_append, List.filter_eq_self.2, List.filter_eq_nil_iff.2, List.append_nil]
  · intro g hg
    obtain ⟨i, -, rfl⟩ := List.mem_map.1 hg
    simp
    omega
  · intro g hg
    have := List.mem_range.1 hg
    simp
    omega

/-- The row groups of a band of a panel, ascending, as those of the 256 that lie in it. -/
theorem Band.groups_eq_filter {d : Band} (h : d.last < 256) :
    d.groups = (List.range 256).filter fun g => decide (d.first ≤ g) && decide (g ≤ d.last) := by
  rw [← List.filter_filter, filter_le_range h]
  refine Eq.trans ?_ (slotsFrom_eq d.first (d.last + 1)).symm
  exact List.range'_eq_map_range.symm

theorem Draft.missing_eq_filter {dr : Draft} {d : Band} (h : d.last < 256) :
    Draft.missing dr d = (List.range 256).filter fun g =>
      decide (d.first ≤ g) && decide (g ≤ d.last) && !Draft.carries dr g := by
  rw [Draft.missing, Band.groups_eq_filter h, List.filter_filter]
  refine List.filter_congr fun g _ => ?_
  rw [Bool.and_comm]

/-- The j-th place of a filled draft: a free slot takes the entry that its place among the free slots names. -/
theorem fillFree_getElem? (dr : Draft) (ks : List EntryKind) (j : Nat) : (fillFree dr ks)[j]? =
    if dr[j]? = some none then some (ks[(dr.take j).countP Option.isNone]?) else dr[j]? := by
  induction dr generalizing ks j with
  | nil => simp [fillFree]
  | cons e es ih =>
    cases ks with
    | nil => cases e <;> simp [fillFree]
    | cons k ks =>
      cases e with
      | none =>
        cases j with
        | zero => simp [fillFree]
        | succ j => simp [fillFree, ih]
      | some e =>
        cases j with
        | zero => simp [fillFree]
        | succ j => simp [fillFree, ih]

/-! ### A contract is placed or skipped whole (R82 to R84) -/

theorem Build.take_skips {x : Build} {nr : Nat × Record}
    (h : Draft.free x.draft < (Draft.missing x.draft nr.2.params.band).length) :
    x.take nr = { x with skipped := x.skipped ++ [nr.2.handle nr.1] } := if_neg (Nat.not_le.2 h)

theorem Build.take_draft {x : Build} {nr : Nat × Record}
    (h : (Draft.missing x.draft nr.2.params.band).length ≤ Draft.free x.draft) :
    (x.take nr).draft = fillFree x.draft ((Draft.missing x.draft nr.2.params.band).map
      fun g => entryOf nr.2.placedKind nr.1 g) := by
  simp [Build.take, h]

theorem Build.take_places {x : Build} {nr : Nat × Record}
    (h : (Draft.missing x.draft nr.2.params.band).length ≤ Draft.free x.draft) :
    x.take nr =
      { draft := (x.take nr).draft
        placed := x.placed ++ [placedEntry nr.1 nr.2 (x.take nr).draft]
        skipped := x.skipped } := by
  rw [Build.take_draft h]
  exact if_pos h

theorem Record.placedKind_eq (r : Record) :
    r.placedKind = if r.fallback = true ∧ r.pending = none then .fallback else .drive := by
  simp [Record.placedKind]

/-- A draft carries a row group in its DRIVE and FALLBACK entries (R69). -/
theorem Draft.carries_eq_any (dr : Draft) (g : Nat) : Draft.carries dr g = dr.any fun e => match e with
    | some (.drive g' _) => g' == g
    | some (.fallback g' _) => g' == g
    | _ => false := by
  unfold Draft.carries
  congr 1
  funext e
  cases e with
  | none => rfl
  | some k => cases k <;> rfl

/-! ### The build (R67, R72, R73) -/

theorem carriedOutcome_eq (q : Panel) (old : Option Plan) : carriedOutcome q old = match q, old with
    | .centre, some old =>
      match old.entries[old.entries.length - 2]? with
      | some y =>
        match y.kind with
        | .drive _ _ => some y.outcome
        | .fallback _ _ => some y.outcome
        | _ => none
      | none => none
    | _, _ => none := by
  cases q with
  | cluster => cases old <;> rfl
  | centre =>
    cases old with
    | none => rfl
    | some old =>
      simp only [carriedOutcome, Plan.orderOutcomeAt, Option.bind_some]
      cases old.entries[old.entries.length - 2]? with
      | none => rfl
      | some y => rfl

theorem Part.claimDeferred_eq (sp : SensePlan) (b : Part) : b.claimDeferred sp =
    if sp.deferred = 0 then b else b.claim .touch
      { code := .senseDeferred, cls := .corrected, scope := .panel, panel := some .centre, handle := none,
        detail := BitVec.ofNat 8 (b.touch.neededRows.getD sp.sense.length 0) } := rfl

/-- The build of a plan, in the order of R73: the sense entries, the table read, the due contracts. -/
theorem Part.buildPlan_eq {q : Panel} {b b₂ : Part} {sp : SensePlan} {x : Build} {pl : Plan}
    (hsp : sp = b.sensePlanFor q (isEdge (b.engine q).cfg.blPeriod (b.engine q).duty (b.engine q).output)
      (b.engine q).cfg.slots)
    (hb₂ : b₂ = (b.claimDeferred sp).verifyAll .planBuilding)
    (hx : x = placeAll (draftOf (b.engine q).cfg.slots sp b.touch.neededRows) (dueSet q b₂.table))
    (hpl : pl = { entries := Draft.finish x.draft, placed := x.placed, carried := carriedOutcome q (b.engine q).plan }) :
    b.buildPlan q = (b₂.claimShort q x.skipped).modEngine q fun e => { e with plan := some pl } := by
  unfold Part.buildPlan
  dsimp only
  rw [← hsp, ← hb₂, ← hx, hpl]

/-- Settles O34: the build unfolds in the order of R73, the due set is sorted by the order of R81, and a due contract is
placed whole into the free slots or skipped whole. -/
theorem planPlacesContracts : Obligations.PlanPlacesContracts := by
  unfold Obligations.PlanPlacesContracts
  refine ⟨?_, fun q table n r hlen => ⟨mem_dueSet hlen n r, ?_⟩,
    fun r => ⟨Record.slack_byPeriod, fun u l => Record.slack_byLatency⟩, ?_⟩
  · intro q b b₁ b₂ sp x pl hsp h₁ h₂ hx hentries hplaced hcarried
    have hb₂ : b₂ = (b.claimDeferred sp).verifyAll .planBuilding := by rw [h₂, h₁, Part.claimDeferred_eq]
    have hpl : pl =
        { entries := Draft.finish x.draft, placed := x.placed, carried := carriedOutcome q (b.engine q).plan } := by
      obtain ⟨_, _, _⟩ := pl
      rw [Plan.mk.injEq]
      exact ⟨hentries, hplaced, hcarried.trans (carriedOutcome_eq q _).symm⟩
    refine (Part.buildPlan_eq hsp hb₂ hx hpl).trans ?_
    cases x.skipped <;> rfl
  · exact (dueSet_sorted q table).imp fun h => (dueBefore_iff _ _).1 h
  · intro x n r kind missing free dr y hkind hmissing hlast hfree
    have hkind : kind = r.placedKind := hkind.trans r.placedKind_eq.symm
    have hmissing : missing = Draft.missing x.draft r.params.band := by
      rw [hmissing, Draft.missing_eq_filter hlast]
      exact List.filter_congr fun g _ =>
        congrArg (fun c => _ && !c) (Draft.carries_eq_any x.draft g).symm
    subst hkind hmissing hfree
    refine ⟨fun hskip => Build.take_skips hskip, fun hplace hdr hh hk hb hc => ?_⟩
    have hfill := hdr.trans (Build.take_draft (nr := (n, r)) hplace)
    have hy : y = placedEntry n r dr := by
      obtain ⟨_, _, _, _⟩ := y
      subst hh hk hb hc
      unfold placedEntry
      cases r.placedKind <;> rfl
    refine ⟨by rw [hfill, fillFree_length], fun j => ?_, ?_⟩
    · rw [hfill, fillFree_getElem?, List.getElem?_map]
      rcases x.draft[j]? with _ | _ | k
      · rfl
      · unfold entryOf
        cases r.placedKind <;> rfl
      · rfl
    · rw [hy, hdr]
      exact Build.take_places hplace

end Sys2Proof.Machine

/-!
# The family of admission and budget: what admission counts, OPEN refused, and the promises kept
-/

namespace Sys2Proof.Machine

/-! ### The view and its choices (R29, R38) -/

/-- The contracts of a view: those of the panel that are neither FREE nor RETIRING (R29). -/
theorem mem_viewRecords {q : Panel} {table : List Record} (h : table.length = 64) {n : Nat} {r : Record} :
    (n, r) ∈ viewRecords q table ↔ table[n]? = some r ∧ r.panel = q ∧ r.state ≠ .free ∧ r.state ≠ .retiring := by
  simp [viewRecords, List.mem_filter, mem_numbered h, Record.inView]

/-- A contract without a staged amendment is judged under its own parameters (R29). -/
theorem Record.viewOptions_none {r : Record} (h : r.stagedAmendment = none) : r.viewOptions = [r.params] := by
  simp [Record.viewOptions, Record.twoWay, Record.viewParams, h]

/-- A contract with a staged amendment is judged under it, and under its present parameters too where it is two-way
(R29, R38). -/
theorem Record.viewOptions_some {r : Record} {a : Params} (h : r.stagedAmendment = some a) :
    r.viewOptions =
      if (r.state = .live ∨ r.state = .stale) ∧ classCrosses r.params.cls a.cls = true then [r.params, a] else [a] := by
  have htwo : r.twoWay = true ↔ (r.state = .live ∨ r.state = .stale) ∧ classCrosses r.params.cls a.cls = true := by
    simp [Record.twoWay, h]
  by_cases hw : r.twoWay = true
  · rw [if_pos (htwo.1 hw)]
    simp [Record.viewOptions, hw, h]
  · have hkeep : ¬r.turnDrops a = true := fun hd => by
      obtain ⟨hstale, hc⟩ : r.state = .stale ∧ classCrosses r.params.cls a.cls = true := by
        simpa [Record.turnDrops] using hd
      exact hw (htwo.2 ⟨.inr hstale, hc⟩)
    rw [if_neg (mt htwo.2 hw)]
    simp [Record.viewOptions, Record.viewParams, hw, h, hkeep]

/-! ### Load, reserve and budget (R31 to R33) -/

/-- The ceiling of a quotient is the least whole number whose product with the divisor reaches the dividend. -/
theorem ceilDiv_bounds (n : Nat) {d : Nat} (h : 1 ≤ d) : n ≤ ceilDiv n d * d ∧ ceilDiv n d * d < n + d := by
  have hdiv := Nat.div_add_mod' (n + d - 1) d
  have hmod := Nat.mod_lt (n + d - 1) h
  unfold ceilDiv
  omega

theorem Params.bound_none {q : Params} (h : q.latency = none) : q.bound = q.period := by simp [Params.bound, h]

/-- The smaller of P and L (R31). -/
theorem Params.bound_some {q : Params} {l : Nat} (h : q.latency = some l) :
    q.bound = if l < q.period then l else q.period := by
  simp only [Params.bound, h]
  split <;> omega

/-- The row groups of a band that is not empty (R31). -/
theorem Band.size_eq {d : Band} (h : d.first ≤ d.last) : d.size = d.last - d.first + 1 := by
  unfold Band.size
  omega

theorem Band.size_of_empty {d : Band} (h : ¬d.first ≤ d.last) : d.size = 0 := by
  unfold Band.size
  omega

/-- The transmit rows under the zones of a view, by their bands (R32). -/
theorem View.rowCount_eq (v : View) : v.rowCount = ((List.range 15).filter fun t => v.any fun x =>
    x.2.zone.isSome && decide (x.2.band.first ≤ 10 * t + 9) && decide (10 * t ≤ x.2.band.last)).length := by
  simp only [View.rowCount, transmitRowNumbers, Band.onRow, Band.meets, Bool.and_assoc]

theorem View.mem_zones {v : View} {z : Zone} : z ∈ v.zones ↔ ∃ x ∈ v, x.2.zone = some z := by simp [View.zones]

/-- A divisor up to 8 that some zone has and no zone goes below is the least divisor (R32). -/
theorem leastDivisor_eq {zs : List Zone} {d : Nat} (h8 : d ≤ 8) (hin : ∃ z ∈ zs, z.divisor = d)
    (hle : ∀ z ∈ zs, d ≤ z.divisor) : leastDivisor zs = d := by
  obtain ⟨z, hz, rfl⟩ := hin
  obtain ⟨-, hbelow, hgreatest⟩ := leastDivisor_foldl zs 8
  exact Nat.le_antisymm (hbelow z hz) (hgreatest _ h8 hle)

/-- No reserve where no transmit row lies under a zone (R32). -/
theorem View.reserve_centre_zero {v : View} (h : v.rowCount = 0) : v.reserve .centre = 0 := if_pos h

theorem View.reserve_centre {v : View} (h : v.rowCount ≠ 0) :
    v.reserve .centre = ceilDiv v.rowCount (leastDivisor v.zones) + 2 := if_neg h

/-! ### Budget, fit and exclusivity (R33 to R35) -/

theorem View.withinBudget_iff (q : Panel) (slots : Nat) (v : View) :
    v.withinBudget q slots = true ↔ (v.map fun x => x.2.load).sum ≤ v.budget q slots := decide_eq_true_iff

/-- Fit, band by band; an empty band has no row groups (R35). -/
theorem View.fits_iff (q : Panel) (slots : Nat) (v : View) : v.fits q slots = true ↔
    ∀ x ∈ v, x.2.band.first ≤ x.2.band.last → x.2.band.last - x.2.band.first + 1 ≤ slots - 1 - v.reserve q := by
  simp only [View.fits, List.all_eq_true, decide_eq_true_eq]
  refine forall₂_congr fun x _ => ⟨fun h hb => Band.size_eq hb ▸ h, fun h => ?_⟩
  by_cases hb : x.2.band.first ≤ x.2.band.last
  · exact Band.size_eq hb ▸ h hb
  · exact Band.size_of_empty hb ▸ Nat.zero_le _

/-- Exclusivity, pair by pair (R34). -/
theorem View.exclusive_iff (v : View) : v.exclusive = true ↔
    ∀ x ∈ v, ∀ y ∈ v, x.1 ≠ y.1 → (x.2.cls = .telltale ∨ y.2.cls = .telltale) →
      ¬(x.2.band.first ≤ y.2.band.last ∧ y.2.band.first ≤ x.2.band.last) := by
  simp only [View.exclusive, List.all_eq_true, Bool.not_eq_true', ← Bool.not_eq_true]
  refine forall₂_congr fun x _ => (not_congr (v.inConflict_iff x.1 x.2)).trans ⟨fun h y hy hne hcls hmeets => ?_, ?_⟩
  · exact h ⟨y.1, y.2, hy, hne.symm, hcls, hmeets⟩
  · rintro h ⟨m, a, hy, hne, hcls, hmeets⟩
    exact h (m, a) hy hne.symm hcls hmeets

/-- Settles O15, figure by figure: the view, the choices, load, reserve, budget, fit and exclusivity. -/
theorem admissionCounts : Obligations.AdmissionCounts := by
  unfold Obligations.AdmissionCounts
  refine ⟨fun q table n r h => ⟨mem_viewRecords h, viewRecords_sorted q table⟩,
    fun r a => ⟨Record.viewOptions_none, fun h => ?_⟩, fun n r rest => ⟨rfl, rfl⟩, fun q m hband hm hbound => ?_,
    fun v rows hrows => ⟨rfl, fun h0 => ?_, fun d h0 h1 h8 hin hle => ?_⟩, fun q slots v =>
      ⟨rfl, v.withinBudget_iff q slots, v.fits_iff q slots, v.exclusive_iff⟩⟩
  · simp only [Record.viewOptions_some h, classCrosses_iff]
  · have hm' : m = q.bound := by
      cases hl : q.latency with
      | none => simpa only [hl, Params.bound_none hl] using hbound
      | some l => simpa only [hl, Params.bound_some hl] using hbound
    subst hm'
    rw [← Band.size_eq hband]
    exact ceilDiv_bounds _ hm
  · exact View.reserve_centre_zero (v.rowCount_eq.trans (hrows.symm.trans h0))
  · have hcount : v.rowCount = rows := v.rowCount_eq.trans hrows.symm
    have hleast : leastDivisor v.zones = d := by
      refine leastDivisor_eq h8 ?_ fun z hz => ?_
      · obtain ⟨x, hx, z, hz, hd⟩ := hin
        exact ⟨z, View.mem_zones.2 ⟨x, hx, hz⟩, hd⟩
      · obtain ⟨x, hx, hz⟩ := View.mem_zones.1 hz
        exact hle x hx z hz
    rw [View.reserve_centre (hcount ▸ h0), hcount, hleast]
    rfl

end Sys2Proof.Machine

/-! # OPEN refused (R9, R36, R39) -/

namespace Sys2Proof.Machine

/-! ### The bytes of an OPEN (R9, R196) -/

theorem Panel.ofNat?_eq_some {n : Nat} {q : Panel} : Panel.ofNat? n = some q ↔ q.num = n := by
  match n with
  | 0 | 1 => cases q <;> simp [Panel.ofNat?, Panel.num]
  | n + 2 => cases q <;> simp [Panel.ofNat?, Panel.num]

theorem Port.ofNat?_eq_some {n : Nat} {f : Port} : Port.ofNat? n = some f ↔ f.num = n := by
  match n with
  | 0 | 1 | 2 => cases f <;> simp [Port.ofNat?, Port.num]
  | n + 3 => cases f <;> simp [Port.ofNat?, Port.num]

section
variable {pn first last cls per lat flags fd ah al bh bl deb dv : Byte}

/-- The arguments of an OPEN: its panel, its feeder, and the parameters its bytes give on that panel (R9). -/
theorem openArgs_eq : openArgs [pn, first, last, cls, per, lat, flags, fd, ah, al, bh, bl, deb, dv] =
    (Panel.ofNat? pn.toNat).bind fun q => (Port.ofNat? fd.toNat).bind fun f =>
      (paramsOf q first last cls per lat flags ah al bh bl deb dv).map fun a =>
        { panel := q, feeder := f, params := a } := by
  cases hq : Panel.ofNat? pn.toNat with
  | none => simp [openArgs, hq]
  | some q =>
    cases hf : Port.ofNat? fd.toNat with
    | none => simp [openArgs, hq, hf]
    | some f => cases hp : paramsOf q first last cls per lat flags ah al bh bl deb dv <;> simp [openArgs, hq, hf, hp]

/-- Bytes that name no panel or no feeder, or lie out of the panel's ranges, are no arguments of an OPEN (R9). -/
theorem openArgs_eq_none (h : ∀ (q : Panel) (f : Port), q.num = pn.toNat → f.num = fd.toNat →
      ¬amendableInRange q first last cls per flags (ah.toNat * 256 + al.toNat) (bh.toNat * 256 + bl.toNat) deb dv) :
    openArgs [pn, first, last, cls, per, lat, flags, fd, ah, al, bh, bl, deb, dv] = none := by
  rw [openArgs_eq]
  cases hq : Panel.ofNat? pn.toNat with
  | none => rfl
  | some q =>
    cases hf : Port.ofNat? fd.toNat with
    | none => rfl
    | some f =>
      have hrange := h q f (Panel.ofNat?_eq_some.1 hq) (Port.ofNat?_eq_some.1 hf)
      simp [paramsOf_eq_none hrange]

/-- Bytes in the ranges of the panel they name give the arguments they carry (R9, R196). -/
theorem openArgs_carriedBy {q : Panel} {f : Port} (hq : q.num = pn.toNat) (hf : f.num = fd.toNat)
    (h : amendableInRange q first last cls per flags (ah.toNat * 256 + al.toNat) (bh.toNat * 256 + bl.toNat) deb dv) :
    ∃ a, openArgs [pn, first, last, cls, per, lat, flags, fd, ah, al, bh, bl, deb, dv] = some a ∧
      a.panel = q ∧ a.feeder = f ∧
      a.params.carriedBy first last cls per lat flags (ah.toNat * 256 + al.toNat) (bh.toNat * 256 + bl.toNat) deb dv := by
  obtain ⟨a, ha, hcarried⟩ := paramsOf_carriedBy (lat := lat) h
  refine ⟨{ panel := q, feeder := f, params := a }, ?_, rfl, rfl, hcarried⟩
  rw [openArgs_eq, Panel.ofNat?_eq_some.2 hq, Port.ofNat?_eq_some.2 hf]
  simp [ha]

end

/-! ### The checks in their order (R36) -/

section
variable {b : Part} {p : Port} {ps : List Byte} {a : OpenArgs}

theorem Part.open_badArg (h : openArgs ps = none) : b.open p ps = (b, Reply.bare .badArg) := by simp [Part.open, h]

theorem Part.open_noAuthority (ha : openArgs ps = some a) (hc : a.params.cls = .telltale) (hp : p ≠ b.strap) :
    b.open p ps = (b, Reply.bare .noAuthority) := by
  simp [Part.open, ha, Part.lacksTelltale_eq_true hc hp]

/-- No record of a sized table is FREE (R9). -/
theorem freeRecord_eq_none (hs : b.TableSized) (h : ∀ m, m < 64 → (b.record m).state ≠ .free) :
    freeRecord b.table = none := by
  unfold freeRecord
  rw [List.findIdx?_eq_none_iff]
  intro r hr
  obtain ⟨m, hm⟩ := List.mem_iff_getElem?.1 hr
  have hlt : m < b.table.length := (List.getElem?_eq_some_iff.1 hm).1
  have hstate := h m (hs ▸ hlt)
  rw [Part.record_of_getElem? hm] at hstate
  exact beq_eq_false_iff_ne.2 hstate

/-- An OPEN that finds no FREE record in a table of good records (R36). -/
theorem Part.open_noRoom (ha : openArgs ps = some a) (hc : a.params.cls = .telltale → p = b.strap) (hs : b.TableSized)
    (hg : b.allGood = true) (h : ∀ m, m < 64 → (b.record m).state ≠ .free) :
    b.open p ps = (b, Reply.bare .noRoom) := by
  simp [Part.open, ha, Part.lacksTelltale_eq_false hc, Part.verifyAll_good .request hg, freeRecord_eq_none hs h]

/-- An OPEN that admission refuses is answered by the first choice that fails (R34, R36, R38, R39). -/
theorem Part.admitOpen_refused {n : Nat}
    (h : ¬admitted a.panel (b.engine a.panel).cfg.slots (b.table.set n ((b.record n).opened p a))) :
    ∃ v reply, firstFailing (View.passes a.panel (b.engine a.panel).cfg.slots) a.panel
        (b.table.set n ((b.record n).opened p a)) v ∧
      v.refusal a.panel (b.engine a.panel).cfg.slots n b reply ∧ b.admitOpen p n a = (b, reply) := by
  obtain ⟨o, v, ho, hfirst, hrefusal⟩ := admission_refusal h
  refine ⟨v, _, hfirst, hrefusal, ?_⟩
  unfold Part.admitOpen
  dsimp only
  rw [ho]

end

/-- Settles O17: the checks of R36 in their order, the bytes judged by R9, and the refusal of the first failing choice. -/
theorem openRefusedInOrder : Obligations.OpenRefusedInOrder := by
  unfold Obligations.OpenRefusedInOrder
  intro p ps s h
  have hdone {reply : Reply} (hwork : s.fresh.open p ps = (s.fresh, reply)) :
      exec (.openContract p) s = .next { s with part := s.fresh.place p reply } :=
    State.take_serve_eq (f := fun ps b => b.open p ps) h hwork
  refine ⟨fun hnone => hdone (Part.open_badArg hnone),
    fun pn first last cls per lat flags fd ah al bh bl deb dv hps => ⟨fun hrange => ?_, fun q f hq hf hrange => ?_⟩,
    fun a ha => ⟨fun hc hp => hdone (Part.open_noAuthority ha hc hp), fun hc hs hg => ⟨fun hfull => ?_, fun n hn hadm => ?_⟩⟩⟩
  · subst hps
    exact hdone (Part.open_badArg (openArgs_eq_none hrange))
  · subst hps
    exact openArgs_carriedBy hq hf hrange
  · exact hdone (Part.open_noRoom ha hc hs hg hfull)
  · obtain ⟨v, reply, hv, hrefusal, hwork⟩ := Part.admitOpen_refused (b := s.fresh) hadm
    exact ⟨v, reply, hv, hrefusal, hdone ((Part.open_admit (b := s.fresh) ha hc hg hs hn).trans hwork)⟩

end Sys2Proof.Machine

/-! # What every step upholds (R33 to R35, R38, and the other laws of the part) -/

namespace Sys2Proof.Machine
open Sys2Proof.Machine.Part

section
variable (b : Part)

/-! ### The empty queue (R47) -/

theorem Engine.tick_cfg (e : Engine) : e.tick.cfg = e.cfg := rfl

/-- A panel stays sound while its start limit timer counts down (R47). -/
theorem PanelSound.tick {e : Engine} {l : Link} (h : PanelSound e l) : PanelSound e.tick l := by
  refine ⟨h.range, ?_, h.lawful, h.fits, h.count⟩
  have hc := h.coherent
  have stopped (ht : e.startLeft = none) : e.tick.startLeft = none := by simp [Engine.tick, ht]
  unfold Engine.coherent at hc ⊢
  rw [show e.tick.state = e.state from rfl]
  cases hs : e.state with
  | starting =>
    rw [hs] at hc
    obtain ⟨hslot, ⟨n, htimer, hn⟩, hplan⟩ := hc
    exact ⟨hslot, ⟨n - 1, by simp [Engine.tick, htimer], (Nat.sub_le n 1).trans hn⟩, hplan⟩
  | running | down | halted =>
    rw [hs] at hc
    obtain ⟨hslot, htimer, hplan⟩ := hc
    exact ⟨hslot, stopped htimer, hplan⟩

theorem Part.idle_engine (q : Panel) : b.idle.engine q = (b.engine q).tick := PerPanel.get_map _ _ _

/-- An idle step writes neither table nor configuration. -/
theorem Part.idle_lessens : Lessens b b.idle := .of_eq rfl fun q => by
  rw [Part.idle_engine, Engine.tick_cfg]

theorem Part.idle_upholds : Upholds b b.idle where
  size := id
  ports := id
  counts := id
  contacts := id
  sound hb q := by
    rw [Part.idle_engine]
    exact (hb q).tick
  flags hb q := by
    rw [Part.idle_engine]
    exact hb q
  promised := b.idle_lessens.promised

/-! ### Cold reset (R27, R65, R187) -/

/-- Both panels are sound exactly where the laws of engines, plans and links hold. -/
theorem Part.timelineSound_iff : b.TimelineSound ↔ b.EnginesCoherent ∧ b.PlansLawful ∧ b.LinksFit :=
  ⟨fun h => ⟨fun p => ⟨(h p).range, (h p).coherent⟩, fun p => (h p).lawful, fun p => ⟨(h p).fits, (h p).count⟩⟩,
    fun ⟨he, hp, hl⟩ p => ⟨(he p).1, (he p).2, hp p, (hl p).1, (hl p).2⟩⟩

theorem Part.reset_upholds (strap : Port) : Upholds b (Part.reset strap) := by
  obtain ⟨hsize, hports, hcounts, hflags, hengines, hplans, hlinks, hcontacts, hranged, hadmitted, -⟩ :=
    lawsHoldAtReset strap
  exact ⟨fun _ => hsize, fun _ => hports, fun _ => hcounts, fun _ => hcontacts,
    fun _ => (Part.timelineSound_iff _).2 ⟨hengines, hplans, hlinks⟩, fun _ => hflags, fun _ => ⟨hranged, hadmitted⟩⟩

/-! ### Transactions (R182 to R186) -/

theorem Part.claim_upholds (k : Bank) (c : Claim) : Upholds b (b.claim k c) :=
  .of_eases (b.claim_quiet k c) (.of_table rfl)

theorem Part.sendBytes_upholds (p : Port) (bs : List Byte) : Upholds b (b.sendBytes p bs) :=
  ⟨id, id, id, id, id, id, id⟩

/-- A change of one port that keeps what its state says of it (R182). -/
theorem Part.modPort_upholds_at (p : Port) (f : ClientPort → ClientPort)
    (h : (b.port p).coherent → (f (b.port p)).coherent) : Upholds b (b.modPort p f) := by
  refine ⟨id, fun hb q => ?_, id, id, id, id, id⟩
  rw [Part.modPort_port]
  split
  · exact h (hb p)
  · exact hb q

/-- A port that is not WORKING holds no dropped mark (R185). -/
theorem ClientPort.coherent.dropped_eq_false {q : ClientPort} (h : q.coherent) (hs : q.state ≠ .working) :
    q.dropped = false := by
  unfold ClientPort.coherent at h
  cases hq : q.state with
  | idle | answered =>
    rw [hq] at h
    obtain ⟨-, -, hdropped⟩ := h
    exact hdropped
  | working => exact absurd hq hs

/-- A port that answers a frame itself is ANSWERED, with no request in hand (R183). -/
theorem Part.answerSelf_upholds (p : Port) (st : Status) (hs : (b.port p).state ≠ .working) :
    Upholds b (b.modPort p (ClientPort.answerSelf st)) :=
  b.modPort_upholds_at p _ fun h => ⟨rfl, rfl, h.dropped_eq_false hs⟩

theorem Part.acceptFrame_upholds (p : Port) (frame : List Byte) (hs : (b.port p).state ≠ .working) :
    Upholds b (b.acceptFrame p frame) := by
  unfold Part.acceptFrame
  split
  · exact b.modPort_upholds_at p _ fun _ => ⟨rfl, rfl⟩
  · exact (b.answerSelf_upholds p _ hs).trans (Part.claim_upholds _ _ _)
  · exact b.answerSelf_upholds p _ hs

theorem Part.refuseFrame_upholds (p : Port) (frame : List Byte) (hs : (b.port p).state = .working) :
    Upholds b (b.refuseFrame p frame) := by
  refine (b.modPort_upholds_at p _ fun h => ?_).trans (Part.claim_upholds _ _ _)
  unfold ClientPort.coherent at h ⊢
  rw [hs] at h
  simp only [hs]
  exact h

theorem Part.requestTransaction_upholds (p : Port) (frame : List Byte) : Upholds b (b.requestTransaction p frame) := by
  refine (b.sendBytes_upholds p (fillBytes (frame.length + 1))).trans ?_
  unfold Part.requestTransaction
  dsimp only
  split
  · rename_i hs
    exact Part.refuseFrame_upholds _ p frame hs
  · rename_i hs
    exact Part.acceptFrame_upholds _ p frame hs

theorem Part.unknownTransaction_upholds (p : Port) (bytes : List Byte) : Upholds b (b.unknownTransaction p bytes) := by
  unfold Part.unknownTransaction
  split
  · exact .refl b
  · exact .ite (b.requestTransaction_upholds p _)
      (.ite (b.sendBytes_upholds p _) ((b.sendBytes_upholds p _).trans (Part.claim_upholds _ _ _)))

/-! ### Every command and every step -/

/-- A request that bears a handle keeps what its own steps on a good record keep. -/
theorem Part.serveHandle_upholds (name : RequestName) (p : Port) {f : List Byte → Nat → Part → Part × Reply}
    (h : ∀ ps n b, (b.record n).state ≠ .free → (b.record n).checkGood = true → Upholds b (f ps n b).1) :
    Upholds b (b.serve name p fun ps b => b.onHandle ps (f ps)) :=
  b.serve_upholds name p _ fun ps => b.onHandle_upholds ps (f ps) (h ps)

end

/-- Every command is an update of the part that upholds all its laws. -/
theorem exec_upholds (c : Instr) : ∃ f, (∀ s, exec c s = s.take f) ∧ ∀ b, Upholds b (f b) := by
  cases c with
  | coldReset strap => exact ⟨_, fun _ => rfl, fun b => b.reset_upholds _⟩
  | requestTransaction p frame => exact ⟨_, fun _ => rfl, fun b => b.requestTransaction_upholds p frame⟩
  | answerTransaction p clocked => exact ⟨_, fun _ => rfl, fun b => b.sendBytes_upholds p _⟩
  | unknownKindTransaction p bytes => exact ⟨_, fun _ => rfl, fun b => b.unknownTransaction_upholds p bytes⟩
  | openContract p => exact ⟨_, fun _ => rfl, fun b => b.serve_upholds _ p _ fun ps => b.open_upholds p ps⟩
  | amend p =>
    exact ⟨_, fun _ => rfl, fun b => b.serveHandle_upholds _ p fun ps n b _ hg => b.amendAt_upholds p ps n hg⟩
  | suspend p => exact ⟨_, fun _ => rfl, fun b => b.serveHandle_upholds _ p fun _ n b _ _ => b.suspendAt_upholds p n⟩
  | resume p => exact ⟨_, fun _ => rfl, fun b => b.serveHandle_upholds _ p fun _ n b _ _ => b.resumeAt_upholds p n⟩
  | retire p => exact ⟨_, fun _ => rfl, fun b => b.serveHandle_upholds _ p fun _ n b hf _ => b.retireAt_upholds p n hf⟩
  | lookup p => exact ⟨_, fun _ => rfl, fun b => b.serveHandle_upholds _ p fun _ _ b _ _ => .refl b⟩
  | find p => exact ⟨_, fun _ => rfl, fun b => b.serve_upholds _ p _ fun ps => b.find_upholds ps⟩
  | list p => exact ⟨_, fun _ => rfl, fun b => b.serve_upholds _ p _ fun ps => b.list_upholds ps⟩
  | update p => exact ⟨_, fun _ => rfl, fun b => b.serveHandle_upholds _ p fun ps n b _ _ => b.updateAt_upholds p ps n⟩
  | panelUp p => exact ⟨_, fun _ => rfl, fun b => b.serve_upholds _ p _ fun ps => b.panelUp_upholds ps⟩
  | panelDown p => exact ⟨_, fun _ => rfl, fun b => b.serve_upholds _ p _ fun ps => b.panelDown_upholds ps⟩
  | panelConfig p => exact ⟨_, fun _ => rfl, fun b => b.serve_upholds _ p _ fun ps => b.panelConfig_upholds ps⟩
  | panelStatus p => exact ⟨_, fun _ => rfl, fun b => b.serve_upholds _ p _ fun ps => b.panelStatus_upholds ps⟩
  | backlight p => exact ⟨_, fun _ => rfl, fun b => b.serve_upholds _ p _ fun ps => b.backlight_upholds ps⟩
  | touchConfig p => exact ⟨_, fun _ => rfl, fun b => b.serve_upholds _ p _ fun ps => b.touchConfig_upholds ps⟩
  | recalibrate p => exact ⟨_, fun _ => rfl, fun b => b.serve_upholds _ p _ fun _ => b.recalibrate_upholds p⟩
  | contacts p => exact ⟨_, fun _ => rfl, fun b => b.serve_upholds _ p _ fun _ => .refl b⟩
  | faultRead p => exact ⟨_, fun _ => rfl, fun b => b.serve_upholds _ p _ fun ps => b.faultRead_upholds ps⟩
  | faultClear p => exact ⟨_, fun _ => rfl, fun b => b.serve_upholds _ p _ fun ps => b.faultClear_upholds ps⟩
  | faultControl p => exact ⟨_, fun _ => rfl, fun b => b.serve_upholds _ p _ fun ps => b.faultControl_upholds ps⟩
  | ackCritical p => exact ⟨_, fun _ => rfl, fun b => b.serve_upholds _ p _ fun ps => b.ackCritical_upholds ps⟩
  | inject p => exact ⟨_, fun _ => rfl, fun b => b.serve_upholds _ p _ fun ps => b.inject_upholds ps⟩
  | identify p => exact ⟨_, fun _ => rfl, fun b => b.serve_upholds _ p _ fun _ => .refl b⟩
  | notices p => exact ⟨_, fun _ => rfl, fun b => b.serve_upholds _ p _ fun _ => b.notices_upholds p⟩
  | setAttention p => exact ⟨_, fun _ => rfl, fun b => b.serve_upholds _ p _ fun ps => b.setAttention_upholds p ps⟩
  | warmReset p => exact ⟨_, fun _ => rfl, fun b => b.serve_upholds _ p _ fun _ => b.warmReset_upholds⟩
  | slotBoundary q =>
    exact ⟨_, fun _ => rfl, fun b => .of_parts (b.slotBoundary_calm q) (b.slotBoundary_keeps q) (b.slotBoundary_lessens q)⟩
  | orderTimeout q =>
    exact ⟨_, fun _ => rfl, fun b => .of_parts (b.orderTimeout_calm q) (b.orderTimeout_keeps q) (b.orderTimeout_lessens q)⟩
  | startLimitExpiry q =>
    exact ⟨_, fun _ => rfl, fun b => .of_parts (b.expireStart_calm q) (b.expireStart_keeps q) (b.expireStart_lessens q)⟩
  | ready q => exact ⟨_, fun _ => rfl, fun b => .of_parts (b.takeReady_calm q) (b.takeReady_keeps q) (b.takeReady_lessens q)⟩
  | done q g sig =>
    exact ⟨_, fun _ => rfl, fun b =>
      .of_parts (b.takeDone_calm q g sig) (b.takeDone_keeps q g sig) (b.takeDone_lessens q g sig)⟩
  | fault q code => exact ⟨_, fun _ => rfl, fun b => b.claim_upholds _ _⟩
  | completionCredit q =>
    exact ⟨_, fun _ => rfl, fun b =>
      .of_parts (b.creditOldest_calm q) (.of_still (b.creditOldest_still q)) (b.creditOldest_lessens q)⟩
  | senseComplete counts =>
    exact ⟨_, fun _ => rfl, fun b =>
      .of_parts (b.senseComplete_calm _) (.of_still (b.senseComplete_still _)) (b.senseComplete_lessens _)⟩
  | halt q => exact ⟨_, fun _ => rfl, fun b => .of_parts (b.takeHalt_calm q) (b.takeHalt_keeps q) (b.takeHalt_lessens q)⟩

theorem State.fresh_upholds (s : State) : Upholds s.part s.fresh := ⟨id, id, id, id, id, id, id⟩

/-- Every step upholds all the laws of the part. -/
theorem step_upholds {s t : State} (h : step s = .next t) : Upholds s.part t.part := by
  unfold step at h
  split at h
  · cases h
    exact s.part.idle_upholds
  · rename_i c rest _
    obtain ⟨f, hf, hup⟩ := exec_upholds c
    rw [hf, State.take_eq] at h
    cases h
    exact s.fresh_upholds.trans (hup s.fresh)

/-- Settles O60: OPEN, AMEND and PANEL_CONFIG judge every choice before they write, and every other command asks for no
more of the table. -/
theorem promisesStayKept : Obligations.PromisesStayKept := by
  unfold Obligations.PromisesStayKept
  exact fun s t hs h => (step_upholds h).promised hs

end Sys2Proof.Machine

/-! # Every step: answers, the flag rule, sound timelines; cold reset -/

namespace Sys2Proof.Machine
open Sys2Proof.Machine.Part

/-! ### The laws of the timelines at every step (R43, R45, R52, R61, R69, R79, R91, R97) -/

/-- Settles O57: every step upholds the flag rule. -/
theorem flagsStayOnlyRunning : Obligations.FlagsStayOnlyRunning := by
  unfold Obligations.FlagsStayOnlyRunning
  exact fun s t hs h => (step_upholds h).flags hs

/-- Orders of one slot and the slot before, of ascending slots, are at most two (R91). -/
theorem ordersFit.length_le {pl : Plan} {j : Nat} {os : List Order} (h : ordersFit pl j os) : os.length ≤ 2 := by
  obtain ⟨hsorted, hslots⟩ := h
  match os with
  | [] | [_] | [_, _] => simp
  | x :: y :: z :: rest =>
    have hxy : x.slot < y.slot := List.rel_of_pairwise_cons hsorted (by simp)
    have hyz : y.slot < z.slot := List.rel_of_pairwise_cons hsorted.of_cons (by simp)
    have hx := hslots x (by simp)
    have hz := hslots z (by simp)
    omega

theorem linkFits.length_le {e : Engine} {l : Link} (h : linkFits e l) : l.orders.length ≤ 2 := by
  unfold linkFits at h
  split at h
  · exact h.length_le
  · simp [h]

/-- Settles O58: every step upholds the laws of a sound panel, and a list that fits plan and slot holds at most two
orders. -/
theorem timelinesStaySound : Obligations.TimelinesStaySound := by
  unfold Obligations.TimelinesStaySound
  intro s t hengines hplans hlinks h
  have hsound := (step_upholds h).sound ((Part.timelineSound_iff _).2 ⟨hengines, hplans, hlinks⟩)
  obtain ⟨hengines', hplans', hlinks'⟩ := (Part.timelineSound_iff _).1 hsound
  exact ⟨hengines', hplans', hlinks', fun p => (hsound p).fits.length_le⟩

/-! ### Every step answers (R47, R49, R64) -/

theorem step_of_empty {s : State} (h : s.pending = []) : step s = .next s.idle := by
  unfold step
  rw [h]

/-- Settles O2: every command is an update of the part, and an idle step ticks both engines. -/
theorem everyStepAnswersNext : Obligations.EveryStepAnswersNext := by
  unfold Obligations.EveryStepAnswersNext
  refine ⟨fun c s => ?_, fun s hs => ⟨s.idle, step_of_empty hs, hs, s.part.idle_engine, rfl⟩⟩
  obtain ⟨f, hf, -⟩ := exec_upholds c
  exact ⟨f s.fresh, hf s⟩

/-! ### Cold reset, block by block (R43, R65, R104, R145, R162, R181, R187, R194) -/

/-- The safety port as the pins read: a reading of 3 and unconnected pins give port 2 (R187). -/
theorem strapPort_eq (strap : Option (BitVec 2)) : strapPort strap = match strap with
    | none => .cp2
    | some v => if v = 0 then .cp0 else if v = 1 then .cp1 else .cp2 := by
  cases strap with
  | none => rfl
  | some v => revert v; decide

/-- No kind is pending at a port after cold reset, so its attention line is deasserted (R190, R194). -/
theorem ClientPort.reset_quiet :
    ClientPort.reset.noticeSet.pendingKinds = 0 ∧ ClientPort.reset.attention = false := by decide

theorem FaultBank.reset_reports (c : FaultClass) : FaultBank.reset.reports c = true := by cases c <;> rfl

/-- Settles O3, block by block, from the reset values of ports, engines, links, touch and banks. -/
theorem coldResetEveryBlock : Obligations.ColdResetEveryBlock := by
  unfold Obligations.ColdResetEveryBlock
  intro strap s
  refine ⟨_, rfl, rfl, rfl, strapPort_eq strap, fun p => ?_, fun p => ?_, rfl, rfl, rfl, rfl, rfl, rfl, rfl, rfl, rfl, rfl,
    rfl, rfl, rfl, rfl, rfl, rfl, rfl, rfl, rfl, rfl, rfl, fun k => ?_, rfl⟩
  · have hport : (Part.reset (strapPort strap)).port p = ClientPort.reset := Part.reset_port _ p
    simp only [hport]
    obtain ⟨hkinds, hline⟩ := ClientPort.reset_quiet
    exact ⟨rfl, rfl, rfl, rfl, rfl, hkinds, rfl, hline, Part.role_eq_safety_iff _ p⟩
  · have hengine : (Part.reset (strapPort strap)).engine p = Engine.reset p := Part.reset_engine _ p
    have hlink : (Part.reset (strapPort strap)).link p = Link.reset := Part.reset_link _ p
    simp only [hengine, hlink]
    exact ⟨rfl, rfl, rfl, rfl, rfl, rfl, rfl, rfl, rfl, rfl, rfl, rfl, rfl⟩
  · have hbank : (Part.reset (strapPort strap)).bank k = FaultBank.reset := Part.reset_bank _ k
    simp only [hbank]
    exact ⟨rfl, rfl, FaultBank.reset_reports, rfl, rfl⟩

end Sys2Proof.Machine

/-! # The requests of the panels (R41, R43, R44, R47, R50, R62, R64) -/

namespace Sys2Proof.Machine
open Sys2Proof.Machine.Part

/-! ### PANEL_UP and PANEL_DOWN (R47, R50) -/

theorem PanelState.active_eq_false_iff (st : PanelState) : st.active = false ↔ st = .down ∨ st = .halted := by
  cases st <;> simp [PanelState.active]

section
variable {b : Part} {ps : List Byte} {q : Panel}

/-- Two changes of one panel's engine are one. -/
theorem Part.modEngine_modEngine (b : Part) (q : Panel) (f g : Engine → Engine) :
    (b.modEngine q f).modEngine q g = b.modEngine q fun e => g (f e) := by cases q <;> rfl

/-- Only what a change makes of the engine it meets counts. -/
theorem Part.modEngine_congr {f g : Engine → Engine} (h : f (b.engine q) = g (b.engine q)) :
    b.modEngine q f = b.modEngine q g := congrArg (fun e => { b with engines := b.engines.set q e }) h

theorem Part.bringUp_eq (b : Part) (q : Panel) : b.bringUp q =
    ((b.send q .start).modEngine q fun e => { e with startLeft := some 64, state := .starting }).raiseAll (.panel q) := by
  unfold Part.bringUp Part.enterState
  rw [Part.modEngine_modEngine]
  rfl

theorem Part.panelUp_badArg (h : panelArg ps = none) : b.panelUp ps = (b, Reply.bare .badArg) := by
  simp [Part.panelUp, h]

theorem Part.panelUp_stopped (h : panelArg ps = some q)
    (hs : (b.engine q).state = .down ∨ (b.engine q).state = .halted) :
    b.panelUp ps = (b.bringUp q, Reply.bare .ok) := by
  simp [Part.panelUp, h, (PanelState.active_eq_false_iff _).2 hs]

theorem Part.panelUp_active (h : panelArg ps = some q)
    (hs : (b.engine q).state = .starting ∨ (b.engine q).state = .running) :
    b.panelUp ps = (b, Reply.bare .badState) := by
  simp [Part.panelUp, h, (PanelState.active_iff _).2 hs.symm]

theorem Part.panelDown_badArg (h : panelArg ps = none) : b.panelDown ps = (b, Reply.bare .badArg) := by
  simp [Part.panelDown, h]

theorem Part.panelDown_eq (h : panelArg ps = some q) : b.panelDown ps = (b.takeDown q, Reply.bare .ok) := by
  simp [Part.panelDown, h]

theorem Part.takeDown_down (hs : (b.engine q).state = .down) : b.takeDown q = b := by
  simp [Part.takeDown, hs]

/-- PANEL_DOWN of a HALTED panel applies the stop policy once more and enters DOWN (R50, R58). -/
theorem Part.takeDown_halted (hs : (b.engine q).state = .halted) : b.takeDown q =
    ((b.send q (.stop (decide ((b.engine q).cfg.policy = .blank)))).modEngine q
      fun e => { e with state := .down, output := if e.cfg.policy = .hold then e.output else false }).raiseAll
        (.panel q) := by
  have hstop (e : Engine) : { e.stopOutput with state := .down } =
      { e with state := .down, output := if e.cfg.policy = .hold then e.output else false } := by
    rw [← StopPolicy.outputAfter_eq]
    rfl
  simp only [Part.takeDown, hs, Part.applyStop, Part.enterState, Part.modEngine_modEngine, hstop, StopPolicy.message_eq]

theorem Part.takeDown_active (hs : (b.engine q).state = .running ∨ (b.engine q).state = .starting) :
    b.takeDown q = b.teardown q .down := by
  rcases hs with hs | hs <;> simp [Part.takeDown, hs]

end

/-- Settles O24: one lemma on each meaning for each state of the panel; the teardown is the shared one. -/
theorem panelUpAndDownActByState : Obligations.PanelUpAndDownActByState := by
  unfold Obligations.PanelUpAndDownActByState
  refine fun p ps s => ⟨fun h => ⟨fun ha => ?_, fun q ha => ⟨fun hs => ?_, fun hs => ?_⟩⟩,
    fun h => ⟨fun ha => ?_, fun q ha => ⟨fun hs => ?_, fun hs => ?_, fun hs hg => ?_⟩⟩⟩
  · exact State.take_serve_eq h (Part.panelUp_badArg ha)
  · exact State.take_serve_eq h ((Part.panelUp_stopped (b := s.fresh) ha hs).trans (by rw [Part.bringUp_eq]; rfl))
  · exact State.take_serve_eq h (Part.panelUp_active (b := s.fresh) ha hs)
  · exact State.take_serve_eq h (Part.panelDown_badArg ha)
  · exact State.take_serve_eq h ((Part.panelDown_eq ha).trans (by rw [Part.takeDown_down (b := s.fresh) hs]; rfl))
  · exact State.take_serve_eq h ((Part.panelDown_eq ha).trans (by rw [Part.takeDown_halted (b := s.fresh) hs]; rfl))
  · exact ⟨_, s.fresh.teardown_tornDown q .down hg,
      State.take_serve_eq h ((Part.panelDown_eq ha).trans (by rw [Part.takeDown_active (b := s.fresh) hs]; rfl))⟩

/-! ### The bytes of PANEL_CONFIG (R43, R44, R196) -/

theorem Panel.ofNat?_num (q : Panel) : Panel.ofNat? q.num = some q := by cases q <;> rfl

theorem Panel.le_of_ofNat? {n : Nat} {q : Panel} (h : Panel.ofNat? n = some q) : n ≤ 1 := by
  match n with
  | 0 | 1 => decide
  | n + 2 => cases h

theorem StopPolicy.ofNat?_code (k : StopPolicy) : StopPolicy.ofNat? k.code = some k := by cases k <;> rfl

theorem StopPolicy.le_of_ofNat? {n : Nat} {k : StopPolicy} (h : StopPolicy.ofNat? n = some k) : n ≤ 2 := by
  match n with
  | 0 | 1 | 2 => decide
  | n + 3 => cases h

theorem PanelConfig.inRange_iff (c : PanelConfig) : c.inRange = true ↔
    32 ≤ c.slots ∧ c.slots ≤ 192 ∧ 20 ≤ c.slotPeriod ∧ c.slotPeriod ≤ 1000 ∧ 1 ≤ c.grace ∧ c.grace ≤ 15 ∧
      2 ≤ c.blPeriod ∧ c.blPeriod ≤ c.slots := by
  simp [PanelConfig.inRange, and_assoc]

section
variable {pn sl ph pl gr pol bl : Byte}

/-- The configuration that the bytes of a PANEL_CONFIG carry under a stop policy, in range or not (R196). -/
def PanelConfig.ofBytes (policy : StopPolicy) (sl ph pl gr bl : Byte) : PanelConfig :=
  { slots := sl.toNat, slotPeriod := ph.toNat * 256 + pl.toNat, grace := gr.toNat, policy := policy, blPeriod := bl.toNat }

theorem panelConfigArgs_bytes {q : Panel} {policy : StopPolicy} (hq : Panel.ofNat? pn.toNat = some q)
    (hp : StopPolicy.ofNat? pol.toNat = some policy) : panelConfigArgs [pn, sl, ph, pl, gr, pol, bl] =
      if (PanelConfig.ofBytes policy sl ph pl gr bl).inRange then some (q, PanelConfig.ofBytes policy sl ph pl gr bl)
      else none := by
  simp only [panelConfigArgs, hq, hp]
  rfl

/-- Bytes that PANEL_CONFIG takes lie in the ranges of R43. -/
theorem panelConfigArgs_ranges {x : Panel × PanelConfig} (h : panelConfigArgs [pn, sl, ph, pl, gr, pol, bl] = some x) :
    pn.toNat ≤ 1 ∧ 32 ≤ sl.toNat ∧ sl.toNat ≤ 192 ∧ 20 ≤ ph.toNat * 256 + pl.toNat ∧ ph.toNat * 256 + pl.toNat ≤ 1000 ∧
      1 ≤ gr.toNat ∧ gr.toNat ≤ 15 ∧ pol.toNat ≤ 2 ∧ 2 ≤ bl.toNat ∧ bl.toNat ≤ sl.toNat := by
  cases hq : Panel.ofNat? pn.toNat with
  | none => simp [panelConfigArgs, hq] at h
  | some q =>
    cases hp : StopPolicy.ofNat? pol.toNat with
    | none => simp [panelConfigArgs, hp] at h
    | some policy =>
      rw [panelConfigArgs_bytes hq hp] at h
      obtain ⟨hrange, -⟩ := Option.ite_none_right_eq_some.1 h
      obtain ⟨hs₁, hs₂, hp₁, hp₂, hg₁, hg₂, hb₁, hb₂⟩ := (PanelConfig.inRange_iff _).1 hrange
      exact ⟨Panel.le_of_ofNat? hq, hs₁, hs₂, hp₁, hp₂, hg₁, hg₂, StopPolicy.le_of_ofNat? hp, hb₁, hb₂⟩

theorem panelConfigArgs_eq_some {q : Panel} {policy : StopPolicy} (hq : q.num = pn.toNat) (hp : pol.toNat = policy.code)
    (hrange : (PanelConfig.ofBytes policy sl ph pl gr bl).inRange = true) :
    panelConfigArgs [pn, sl, ph, pl, gr, pol, bl] = some (q, PanelConfig.ofBytes policy sl ph pl gr bl) := by
  rw [panelConfigArgs_bytes (hq ▸ Panel.ofNat?_num q) (hp ▸ StopPolicy.ofNat?_code policy), if_pos hrange]

end

/-! ### PANEL_CONFIG judged (R38, R39, R41, R44) -/

theorem View.budgetObjection_eq_none_iff (p : Panel) (slots : Nat) (v : View) :
    v.budgetObjection p slots = none ↔ v.affords p slots := by
  unfold View.budgetObjection View.affords
  cases v.fits p slots <;> cases v.withinBudget p slots <;> simp

/-- The answer to an objection on fit or budget carries the figures of the choice (R39). -/
theorem View.budgetObjection_reply {p : Panel} {slots : Nat} {v : View} {o : Objection} (table : List Record)
    (h : v.budgetObjection p slots = some o) : o.reply table = v.noBudget p slots := by
  unfold View.budgetObjection at h
  unfold View.noBudget
  cases hf : v.fits p slots with
  | false =>
    rw [hf] at h
    obtain rfl := Option.some.inj h
    rfl
  | true =>
    rw [hf] at h
    obtain ⟨-, ho⟩ := Option.ite_none_right_eq_some.1 h
    obtain rfl := Option.some.inj ho
    rfl

/-- A refused slot count has a first choice that it does not afford, and that choice gives the answer (R38, R39). -/
theorem config_refusal {p : Panel} {slots : Nat} {table : List Record}
    (h : ¬∀ v ∈ choicesOf (viewRecords p table), v.fits p slots = true ∧ v.withinBudget p slots = true) :
    ∃ (o : Objection) (v : View), configObjection p slots table = some o ∧
      firstFailing (View.affords p slots) p table v ∧ o.reply table = v.noBudget p slots := by
  obtain ⟨o, ho⟩ := Option.ne_none_iff_exists'.1 (mt configObjection_eq_none.1 h)
  obtain ⟨before, v, after, hsplit, hv, hbefore⟩ := List.findSome?_eq_some_iff.1 ho
  refine ⟨o, v, ho, ⟨before, after, hsplit, fun u hu => ?_, fun haffords => ?_⟩, v.budgetObjection_reply table hv⟩
  · exact (u.budgetObjection_eq_none_iff p slots).1 (hbefore u hu)
  · rw [(v.budgetObjection_eq_none_iff p slots).2 haffords] at hv
    cases hv

section
variable {b : Part} {ps : List Byte} {q : Panel} {c : PanelConfig}

theorem Part.panelConfig_badArg (h : panelConfigArgs ps = none) : b.panelConfig ps = (b, Reply.bare .badArg) := by
  simp [Part.panelConfig, h]

theorem Part.panelConfig_busy (h : panelConfigArgs ps = some (q, c)) (hs : (b.engine q).state ≠ .down) :
    b.panelConfig ps = (b, Reply.bare .busy) := by simp [Part.panelConfig, h, hs]

theorem Part.panelConfig_taken (h : panelConfigArgs ps = some (q, c)) (hs : (b.engine q).state = .down)
    (hg : b.allGood = true) (ho : configObjection q c.slots b.table = none) :
    b.panelConfig ps = (b.modEngine q (Engine.configure c), Reply.bare .ok) := by
  simp [Part.panelConfig, h, hs, Part.verifyAll_good _ hg, ho]

theorem Part.panelConfig_refused {o : Objection} (h : panelConfigArgs ps = some (q, c))
    (hs : (b.engine q).state = .down) (hg : b.allGood = true) (ho : configObjection q c.slots b.table = some o) :
    b.panelConfig ps = (b, o.reply b.table) := by
  simp [Part.panelConfig, h, hs, Part.verifyAll_good _ hg, ho]

end

/-- Settles O25: the bytes judged by R43, then the state, then the first choice that fails. -/
theorem panelConfigJudged : Obligations.PanelConfigJudged := by
  unfold Obligations.PanelConfigJudged
  intro p ps s h
  refine ⟨fun ha => State.take_serve_eq h (Part.panelConfig_badArg ha), ?_,
    fun q c ha => ⟨fun hs => ?_, fun hs hg => ⟨?_, ?_⟩⟩⟩
  · rintro pn sl ph pl gr pol bl rfl
    refine ⟨fun hout => ?_, fun q hq hs₁ hs₂ hp₁ hp₂ hg₁ hg₂ hb₁ hb₂ policy hpol => ?_⟩
    · have hnone := Option.eq_none_iff_forall_ne_some.2 fun x hx => hout (panelConfigArgs_ranges hx)
      exact State.take_serve_eq h (Part.panelConfig_badArg hnone)
    · exact panelConfigArgs_eq_some hq hpol ((PanelConfig.inRange_iff _).2 ⟨hs₁, hs₂, hp₁, hp₂, hg₁, hg₂, hb₁, hb₂⟩)
  · exact State.take_serve_eq h (Part.panelConfig_busy (b := s.fresh) ha hs)
  · intro hv
    exact State.take_serve_eq h
      (Part.panelConfig_taken (b := s.fresh) ha hs hg (configObjection_eq_none.2 hv))
  · intro hv
    obtain ⟨o, v, ho, hfirst, hreply⟩ := config_refusal hv
    refine ⟨v, hfirst, State.take_serve_eq h ?_⟩
    rw [Part.panelConfig_refused (b := s.fresh) ha hs hg ho, ← hreply]
    rfl

/-! ### PANEL_STATUS (R64, Table 11-9) -/

theorem summaryBytes_length (m : Option PlanSummary) : (summaryBytes m).length = 11 := by cases m <;> rfl

theorem Engine.statusBytes_length (e : Engine) (l : Link) : (e.statusBytes l).length = 29 := by
  simp only [Engine.statusBytes, List.length_append, byte1_length, byte2_length, byte4_length, summaryBytes_length,
    List.length_singleton]

theorem Engine.summary_isSome (e : Engine) : e.summary.isSome = (e.plan.isSome || e.lastSummary.isSome) := by
  unfold Engine.summary
  cases e.plan <;> rfl

/-- The flags byte of PANEL_STATUS as the sum of its bits (Table 11-9). -/
theorem Engine.statusFlags_eq (e : Engine) : [e.statusFlags] =
    byte1 (e.output.toNat + 2 * e.critical.toNat + 4 * e.slot.isSome.toNat + 8 * e.startLeft.isSome.toNat +
      16 * (e.plan.isSome || e.lastSummary.isSome).toNat) := by
  rw [← e.summary_isSome]
  simp only [Engine.statusFlags, flagByte, byte1, bitsToNat]
  congr 2
  omega

section
variable {b : Part} {ps : List Byte} {q : Panel}

theorem Part.panelStatus_badArg (h : panelArg ps = none) : b.panelStatus ps = (b, Reply.bare .badArg) := by
  simp [Part.panelStatus, h]

theorem Part.panelStatus_eq (h : panelArg ps = some q) :
    b.panelStatus ps = (b, { status := .ok, payload := (b.engine q).statusBytes (b.link q) }) := by
  simp [Part.panelStatus, h]

/-! ### BACKLIGHT (R62) -/

theorem backlightArgs_eq (pn duty : Byte) :
    backlightArgs [pn, duty] = (Panel.ofNat? pn.toNat).map fun q => (q, duty.toNat) := by
  cases h : Panel.ofNat? pn.toNat <;> simp [backlightArgs, h]

variable {pn duty : Byte}

theorem Part.backlight_badArg (h : Panel.ofNat? pn.toNat = none) :
    b.backlight [pn, duty] = (b, Reply.bare .badArg) := by simp [Part.backlight, backlightArgs_eq, h]

theorem Part.backlight_tooLong (h : Panel.ofNat? pn.toNat = some q) (hd : (b.engine q).cfg.blPeriod < duty.toNat) :
    b.backlight [pn, duty] = (b, Reply.bare .badArg) := by simp [Part.backlight, backlightArgs_eq, h, hd]

theorem Part.backlight_active (h : Panel.ofNat? pn.toNat = some q) (hd : duty.toNat ≤ (b.engine q).cfg.blPeriod)
    (hs : (b.engine q).state = .running ∨ (b.engine q).state = .starting) :
    b.backlight [pn, duty] = (b.modEngine q fun e => { e with stagedDuty := duty.toNat }, Reply.bare .staged) := by
  have hact := (PanelState.active_iff _).2 hs
  have hduty : b.modEngine q (Engine.takeDuty duty.toNat) = b.modEngine q fun e => { e with stagedDuty := duty.toNat } :=
    Part.modEngine_congr (if_pos hact)
  simp [Part.backlight, backlightArgs_eq, h, Nat.not_lt.2 hd, hact, hduty]

theorem Part.backlight_stopped (h : Panel.ofNat? pn.toNat = some q) (hd : duty.toNat ≤ (b.engine q).cfg.blPeriod)
    (hs : (b.engine q).state = .down ∨ (b.engine q).state = .halted) :
    b.backlight [pn, duty] =
      (b.modEngine q fun e => { e with stagedDuty := duty.toNat, duty := duty.toNat }, Reply.bare .ok) := by
  have hact := (PanelState.active_eq_false_iff _).2 hs
  have hduty : b.modEngine q (Engine.takeDuty duty.toNat) =
      b.modEngine q fun e => { e with stagedDuty := duty.toNat, duty := duty.toNat } :=
    Part.modEngine_congr (if_neg (by simp [hact]))
  simp [Part.backlight, backlightArgs_eq, h, Nat.not_lt.2 hd, hact, hduty]

end

/-- Settles O26: the bytes written out are those of the model's status record, and the duty is taken by the state. -/
theorem panelStatusAndBacklight : Obligations.PanelStatusAndBacklight := by
  unfold Obligations.PanelStatusAndBacklight
  refine fun p s => ⟨fun ps h => ⟨fun ha => State.take_serve_eq h (Part.panelStatus_badArg ha), ?_⟩, fun pn duty h =>
    ⟨fun ha => State.take_serve_eq h (Part.backlight_badArg ha), fun q ha =>
      ⟨fun hd => ?_, fun hd => ⟨fun hs => ?_, fun hs => ?_⟩⟩⟩⟩
  · rintro q e summary bytes ha rfl ⟨hnone, hplan, hlast⟩ rfl
    have hsummary : summary = summaryBytes (s.part.engine q).summary := by
      unfold Engine.summary
      cases hp : (s.part.engine q).plan with
      | some pl => exact hplan pl hp
      | none =>
        cases hm : (s.part.engine q).lastSummary with
        | none => exact hnone hp hm
        | some m => exact hlast m hp hm
    rw [hsummary, ← Engine.statusFlags_eq]
    exact ⟨Engine.statusBytes_length _ (s.part.link q), State.take_serve_eq h (Part.panelStatus_eq ha)⟩
  · exact State.take_serve_eq h (Part.backlight_tooLong (b := s.fresh) ha hd)
  · exact State.take_serve_eq h (Part.backlight_active (b := s.fresh) ha hd hs)
  · exact State.take_serve_eq h (Part.backlight_stopped (b := s.fresh) ha hd hs)

end Sys2Proof.Machine

/-! # The start limit, the halt and READY; the frame turn (R46, R48, R49, R51, R54 to R57) -/

namespace Sys2Proof.Machine
open Sys2Proof.Machine.Part

/-! ### What these commands make of the part -/

section
variable (q : Panel) (s : State)

theorem exec_slotBoundary : exec (.slotBoundary q) s = .next { s with part := s.fresh.slotBoundary q } := rfl

theorem exec_orderTimeout : exec (.orderTimeout q) s = .next { s with part := s.fresh.orderTimeout q } := rfl

theorem exec_startLimitExpiry : exec (.startLimitExpiry q) s = .next { s with part := s.fresh.expireStart q } := rfl

theorem exec_ready : exec (.ready q) s = .next { s with part := s.fresh.takeReady q } := rfl

theorem exec_halt : exec (.halt q) s = .next { s with part := s.fresh.takeHalt q } := rfl

end

/-! ### The start limit and the halt (R49, R51) -/

section
variable {b : Part} {q : Panel}

theorem Part.expireStart_starting (h : (b.engine q).state = .starting) :
    b.expireStart q = (b.teardown q .down).claim (Bank.ofPanel q) (startFailClaim q) := if_pos h

theorem Part.expireStart_not (h : (b.engine q).state ≠ .starting) : b.expireStart q = b := if_neg h

theorem Part.takeHalt_eq (b : Part) (q : Panel) : b.takeHalt q =
    if (b.engine q).state.active then (b.modEngine q fun e => { e with haltHanded := false }).teardown q .halted
    else b.modEngine q fun e => { e with haltHanded := false } := by
  have hstate : ((b.modEngine q fun e => { e with haltHanded := false }).engine q).state = (b.engine q).state := by
    rw [Part.modEngine_engine, if_pos rfl]
  unfold Part.takeHalt
  dsimp only
  rw [hstate]

theorem Part.takeReady_starting (h : (b.engine q).state = .starting) : b.takeReady q =
    (((b.creditAll q).modEngine q fun e => { e with startLeft := none, state := .running }).raiseAll (.panel q)).frameTurn
      q true := by
  unfold Part.takeReady Part.enterState
  rw [if_pos h, Part.modEngine_modEngine]

theorem Part.takeReady_not (h : (b.engine q).state ≠ .starting) : b.takeReady q = b := if_neg h

end

/-- Settles O27: both events are the shared teardown where the panel's state asks for it. -/
theorem startLimitAndHaltTearDown : Obligations.StartLimitAndHaltTearDown := by
  unfold Obligations.StartLimitAndHaltTearDown
  intro q s
  rw [exec_startLimitExpiry, exec_halt, Part.takeHalt_eq, State.fresh_engine]
  refine ⟨fun hs hg => ⟨_, s.fresh.teardown_tornDown q .down hg, ?_⟩, fun hs => ?_, fun hs hg => ⟨_, ?_, rfl⟩,
    fun hs => ?_⟩
  · rw [Part.expireStart_starting (b := s.fresh) hs]
    rfl
  · rw [Part.expireStart_not (b := s.fresh) hs]
  · rw [if_pos ((PanelState.active_iff _).2 hs)]
    exact Part.teardown_tornDown _ q .halted hg
  · rw [if_neg (by simp [(PanelState.active_eq_false_iff _).2 hs])]

/-! ### READY (R48, R57) -/

/-- Settles O28: the panel enters RUNNING behind the credits, and the turn is the shared one. -/
theorem readyStartsRun : Obligations.ReadyStartsRun := by
  unfold Obligations.ReadyStartsRun
  refine fun q s => ⟨fun hs => ?_, fun hs => by rw [exec_ready, Part.takeReady_not (b := s.fresh) hs]⟩
  have hcredit := s.fresh.creditAll_still q
  set b := ((s.fresh.creditAll q).modEngine q fun e => { e with startLeft := none, state := .running }).raiseAll
    (.panel q) with hb
  have hengine : b.engine q = { (s.fresh.creditAll q).engine q with startLeft := none, state := .running } := by
    rw [hb, Part.raiseAll_engine, Part.modEngine_engine, if_pos rfl]
  have hothers : Aside q s.fresh b := (Aside.of_still hcredit).trans
    ((Aside.modEngine q _ _).trans (.of_still (Part.raiseAll_quiet _ _).still))
  have hturn := b.frameTurn_begun q true
  have hq := hcredit.engines q
  refine ⟨{ s with part := b.frameTurn q true }, b, ?_, rfl, rfl, rfl, ?_⟩
  · rw [exec_ready, Part.takeReady_starting (b := s.fresh) hs]
  · obtain ⟨hstate, htimer, hslot, hframe, hduty, hstaged, -, hcfg, -, hplan, haside⟩ := hturn
    rw [hengine] at hstate htimer hframe hduty hstaged hcfg hplan
    refine ⟨hstate, htimer, hslot, hframe.trans (congrArg (· + 1) hq.frame), hduty.trans hq.staged,
      hstaged.trans hq.staged, hcfg.trans hq.cfg, ?_, fun p hp => ?_⟩
    · obtain ⟨pl, hpl, hlen⟩ := hplan
      exact ⟨pl, hpl, hlen.trans (congrArg PanelConfig.slots hq.cfg)⟩
    · have hall := hothers.trans haside
      exact ⟨hall.links p hp, (hall.engines p hp).state, (hall.engines p hp).frame⟩

/-! ### The boundary that ends the closing slot (R54 to R56) -/

section
variable (b : Part) (q : Panel)

/-- The end of a slot keeps both engines but for the outcomes of entries, and the other panel's link (R96). -/
theorem Part.linkEndOfSlot_similar : ((b.linkEndOfSlot q).engine q).Similar (b.engine q) ∧
    Aside q b (b.linkEndOfSlot q) := by
  unfold Part.linkEndOfSlot
  split
  · exact ⟨.refl _, .refl _ _⟩
  · rename_i j _
    obtain ⟨haside, hengine, -⟩ := b.timeoutOrders_spec q ((b.link q).overdue j)
    exact ⟨hengine, haside⟩

/-- A boundary's work before the next slot: a burst still running ends, and the link takes the end of the slot. -/
theorem Part.boundary_similar : (((b.dropBurst q).linkEndOfSlot q).engine q).Similar (b.engine q) ∧
    Aside q b ((b.dropBurst q).linkEndOfSlot q) := by
  have hburst := b.dropBurst_still q
  obtain ⟨hengine, haside⟩ := (b.dropBurst q).linkEndOfSlot_similar q
  exact ⟨(hburst.engines q).trans hengine, (Aside.of_still hburst).trans haside⟩

variable {b q} {j : Nat}

theorem Part.slotBoundary_running (hs : (b.engine q).state = .running) (hj : (b.engine q).slot = some j) :
    b.slotBoundary q = b.endSlot q j := by simp [Part.slotBoundary, hs, hj]

theorem Part.endSlot_inside (h : j + 1 < (b.engine q).cfg.slots) :
    b.endSlot q j = ((b.dropBurst q).linkEndOfSlot q).startSlot q (j + 1) := by
  obtain ⟨hengine, -⟩ := b.boundary_similar q
  unfold Part.endSlot
  dsimp only
  rw [hengine.cfg, if_pos h]

theorem Part.endSlot_closing (h : (b.engine q).cfg.slots ≤ j + 1) :
    b.endSlot q j = (((b.dropBurst q).linkEndOfSlot q).creditAll q).frameTurn q false := by
  obtain ⟨hengine, -⟩ := b.boundary_similar q
  unfold Part.endSlot
  dsimp only
  rw [hengine.cfg, if_neg (Nat.not_lt.2 h)]

end

/-- Settles O30: behind the end of the slot and the credits, the turn is the shared one. -/
theorem frameTurnBeginsFrame : Obligations.FrameTurnBeginsFrame := by
  unfold Obligations.FrameTurnBeginsFrame
  intro q s j hs hj hlast
  set c := (s.fresh.dropBurst q).linkEndOfSlot q with hc
  obtain ⟨hend, hside⟩ := s.fresh.boundary_similar q
  have hcredit := c.creditAll_still q
  have hq := hend.trans (hcredit.engines q)
  have hexec : s.fresh.slotBoundary q = (c.creditAll q).frameTurn q false :=
    (Part.slotBoundary_running (b := s.fresh) hs hj).trans (Part.endSlot_closing (b := s.fresh) hlast)
  refine ⟨{ s with part := (c.creditAll q).frameTurn q false }, c.creditAll q, by rw [exec_slotBoundary, hexec], rfl, rfl,
    rfl, ?_⟩
  obtain ⟨hstate, -, hslot, hframe, hduty, -, houtput, hcfg, hcompletions, hplan, haside⟩ :=
    (c.creditAll q).frameTurn_begun q false
  refine ⟨hstate.trans (hq.state.trans hs), hslot, hframe.trans (congrArg (· + 1) hq.frame), hduty.trans hq.staged,
    houtput.trans (by rw [hq.cfg, hq.staged]; rfl), hcfg.trans hq.cfg, hcompletions.trans (c.creditAll_done q), ?_,
    fun p hp => ?_⟩
  · obtain ⟨pl, hpl, hlen⟩ := hplan
    exact ⟨pl, hpl, hlen.trans (congrArg PanelConfig.slots hq.cfg)⟩
  · have hall := hside.trans ((Aside.of_still hcredit).trans haside)
    exact ⟨hall.links p hp, (hall.engines p hp).state, (hall.engines p hp).frame⟩

end Sys2Proof.Machine

/-! # A slot begins (R53, R60, R71, R72, R92, R96, R108, R134) -/

namespace Sys2Proof.Machine
open Sys2Proof.Machine.Part

/-! ### The timeouts of a boundary, taken once (R53, R96) -/

section
variable (b : Part) (q : Panel)

theorem Part.timeoutOrder_out (o : Order) : (b.timeoutOrder q o).out = b.out := by
  unfold Part.timeoutOrder Part.claimLoss
  dsimp only
  split <;> rfl

theorem Part.linkEndOfSlot_out : (b.linkEndOfSlot q).out = b.out := by
  have hfold (os : List Order) (c : Part) : (os.foldl (fun b o => b.timeoutOrder q o) c).out = c.out := by
    induction os generalizing c with
    | nil => rfl
    | cons o os ih => rw [List.foldl_cons, ih, Part.timeoutOrder_out]
  unfold Part.linkEndOfSlot
  split
  · rfl
  · exact hfold _ b

/-- A timeout has no part in touch. -/
theorem Part.timeoutOrder_dropBurst (o : Order) :
    (b.dropBurst q).timeoutOrder q o = (b.timeoutOrder q o).dropBurst q := by
  cases q with
  | cluster => rfl
  | centre =>
    unfold Part.timeoutOrder Part.claimLoss Part.dropBurst
    dsimp only
    rw [Part.modTouch_link]
    split <;> rfl

theorem Part.linkEndOfSlot_dropBurst : (b.dropBurst q).linkEndOfSlot q = (b.linkEndOfSlot q).dropBurst q := by
  have hfold (os : List Order) (c : Part) : os.foldl (fun b o => b.timeoutOrder q o) (c.dropBurst q) =
      (os.foldl (fun b o => b.timeoutOrder q o) c).dropBurst q := by
    induction os generalizing c with
    | nil => rfl
    | cons o os ih => rw [List.foldl_cons, List.foldl_cons, Part.timeoutOrder_dropBurst, ih]
  have hengine : (b.dropBurst q).engine q = b.engine q := by cases q <;> rfl
  have hlink : (b.dropBurst q).link q = b.link q := (b.dropBurst_still q).links q
  unfold Part.linkEndOfSlot
  rw [hengine, hlink]
  split
  · rfl
  · exact hfold _ b

variable {b q} {j : Nat}

/-- With no order overdue, the end of a slot does nothing (R96). -/
theorem Part.linkEndOfSlot_none (hj : (b.engine q).slot = some j) (ho : ∀ o ∈ (b.link q).orders, j ≤ o.slot) :
    b.linkEndOfSlot q = b := by
  have hnil : (b.link q).overdue j = [] :=
    List.filter_eq_nil_iff.2 fun o hin => by simpa using ho o hin
  simp [Part.linkEndOfSlot, hj, hnil]

/-- Erasing what a condition picks out of a list leaves nothing that meets it. -/
theorem mem_foldl_erase_filter {xs : List Order} {c : Order → Bool} {o : Order}
    (h : o ∈ (xs.filter c).foldl (fun l o => l.erase o) xs) : c o = false := by
  have hdiff : (xs.filter c).foldl (fun l o => l.erase o) xs = xs.diff (xs.filter c) := (List.diff_eq_foldl _ _).symm
  rw [hdiff, ← List.count_pos_iff, List.count_diff] at h
  by_contra hc
  rw [List.count_filter (by simpa using hc)] at h
  omega

/-- After the timeouts of a boundary no order is overdue (R96). -/
theorem Part.linkEndOfSlot_orders (hj : (b.engine q).slot = some j) :
    ∀ o ∈ ((b.linkEndOfSlot q).link q).orders, j ≤ o.slot := by
  have hb : b.linkEndOfSlot q = ((b.link q).overdue j).foldl (fun b o => b.timeoutOrder q o) b := by
    simp [Part.linkEndOfSlot, hj]
  obtain ⟨-, -, horders, -⟩ := b.timeoutOrders_spec q ((b.link q).overdue j)
  rw [hb, horders]
  intro o ho
  simpa using mem_foldl_erase_filter ho

theorem Part.linkEndOfSlot_twice : (b.linkEndOfSlot q).linkEndOfSlot q = b.linkEndOfSlot q := by
  obtain ⟨hengine, -⟩ := b.linkEndOfSlot_similar q
  cases hj : (b.engine q).slot with
  | none =>
    have hstands : b.linkEndOfSlot q = b := by simp [Part.linkEndOfSlot, hj]
    rw [hstands, hstands]
  | some j => exact Part.linkEndOfSlot_none (hengine.slot.trans hj) (Part.linkEndOfSlot_orders hj)

/-! ### SLOT_BOUNDARY and ORDER_TIMEOUT (R53, R96) -/

theorem Part.slotBoundary_stopped (h : (b.engine q).state ≠ .running ∨ (b.engine q).slot = none) :
    b.slotBoundary q = b := by
  unfold Part.slotBoundary
  split
  · rename_i j hs hj
    simp [hs, hj] at h
  · rfl

theorem Part.orderTimeout_stopped (h : (b.engine q).state ≠ .running ∨ (b.engine q).slot = none) :
    b.orderTimeout q = b := by
  unfold Part.orderTimeout
  split
  · rename_i hs
    have hj : (b.engine q).slot = none := h.resolve_left (not_not_intro hs)
    simp [Part.linkEndOfSlot, hj]
  · rfl

/-- The timeouts of a boundary taken beforehand change nothing of it (R53, R96). -/
theorem Part.slotBoundary_orderTimeout : (b.orderTimeout q).slotBoundary q = b.slotBoundary q := by
  by_cases h : (b.engine q).state ≠ .running ∨ (b.engine q).slot = none
  · rw [Part.orderTimeout_stopped h]
  · obtain ⟨hs, hslot⟩ := not_or.1 h
    obtain ⟨j, hj⟩ := Option.ne_none_iff_exists'.1 hslot
    have hs := not_not.1 hs
    obtain ⟨hengine, -⟩ := b.linkEndOfSlot_similar q
    have htimeout : b.orderTimeout q = b.linkEndOfSlot q := if_pos hs
    rw [htimeout, Part.slotBoundary_running hs hj,
      Part.slotBoundary_running (hengine.state.trans hs) (hengine.slot.trans hj)]
    unfold Part.endSlot
    rw [Part.linkEndOfSlot_dropBurst, Part.linkEndOfSlot_dropBurst, Part.linkEndOfSlot_twice]

theorem Part.orderTimeout_out (b : Part) (q : Panel) : (b.orderTimeout q).out = b.out := by
  unfold Part.orderTimeout
  split
  · exact b.linkEndOfSlot_out q
  · rfl

/-- In slot j with no order overdue, the boundary ends a burst and begins slot j + 1 (R53). -/
theorem Part.slotBoundary_inside (hs : (b.engine q).state = .running) (hj : (b.engine q).slot = some j)
    (h : j + 1 < (b.engine q).cfg.slots) (ho : ∀ o ∈ (b.link q).orders, j ≤ o.slot) :
    b.slotBoundary q = (b.dropBurst q).startSlot q (j + 1) := by
  rw [Part.slotBoundary_running hs hj, Part.endSlot_inside h, Part.linkEndOfSlot_dropBurst, Part.linkEndOfSlot_none hj ho]

end

/-! ### Captures (R71, R108) -/

theorem Record.captured_captured (r : Record) : r.captured.captured = r.captured := rfl

theorem Record.captured_standsAs (r : Record) (n : Nat) : r.captured.standsAs n = r.standsAs n := rfl

/-- A listed contract stands under its own number alone (R3). -/
theorem Record.standsAs_number {r : Record} {n : Nat} {x : Placed} (hn : n < 64) (h : r.standsAs n x = true) :
    n = x.handle % 64 := by
  simp only [Record.standsAs, Bool.and_eq_true, beq_iff_eq, Record.handle] at h
  omega

/-- What captures for the items of a list leave of a part of good records: the table alone is written, and in it the
records that stand as an item (R108). -/
structure CapturesMade (xs : List Placed) (b b' : Part) : Prop where
  size : b'.TableSized
  good : b'.allGood = true
  rest : b' = { b with table := b'.table }
  records : ∀ n, n < 64 →
    b'.record n = if xs.any ((b.record n).standsAs n) then (b.record n).captured else b.record n

theorem Part.captureOne_made {b : Part} (x : Placed) (hs : b.TableSized) (hg : b.allGood = true) :
    CapturesMade [x] b (b.captureOne x) := by
  have hgood := Part.allGood_iff.1 hg
  have hx : x.handle % 64 < 64 := Nat.mod_lt _ (by decide)
  unfold Part.captureOne
  dsimp only
  rw [Part.verify_good _ (hgood _ hx)]
  split
  · rename_i hstands
    have hwrite (n : Nat) : (b.setRecord (x.handle % 64) (b.record (x.handle % 64)).captured).record n =
        if n = x.handle % 64 then (b.record (x.handle % 64)).captured else b.record n := by
      rw [Part.setRecord_record _ _ _ _ (hs.symm ▸ hx)]
      exact congrArg (fun k => if n = x.handle % 64 then { (b.record (x.handle % 64)).captured with checkGood := k }
        else b.record n) (hgood _ hx).symm
    refine ⟨List.length_set.trans hs, Part.allGood_iff.2 fun n hn => ?_, rfl, fun n hn => ?_⟩
    · rw [hwrite]
      split
      · exact hgood _ hx
      · exact hgood n hn
    · rw [hwrite]
      by_cases hne : n = x.handle % 64
      · subst hne
        simp [hstands]
      · have hnot : ¬(b.record n).standsAs n x = true := fun h => hne (Record.standsAs_number hn h)
        simp [hne, hnot]
  · rename_i hstands
    refine ⟨hs, hg, rfl, fun n hn => ?_⟩
    have hnot : ¬(b.record n).standsAs n x = true := fun h => hstands (Record.standsAs_number hn h ▸ h)
    simp [hnot]

theorem CapturesMade.cons {x : Placed} {xs : List Placed} {a b c : Part} (h : CapturesMade [x] a b)
    (k : CapturesMade xs b c) : CapturesMade (x :: xs) a c where
  size := k.size
  good := k.good
  rest := by rw [k.rest, h.rest]
  records n hn := by
    rw [k.records n hn, h.records n hn, List.any_cons, List.any_cons, List.any_nil, Bool.or_false]
    cases hx : (a.record n).standsAs n x with
    | false => rfl
    | true => simp [Record.captured_standsAs, Record.captured_captured]

/-- Captures taken one after another on good records: their order does not show (R108). -/
theorem Part.foldl_captureOne_made (xs : List Placed) {b : Part} (hs : b.TableSized) (hg : b.allGood = true) :
    CapturesMade xs b (xs.foldl (fun b x => b.captureOne x) b) := by
  induction xs generalizing b with
  | nil => exact ⟨hs, hg, rfl, fun _ _ => rfl⟩
  | cons x xs ih =>
    have hx := b.captureOne_made x hs hg
    exact hx.cons (ih hx.size hx.good)

theorem Part.captures_made {b : Part} {q : Panel} {pl : Plan} (j : Nat) (hp : (b.engine q).plan = some pl)
    (hs : b.TableSized) (hg : b.allGood = true) :
    CapturesMade (pl.placed.filter fun x => x.kind == .drive && x.captureSlot == some j) b (b.captures q j) := by
  unfold Part.captures
  rw [hp]
  exact Part.foldl_captureOne_made _ hs hg

/-- The contracts whose capture slot a slot is: LIVE or STALE, and listed with kind DRIVE under their handle (R71). -/
theorem Record.captured_in_slot_iff (r : Record) (n j : Nat) (placed : List Placed) :
    (placed.filter fun x => x.kind == .drive && x.captureSlot == some j).any (r.standsAs n) = true ↔
      (∃ y ∈ placed, y.kind = .drive ∧ y.captureSlot = some j ∧ y.handle = r.handle n) ∧
        (r.state = .live ∨ r.state = .stale) := by
  simp only [List.any_eq_true, List.mem_filter, Record.standsAs, Bool.and_eq_true, Bool.or_eq_true, beq_iff_eq]
  constructor
  · rintro ⟨y, ⟨hy, hkind, hslot⟩, hhandle, hstate⟩
    exact ⟨⟨y, hy, hkind, hslot, hhandle.symm⟩, hstate⟩
  · rintro ⟨⟨y, hy, hkind, hslot, hhandle⟩, hstate⟩
    exact ⟨y, ⟨hy, hkind, hslot⟩, hhandle.symm, hstate⟩

theorem Record.captured_eq (r : Record) : r.captured =
    { r with
      accum := { r.accum with
        tag := r.pending.map fun u => u.tag
        expected := match r.pending with
          | some u => if r.params.checking = true then u.sig else r.confirmed
          | none => r.confirmed } } := rfl

/-! ### The shielded order of a burst's run (R72) -/

section
variable {pl : Plan} {j : Nat}

theorem Plan.splitStart_eq_some_iff : pl.splitStart = some (pl.entries.length / 2) ↔
    ∃ y, pl.entries[pl.entries.length / 2 - 1]? = some y ∧ y.kind = .guard := by
  simp [Plan.splitStart]

theorem Plan.shielded_lead (h : ¬(pl.entries.length / 2 ≤ j ∧
    ∃ y, pl.entries[pl.entries.length / 2 - 1]? = some y ∧ y.kind = .guard)) : pl.shielded j = pl.carried := by
  rw [← Plan.splitStart_eq_some_iff] at h
  unfold Plan.shielded
  split
  · rename_i m hm
    have hsplit : m = pl.entries.length / 2 := by
      unfold Plan.splitStart at hm
      exact (Option.some.inj (Option.ite_none_right_eq_some.1 hm).2).symm
    subst hsplit
    exact if_neg fun hle => h ⟨hle, hm⟩
  · rfl

theorem Plan.shielded_split (h : pl.entries.length / 2 ≤ j ∧
    ∃ y, pl.entries[pl.entries.length / 2 - 1]? = some y ∧ y.kind = .guard) :
    pl.shielded j = pl.orderOutcomeAt (pl.entries.length / 2 - 2) := by
  obtain ⟨hle, hguard⟩ := h
  unfold Plan.shielded
  rw [Plan.splitStart_eq_some_iff.2 hguard]
  exact if_pos hle

theorem Entry.orderOutcome_eq_some (y : Entry) (o : EntryOutcome) : y.orderOutcome = some o ↔
    ∃ g n, (y.kind = .drive g n ∨ y.kind = .fallback g n) ∧ y.outcome = o := by
  unfold Entry.orderOutcome
  cases y.kind <;> simp

theorem Plan.orderOutcomeAt_eq_some (i : Nat) (o : EntryOutcome) : pl.orderOutcomeAt i = some o ↔
    ∃ y g n, pl.entries[i]? = some y ∧ (y.kind = .drive g n ∨ y.kind = .fallback g n) ∧ y.outcome = o := by
  simp [Plan.orderOutcomeAt, Option.bind_eq_some_iff, Entry.orderOutcome_eq_some]

end

/-! ### The entry of a slot, by kind (R53, R70, R92, R134) -/

section
variable {b : Part} {q : Panel} {j : Nat} {pl : Plan} {x : Entry}

theorem Part.enterSlot_plan (hp : (b.engine q).plan = some pl) :
    ((b.modEngine q (Engine.enterSlot j)).engine q).plan = some pl := by
  rw [Part.modEngine_engine, if_pos rfl]
  exact hp

theorem Part.carryOut_drive {g n : Nat} (hp : (b.engine q).plan = some pl) (hx : pl.entries[j]? = some x)
    (hk : x.kind = .drive g n) : b.carryOut q j = (b.issue q .drive g j).captures q j := by
  simp [Part.carryOut, hp, hx, hk]

theorem Part.carryOut_fallback {g n : Nat} (hp : (b.engine q).plan = some pl) (hx : pl.entries[j]? = some x)
    (hk : x.kind = .fallback g n) : b.carryOut q j = b.issue q .fallback g j := by
  simp [Part.carryOut, hp, hx, hk]

theorem Part.carryOut_sense {row : Nat} (hp : (b.engine q).plan = some pl) (hx : pl.entries[j]? = some x)
    (hk : x.kind = .sense row) : b.carryOut q j = b.startBurst q pl row j := by
  simp [Part.carryOut, hp, hx, hk]

theorem Part.carryOut_done (hp : (b.engine q).plan = some pl) (hx : pl.entries[j]? = some x)
    (hk : x.kind = .guard ∨ x.kind = .idle ∨ x.kind = .closing) : b.carryOut q j = b.setOutcome q j .done := by
  rcases hk with hk | hk | hk <;> simp [Part.carryOut, hp, hx, hk]

end

/-- Settles O29: the boundary's timeouts are idempotent, the entry is carried out by its kind, and captures on good
records are made one record at a time. -/
theorem slotStartsByKind : Obligations.SlotStartsByKind := by
  unfold Obligations.SlotStartsByKind
  refine ⟨fun q s => ⟨fun h => ?_, fun t ht => ?_, fun j hs hj hin ho => ?_⟩, fun q j pl x b c hp hx hc => ?_⟩
  · rw [exec_slotBoundary, exec_orderTimeout, Part.slotBoundary_stopped (b := s.fresh) h,
      Part.orderTimeout_stopped (b := s.fresh) h]
    exact ⟨rfl, rfl⟩
  · rw [exec_orderTimeout] at ht
    obtain rfl := Host.Outcome.next.inj ht
    have hfresh : State.fresh { s with part := s.fresh.orderTimeout q } = s.fresh.orderTimeout q :=
      congrArg (fun o => { s.fresh.orderTimeout q with out := o }) (s.fresh.orderTimeout_out q).symm
    rw [exec_slotBoundary, exec_slotBoundary, hfresh, Part.slotBoundary_orderTimeout]
  · rw [exec_slotBoundary, Part.slotBoundary_inside (b := s.fresh) hs hj hin ho]
    cases q <;> rfl
  · obtain rfl : c = b.modEngine q (Engine.enterSlot j) := hc
    have hplan := Part.enterSlot_plan (j := j) hp
    refine ⟨fun g n hk => ⟨_, rfl, Part.carryOut_drive hplan hx hk, fun hs hg => ?_⟩,
      fun g n hk => Part.carryOut_fallback hplan hx hk, fun row m split disturbed hk hm hsplit hlead hsecond => ?_,
      fun hk => Part.carryOut_done hplan hx hk⟩
    · obtain ⟨-, -, hrest, hrecords⟩ := Part.captures_made (b := (b.modEngine q (Engine.enterSlot j)).issue q .drive g j)
        j hplan hs hg
      exact ⟨hrest, fun n hn => (hrecords n hn).trans
        (if_congr (Record.captured_in_slot_iff _ n j pl.placed) (Record.captured_eq _) rfl)⟩
    · subst hm
      have hdisturbed : disturbed = (pl.shielded j == some .timedOut) := by
        rw [Bool.eq_iff_iff, beq_iff_eq]
        by_cases h : split
        · rw [hsecond h, Plan.shielded_split (hsplit.1 h), Plan.orderOutcomeAt_eq_some]
        · rw [hlead h, Plan.shielded_lead (mt hsplit.2 h)]
      rw [hdisturbed]
      exact Part.carryOut_sense hplan hx hk

end Sys2Proof.Machine

/-! # The sense entries of a plan (R61, R73 to R78) -/

namespace Sys2Proof.Machine
open Sys2Proof.Machine.Part

/-! ### A walk in closed form (R75) -/

/-- The edge slots of a list that stand before some SENSE slot of a walk. -/
def edgesPassed (edge : Nat → Bool) (js sense : List Nat) : List Nat :=
  js.filter fun j => edge j && sense.any fun i => decide (j < i)

theorem edgesPassed_nil (edge : Nat → Bool) (js : List Nat) : edgesPassed edge js [] = [] := by
  simp [edgesPassed]

/-- A walk over ascending slots gives the SENSE entries to the lowest slots off the edges, and makes sense IDLEs of the
candidates held and the edge slots passed before the last SENSE (R75). -/
theorem senseWalk_eq (edge : Nat → Bool) (js : List Nat) (k : Nat) (held : List Nat) (hjs : js.Pairwise (· < ·)) :
    (senseWalk edge js k held).sense = (js.filter fun j => !edge j).take k ∧
    (senseWalk edge js k held).idle = (if (senseWalk edge js k held).sense = [] then [] else held) ++
      edgesPassed edge js (senseWalk edge js k held).sense := by
  induction js generalizing k held with
  | nil => cases k <;> simp [senseWalk, edgesPassed]
  | cons j js ih =>
    obtain ⟨hj, hjs'⟩ := List.pairwise_cons.1 hjs
    cases k with
    | zero => simp [senseWalk, edgesPassed_nil]
    | succ k =>
      cases he : edge j with
      | true =>
        obtain ⟨hsense, hidle⟩ := ih (k + 1) (held ++ [j]) hjs'
        have hwalk : senseWalk edge (j :: js) (k + 1) held = senseWalk edge js (k + 1) (held ++ [j]) := by
          simp [senseWalk, he]
        rw [hwalk]
        refine ⟨by simpa [he] using hsense, hidle.trans ?_⟩
        have hlater := senseWalk_mem edge js (k + 1) (held ++ [j])
        generalize (senseWalk edge js (k + 1) (held ++ [j])).sense = sense at hlater
        cases sense with
        | nil => simp [edgesPassed_nil]
        | cons i rest => simp [edgesPassed, he, hj i (hlater i (by simp)).1]
      | false =>
        obtain ⟨hsense, hidle⟩ := ih k [] hjs'
        have hwalk : senseWalk edge (j :: js) (k + 1) held =
            { sense := j :: (senseWalk edge js k []).sense, idle := held ++ (senseWalk edge js k []).idle
              left := (senseWalk edge js k []).left } := by simp [senseWalk, he]
        rw [hwalk]
        refine ⟨by simp [he, hsense], ?_⟩
        dsimp only
        rw [if_neg (List.cons_ne_nil _ _), hidle, ite_self, List.nil_append]
        congr 1
        unfold edgesPassed
        rw [List.filter_cons_of_neg (by simp [he])]
        refine List.filter_congr fun i hi => ?_
        have hnot : decide (i < j) = false := decide_eq_false (Nat.lt_asymm (hj i hi))
        rw [List.any_cons, hnot, Bool.false_or]

theorem slotsFrom_sorted (first bound : Nat) : (slotsFrom first bound).Pairwise (· < ·) :=
  List.pairwise_lt_range.filter _

theorem slotsFrom_zero (bound : Nat) : slotsFrom 0 bound = List.range bound := by simp [slotsFrom]

/-- A walk that starts afresh, in closed form (R75). -/
theorem senseWalk_slotsFrom (edge : Nat → Bool) (first bound k : Nat) {sense : List Nat}
    (hsense : sense = ((slotsFrom first bound).filter fun j => !edge j).take k) :
    senseWalk edge (slotsFrom first bound) k [] =
      { sense := sense, idle := edgesPassed edge (slotsFrom first bound) sense, left := k - sense.length } := by
  obtain ⟨hs, hi⟩ := senseWalk_eq edge (slotsFrom first bound) k [] (slotsFrom_sorted first bound)
  have hcount := senseWalk_count edge (slotsFrom first bound) k []
  rw [ite_self, List.nil_append] at hi
  rw [← hsense] at hs
  rw [hs] at hi hcount
  generalize senseWalk edge (slotsFrom first bound) k [] = w at hs hi hcount
  obtain ⟨ws, wi, wl⟩ := w
  obtain rfl : ws = sense := hs
  obtain rfl : wi = edgesPassed edge (slotsFrom first bound) ws := hi
  obtain rfl : wl = k - ws.length := by
    dsimp only at hcount
    omega
  rfl

/-! ### LEAD and SPLIT (R76, R77) -/

theorem leadPlacement_eq {edge : Nat → Bool} {slots k : Nat} {lead : List Nat}
    (hlead : lead = ((List.range (slots - 1)).filter fun j => !edge j).take k) :
    leadPlacement edge slots k =
      { sense := lead
        idle := (List.range (slots - 1)).filter fun j => edge j && lead.any fun i => decide (j < i)
        guard := none, deferred := k - lead.length } := by
  rw [← slotsFrom_zero] at hlead ⊢
  unfold leadPlacement
  rw [senseWalk_slotsFrom edge 0 (slots - 1) k hlead]
  rfl

theorem splitPlacement_eq {edge : Nat → Bool} {slots k k₁ k₂ : Nat} {low high : List Nat} (hk₁ : k₁ = (k + 1) / 2)
    (hlow : low = ((List.range (slots / 2 - 1)).filter fun j => !edge j).take k₁)
    (hk₂ : k₂ = k - k₁ + (k₁ - low.length))
    (hhigh : high = ((List.range (slots - 1)).filter fun j => decide (slots / 2 ≤ j) && !edge j).take k₂) :
    splitPlacement edge slots k =
      { sense := low ++ high
        idle := ((List.range (slots / 2 - 1)).filter fun j => edge j && low.any fun i => decide (j < i)) ++
          (List.range (slots - 1)).filter fun j => decide (slots / 2 ≤ j) && edge j && high.any fun i => decide (j < i)
        guard := if high = [] then none else some (slots / 2 - 1)
        deferred := k₂ - high.length } := by
  have hhalf : ceilDiv k 2 = k₁ := hk₁.symm
  have hlow' : low = ((slotsFrom 0 (slots / 2 - 1)).filter fun j => !edge j).take k₁ := by rwa [slotsFrom_zero]
  have hhigh' : high = ((slotsFrom (slots / 2) (slots - 1)).filter fun j => !edge j).take k₂ := by
    rw [hhigh, slotsFrom, List.filter_filter]
    simp only [Bool.and_comm]
  have hpassed : edgesPassed edge (slotsFrom (slots / 2) (slots - 1)) high =
      (List.range (slots - 1)).filter fun j => decide (slots / 2 ≤ j) && edge j && high.any fun i => decide (j < i) := by
    unfold edgesPassed slotsFrom
    rw [List.filter_filter]
    refine List.filter_congr fun j _ => ?_
    rw [Bool.and_comm, Bool.and_assoc]
  unfold splitPlacement
  dsimp only
  rw [hhalf, senseWalk_slotsFrom edge 0 _ k₁ hlow', ← hk₂, senseWalk_slotsFrom edge _ _ k₂ hhigh', hpassed, slotsFrom_zero]
  simp only [edgesPassed, List.isEmpty_iff]

/-! ### The demand (R74) -/

theorem Record.scans_iff (r : Record) : r.scans = true ↔
    r.panel = .centre ∧ (r.state = .live ∨ r.state = .stale) ∧ ∃ z, r.params.zone = some z := by
  simp [Record.scans, Option.isSome_iff_exists, and_assoc]

/-- D_now is the least divisor among the zones of the LIVE and STALE centre contracts (R74). -/
theorem divisorNow_eq {table : List Record} {d : Nat}
    (hex : ∃ r ∈ table, r.panel = .centre ∧ (r.state = .live ∨ r.state = .stale) ∧
      ∃ z, r.params.zone = some z ∧ z.divisor = d)
    (hle : ∀ r ∈ table, r.panel = .centre → (r.state = .live ∨ r.state = .stale) →
      ∀ z, r.params.zone = some z → d ≤ z.divisor) (hd : d ≤ 8) : divisorNow table = d := by
  refine leastDivisor_eq hd ?_ fun z hz => ?_
  · obtain ⟨r, hr, hpanel, hstate, z, hz, hzd⟩ := hex
    exact ⟨z, List.mem_filterMap.2 ⟨r, List.mem_filter.2 ⟨hr, r.scans_iff.2 ⟨hpanel, hstate, z, hz⟩⟩, hz⟩, hzd⟩
  · obtain ⟨r, hr, hrz⟩ := List.mem_filterMap.1 hz
    obtain ⟨hr, hscans⟩ := List.mem_filter.1 hr
    obtain ⟨hpanel, hstate, -⟩ := r.scans_iff.1 hscans
    exact hle r hr hpanel hstate z hrz

theorem ceilDiv_le (n : Nat) {d : Nat} (hd : 1 ≤ d) : ceilDiv n d ≤ n := by
  unfold ceilDiv
  rw [Nat.div_le_iff_le_mul_add_pred hd]
  have := Nat.le_mul_of_pos_left n hd
  omega

theorem senseDemand_eq (needed : List Nat) {d : Nat} (hd : 1 ≤ d) :
    senseDemand needed d = (needed.length + d - 1) / d := min_eq_right (ceilDiv_le _ hd)

theorem Touch.neededRows_scanning {t : Touch} {f : TouchFrame} (hf : t.frame = some f) (hs : t.state = .scanning) :
    t.neededRows = (List.range 15).filter fun i => f.rows.getLsbD i && f.results.getD i none == none := by
  unfold Touch.neededRows
  rw [hf, hs]
  refine List.filter_congr fun i _ => ?_
  cases f.results.getD i none <;> rfl

theorem Touch.neededRows_none {t : Touch} (h : t.state ≠ .scanning ∨ t.frame = none) : t.neededRows = [] := by
  unfold Touch.neededRows
  split
  · rename_i f hs hf
    simp [hs, hf] at h
  · rfl

theorem Touch.placementNow_eq {t : Touch} {f : TouchFrame} (hf : t.frame = some f) : t.placementNow = f.placement := by
  simp [Touch.placementNow, hf]

/-- With no row needed, no slot is sensed and none is held (R74). -/
theorem sensePlacement_zero (pl : Placement) (edge : Nat → Bool) (slots : Nat) :
    sensePlacement pl edge slots 0 = { sense := [], idle := [], guard := none, deferred := 0 } := by
  cases pl with
  | lead => simp [sensePlacement, leadPlacement_eq rfl]
  | split => simp [sensePlacement, splitPlacement_eq rfl rfl rfl rfl]

/-! ### The draft (R73, R78) -/

/-- The row a SENSE slot takes: the rows go to the slots in order (R78). -/
theorem find?_zip_eq (sense needed : List Nat) (j : Nat) (h : sense.length ≤ needed.length) :
    ((sense.zip needed).find? fun sr => sr.1 == j) =
      if j ∈ sense then some (j, needed.getD (sense.idxOf j) 0) else none := by
  induction sense generalizing needed with
  | nil => rfl
  | cons i sense ih =>
    cases needed with
    | nil => simp at h
    | cons row needed =>
      by_cases hij : i = j
      · simp [hij]
      · have hne : ¬j = i := fun h => hij h.symm
        rw [List.zip_cons_cons, List.find?_cons_of_neg (by simpa using hij), ih needed (by simpa using h),
          List.idxOf_cons_ne _ hij]
        simp [hne]

/-- Settles O35: the walk in closed form gives LEAD and SPLIT; the draft takes its rows by position. -/
theorem planPlacesSenses : Obligations.PlanPlacesSenses := by
  unfold Obligations.PlanPlacesSenses
  refine ⟨fun period duty j before => ?_, fun _ _ _ => rfl, ?_, fun edge slots b h => ?_,
    fun slots sp needed j hj _ hlen => ?_⟩
  · rw [Bool.eq_iff_iff]
    unfold isEdge levelAt
    split
    · rw [decide_eq_true_iff]
      simp
    · simp [and_assoc]
  · intro edge slots m n d k k₁ k₂ b f lead low high _ hm hf hs hn hex hle hd hd8 hk
    have hneeded : b.touch.neededRows.length = n := by rw [hn, Touch.neededRows_scanning hf hs]
    have hdemand : senseDemand b.touch.neededRows (divisorNow b.table) = k := by
      rw [divisorNow_eq hex hle hd8, senseDemand_eq _ hd, hneeded, hk]
    have hplan (pl : Placement) (hpl : f.placement = pl) :
        b.sensePlanFor .centre edge slots = sensePlacement pl edge slots k := by
      rw [← hdemand, ← hpl, ← Touch.placementNow_eq hf]
      rfl
    subst hm
    exact ⟨fun hpl hlead => (hplan _ hpl).trans (leadPlacement_eq hlead),
      fun hpl hk₁ hlow hk₂ hhigh => (hplan _ hpl).trans (splitPlacement_eq hk₁ hlow hk₂ hhigh)⟩
  · have hnone := Touch.neededRows_none h
    have hplan : b.sensePlanFor .centre edge slots = { sense := [], idle := [], guard := none, deferred := 0 } := by
      unfold Part.sensePlanFor
      rw [hnone]
      exact sensePlacement_zero _ edge slots
    rw [hplan]
    exact ⟨hnone, rfl, rfl, rfl, rfl⟩
  · rw [draftOf_getElem? slots sp needed j hj, find?_zip_eq sp.sense needed j hlen]
    by_cases hsense : j ∈ sp.sense <;> simp [hsense]

end Sys2Proof.Machine

/-! # The credit of a completion (R71, R110) -/

namespace Sys2Proof.Machine
open Sys2Proof.Machine.Part

/-! ### The scope of a row group, in ascending contract number (R71) -/

/-- To compare by a number is a weak order. -/
theorem isWeakOrder_lt {α : Type} (key : α → Nat) : IsWeakOrder fun x y => decide (key x < key y) where
  asymm a b h := by
    simp only [decide_eq_true_eq, decide_eq_false_iff_not] at h ⊢
    omega
  negTrans a b c h₁ h₂ := by
    simp only [decide_eq_false_iff_not] at h₁ h₂ ⊢
    omega

/-- The contracts in scope, written in ascending number, are the list the model sorts: no two share a number. -/
theorem scopeOf_eq {g : Nat} {xs ys : List Placed} (hperm : xs.Perm (ys.filter fun y => y.band.has g))
    (hsorted : xs.Pairwise fun x y => x.handle % 64 < y.handle % 64) : scopeOf g ys = xs := by
  have hmodel : (scopeOf g ys).Perm xs := (sortBy_perm _ _).trans hperm.symm
  have hne : (scopeOf g ys).Pairwise fun x y => x.handle % 64 ≠ y.handle % 64 :=
    (hmodel.pairwise_iff fun h => Ne.symm h).2 (hsorted.imp Nat.ne_of_lt)
  have hle : (scopeOf g ys).Pairwise fun x y => ¬y.handle % 64 < x.handle % 64 :=
    (sortBy_pairwise (isWeakOrder_lt fun x : Placed => x.handle % 64) _).imp of_decide_eq_false
  have hlt : (scopeOf g ys).Pairwise fun x y => x.handle % 64 < y.handle % 64 := hle.imp₂ (by omega) hne
  exact hmodel.eq_of_pairwise (fun _ _ _ _ h h' => absurd h' (Nat.lt_asymm h)) hlt hsorted

theorem mem_scopeOf {g : Nat} {ys : List Placed} {x : Placed} :
    x ∈ scopeOf g ys ↔ x ∈ ys ∧ x.band.has g = true := by
  rw [scopeOf, (sortBy_perm _ _).mem_iff, List.mem_filter]

/-! ### One credit (R110) -/

theorem Record.standsAs_iff (r : Record) (n : Nat) (x : Placed) :
    r.standsAs n x = true ↔ r.handle n = x.handle ∧ (r.state = .live ∨ r.state = .stale) := by
  simp [Record.standsAs]

theorem Record.standsAs_eq_false_iff (r : Record) (n : Nat) (x : Placed) :
    r.standsAs n x = false ↔ r.handle n ≠ x.handle ∨ (r.state ≠ .live ∧ r.state ≠ .stale) := by
  rw [← Bool.not_eq_true, r.standsAs_iff, not_and_or, not_or]

section
variable {b : Part} {q : Panel} {c : Completion} {x : Placed}

/-- A listed contract that no longer stands gets no credit. -/
theorem Part.creditOne_gone (hg : (b.record (x.handle % 64)).checkGood = true)
    (h : (b.record (x.handle % 64)).standsAs (x.handle % 64) x = false) : b.creditOne q c x = b := by
  unfold Part.creditOne
  dsimp only
  rw [Part.verify_good _ hg, h]
  rfl

/-- A listed contract that stands gets the credit, and is judged at once where its band is then complete. -/
theorem Part.creditOne_stands (hg : (b.record (x.handle % 64)).checkGood = true)
    (h : (b.record (x.handle % 64)).standsAs (x.handle % 64) x = true) : b.creditOne q c x =
      if (b.record (x.handle % 64)).accum.groups + 1 = x.band.size then
        (b.setRecord (x.handle % 64) ((b.record (x.handle % 64)).credit c.sig)).judgeRefresh q (x.handle % 64) x.kind
          c.rowGroup
      else b.setRecord (x.handle % 64) ((b.record (x.handle % 64)).credit c.sig) := by
  have hin : x.handle % 64 < b.table.length := by
    refine Part.record_in_table fun hfree => ?_
    simpa [hfree] using Record.standsAs_state h
  unfold Part.creditOne
  dsimp only
  rw [Part.verify_good _ hg, if_pos h, Part.setRecord_record _ _ _ _ hin, if_pos rfl]
  rfl

/-! ### The oldest completion (R110) -/

/-- Credits take nothing off the queues. -/
theorem Part.foldl_creditOne_credit (xs : List Placed) (p : Panel) :
    (xs.foldl (fun b x => b.creditOne q c x) b).credit p = b.credit p :=
  congrArg (fun k => k.get p) (Quiet.foldl (fun b x => b.creditOne_quiet q c x) xs b).credits

theorem Part.creditOldest_nil (h : (b.credit q).completions = []) : b.creditOldest q = b := by
  unfold Part.creditOldest
  rw [h]

/-- The oldest completion is credited to the contracts in its scope, and leaves its queue. -/
theorem Part.creditOldest_cons {cs : List Completion} (h : (b.credit q).completions = c :: cs) :
    b.creditOldest q = ((scopeOf c.rowGroup (b.creditList q)).foldl (fun b x => b.creditOne q c x) b).modCredit q
      fun k => { completions := cs, keptPlaced := if cs = [] then none else k.keptPlaced } := by
  rw [← Part.modCredit_pop _ q c cs (by rw [Part.foldl_creditOne_credit, h])]
  unfold Part.creditOldest
  rw [h]

/-- Where no contract in scope stands, the credits leave the part as it is. -/
theorem Part.foldl_creditOne_gone {xs : List Placed}
    (hgone : ∀ x ∈ xs, (b.record (x.handle % 64)).checkGood = true ∧
      (b.record (x.handle % 64)).standsAs (x.handle % 64) x = false) :
    xs.foldl (fun b x => b.creditOne q c x) b = b := by
  refine List.foldlRecOn (motive := fun b' => b' = b) xs _ rfl fun b' hb x hx => ?_
  subst hb
  obtain ⟨hgood, hstands⟩ := hgone x hx
  exact Part.creditOne_gone hgood hstands

end

theorem exec_completionCredit (q : Panel) (s : State) :
    exec (.completionCredit q) s = .next { s with part := s.fresh.creditOldest q } := rfl

/-- Settles O39: the model's sorted scope is the ascending list, and each credit is the one lemma of a single credit. -/
theorem completionCredited : Obligations.CompletionCredited := by
  unfold Obligations.CompletionCredited
  intro q s
  rw [exec_completionCredit]
  refine ⟨fun hnone => ?_, fun c cs xs hc hperm hsorted => ?_, ?_, fun c cs hc => ⟨?_, fun hgone => ?_⟩⟩
  · rw [Part.creditOldest_nil (b := s.fresh) hnone]
  · rw [Part.creditOldest_cons (b := s.fresh) hc, scopeOf_eq (ys := s.fresh.creditList q) hperm hsorted]
  · rintro b c x n r r₁ rfl rfl hgood rfl
    exact ⟨fun h => Part.creditOne_gone hgood ((Record.standsAs_eq_false_iff _ _ _).2 h),
      fun hbears hstate => Part.creditOne_stands hgood ((Record.standsAs_iff _ _ _).2 ⟨hbears, hstate⟩)⟩
  · rintro x n r hone rfl rfl hgood hbears hstate hshort
    have hcredit := (Part.creditOne_stands (b := s.fresh) (q := q) (c := c) hgood
      ((Record.standsAs_iff _ _ _).2 ⟨hbears, hstate⟩)).trans (if_neg hshort)
    rw [Part.creditOldest_cons (b := s.fresh) hc, scopeOf_eq (ys := s.fresh.creditList q) (xs := [x])
      (.of_eq hone.symm) (List.pairwise_singleton _ _), List.foldl_cons, List.foldl_nil, hcredit]
    rfl
  · rw [Part.creditOldest_cons (b := s.fresh) hc, Part.foldl_creditOne_gone fun x hx => ?_]
    obtain ⟨hlisted, hscope⟩ := mem_scopeOf.1 hx
    obtain ⟨hgood, hnot⟩ := hgone x hlisted hscope
    exact ⟨hgood, (Record.standsAs_eq_false_iff _ _ _).2 hnot⟩

end Sys2Proof.Machine

/-! # The panel link: timeouts, DONE and FAULT (R93, R94, R96, R97, R99) -/

namespace Sys2Proof.Machine
open Sys2Proof.Machine.Part

/-! ### The list of orders in flight (R93, R96) -/

section
variable {l : Link} {o : Order} {before after rest : List Order} {j : Nat}

/-- Only what a change makes of the link it meets counts. -/
theorem Part.modLink_congr {b : Part} {q : Panel} {f g : Link → Link} (h : f (b.link q) = g (b.link q)) :
    b.modLink q f = b.modLink q g := congrArg (fun l => { b with links := b.links.set q l }) h

/-- A count no greater than its bound rises by one, to the bound at most (section 0.7). -/
theorem satInc_eq_min {m n : Nat} (h : n ≤ m) : satInc m n = min m (n + 1) := by
  unfold satInc
  split <;> omega

theorem Link.overdue_cons (h : l.orders = o :: rest) (ho : o.slot < j) (hrest : ∀ x ∈ rest, j ≤ x.slot) :
    l.overdue j = [o] := by
  have hnone : rest.filter (fun x => decide (x.slot < j)) = [] :=
    List.filter_eq_nil_iff.2 fun x hx => by simpa using hrest x hx
  rw [Link.overdue, h, List.filter_cons_of_pos (by simpa using ho), hnone]

theorem Link.timeOut_cons (h : l.orders = o :: rest) (hcount : l.timeouts ≤ 3) :
    l.timeOut o = { orders := rest, timeouts := min 3 (l.timeouts + 1) } := by
  rw [Link.timeOut, h, List.erase_cons_head, satInc_eq_min hcount]

/-- Of equal orders the first leaves the list: none stands before it. -/
theorem Link.complete_append (h : l.orders = before ++ o :: after) (ho : o ∉ before) :
    l.complete o = { orders := before ++ after, timeouts := 0 } := by
  rw [Link.complete, h, List.erase_append_right _ ho, List.erase_cons_head]

end

/-! ### The timeout of the oldest order (R96, R97) -/

section
variable {b : Part} {q : Panel} {o : Order} {rest : List Order} {j : Nat}

/-- Where the oldest order alone is overdue, ORDER_TIMEOUT is its timeout. -/
theorem Part.orderTimeout_one (hs : (b.engine q).state = .running) (hj : (b.engine q).slot = some j)
    (h : (b.link q).overdue j = [o]) : b.orderTimeout q = b.timeoutOrder q o := by
  unfold Part.orderTimeout
  rw [if_pos hs, Part.linkEndOfSlot, hj]
  dsimp only
  rw [h, List.foldl_cons, List.foldl_nil]

/-- The timeout of the oldest order, its link's next value written out. -/
theorem Part.timeoutOrder_oldest {pl : Plan} (hp : (b.engine q).plan = some pl)
    (h : (b.link q).orders = o :: rest) (hcount : (b.link q).timeouts ≤ 3) : b.timeoutOrder q o =
      (((b.modLink q fun l => { orders := rest, timeouts := min 3 (l.timeouts + 1) }).setOutcome q o.slot .timedOut).claim
        (Bank.ofPanel q) (timeoutClaim q (pl.causeHandle o.slot) o)).claimLoss q o (b.link q).timeouts := by
  rw [← Part.modLink_congr (f := Link.timeOut o) (Link.timeOut_cons h hcount)]
  unfold Part.timeoutOrder
  rw [hp]
  rfl

end

/-- Settles O36: the oldest order alone is overdue, and the boundary's timeouts are its one timeout. -/
theorem orderTimesOut : Obligations.OrderTimesOut := by
  unfold Obligations.OrderTimesOut
  rintro q s j o rest pl _ hs hj hp horders ho hrest rfl hcount
  have hone : s.fresh.orderTimeout q = s.fresh.timeoutOrder q o :=
    Part.orderTimeout_one (b := s.fresh) hs hj (Link.overdue_cons horders ho hrest)
  rw [exec_orderTimeout, hone, Part.timeoutOrder_oldest (b := s.fresh) hp horders hcount]
  rfl

/-! ### DONE (R93, R94) -/

theorem exec_done (q : Panel) (g : Nat) (sig : Signature) (s : State) :
    exec (.done q g sig) s = .next { s with part := s.fresh.takeDone q g sig } := rfl

section
variable {b : Part} {q : Panel} {g : Nat} {sig : Signature} {o : Order} {before after : List Order}

/-- A DONE matches the first order of its row group. -/
theorem Part.matchDone_first (hs : (b.engine q).state = .running) (h : (b.link q).orders = before ++ o :: after)
    (ho : o.rowGroup = g) (hbefore : ∀ x ∈ before, x.rowGroup ≠ g) : b.matchDone q g = some o := by
  have hnone : before.find? (fun x => x.rowGroup == g) = none :=
    List.find?_eq_none.2 fun x hx => by simpa using hbefore x hx
  rw [Part.matchDone, if_pos hs, h, List.find?_append, hnone, Option.none_or,
    List.find?_cons_of_pos (by simpa using ho)]

theorem Part.matchDone_none (h : (b.engine q).state ≠ .running ∨ ∀ o ∈ (b.link q).orders, o.rowGroup ≠ g) :
    b.matchDone q g = none := by
  unfold Part.matchDone
  split
  · rename_i hs
    have hnone := h.resolve_left (not_not_intro hs)
    exact List.find?_eq_none.2 fun x hx => by simpa using hnone x hx
  · rfl

theorem Part.takeDone_match (h : b.matchDone q g = some o) : b.takeDone q g sig = b.completeOrder q o sig := by
  rw [Part.takeDone, h]

theorem Part.takeDone_discarded (h : b.matchDone q g = none) : b.takeDone q g sig = b := by
  rw [Part.takeDone, h]

/-- An order completed, its link's next value written out. -/
theorem Part.completeOrder_first (h : (b.link q).orders = before ++ o :: after) (ho : o ∉ before) :
    b.completeOrder q o sig = ((b.modLink q fun _ => { orders := before ++ after, timeouts := 0 }).setOutcome q o.slot
      .done).modCredit q (CreditQueue.push o sig) := by
  rw [Part.completeOrder, Part.modLink_congr (g := fun _ => { orders := before ++ after, timeouts := 0 })
    (Link.complete_append h ho)]

end

/-- Settles O37: the order matched is the first of its row group, so it is also the one that leaves the list. -/
theorem doneCompletesOrDiscards : Obligations.DoneCompletesOrDiscards := by
  unfold Obligations.DoneCompletesOrDiscards
  intro q g sig s
  refine ⟨fun o before after hs horders ho hbefore => ?_, fun hnone => ?_⟩
  · have hmatch : s.fresh.matchDone q g = some o := Part.matchDone_first (b := s.fresh) hs horders ho hbefore
    have hnot : o ∉ before := fun hin => hbefore o hin ho
    rw [exec_done, Part.takeDone_match hmatch, Part.completeOrder_first (b := s.fresh) horders hnot, ← ho]
    rfl
  · rw [exec_done, Part.takeDone_discarded (Part.matchDone_none (b := s.fresh) hnone)]

/-! ### The CRITICAL notice of a claim (R172) -/

section
variable (x : ClientPort) (c : Bool)

@[simp] theorem ClientPort.raiseIf_threshold_critical (k : Bank) :
    (x.raiseIf c (.threshold k)).noticeSet.critical = x.noticeSet.critical := by cases c <;> rfl

@[simp] theorem ClientPort.raiseIf_fault_critical (k : Bank) :
    (x.raiseIf c (.fault k)).noticeSet.critical = x.noticeSet.critical := by cases c <;> rfl

@[simp] theorem ClientPort.raiseIf_critical_critical (p : Panel) :
    (x.raiseIf c (.critical p)).noticeSet.critical =
      if c then x.noticeSet.critical ||| bitOf 2 p.num else x.noticeSet.critical := by cases c <;> rfl

end

/-- An escalated claim names in the CRITICAL notice the panels it concerns, whatever the bank takes or reports (R172). -/
theorem Claim.notify_critical {c : Claim} {injected : Bool} (he : c.escalates injected = true) (k : Bank)
    (bank : FaultBank) (takes : Bool) (x : ClientPort) :
    (c.notify k bank takes injected x).noticeSet.critical =
      x.noticeSet.critical ||| (if c.concerns .cluster then bitOf 2 Panel.cluster.num else 0) |||
        (if c.concerns .centre then bitOf 2 Panel.centre.num else 0) := by
  simp only [Claim.notify, ClientPort.raiseIf_critical_critical, ClientPort.raiseIf_fault_critical,
    ClientPort.raiseIf_threshold_critical, he, Bool.true_and]
  split <;> split <;> simp

/-- An escalated claim at a panel, below scope PART, names that panel alone in the CRITICAL notice (R173, R174). -/
theorem Claim.notify_critical_panel {c : Claim} {injected : Bool} {q : Panel} (he : c.escalates injected = true)
    (hs : c.scope ≠ .part) (hq : c.panel = some q) (k : Bank) (bank : FaultBank) (takes : Bool) (x : ClientPort) :
    (c.notify k bank takes injected x).noticeSet.critical = x.noticeSet.critical ||| bitOf 2 q.num := by
  have hconcerns (p : Panel) : c.concerns p = (q == p) := by simp [Claim.concerns, hs, hq]
  rw [Claim.notify_critical he, hconcerns, hconcerns]
  cases q <;> simp

/-! ### What a claim does to its panel's engine and its bank (R168, R170, R173) -/

section
variable (b : Part) (injected : Bool) (k : Bank) {c : Claim}

/-- An escalated claim of scope PANEL hands the panel's engine a halt and leaves the other engine (R173). -/
theorem Part.claimAs_engine_panel {q : Panel} (he : c.escalates injected = true) (hs : c.scope = .panel)
    (hq : c.panel = some q) (p : Panel) :
    (b.claimAs injected k c).engine p = if p = q then (b.engine q).handHalt else b.engine p := by
  have hengines : (b.claimAs injected k c).engines = b.engines.modify q Engine.handHalt := by
    simp only [Part.claimAs, he, if_true, escalate, hs, hq]
  rw [Part.engine, hengines, PerPanel.get_modify]
  rfl

/-- A disabled bank takes no part in a claim that is not injected (R168). -/
theorem Part.claim_faults_disabled (h : (b.bank k).enabled = false) (c : Claim) : (b.claim k c).faults = b.faults := by
  simp [Part.claim, Part.claimAs, h]

/-- An enabled bank with an empty record slot stores the claim (R170). -/
theorem Part.claim_record_empty (h : (b.bank k).enabled = true) (hnone : (b.bank k).record = none) (c : Claim) :
    ((b.claim k c).bank k).record =
      some (FaultRecord.ofClaim c (b.engine (c.panel.getD .cluster)).frame false false) := by
  have hbank : (b.claim k c).bank k = (b.bank k).take c (b.engine (c.panel.getD .cluster)).frame false := by
    rw [Part.claim, Part.claimAs_bank, if_pos (by simp [h])]
  rw [hbank, FaultBank.take_record, FaultBank.placed, hnone]

end

/-! ### FAULT (R99) -/

theorem exec_fault (q : Panel) (code : Byte) (s : State) :
    exec (.fault q code) s = .next { s with part := s.fresh.claim (Bank.ofPanel q) (panelFaultClaim q code) } := rfl

/-- Settles O38: FAULT is a genuine CRITICAL claim of scope PANEL, and each part of the state is read off the claim's
rules. -/
theorem panelFaultHandsHalt : Obligations.PanelFaultHandsHalt := by
  unfold Obligations.PanelFaultHandsHalt
  intro q code s
  have hengine := Part.claimAs_engine_panel s.fresh false (Bank.ofPanel q) (c := panelFaultClaim q code) rfl rfl rfl
  have hport := Part.claimAs_port s.fresh false (Bank.ofPanel q) (panelFaultClaim q code)
  refine ⟨_, exec_fault q code s, rfl, rfl, (hengine q).trans (if_pos rfl), fun p hp => (hengine p).trans (if_neg hp), ?_,
    fun p hp => (hport p).trans (if_neg hp), Part.claim_table _ _ _, Part.claim_links _ _ _, Part.claim_touch _ _ _,
    fun hoff => Part.claim_faults_disabled s.fresh _ hoff _,
    fun hon hnone => Part.claim_record_empty s.fresh _ hon hnone _⟩
  · have hsafety := (hport s.part.strap).trans (if_pos rfl)
    exact (congrArg (fun x => x.noticeSet.critical) hsafety).trans
      (Claim.notify_critical_panel rfl (by simp [panelFaultClaim]) rfl _ _ _ _)

end Sys2Proof.Machine

/-! # UPDATE and the breach of a turn (R105, R122 to R125) -/

namespace Sys2Proof.Machine
open Sys2Proof.Machine.Part

/-! ### The bytes of an UPDATE (R105, R196) -/

section
variable {hh hl th tl flags b3 b2 b1 b0 : Byte}

/-- A flags byte with an unnamed bit set is refused (R196). -/
theorem updateArgs_eq_none (h : 2 ≤ flags.toNat) : updateArgs [hh, hl, th, tl, flags, b3, b2, b1, b0] = none :=
  if_neg (Nat.not_lt.2 h)

theorem be32_eq (a b c d : Byte) :
    be32 a b c d = a.toNat * 16777216 + b.toNat * 65536 + c.toNat * 256 + d.toNat := by
  unfold be32
  omega

/-- Where no other bit is set, bit 0 of a byte is the byte's value. -/
theorem getLsbD_zero_iff_of_lt_two (h : flags.toNat < 2) : flags.getLsbD 0 = true ↔ flags.toNat = 1 := by
  rw [BitVec.getLsbD, Nat.testBit_zero, decide_eq_true_eq, Nat.mod_eq_of_lt h]

/-- The tag and, where its flag is set, the signature, most significant byte first (R105, R195). -/
theorem updateArgs_eq_some (h : flags.toNat < 2) : updateArgs [hh, hl, th, tl, flags, b3, b2, b1, b0] =
    some (BitVec.ofNat 16 (th.toNat * 256 + tl.toNat),
      if flags.toNat = 1 then
        some (BitVec.ofNat 32 (b3.toNat * 16777216 + b2.toNat * 65536 + b1.toNat * 256 + b0.toNat))
      else none) := by
  unfold updateArgs
  simp only [if_pos h, getLsbD_zero_iff_of_lt_two h, be32_eq, be16]

end

/-! ### UPDATE by the feeder (R105) -/

section
variable {b : Part} {p : Port} {ps : List Byte} {n : Nat} {tag : Tag} {sig : Option Signature}

theorem Part.updateAt_badState (hf : (b.record n).feeder = p.bits) (hs : (b.record n).state = .retiring) :
    b.updateAt p ps n = (b, Reply.bare .badState) := by
  unfold Part.updateAt
  dsimp only
  rw [if_neg (not_not_intro hf), if_pos hs]

theorem Part.updateAt_badArg (hf : (b.record n).feeder = p.bits) (hs : (b.record n).state ≠ .retiring)
    (ha : updateArgs ps = none) : b.updateAt p ps n = (b, Reply.bare .badArg) := by
  unfold Part.updateAt
  dsimp only
  rw [if_neg (not_not_intro hf), if_neg hs, ha]

/-- A contract with signature checking takes no UPDATE without a signature (R105). -/
theorem Part.updateAt_unsigned (hf : (b.record n).feeder = p.bits) (hs : (b.record n).state ≠ .retiring)
    (ha : updateArgs ps = some (tag, sig)) (hc : (b.record n).params.checking = true) (hsig : sig = none) :
    b.updateAt p ps n = (b, Reply.bare .badArg) := by
  unfold Part.updateAt
  dsimp only
  rw [if_neg (not_not_intro hf), if_neg hs, ha]
  exact if_pos ⟨hc, hsig⟩

/-- An UPDATE taken writes the pending update, and answers whether one stood before (R105). -/
theorem Part.updateAt_taken (hf : (b.record n).feeder = p.bits) (hs : (b.record n).state ≠ .retiring)
    (ha : updateArgs ps = some (tag, sig)) (hsig : (b.record n).params.checking = true → sig ≠ none) :
    b.updateAt p ps n = (b.setRecord n ((b.record n).updated tag sig),
      { status := .ok, payload := byte1 (b.record n).pending.isSome.toNat }) := by
  unfold Part.updateAt
  dsimp only
  rw [if_neg (not_not_intro hf), if_neg hs, ha]
  exact if_neg fun h => hsig h.1 h.2

end

/-- No update pending: the new one has age 0 (R105). -/
theorem Record.updated_created {r : Record} (h : r.pending = none) (tag : Tag) (sig : Option Signature) :
    r.updated tag sig =
      { r with pending := some { tag := tag, sig := if r.params.checking then sig else none, age := 0 } } := by
  rw [Record.updated, h]
  rfl

/-- An update pending: the new one has its age (R105). -/
theorem Record.updated_replaced {r : Record} {u : PendingUpdate} (h : r.pending = some u) (tag : Tag)
    (sig : Option Signature) : r.updated tag sig =
      { r with pending := some { tag := tag, sig := if r.params.checking then sig else none, age := u.age } } := by
  rw [Record.updated, h]
  rfl

/-- Settles O22: the checks in their order, the bytes read once, and the pending update by whether one stood before. -/
theorem updateActsOnPending : Obligations.UpdateActsOnPending := by
  unfold Obligations.UpdateActsOnPending
  rintro p ps s n r h hb rfl rfl hf
  refine ⟨fun hret => ?_, fun hs => ⟨fun ha => ?_, ?_, fun tag sig ha => ⟨fun hc hsig => ?_, fun hsig => ?_⟩⟩⟩
  · exact State.take_serve_bears h hb (Part.updateAt_badState hf hret)
  · exact State.take_serve_bears h hb (Part.updateAt_badArg hf hs ha)
  · rintro hh hl th tl flags b3 b2 b1 b0 rfl
    exact ⟨fun hflags => State.take_serve_bears h hb (Part.updateAt_badArg hf hs (updateArgs_eq_none hflags)),
      updateArgs_eq_some⟩
  · exact State.take_serve_bears h hb (Part.updateAt_unsigned hf hs ha hc hsig)
  · have htaken := State.take_serve_bears h hb (Part.updateAt_taken hf hs ha hsig)
    refine ⟨fun hnone => ?_, fun u hsome => ?_⟩
    · rw [Record.updated_created (r := s.fresh.record _) hnone, State.fresh_record, hnone] at htaken
      exact htaken
    · rw [Record.updated_replaced (r := s.fresh.record _) hsome, State.fresh_record, hsome] at htaken
      exact htaken

/-! ### The bounds of a contract (R122, R125) -/

section
variable {r : Record}

theorem Record.periodBreached_iff : r.periodBreached = true ↔ r.params.period < r.age := decide_eq_true_iff

theorem Record.latencyBreached_iff :
    r.latencyBreached = true ↔ ∃ u l, r.pending = some u ∧ r.params.latency = some l ∧ l < u.age := by
  unfold Record.latencyBreached
  cases r.pending <;> cases r.params.latency <;> simp

theorem Record.breached_iff : r.breached = true ↔ r.periodBreached = true ∨ r.latencyBreached = true :=
  Bool.or_eq_true_iff

/-- The detail of a breach: 1 period, 2 latency, 3 both (R125). -/
theorem Record.breachDetail_eq {d : Byte} (h : r.breached = true)
    (both : r.periodBreached = true → r.latencyBreached = true → d = 3)
    (period : r.periodBreached = true → ¬r.latencyBreached = true → d = 1)
    (latency : ¬r.periodBreached = true → r.latencyBreached = true → d = 2) : r.breachDetail = d := by
  unfold Record.breachDetail
  cases hp : r.periodBreached with
  | true =>
    cases hl : r.latencyBreached with
    | true => exact (both hp hl).symm
    | false => exact (period hp (by simp [hl])).symm
  | false =>
    have hl : r.latencyBreached = true := (Record.breached_iff.1 h).resolve_left (by simp [hp])
    rw [hl]
    exact (latency (by simp [hp]) hl).symm

end

/-! ### Step 6 of a turn claim (R122 to R124) -/

/-- A CONTRACT notice that no request caused goes to owner and feeder (R7). -/
theorem Part.contractNotice_none (b : Part) (n : Nat) (r : Record) :
    b.contractNotice n r none = b.raiseWhere (fun p => p.bits == r.owner || p.bits == r.feeder) (.contract n) :=
  congrArg (fun c => b.raiseWhere c (.contract n)) (funext fun _ => Bool.and_true _)

section
variable {q : Panel} {n : Nat} {b : Part}

theorem Part.breachOne_unbreached (h : ¬(b.record n).breached = true) : b.breachOne q n = b :=
  if_pos (by simpa using h)

section
variable (h : (b.record n).breached = true)
include h

/-- A TELLTALE contract in fallback stays as it is (R122). -/
theorem Part.breachOne_inFallback (hc : (b.record n).params.cls = .telltale) (hf : (b.record n).fallback = true) :
    b.breachOne q n = b := by
  unfold Part.breachOne
  dsimp only
  rw [h, if_neg (by simp), if_pos hc, if_pos hf]

/-- A TELLTALE contract not in fallback is missed (R122). -/
theorem Part.breachOne_missed (hc : (b.record n).params.cls = .telltale) (hf : (b.record n).fallback = false) :
    b.breachOne q n = ((b.setRecord n (b.record n).missed).contractNotice n (b.record n) none).claim (Bank.ofPanel q)
      (breachClaim .telltaleMiss .critical q n (b.record n) (b.record n).breachDetail) := by
  unfold Part.breachOne
  dsimp only
  rw [h, if_neg (by simp), if_pos hc, if_neg (by simp [hf])]

/-- The first breach of a contract of another class (R123). -/
theorem Part.breachOne_firstLate (hc : (b.record n).params.cls ≠ .telltale) (hl : (b.record n).lateMark = false) :
    b.breachOne q n = (b.setRecord n (b.record n).firstLate).claim (Bank.ofPanel q)
      (breachClaim .late .corrected q n (b.record n) (b.record n).breachDetail) := by
  unfold Part.breachOne
  dsimp only
  rw [h, if_neg (by simp), if_neg hc, if_pos (by simp [hl])]

/-- A continuing breach beyond the panel's grace makes a LIVE contract STALE (R124). -/
theorem Part.breachOne_beyondGrace (hc : (b.record n).params.cls ≠ .telltale) (hl : (b.record n).lateMark = true)
    (hs : (b.record n).state = .live) (hg : (b.engine q).cfg.grace < (b.record n).stillLate.lateFrames) :
    b.breachOne q n =
      ((b.setRecord n { (b.record n).stillLate with state := .stale }).contractNotice n (b.record n) none).claim
        (Bank.ofPanel q) (breachClaim .staleContract .contained q n (b.record n)
          (BitVec.ofNat 8 (b.record n).stillLate.lateFrames)) := by
  unfold Part.breachOne
  dsimp only
  rw [h, if_neg (by simp), if_neg hc, if_neg (by simp [hl]), if_pos ⟨hs, hg⟩]

/-- Any other continuing breach counts one late frame more (R124). -/
theorem Part.breachOne_stillLate (hc : (b.record n).params.cls ≠ .telltale) (hl : (b.record n).lateMark = true)
    (hs : ¬((b.record n).state = .live ∧ (b.engine q).cfg.grace < (b.record n).stillLate.lateFrames)) :
    b.breachOne q n = b.setRecord n (b.record n).stillLate := by
  unfold Part.breachOne
  dsimp only
  rw [h, if_neg (by simp), if_neg hc, if_neg (by simp [hl]), if_neg hs]

end
end

/-- Settles O32: one lemma on the check of a record for each class and mark, its claim with the detail of the bounds. -/
theorem breachActsByClass : Obligations.BreachActsByClass := by
  unfold Obligations.BreachActsByClass
  rintro q n b r period latency rfl hperiod hlatency
  rw [← Record.periodBreached_iff] at hperiod
  rw [← Record.latencyBreached_iff] at hlatency
  rw [hperiod, hlatency, ← Record.breached_iff]
  refine ⟨Part.breachOne_unbreached, fun d h both onlyPeriod onlyLatency =>
    ⟨Part.breachOne_inFallback h, fun hc hf => ?_, fun hc hl => ?_, ?_⟩⟩
  · rw [Part.breachOne_missed h hc hf, Part.contractNotice_none, Record.breachDetail_eq h both onlyPeriod onlyLatency]
    rfl
  · rw [Part.breachOne_firstLate h hc hl, Record.breachDetail_eq h both onlyPeriod onlyLatency]
    rfl
  · rintro _ hc hl rfl
    refine ⟨fun hs hg => ?_, fun hs => ?_⟩
    · rw [Part.breachOne_beyondGrace h hc hl hs hg, Part.contractNotice_none]
      rfl
    · exact Part.breachOne_stillLate h hc hl hs

end Sys2Proof.Machine

/-! # The judgement of a completed refresh (R111 to R120) -/

namespace Sys2Proof.Machine
open Sys2Proof.Machine.Part

/-! ### The verdict on a refresh (R112 to R115, R118) -/

section
variable {r : Record} {t : Tag} {u : PendingUpdate}

theorem Record.judge_plain (hc : r.params.checking = false) (hp : r.pending = none) : r.judge .drive = .plain := by
  simp [Record.judge, hc, hp]

theorem Record.judge_unchecked (hc : r.params.checking = false) (hp : r.pending = some u) :
    r.judge .drive = .served u.tag := by
  simp [Record.judge, hc, hp]

section
variable (hc : r.params.checking = true)
include hc

section
variable (he : r.accum.expected = some r.accum.sum)
include he

/-- The captured update is still the pending one: it is served (R113). -/
theorem Record.judge_captured (ht : r.accum.tag = some u.tag) (hp : r.pending = some u)
    (hs : u.sig = some r.accum.sum) : r.judge .drive = .served u.tag := by
  simp [Record.judge, hc, he, ht, hp, hs, capturedStillPending]

/-- The captured update is on the glass, and another or none is pending (R113). -/
theorem Record.judge_newer (ht : r.accum.tag = some t)
    (hp : ∀ u, r.pending = some u → u.tag ≠ t ∨ u.sig ≠ some r.accum.sum) : r.judge .drive = .newer t := by
  have hstill : capturedStillPending r.pending t r.accum.sum = false := by
    cases hu : r.pending with
    | none => rfl
    | some u =>
      have hdiffer : ¬(u.tag = t ∧ u.sig = some r.accum.sum) := not_and_or.2 (hp u hu)
      simpa [capturedStillPending] using hdiffer
  simp [Record.judge, hc, he, ht, hstill]

/-- Nothing was captured: the confirmed content again (R113). -/
theorem Record.judge_unchanged (ht : r.accum.tag = none) : r.judge .drive = .unchanged := by
  simp [Record.judge, hc, he, ht]

end

section
variable (he : r.accum.expected ≠ some r.accum.sum)
include he

/-- A sum that does not show what was captured is looked at again (R114). -/
theorem Record.judge_secondLook : r.judge .drive = r.secondLook := by
  simp [Record.judge, hc, he]

/-- Newer content already drawn (R114). -/
theorem Record.judge_drawn (hp : r.pending = some u) (hs : u.sig = some r.accum.sum) :
    r.judge .drive = .served u.tag := by
  rw [Record.judge_secondLook hc he]
  simp [Record.secondLook, hp, hs]

/-- First sight of the content (R114). -/
theorem Record.judge_firstSight (hp : r.pending = none) (hf : r.confirmed = none) : r.judge .drive = .firstSight := by
  rw [Record.judge_secondLook hc he]
  simp [Record.secondLook, hp, hf]

theorem Record.judge_mismatch (hp : ∀ u, r.pending = some u → u.sig ≠ some r.accum.sum)
    (hf : r.pending = none → r.confirmed ≠ none) : r.judge .drive = .mismatch := by
  rw [Record.judge_secondLook hc he]
  unfold Record.secondLook
  split
  · rename_i u hu
    exact if_neg (hp u hu)
  · rename_i hnone
    exact if_neg (hf hnone)

end
end

/-! ### What a verdict makes of a record (R111, R119) -/

section
variable {v : Verdict} (hs : r.state = .live ∨ r.state = .stale) (frame : FrameNo)
include hs

/-- A refresh of no known content leaves a contract in fallback STALE (R111). -/
theorem Record.credited_base (hv : r.leavesFallback v = false) : r.credited v frame =
    { r with
      age := 0, lastRefresh := some frame, lateMark := false, lateFrames := 0
      state := if r.state = .stale ∧ r.fallback = true then .stale else .live } := by
  rcases hs with hs | hs
  · simp [Record.credited, hv, hs]
  · cases hf : r.fallback <;> simp [Record.credited, hv, hs, hf]

/-- A refresh of known content makes a contract LIVE and ends fallback (R111, R119). -/
theorem Record.credited_known (hv : r.leavesFallback v = true) : r.credited v frame =
    { r with
      age := 0, lastRefresh := some frame, lateMark := false, lateFrames := 0, state := .live, fallback := false } := by
  rcases hs with hs | hs
  · simp [Record.credited, hv, hs]
  · simp [Record.credited, hv, hs]

/-- An update served without checking shows no known content (R112, R119). -/
theorem Record.applyVerdict_served_unchecked (hc : r.params.checking = false) : r.applyVerdict (.served t) frame =
    { r with
      age := 0, lastRefresh := some frame, lateMark := false, lateFrames := 0
      state := if r.state = .stale ∧ r.fallback = true then .stale else .live
      pending := none, lastServed := some t } := by
  unfold Record.applyVerdict
  rw [Record.credited_base (v := .served t) hs frame hc, hc]
  rfl

/-- An update served with checking is known content, and the sum its reference (R113, R114). -/
theorem Record.applyVerdict_served_checked (hc : r.params.checking = true) : r.applyVerdict (.served t) frame =
    { r with
      age := 0, lastRefresh := some frame, lateMark := false, lateFrames := 0, state := .live, fallback := false
      pending := none, lastServed := some t, confirmed := some r.accum.sum } := by
  unfold Record.applyVerdict
  rw [Record.credited_known (v := .served t) hs frame hc, hc]
  rfl

/-- A captured update on the glass while another waits is known content too (R113). -/
theorem Record.applyVerdict_newer (hc : r.params.checking = true) : r.applyVerdict (.newer t) frame =
    { r with
      age := 0, lastRefresh := some frame, lateMark := false, lateFrames := 0, state := .live, fallback := false
      lastServed := some t, confirmed := some r.accum.sum } := by
  unfold Record.applyVerdict
  rw [Record.credited_known (v := .newer t) hs frame hc]

/-- First sight makes the sum the reference and ends no fallback (R114, R119). -/
theorem Record.applyVerdict_firstSight : r.applyVerdict .firstSight frame =
    { r with
      age := 0, lastRefresh := some frame, lateMark := false, lateFrames := 0
      state := if r.state = .stale ∧ r.fallback = true then .stale else .live, confirmed := some r.accum.sum } := by
  unfold Record.applyVerdict
  rw [Record.credited_base hs frame rfl]

/-- A mismatched refresh leaves a contract STALE, a TELLTALE one in fallback (R115). -/
theorem Record.applyVerdict_mismatch : r.applyVerdict .mismatch frame =
    { r with state := .stale, fallback := r.fallback || r.params.cls == .telltale } := by
  rcases hs with hs | hs
  · simp [Record.applyVerdict, hs]
  · simp [Record.applyVerdict, hs]

end

/-- A verdict writes neither the handle's generation nor the ports of a contract. -/
theorem Record.applyVerdict_identity (r : Record) (v : Verdict) (frame : FrameNo) :
    (r.applyVerdict v frame).generation = r.generation ∧ (r.applyVerdict v frame).owner = r.owner ∧
      (r.applyVerdict v frame).feeder = r.feeder := by
  cases v <;> exact ⟨rfl, rfl, rfl⟩
end

/-! ### A CONTRACT notice raised once more (R189) -/

theorem ClientPort.raise_contract_twice (x : ClientPort) (n : Nat) :
    (x.raise (.contract n)).raise (.contract n) = x.raise (.contract n) := by
  simp [ClientPort.raise, NoticeSet.add, BitVec.or_assoc]

section
variable (b : Part) (n : Nat)

/-- A notice at more ports makes the same notice at some of them of no account. -/
theorem Part.raiseWhere_contract_absorb {c c' : Port → Bool} (h : ∀ p, c p = true → c' p = true) :
    (b.raiseWhere c (.contract n)).raiseWhere c' (.contract n) = b.raiseWhere c' (.contract n) := by
  have hport (p : Port) (x : ClientPort) :
      (x.raiseIf (c p) (.contract n)).raiseIf (c' p) (.contract n) = x.raiseIf (c' p) (.contract n) := by
    cases hc : c p with
    | false => rfl
    | true =>
      rw [h p hc]
      exact x.raise_contract_twice n
  simp [Part.raiseWhere, PerPort.mapEach, hport]

theorem Part.contractNoticeIf_none (c : Bool) (r : Record) : b.contractNoticeIf c n r none =
    b.raiseWhere (fun p => (p.bits == r.owner || p.bits == r.feeder) && c) (.contract n) := by
  cases c with
  | false => exact (b.raiseWhere_none _ _ fun p => Bool.and_false _).symm
  | true => rfl

end

/-- A one-shot contract ends behind a notice of its own: the end's notice takes that one in (R7, R120). -/
theorem Part.endOneShot_noticed {b : Part} {q : Panel} {n : Nat} {r : Record} {c : Port → Bool}
    (hn : n < b.table.length) (hc : ∀ p, c p = true → (p.bits == r.owner || p.bits == r.feeder) = true) :
    ((b.setRecord n r).raiseWhere c (.contract n)).endOneShot q n =
      (b.setRecord n (if (b.engine q).state = .running then r.retired else r.freed)).raiseWhere
        (fun p => p.bits == r.owner || p.bits == r.feeder) (.contract n) := by
  have again (r' : Record) : (((b.setRecord n r).raiseWhere c (.contract n)).setRecord n r').raiseWhere
      (fun p => p.bits == r.owner || p.bits == r.feeder) (.contract n) =
        (b.setRecord n r').raiseWhere (fun p => p.bits == r.owner || p.bits == r.feeder) (.contract n) := by
    rw [← Part.setRecord_setRecord b n r r']
    exact Part.raiseWhere_contract_absorb ((b.setRecord n r).setRecord n r') n hc
  unfold Part.endOneShot Part.freeContract
  dsimp only
  rw [Part.raiseWhere_record, Part.setRecord_record _ _ _ _ hn, if_pos rfl, Part.contractNotice_none,
    Part.contractNotice_none, Part.raiseWhere_engine, Part.setRecord_engine]
  split
  · exact again _
  · exact again _

/-! ### A judged record (R111 to R120) -/

section
variable {b : Part} {q : Panel} {n : Nat} {kind : OrderKind} {g : Nat} {r : Record}
  (hn : n < b.table.length) (hg : r.checkGood = true)
include hn hg

/-- A good record just written reads as it was written. -/
theorem Part.setRecord_record_good : (b.setRecord n r).record n = r := by
  rw [Part.setRecord_record _ _ _ _ hn, if_pos rfl, ← hg]

/-- The effects of a verdict on a record, its notice written out (R7, R111). -/
theorem Part.setRecord_recordVerdict (v : Verdict) : (b.setRecord n r).recordVerdict q n v =
    (b.setRecord n (r.applyVerdict v (b.engine q).frame)).raiseWhere
      (fun p => (p.bits == r.owner || p.bits == r.feeder) &&
        (r.applyVerdict v (b.engine q).frame).state != r.state) (.contract n) := by
  unfold Part.recordVerdict
  dsimp only
  rw [Part.setRecord_record_good hn hg, Part.setRecord_setRecord, Part.contractNoticeIf_none]
  rfl

/-- A mismatch is claimed behind the record's effects (R115). -/
theorem Part.judgeRefresh_mismatch (hv : r.judge kind = .mismatch) : (b.setRecord n r).judgeRefresh q n kind g =
    ((b.setRecord n r).recordVerdict q n .mismatch).claim (Bank.ofPanel q) (mismatchClaim q n r g) := by
  unfold Part.judgeRefresh
  dsimp only
  rw [Part.setRecord_record_good hn hg, hv, if_pos rfl]

section
variable {v : Verdict} (hv : r.judge kind = v) (hcredited : v ≠ .mismatch)
include hv hcredited

/-- A credited refresh that ends no contract has the record's effects alone (R111). -/
theorem Part.judgeRefresh_credited (hend : v.serves = false ∨ r.params.oneShot = false) :
    (b.setRecord n r).judgeRefresh q n kind g = (b.setRecord n r).recordVerdict q n v := by
  have hend : ¬(v.serves && r.params.oneShot) = true := by
    rcases hend with hend | hend <;> simp [hend]
  unfold Part.judgeRefresh
  dsimp only
  rw [Part.setRecord_record_good hn hg, hv, if_neg hcredited, if_neg hend]

section
variable (hserves : v.serves = true) (hone : r.params.oneShot = true)
include hserves hone

/-- A one-shot contract whose update was served ends: RETIRING on a RUNNING panel, FREE on a stopped one (R120). -/
theorem Part.judgeRefresh_ends : (b.setRecord n r).judgeRefresh q n kind g =
    (b.setRecord n (if (b.engine q).state = .running then (r.applyVerdict v (b.engine q).frame).retired
      else r.freed)).raiseWhere (fun p => p.bits == r.owner || p.bits == r.feeder) (.contract n) := by
  have hend : (v.serves && r.params.oneShot) = true := by simp [hserves, hone]
  obtain ⟨hgeneration, howner, hfeeder⟩ := r.applyVerdict_identity v (b.engine q).frame
  have hnotice := Part.endOneShot_noticed (q := q) hn (r := r.applyVerdict v (b.engine q).frame)
    (c := fun p => (p.bits == r.owner || p.bits == r.feeder) &&
      (r.applyVerdict v (b.engine q).frame).state != r.state)
    (by rw [howner, hfeeder]; exact fun p h => (Bool.and_eq_true_iff.1 h).1)
  unfold Part.judgeRefresh
  dsimp only
  rw [Part.setRecord_record_good hn hg, hv, if_neg hcredited, if_pos hend, Part.setRecord_recordVerdict hn hg, hnotice,
    howner, hfeeder, Record.freed, hgeneration]
  rfl

end
end
end

/-! ### The completion of a band (R110) -/

/-- Only what a change makes of the queue it meets counts. -/
theorem Part.modCredit_congr {b : Part} {q : Panel} {f g : CreditQueue → CreditQueue}
    (h : f (b.credit q) = g (b.credit q)) : b.modCredit q f = b.modCredit q g := congrArg (fun k => { b with credits := b.credits.set q k }) h

/-- The credit that completes the band of the one contract in scope judges its refresh (R110, R111). -/
theorem Part.creditOldest_completes {b : Part} {q : Panel} {c : Completion} {cs : List Completion} {x : Placed}
    {r : Record} (hc : (b.credit q).completions = c :: cs)
    (hlisted : (b.creditList q).filter (fun y => y.band.has c.rowGroup) = [x])
    (hr : r = b.record (x.handle % 64)) (hg : r.checkGood = true) (hstands : r.standsAs (x.handle % 64) x = true)
    (hband : r.accum.groups + 1 = x.band.size) : b.creditOldest q =
      ((b.setRecord (x.handle % 64) (r.credit c.sig)).judgeRefresh q (x.handle % 64) x.kind c.rowGroup).modCredit q
        fun _ => { completions := cs, keptPlaced := if cs = [] then none else (b.credit q).keptPlaced } := by
  subst hr
  have hscope : scopeOf c.rowGroup (b.creditList q) = [x] :=
    scopeOf_eq (.of_eq hlisted.symm) (List.pairwise_singleton _ _)
  have hone : b.creditOne q c x = (b.setRecord (x.handle % 64) ((b.record (x.handle % 64)).credit c.sig)).judgeRefresh q
      (x.handle % 64) x.kind c.rowGroup := (Part.creditOne_stands hg hstands).trans (if_pos hband)
  have hqueue : (b.creditOne q c x).credit q = b.credit q := Part.foldl_creditOne_credit [x] q
  rw [Part.creditOldest_cons hc, hscope, List.foldl_cons, List.foldl_nil, ← hone]
  exact Part.modCredit_congr (by rw [hqueue])

/-- The claim of a mismatch that a credited record makes (R115). -/
theorem Record.mismatchClaim_credit {r : Record} {n h : Nat} (hbears : r.handle n = h) (q : Panel) (sig : Signature)
    (g : Nat) : mismatchClaim q n (r.credit sig) g =
      { code := .sigMismatch, cls := if r.params.cls = .telltale then .critical else .contained, scope := .contract,
        panel := some q, handle := some h, detail := BitVec.ofNat 8 g } := by
  subst hbears
  rfl

/-- Settles O40: each case of the judgement names its verdict and what that leaves of the record; the notice, the end of
a one-shot contract and the claim are the judgement's own. -/
theorem completeRefreshJudged : Obligations.CompleteRefreshJudged := by
  unfold Obligations.CompleteRefreshJudged
  rintro q s c cs x _ r _ _ hc hlisted rfl hr _ hgood hbears hstate hband rfl rfl
  have hn : x.handle % 64 < s.fresh.table.length :=
    Part.record_in_table (b := s.fresh) (by rcases hstate with hs | hs <;> simp [← hr, hs])
  have hg : (r.credit c.sig).checkGood = true := hgood
  have hs : (r.credit c.sig).state = .live ∨ (r.credit c.sig).state = .stale := hstate
  rw [exec_completionCredit, Part.creditOldest_completes (b := s.fresh) hc hlisted hr hgood
    ((Record.standsAs_iff _ _ _).2 ⟨hbears, hstate⟩) hband]
  refine ⟨?_, fun hk hch he hp hf => ?_⟩
  · rintro base known r₂ serves rfl rfl hcase
    obtain ⟨v, hv, hcredited, rfl, rfl⟩ : ∃ v, (r.credit c.sig).judge x.kind = v ∧ v ≠ .mismatch ∧ v.serves = serves ∧
        (r.credit c.sig).applyVerdict v (s.part.engine q).frame = r₂ := by
      rcases hcase with ⟨hk, rfl, rfl⟩ | ⟨hk, hch, hp, rfl, rfl⟩ | ⟨u, hk, hch, hp, rfl, rfl⟩ |
        ⟨u, hk, hch, he, ht, hp, hsig, rfl, rfl⟩ | ⟨t, hk, hch, he, ht, hp, rfl, rfl⟩ | ⟨hk, hch, he, ht, rfl, rfl⟩ |
        ⟨u, hk, hch, he, hp, hsig, rfl, rfl⟩ | ⟨hk, hch, he, hp, hf, rfl, rfl⟩ <;> rw [hk]
      · exact ⟨.fallbackDone, rfl, nofun, rfl, rfl⟩
      · exact ⟨.plain, Record.judge_plain hch hp, nofun, rfl, Record.credited_base hs _ rfl⟩
      · exact ⟨.served u.tag, Record.judge_unchecked hch hp, nofun, rfl, Record.applyVerdict_served_unchecked hs _ hch⟩
      · exact ⟨.served u.tag, Record.judge_captured hch he ht hp hsig, nofun, rfl,
          Record.applyVerdict_served_checked hs _ hch⟩
      · exact ⟨.newer t, Record.judge_newer hch he ht hp, nofun, rfl, Record.applyVerdict_newer hs _ hch⟩
      · exact ⟨.unchanged, Record.judge_unchanged hch he ht, nofun, rfl, Record.credited_known hs _ hch⟩
      · exact ⟨.served u.tag, Record.judge_drawn hch he hp hsig, nofun, rfl, Record.applyVerdict_served_checked hs _ hch⟩
      · exact ⟨.firstSight, Record.judge_firstSight hch he hp hf, nofun, rfl, Record.applyVerdict_firstSight hs _⟩
    refine ⟨fun hend => ?_, fun hserves hone hrun => ?_, fun hserves hone hstop => ?_⟩
    · rw [Part.judgeRefresh_credited hn hg hv hcredited hend, Part.setRecord_recordVerdict hn hg]
      rfl
    · rw [Part.judgeRefresh_ends hn hg hv hcredited hserves hone, State.fresh_engine, if_pos hrun]
      rfl
    · rw [Part.judgeRefresh_ends hn hg hv hcredited hserves hone, State.fresh_engine, if_neg hstop]
      rfl
  · have hv : (r.credit c.sig).judge x.kind = .mismatch := by
      rw [hk]
      exact Record.judge_mismatch hch he hp hf
    have hchange : (ContractState.stale != r.state) = (r.state == .live) := by
      rcases hstate with hs | hs <;> rw [hs] <;> rfl
    rw [Part.judgeRefresh_mismatch hn hg hv, Part.setRecord_recordVerdict hn hg, Record.applyVerdict_mismatch hs,
      Record.mismatchClaim_credit hbears, ← hchange]
    rfl

end Sys2Proof.Machine

/-! # The scan set and the touch requests (R129, R130, R132, R141, R142, R161) -/

namespace Sys2Proof.Machine

/-! ### The scan set of a table (R129) -/

theorem bitsToNat_testBit (bs : List Bool) : ∀ t, (bitsToNat bs).testBit t = bs.getD t false := by
  induction bs with
  | nil => simp [bitsToNat]
  | cons x xs ih =>
    intro t
    cases t with
    | zero => cases x <;> simp [bitsToNat, Nat.testBit_zero]
    | succ t =>
      have hhalf : (x.toNat + 2 * bitsToNat xs) / 2 = bitsToNat xs := by
        have := x.toNat_lt
        omega
      rw [bitsToNat, Nat.testBit_succ, hhalf, ih, List.getD_cons_succ]

theorem Band.onRow_iff (d : Band) (t : Nat) : d.onRow t = true ↔ d.first ≤ 10 * t + 9 ∧ 10 * t ≤ d.last := by
  simp [Band.onRow, Band.meets]

/-- A row is in the scan set where the band of a scanned zone shares a row group with it (R129). -/
theorem scanSetOf_getLsbD (table : List Record) {t : Nat} (ht : t < 15) :
    (scanSetOf table).getLsbD t = true ↔ ∃ r ∈ table, r.panel = .centre ∧ (r.state = .live ∨ r.state = .stale) ∧
      r.params.zone ≠ none ∧ r.params.band.first ≤ 10 * t + 9 ∧ 10 * t ≤ r.params.band.last := by
  have hbit : (scanSetOf table).getLsbD t = table.any fun r => r.scans && r.params.band.onRow t := by
    rw [scanSetOf, BitVec.getLsbD_ofNat, bitsToNat_testBit]
    simp [transmitRowNumbers, ht]
  simp only [hbit, List.any_eq_true, Bool.and_eq_true, Record.scans_iff, Band.onRow_iff, Option.ne_none_iff_exists',
    and_assoc]

/-! ### The scan set taken (R130) -/

/-- The calibrated marks left by a change of the scan set: those of rows that neither enter nor leave it (R130). -/
def Touch.marksUnder (new : RowSet) (t : Touch) : RowSet := t.calibrated &&& ~~~(t.scanSet ^^^ new)

theorem Touch.marksUnder_getLsbD (new : RowSet) (t : Touch) {i : Nat} (hi : i < 15) :
    (t.marksUnder new).getLsbD i = (t.calibrated.getLsbD i && (t.scanSet.getLsbD i == new.getLsbD i)) := by
  simp only [Touch.marksUnder, BitVec.getLsbD_and, BitVec.getLsbD_not, BitVec.getLsbD_xor, hi, decide_true,
    Bool.true_and]
  cases t.scanSet.getLsbD i <;> cases new.getLsbD i <;> rfl

theorem Touch.takeScanSet_empty {new : RowSet} {t : Touch} (h : new = 0) : t.takeScanSet new =
    { t with
      scanSet := new, calibrated := t.marksUnder new, state := .idle, frame := none, burst := t.loseBurst } :=
  if_pos h

theorem Touch.takeScanSet_unchanged {new : RowSet} {t : Touch} (h : new ≠ 0) (hs : t.state = .scanning)
    (hnew : new = t.scanSet) : t.takeScanSet new = { t with calibrated := t.marksUnder new } := by
  subst hnew
  exact (if_neg h).trans (if_pos ⟨hs, rfl⟩)

theorem Touch.takeScanSet_started {new : RowSet} {t : Touch} (h : new ≠ 0)
    (hgo : ¬(t.state = .scanning ∧ new = t.scanSet)) : t.takeScanSet new =
      { t with
        scanSet := new, calibrated := t.marksUnder new, state := .scanning, burst := t.loseBurst
        frame := some { rows := new, results := List.replicate 15 none, threshold := t.cfg.threshold,
                        placement := t.cfg.placement } } :=
  (if_neg h).trans (if_neg hgo)

/-- Only what a change makes of the touch sense engine it meets counts. -/
theorem Part.modTouch_congr {b : Part} {f g : Touch → Touch} (h : f b.touch = g b.touch) :
    b.modTouch f = b.modTouch g := congrArg (fun t => { b with touch := t }) h

/-- Step 3 of a centre turn on good records takes the scan set of the table (R26, R129). -/
theorem Part.rescan_centre_good {b : Part} (h : b.allGood = true) :
    b.rescan .centre = b.modTouch (Touch.takeScanSet (scanSetOf b.table)) := by
  simp only [Part.rescan, Part.recomputeScanSet, Part.compareScanSet, Part.verifyAll_good .scanSet h]

/-- Settles O33: the new scan set is that of the table, and the three outcomes are those of taking it. -/
theorem scanSetRecomputed : Obligations.ScanSetRecomputed := by
  unfold Obligations.ScanSetRecomputed
  intro b
  refine ⟨rfl, fun hgood => ⟨scanSetOf b.table, fun t ht => scanSetOf_getLsbD b.table ht,
    b.touch.marksUnder (scanSetOf b.table), fun t ht => b.touch.marksUnder_getLsbD _ ht, ?_⟩⟩
  rw [Part.rescan_centre_good hgood]
  exact ⟨fun hempty => Part.modTouch_congr (Touch.takeScanSet_empty hempty),
    fun hnew hs hsame => Part.modTouch_congr (Touch.takeScanSet_unchanged hnew hs hsame),
    fun hnew hgo => Part.modTouch_congr (Touch.takeScanSet_started hnew hgo)⟩

/-! ### TOUCH_CONFIG (R141) -/

theorem Placement.le_of_ofNat? {n : Nat} {q : Placement} (h : Placement.ofNat? n = some q) : n ≤ 1 := by
  unfold Placement.ofNat? at h
  split at h <;> simp_all

theorem Placement.ofNat?_of_le {n : Nat} (h : n ≤ 1) :
    Placement.ofNat? n = some (if n = 0 then .lead else .split) := by
  obtain rfl | rfl : n = 0 ∨ n = 1 := by omega
  all_goals rfl

section
variable {th tl pl : Byte}

/-- Bytes that are a touch configuration lie in their ranges (R141, R196). -/
theorem touchConfigArgs_ranges {c : TouchConfig} (h : touchConfigArgs [th, tl, pl] = some c) :
    1 ≤ th.toNat * 256 + tl.toNat ∧ th.toNat * 256 + tl.toNat ≤ 1023 ∧ pl.toNat ≤ 1 := by
  cases hq : Placement.ofNat? pl.toNat with
  | none => simp [touchConfigArgs, hq] at h
  | some q =>
    have hrange : 1 ≤ be16 th tl ∧ be16 th tl ≤ 1023 := by
      by_contra hout
      simp [touchConfigArgs, hq, hout] at h
    exact ⟨hrange.1, hrange.2, Placement.le_of_ofNat? hq⟩

theorem touchConfigArgs_eq_some (h1 : 1 ≤ th.toNat * 256 + tl.toNat) (h2 : th.toNat * 256 + tl.toNat ≤ 1023)
    (hp : pl.toNat ≤ 1) : touchConfigArgs [th, tl, pl] = some
      { threshold := th.toNat * 256 + tl.toNat, placement := if pl.toNat = 0 then .lead else .split } := by
  simp only [touchConfigArgs, Placement.ofNat?_of_le hp, be16]
  exact if_pos ⟨h1, h2⟩

end

section
variable {b : Part} {p : Port} {ps : List Byte}

theorem Part.touchConfig_badArg (h : touchConfigArgs ps = none) : b.touchConfig ps = (b, Reply.bare .badArg) := by
  simp [Part.touchConfig, h]

theorem Part.touchConfig_taken {c : TouchConfig} (h : touchConfigArgs ps = some c) : b.touchConfig ps =
    (b.modTouch fun t => { t with cfg := c }, Reply.bare (if b.touch.state = .scanning then .staged else .ok)) := by
  simp [Part.touchConfig, h]

/-! ### RECALIBRATE (R142) -/

theorem ownsZone_iff (table : List Record) (p : Port) : ownsZone table p = true ↔ ∃ r ∈ table,
    r.state ≠ .free ∧ r.panel = .centre ∧ r.params.zone.isSome = true ∧ r.owner = p.bits := by
  simp [ownsZone, Record.isZoneContract, and_assoc]

theorem Part.mayRecalibrate_iff : b.mayRecalibrate p = true ↔ p = b.strap ∨ ∃ r ∈ b.table,
    r.state ≠ .free ∧ r.panel = .centre ∧ r.params.zone.isSome = true ∧ r.owner = p.bits := by
  rw [Part.mayRecalibrate, Bool.or_eq_true, beq_iff_eq, Part.role_eq_safety_iff, ownsZone_iff]

theorem Part.readZones_good (h : b.allGood = true) : b.readZones p = b := by
  rw [Part.readZones, Part.verifyAll_good .request h, ite_self]

theorem Part.recalibrate_noAuthority (h : b.allGood = true) (hp : ¬b.mayRecalibrate p = true) :
    b.recalibrate p = (b, Reply.bare .noAuthority) := by
  simp only [Part.recalibrate, Part.readZones_good h, if_neg hp]

theorem Part.recalibrate_taken (h : b.allGood = true) (hp : b.mayRecalibrate p = true) :
    b.recalibrate p = (b.modTouch Touch.recalibrate, Reply.bare .ok) := by
  simp only [Part.recalibrate, Part.readZones_good h, if_pos hp]

end

/-- Every row uncalibrated, and while SCANNING a new touch frame with the burst running in none (R142). -/
theorem Touch.recalibrate_eq (t : Touch) : t.recalibrate =
    if t.state = .scanning then
      { t with
        calibrated := 0, burst := t.loseBurst
        frame := some { rows := t.scanSet, results := List.replicate 15 none, threshold := t.cfg.threshold,
                        placement := t.cfg.placement } }
    else { t with calibrated := 0 } := by
  simp only [Touch.recalibrate, Touch.startFrame, Touch.abandon, Touch.loseBurst, Option.map_map]
  split <;> rfl

/-! ### CONTACTS (R161, Table 11-6) -/

/-- A contact record, byte by byte (Table 11-6). -/
theorem Contact.bytes_eq (c : Contact) : c.bytes =
    byte1 c.id ++
    byte1 (match c.state with
      | .touchdown => 0
      | .held => 1
      | .lifted => 2) ++
    byte2 c.x ++ byte2 c.y ++ byte2 c.strength ++ byte1 c.framesHeld ++
    byte2 (match c.zone with
      | some h => h
      | none => 0xFFFF) := by
  unfold Contact.bytes
  refine congrArg₂ (· ++ ·) ?_ ?_
  · cases c.state <;> rfl
  · cases c.zone <;> rfl

/-- Settles O45: the bytes of TOUCH_CONFIG, the authority of RECALIBRATE, and the CONTACTS payload field by field. -/
theorem touchRequestsAct : Obligations.TouchRequestsAct := by
  unfold Obligations.TouchRequestsAct
  refine fun p s => ⟨fun ps h => ⟨fun ha => State.take_serve_eq h (Part.touchConfig_badArg ha), ?_,
    fun c ha => State.take_serve_eq h (Part.touchConfig_taken ha)⟩, fun ps h hgood => ⟨fun hp => ?_, fun hp => ?_⟩,
    fun ps h => ?_⟩
  · rintro th tl pl rfl
    refine ⟨fun hout => ?_, touchConfigArgs_eq_some⟩
    have hnone : touchConfigArgs [th, tl, pl] = none := Option.eq_none_iff_forall_ne_some.2 fun c hc => by
      have := touchConfigArgs_ranges hc
      omega
    exact State.take_serve_eq h (Part.touchConfig_badArg hnone)
  · exact State.take_serve_eq h (Part.recalibrate_noAuthority hgood (mt Part.mayRecalibrate_iff.1 hp))
  · rw [← Part.modTouch_congr s.fresh.touch.recalibrate_eq]
    exact State.take_serve_eq h (Part.recalibrate_taken hgood (Part.mayRecalibrate_iff.2 hp))
  · refine (State.take_serve_eq h rfl).trans ?_
    simp only [Touch.contactsBytes, State.fresh_touch, funext Contact.bytes_eq]
    cases s.part.touch.state <;> rfl

end Sys2Proof.Machine

/-! # A burst that ends (R132, R135 to R140) -/

namespace Sys2Proof.Machine

/-! ### The rows still NEEDED (R132) -/

section
variable {f : TouchFrame} {row : Nat} {x : RowResult}

theorem TouchFrame.mem_needed {i : Nat} :
    i ∈ f.needed ↔ i < 15 ∧ f.rows.getLsbD i = true ∧ f.results.getD i none = none := by
  simp [TouchFrame.needed, transmitRowNumbers]

theorem TouchFrame.needed_nodup (f : TouchFrame) : f.needed.Nodup := List.nodup_range.filter _

/-- A row result written into a touch frame (R137, R138). -/
def TouchFrame.withResult (f : TouchFrame) (row : Nat) (x : RowResult) : TouchFrame :=
  { f with results := f.results.set row (some x) }

/-- A result leaves every other row as NEEDED as it was. -/
theorem TouchFrame.mem_needed_withResult {i : Nat} (hi : i ≠ row) :
    i ∈ (f.withResult row x).needed ↔ i ∈ f.needed := by
  simp [TouchFrame.mem_needed, TouchFrame.withResult, List.getD, List.getElem?_set_ne hi.symm]

/-- While some other row is NEEDED, a result leaves a row NEEDED. -/
theorem TouchFrame.needed_withResult_ne_nil (hrow : row ∈ f.needed) (hne : f.needed ≠ [row]) :
    (f.withResult row x).needed ≠ [] := by
  obtain ⟨i, hi, hother⟩ : ∃ i ∈ f.needed, i ≠ row := by
    by_contra hall
    push Not at hall
    exact hne (List.perm_singleton.1 ((List.perm_ext_iff_of_nodup f.needed_nodup (List.nodup_singleton row)).2
      fun i => ⟨fun hi => List.mem_singleton.2 (hall i hi), fun hi => List.mem_singleton.1 hi ▸ hrow⟩))
  exact List.ne_nil_of_mem ((TouchFrame.mem_needed_withResult hother).2 hi)

/-- The result of the last NEEDED row leaves none NEEDED. -/
theorem TouchFrame.needed_withResult_eq_nil (hlast : f.needed = [row]) (hlen : f.results.length = 15) :
    (f.withResult row x).needed = [] := by
  have hrow : row < 15 := (TouchFrame.mem_needed.1 (hlast ▸ List.mem_singleton_self row)).1
  refine List.eq_nil_iff_forall_not_mem.2 fun i hi => ?_
  by_cases hother : i = row
  · obtain ⟨-, -, hnone⟩ := TouchFrame.mem_needed.1 hi
    simp [hother, TouchFrame.withResult, List.getD, hlen, hrow] at hnone
  · rw [TouchFrame.mem_needed_withResult hother, hlast, List.mem_singleton] at hi
    exact hother hi

end

/-! ### A sense complete (R135) -/

theorem exec_senseComplete (counts : Vector RawCount 24) (s : State) : exec (.senseComplete counts) s =
    .next { s with part := s.fresh.senseComplete (counts.toList.map BitVec.toNat) } := rfl

/-- A burst that was not disturbed has ended: its counts stand in the result array and its entry is DONE (R135). -/
def Part.burstDone (u : Burst) (raw : List Nat) (b : Part) : Part :=
  (b.modTouch (Touch.endBurst u raw)).setOutcome .centre u.slot .done

section
variable {b : Part} {u : Burst} {raw : List Nat}

theorem Part.senseComplete_none (h : b.touch.burst = none) : b.senseComplete raw = b := by
  simp [Part.senseComplete, h]

theorem Part.senseComplete_disturbed (h : b.touch.burst = some u) (hd : u.disturbed = true) : b.senseComplete raw =
    ((b.modTouch (Touch.endBurst u raw)).setOutcome .centre u.slot .disturbed).claim .touch
      (rowClaim .senseDisturbed .corrected u.row) := by
  simp [Part.senseComplete, Part.fileBurst, h, hd]

theorem Part.senseComplete_undisturbed (h : b.touch.burst = some u) (hd : u.disturbed = false) :
    b.senseComplete raw = (b.burstDone u raw).fileGood u raw := by
  simp [Part.senseComplete, Part.fileBurst, Part.burstDone, h, hd]

/-- A burst of a touch frame that is gone, or of a row not NEEDED, is discarded (R135). -/
theorem Part.fileGood_discarded (h : u.lost = true ∨ u.row ∉ b.touch.neededRows) : b.fileGood u raw = b :=
  if_pos (by simpa using h)

/-- A calibration burst with a count at the end of the converter's range (R137). -/
theorem Part.fileGood_calFail (hl : u.lost = false) (hn : u.row ∈ b.touch.neededRows)
    (hc : b.touch.calibrated.getLsbD u.row = false) (hend : raw.any atRangeEnd = true) :
    b.fileGood u raw = b.claim .touch (rowClaim .calFail .contained u.row) := by
  simp [Part.fileGood, Part.fileCalibration, hl, hn, hc, hend]

end

theorem atRangeEnd_toNat (c : RawCount) : atRangeEnd c.toNat = true ↔ c = 0 ∨ c = 4095 := by
  simp [atRangeEnd, ← BitVec.toNat_inj]

theorem any_atRangeEnd (cs : List RawCount) :
    (cs.map BitVec.toNat).any atRangeEnd = true ↔ ∃ c ∈ cs, c = 0 ∨ c = 4095 := by
  simp only [List.any_eq_true, List.mem_map, exists_exists_and_eq_and, atRangeEnd_toNat]

/-- Settles O41: the case of R135 that files the burst. -/
theorem senseCompleteFiled : Obligations.SenseCompleteFiled := by
  unfold Obligations.SenseCompleteFiled
  refine fun counts s => ⟨fun hnone => ?_, ?_⟩
  · rw [exec_senseComplete, Part.senseComplete_none (b := s.fresh) hnone]
  · rintro u _ hburst rfl
    rw [exec_senseComplete]
    refine ⟨fun hd => ?_, fun hd hgone => ?_, fun hd hl hn hc hend => ?_⟩
    · rw [Part.senseComplete_disturbed (b := s.fresh) hburst hd]
      rfl
    · rw [Part.senseComplete_undisturbed (b := s.fresh) hburst hd,
        Part.fileGood_discarded (b := s.fresh.burstDone u _) hgone]
      rfl
    · rw [Part.senseComplete_undisturbed (b := s.fresh) hburst hd,
        Part.fileGood_calFail (b := s.fresh.burstDone u _) hl hn hc ((any_atRangeEnd _).2 hend)]
      rfl

/-! ### A good burst on a needed row (R137, R138) -/

/-- A row scanned: its result stands in the touch frame in progress, the row is calibrated, and the baselines are those
the burst leaves. Calibration and measurement bursts do the same but for the result and the baselines. -/
def Touch.scanned (row : Nat) (x : RowResult) (baselines : List (List Nat)) (t : Touch) : Touch :=
  { t with
    baselines := baselines, calibrated := t.calibrated ||| bitOf 15 row
    frame := t.frame.map fun f => f.withResult row x }

theorem Touch.calibrate_eq (row : Nat) (raw : List Nat) (t : Touch) : t.calibrate row raw =
    t.scanned row { raw := raw, deltas := List.replicate 24 0 } (t.baselines.set row raw) := rfl

/-- Marking a row calibrated that is calibrated changes no mark. -/
theorem RowSet.or_bitOf {marks : RowSet} {row : Nat} (h : marks.getLsbD row = true) :
    marks ||| bitOf 15 row = marks := by
  refine BitVec.eq_of_getLsbD_eq fun i _ => ?_
  rw [BitVec.getLsbD_or]
  by_cases hi : i = row
  · rw [hi, h, Bool.true_or]
  · have hbit : (bitOf 15 row).getLsbD i = false := by grind [bitOf]
    rw [hbit, Bool.or_false]

theorem Touch.measure_eq {row : Nat} {t : Touch} (raw : List Nat) (h : t.calibrated.getLsbD row = true) :
    t.measure row raw = t.scanned row
      { raw := raw, deltas := List.zipWith (fun base n => base - n) (t.baselines.getD row []) raw } t.baselines := by
  unfold Touch.scanned
  rw [RowSet.or_bitOf h]
  rfl

/-- A good burst on a needed row scans the row, and completes the touch frame where that was the last (R137 to
R139). -/
theorem Part.fileGood_scans {b : Part} {u : Burst} {raw : List Nat} {x : RowResult} {baselines : List (List Nat)}
    (hl : u.lost = false) (hn : u.row ∈ b.touch.neededRows)
    (hgood : b.touch.calibrated.getLsbD u.row = false → raw.any atRangeEnd = false)
    (hx : x = if b.touch.calibrated.getLsbD u.row then
        { raw := raw, deltas := List.zipWith (fun base n => base - n) (b.touch.baselines.getD u.row []) raw }
      else { raw := raw, deltas := List.replicate 24 0 })
    (hb : baselines =
      if b.touch.calibrated.getLsbD u.row then b.touch.baselines else b.touch.baselines.set u.row raw) :
    b.fileGood u raw = (b.modTouch (Touch.scanned u.row x baselines)).completeIfDone := by
  subst hx hb
  cases hc : b.touch.calibrated.getLsbD u.row with
  | true =>
    have hfile : b.fileGood u raw = b.fileMeasurement u.row raw := by simp [Part.fileGood, hl, hn, hc]
    rw [hfile, Part.fileMeasurement]
    exact congrArg Part.completeIfDone (Part.modTouch_congr (Touch.measure_eq raw hc))
  | false =>
    have hfile : b.fileGood u raw = b.fileCalibration u.row raw := by simp [Part.fileGood, hl, hn, hc]
    rw [hfile, Part.fileCalibration, hgood hc]
    exact congrArg Part.completeIfDone (Part.modTouch_congr (Touch.calibrate_eq u.row raw b.touch))

/-! ### The drift of the baselines (R140) -/

theorem absDiff_le_one_iff (a b : Nat) : absDiff a b ≤ 1 ↔ a ≤ b + 1 ∧ b ≤ a + 1 := by
  unfold absDiff
  omega

theorem nearContact_eq_false_iff (cs : List Contact) (t c : Nat) : nearContact cs t c = false ↔
    ∀ k ∈ cs, k.state ≠ .lifted → ¬(k.y / 80 ≤ t + 1 ∧ t ≤ k.y / 80 + 1 ∧ k.x / 80 ≤ c + 1 ∧ c ≤ k.x / 80 + 1) := by
  simp only [nearContact, List.any_eq_false, Bool.and_eq_true, bne_iff_ne, decide_eq_true_iff, max_le_iff,
    absDiff_le_one_iff, and_assoc, not_and]

/-- A baseline after drift: where twice the delta is below the threshold and no held contact is near, one count nearer
the raw count (R140). -/
theorem Touch.drift_baseline (f : TouchFrame) (t : Touch) {row c base : Nat} (hrow : row < 15) (hc : c < 24)
    (hbase : base = (t.baselines.getD row []).getD c 0) :
    ((t.drift f).baselines.getD row []).getD c 0 =
      match f.rows.getLsbD row, f.results.getD row none with
      | true, some y =>
        if 2 * y.deltas.getD c 0 < f.threshold ∧ ∀ k ∈ t.contacts, k.state ≠ .lifted →
            ¬(k.y / 80 ≤ row + 1 ∧ row ≤ k.y / 80 + 1 ∧ k.x / 80 ≤ c + 1 ∧ c ≤ k.x / 80 + 1) then
          if y.raw.getD c 0 < base then base - 1
          else if base < y.raw.getD c 0 then base + 1
          else base
        else base
      | _, _ => base := by
  subst hbase
  have hget (cell : Nat → List Nat) : (transmitRowNumbers.map cell).getD row [] = cell row := by
    simp [transmitRowNumbers, List.getD, hrow]
  have hcell (cell : Nat → Nat) : (columnNumbers.map cell).getD c 0 = cell c := by
    simp [columnNumbers, List.getD, hc]
  simp only [Touch.drift, hget, ← nearContact_eq_false_iff]
  cases f.rows.getLsbD row with
  | false => rfl
  | true =>
    cases f.results.getD row none with
    | none => rfl
    | some y => exact hcell _

/-! ### The completion of a touch frame (R139) -/

/-- The node delta map, row by row (R139). -/
theorem TouchFrame.deltaMap_eq (f : TouchFrame) : f.deltaMap = (List.range 15).map fun row =>
    match f.rows.getLsbD row, f.results.getD row none with
    | true, some y => y.deltas
    | _, _ => List.replicate 24 0 := by
  refine List.map_congr_left fun row _ => ?_
  cases f.rows.getLsbD row with
  | false => rfl
  | true => cases f.results.getD row none <;> rfl

theorem Touch.loseBurst_none {t : Touch} (h : t.burst = none) : t.loseBurst = none := by simp [Touch.loseBurst, h]

/-- Steps 1 and 2 of a completion: the delta map written, and the tracking event (R139). -/
def Part.tracked (f : TouchFrame) (b : Part) : Part := (b.modTouch (Touch.writeMap f)).track (b.touch.handOver f)

section
variable (b : Part) (f : TouchFrame)

theorem Part.tracked_touch : (b.tracked f).touch.SameButContacts (b.touch.writeMap f) := Part.track_touch _ _

/-- Steps 3 to 5 of a completion follow its tracking event (R139). -/
theorem Part.completeFrame_eq :
    b.completeFrame f = ((b.tracked f).modTouch (Touch.drift f)).modTouch Touch.nextFrame := rfl

/-- What a completion leaves of touch: the map, the contacts and press candidates of the tracking event, the drifted
baselines, the completed count, and a new touch frame (R139, R140). -/
theorem Part.completeFrame_touch : (b.completeFrame f).touch =
    { b.touch with
      burst := b.touch.loseBurst, deltaMap := f.deltaMap, completed := b.touch.completed + 1
      contacts := (b.tracked f).touch.contacts, candidates := (b.tracked f).touch.candidates
      baselines := ((b.tracked f).touch.drift f).baselines
      frame := some { rows := b.touch.scanSet, results := List.replicate 15 none, threshold := b.touch.cfg.threshold,
                      placement := b.touch.cfg.placement } } := by
  obtain ⟨cs, ks, h⟩ := b.tracked_touch f
  rw [Part.completeFrame_eq, Part.modTouch_touch, Part.modTouch_touch, h]
  rfl

/-- Beyond its tracking event a completion changes touch alone (R139). -/
theorem Part.completeFrame_eq_tracked :
    b.completeFrame f = { b.tracked f with touch := (b.completeFrame f).touch } := by
  rw [Part.completeFrame_eq]
  generalize b.tracked f = c
  rfl

/-- The baselines that a completion leaves, node by node (R140). -/
theorem Part.completeFrame_baseline {row c base : Nat} (hrow : row < 15) (hc : c < 24)
    (hbase : base = (b.touch.baselines.getD row []).getD c 0) :
    ((b.completeFrame f).touch.baselines.getD row []).getD c 0 =
      match f.rows.getLsbD row, f.results.getD row none with
      | true, some y =>
        if 2 * y.deltas.getD c 0 < f.threshold ∧ ∀ k ∈ (b.completeFrame f).touch.contacts, k.state ≠ .lifted →
            ¬(k.y / 80 ≤ row + 1 ∧ row ≤ k.y / 80 + 1 ∧ k.x / 80 ≤ c + 1 ∧ c ≤ k.x / 80 + 1) then
          if y.raw.getD c 0 < base then base - 1
          else if base < y.raw.getD c 0 then base + 1
          else base
        else base
      | _, _ => base := by
  have hcontacts : (b.completeFrame f).touch.contacts = (b.tracked f).touch.contacts := by
    rw [Part.completeFrame_touch]
  have hdrift : (b.completeFrame f).touch.baselines = ((b.tracked f).touch.drift f).baselines := by
    rw [Part.completeFrame_touch]
  rw [hcontacts, hdrift]
  refine (b.tracked f).touch.drift_baseline f hrow hc ?_
  obtain ⟨cs, ks, h⟩ := b.tracked_touch f
  rw [h]
  exact hbase

variable {b f}

theorem Part.completeIfDone_goesOn (hf : b.touch.frame = some f) (h : f.needed ≠ []) : b.completeIfDone = b := by
  simp [Part.completeIfDone, hf, h]

theorem Part.completeIfDone_completes (hf : b.touch.frame = some f) (h : f.needed = []) :
    b.completeIfDone = b.completeFrame f := by
  simp [Part.completeIfDone, hf, h]

/-- A touch frame that goes on or completes leaves the result array, the touch state, the scan set, the configuration
and the calibrated marks, and starts no burst (R132, R139). -/
theorem Part.completeIfDone_keeps (b : Part) (hb : b.touch.burst = none) :
    b.completeIfDone.touch.burst = none ∧ b.completeIfDone.touch.resultRow = b.touch.resultRow ∧
      b.completeIfDone.touch.resultCounts = b.touch.resultCounts ∧ b.completeIfDone.touch.state = b.touch.state ∧
      b.completeIfDone.touch.scanSet = b.touch.scanSet ∧ b.completeIfDone.touch.cfg = b.touch.cfg ∧
      b.completeIfDone.touch.calibrated = b.touch.calibrated := by
  unfold Part.completeIfDone
  split
  · split
    · rw [Part.completeFrame_touch]
      exact ⟨Touch.loseBurst_none hb, rfl, rfl, rfl, rfl, rfl, rfl⟩
    · exact ⟨hb, rfl, rfl, rfl, rfl, rfl, rfl⟩
  · exact ⟨hb, rfl, rfl, rfl, rfl, rfl, rfl⟩

end

/-- Settles O42: the burst scans its row; a row still NEEDED lets the touch frame go on, and none completes it. -/
theorem goodBurstScansRow : Obligations.GoodBurstScansRow := by
  unfold Obligations.GoodBurstScansRow
  rintro counts s u f _ raw x baselines hburst hd hl hscan hframe hrow hraw hgood hx hbase rfl
  have hneeded : u.row ∈ s.part.touch.neededRows := by simpa [Touch.neededRows, hscan, hframe] using hrow
  have hin : s.part.touch.calibrated.getLsbD u.row = false → raw.any atRangeEnd = false := fun hc => by
    rw [hraw, ← Bool.not_eq_true, any_atRangeEnd]
    rintro ⟨c, hmem, hend⟩
    rcases hgood with ⟨-, hall⟩ | hcal
    · exact hend.elim (hall c hmem).1 (hall c hmem).2
    · simp [hc] at hcal
  obtain ⟨b, hb⟩ : ∃ b, (s.fresh.burstDone u raw).modTouch (Touch.scanned u.row x baselines) = b := ⟨_, rfl⟩
  have hexec : exec (.senseComplete counts) s = .next { s with part := b.completeIfDone } := by
    rw [exec_senseComplete, ← hraw, Part.senseComplete_undisturbed (b := s.fresh) hburst hd,
      Part.fileGood_scans (b := s.fresh.burstDone u raw) hl hneeded hin hx hbase, hb]
  have htouch : b.touch = (s.part.touch.endBurst u raw).scanned u.row x baselines := hb ▸ rfl
  have hbframe : b.touch.frame = some (f.withResult u.row x) := by
    rw [htouch]
    exact congrArg (Option.map fun f => f.withResult u.row x) hframe
  have hkeeps := b.completeIfDone_keeps (by rw [htouch]; rfl)
  rw [htouch] at hkeeps
  obtain ⟨hburst', hrow', hcounts', hstate', hset', hcfg', hmarks'⟩ := hkeeps
  refine ⟨_, hexec, rfl, hburst', hrow', hcounts', hstate', hset', hcfg', hmarks', fun hother => ?_,
    fun hlast hlen => ?_⟩
  · rw [Part.completeIfDone_goesOn hbframe (TouchFrame.needed_withResult_ne_nil hrow hother)]
    subst hb
    exact ⟨rfl, hbframe, rfl, rfl, rfl, rfl, rfl⟩
  · rw [Part.completeIfDone_completes hbframe (TouchFrame.needed_withResult_eq_nil hlast hlen)]
    refine ⟨?_, ?_, ?_, ⟨b.modTouch (Touch.writeMap (f.withResult u.row x)), b.tracked (f.withResult u.row x),
      ?_, ?_, ?_, ?_, Part.completeFrame_eq_tracked b _, ?_, ?_⟩, fun row c base hr hc hbase' =>
        b.completeFrame_baseline _ hr hc (by rw [hbase', htouch]; rfl)⟩
    · rw [Part.completeFrame_touch, htouch]
      rfl
    · rw [Part.completeFrame_touch]
      exact TouchFrame.deltaMap_eq _
    · rw [Part.completeFrame_touch, htouch]
      rfl
    · rw [← hb]
      rfl
    · rw [← hb]
      rfl
    · rw [← hb]
      rfl
    · rw [Part.completeFrame_touch]
      rfl
    · rw [Part.completeFrame_touch]
    · rw [Part.completeFrame_touch]

end Sys2Proof.Machine

/-!
# The family of contacts and zones: the contact law at every step, peaks and contacts, zones and presses
-/

/-! # The contact law at every step (R151) -/

namespace Sys2Proof.Machine
open Sys2Proof.Machine.Part

/-- Settles O59: every step upholds the law of the contact table. -/
theorem contactsStayLawful : Obligations.ContactsStayLawful := by
  unfold Obligations.ContactsStayLawful
  exact fun s t hs h => (step_upholds h).contacts hs

end Sys2Proof.Machine

/-! # Peaks become contacts (R149 to R154): O43 -/

namespace Sys2Proof.Machine
open Sys2Proof.Machine.Part

/-! ### The sort is stable -/

section
variable {α : Type} {before : α → α → Bool}

theorem insertBy_filter_of_false {p : α → Bool} {x : α} (hx : p x = false) (xs : List α) :
    (insertBy before x xs).filter p = xs.filter p := by
  induction xs with
  | nil => simp [insertBy, hx]
  | cons y ys ih =>
    unfold insertBy
    split
    · rw [List.filter_cons, ih, ← List.filter_cons]
    · rw [List.filter_cons_of_neg (by simp [hx])]

theorem insertBy_filter_of_true {p : α → Bool} (h : ∀ a b, p a = true → p b = true → before a b = false) {x : α}
    (hx : p x = true) (xs : List α) : (insertBy before x xs).filter p = x :: xs.filter p := by
  induction xs with
  | nil => simp [insertBy, hx]
  | cons y ys ih =>
    unfold insertBy
    split
    next hyx =>
      have hy : ¬p y = true := fun hy => by simp [h y x hy hx] at hyx
      rw [List.filter_cons_of_neg hy, List.filter_cons_of_neg hy, ih]
    next => rw [List.filter_cons_of_pos hx]

/-- Elements of which none comes before another keep their order. -/
theorem sortBy_filter {p : α → Bool} (h : ∀ a b, p a = true → p b = true → before a b = false) (xs : List α) :
    (sortBy before xs).filter p = xs.filter p := by
  induction xs with
  | nil => rfl
  | cons x xs ih =>
    rw [sortBy]
    by_cases hx : p x = true
    · rw [insertBy_filter_of_true h hx, List.filter_cons_of_pos hx, ih]
    · rw [insertBy_filter_of_false (Bool.not_eq_true _ ▸ hx), List.filter_cons_of_neg hx, ih]

end

/-- To compare by a number, the greatest first, is a weak order. -/
theorem isWeakOrder_gt {α : Type} (key : α → Nat) : IsWeakOrder fun x y => decide (key y < key x) where
  asymm a b := (isWeakOrder_lt key).asymm b a
  negTrans a b c h₁ h₂ := (isWeakOrder_lt key).negTrans c b a h₂ h₁

/-! ### Peaks and their neighbours (R149, R150) -/

/-- A node counts with its delta where its row is in the set and calibrated (R149). -/
theorem HandOver.delta_eq (h : HandOver) (t c : Nat) :
    h.delta t c =
      if h.rows.getLsbD t = true ∧ h.calibrated.getLsbD t = true then (h.map.getD t []).getD c 0 else 0 := by
  simp [HandOver.delta]

theorem mem_columnsAround {k c : Nat} : k ∈ columnsAround c ↔ k < 24 ∧ k ≤ c + 1 ∧ c ≤ k + 1 := by
  simp [columnsAround, columnNumbers, absDiff_le_one_iff]

/-- Two nodes touch, by an edge or a corner (R149). -/
def nodesTouch (t c t' c' : Nat) : Prop := t' ≤ t + 1 ∧ t ≤ t' + 1 ∧ c' ≤ c + 1 ∧ c ≤ c' + 1

theorem mem_neighboursBefore {t c t' c' : Nat} (ht : t < 15) (hc : c < 24) :
    (t', c') ∈ neighboursBefore t c ↔
      t' < 15 ∧ c' < 24 ∧ nodesTouch t c t' c' ∧ (t' < t ∨ (t' = t ∧ c' < c)) := by
  have habove : (t', c') ∈ (if t = 0 then [] else (columnsAround c).map fun k => (t - 1, k)) ↔
      t' + 1 = t ∧ c' < 24 ∧ c' ≤ c + 1 ∧ c ≤ c' + 1 := by
    split <;> simp [mem_columnsAround] <;> omega
  have hleft : (t', c') ∈ (if c = 0 then [] else [(t, c - 1)]) ↔ t' = t ∧ c' + 1 = c := by
    split <;> simp <;> omega
  rw [neighboursBefore, List.mem_append, habove, hleft, nodesTouch]
  omega

theorem mem_neighboursAfter {t c t' c' : Nat} (ht : t < 15) (hc : c < 24) :
    (t', c') ∈ neighboursAfter t c ↔
      t' < 15 ∧ c' < 24 ∧ nodesTouch t c t' c' ∧ (t < t' ∨ (t' = t ∧ c < c')) := by
  have hright : (t', c') ∈ (if c + 1 < 24 then [(t, c + 1)] else []) ↔ t' = t ∧ c' = c + 1 ∧ c' < 24 := by
    split <;> simp <;> omega
  have hbelow : (t', c') ∈ (if t + 1 < 15 then (columnsAround c).map fun k => (t + 1, k) else []) ↔
      t' = t + 1 ∧ t' < 15 ∧ c' < 24 ∧ c' ≤ c + 1 ∧ c ≤ c' + 1 := by
    split <;> simp [mem_columnsAround] <;> omega
  rw [neighboursAfter, List.mem_append, hright, hbelow, nodesTouch]
  omega

/-- A node is a peak by its row, the threshold, and its neighbours before and after it (R149). -/
theorem HandOver.isPeak_iff_neighbours (h : HandOver) (t c : Nat) : h.isPeak t c = true ↔
    h.rows.getLsbD t = true ∧ h.calibrated.getLsbD t = true ∧ h.threshold ≤ h.delta t c ∧
      (∀ t' c', (t', c') ∈ neighboursAfter t c → h.delta t' c' ≤ h.delta t c) ∧
      ∀ t' c', (t', c') ∈ neighboursBefore t c → h.delta t' c' < h.delta t c := by
  simp only [HandOver.isPeak, Bool.and_eq_true, decide_eq_true_eq, List.all_eq_true, Prod.forall, and_assoc]

/-- A peak is above each neighbour before it and no less than each after it (R149). -/
theorem HandOver.isPeak_iff (h : HandOver) {t c : Nat} (ht : t < 15) (hc : c < 24) : h.isPeak t c = true ↔
    h.rows.getLsbD t = true ∧ h.calibrated.getLsbD t = true ∧ h.threshold ≤ h.delta t c ∧
      ∀ t' c', t' < 15 → c' < 24 → ¬(t' = t ∧ c' = c) → t' ≤ t + 1 → t ≤ t' + 1 → c' ≤ c + 1 → c ≤ c' + 1 →
        h.delta t' c' ≤ h.delta t c ∧ ((t' < t ∨ (t' = t ∧ c' < c)) → h.delta t' c' < h.delta t c) := by
  rw [h.isPeak_iff_neighbours]
  refine and_congr_right fun _ => and_congr_right fun _ => and_congr_right fun _ => ⟨?_, fun hall => ⟨?_, ?_⟩⟩
  · rintro ⟨hafter, hbefore⟩ t' c' ht' hc' hne h₁ h₂ h₃ h₄
    have hlt (hlow : t' < t ∨ (t' = t ∧ c' < c)) : h.delta t' c' < h.delta t c :=
      hbefore t' c' ((mem_neighboursBefore ht hc).2 ⟨ht', hc', ⟨h₁, h₂, h₃, h₄⟩, hlow⟩)
    refine ⟨?_, hlt⟩
    by_cases hlow : t' < t ∨ (t' = t ∧ c' < c)
    · exact (hlt hlow).le
    · exact hafter t' c' ((mem_neighboursAfter ht hc).2 ⟨ht', hc', ⟨h₁, h₂, h₃, h₄⟩, by omega⟩)
  · intro t' c' hmem
    obtain ⟨ht', hc', ⟨h₁, h₂, h₃, h₄⟩, hhigh⟩ := (mem_neighboursAfter ht hc).1 hmem
    exact (hall t' c' ht' hc' (by omega) h₁ h₂ h₃ h₄).1
  · intro t' c' hmem
    obtain ⟨ht', hc', ⟨h₁, h₂, h₃, h₄⟩, hlow⟩ := (mem_neighboursBefore ht hc).1 hmem
    exact (hall t' c' ht' hc' (by omega) h₁ h₂ h₃ h₄).2 hlow

/-- The peak at a node lies at the node's centre moved by its two neighbours on each axis, clamped to the panel
(R150). -/
theorem HandOver.peak_eq (h : HandOver) {t c l r u d : Nat} (ht : t < 15) (hc : c < 24)
    (hl : l = if c = 0 then 0 else h.delta t (c - 1)) (hr : r = if c = 23 then 0 else h.delta t (c + 1))
    (hu : u = if t = 0 then 0 else h.delta (t - 1) c) (hd : d = if t = 14 then 0 else h.delta (t + 1) c) :
    h.peak t c =
      { row := t
        x := min 1919 (80 * (c : Int) + 40 + (80 * ((r : Int) - l)).tdiv (l + h.delta t c + r : Nat)).toNat
        y := min 1199 (80 * (t : Int) + 40 + (80 * ((d : Int) - u)).tdiv (u + h.delta t c + d : Nat)).toNat
        strength := h.delta t c } := by
  have hright : (if c + 1 < 24 then h.delta t (c + 1) else 0) = r := by
    rw [hr]
    simp only [show c + 1 < 24 ↔ ¬c = 23 by omega, ite_not]
  have hdown : (if t + 1 < 15 then h.delta (t + 1) c else 0) = d := by
    rw [hd]
    simp only [show t + 1 < 15 ↔ ¬t = 14 by omega, ite_not]
  simp only [HandOver.peak, peakCoordinate, hright, hdown, ← hl, ← hu, Nat.cast_add]

/-- The peaks are taken by descending strength, those of one strength in row-major order (R152). -/
theorem HandOver.orderedPeaks_sorted (h : HandOver) : h.orderedPeaks.Pairwise fun x y => y.strength ≤ x.strength :=
  (sortBy_pairwise (isWeakOrder_gt Peak.strength) h.peaks).imp fun hlt => Nat.not_lt.1 (of_decide_eq_false hlt)

theorem HandOver.orderedPeaks_stable (h : HandOver) (n : Nat) :
    (h.orderedPeaks.filter fun x => x.strength == n) = h.peaks.filter fun x => x.strength == n :=
  sortBy_filter (fun a b ha hb => by
    rw [beq_iff_eq] at ha hb
    simp [ha, hb]) h.peaks

/-! ### Matching (R152) -/

/-- The nearest record is one of the unmatched, at its distance. -/
theorem mem_of_nearest {k : Peak} {es : List Tracked} {d i : Nat} (h : nearest k es = some (d, i)) :
    ∃ e ∈ es, e.matched = false ∧ d = k.distance e.contact ∧ i = e.contact.id := by
  induction es generalizing d i with
  | nil => cases h
  | cons e es ih =>
    have rest {d i : Nat} (h : nearest k es = some (d, i)) :
        ∃ x ∈ e :: es, x.matched = false ∧ d = k.distance x.contact ∧ i = x.contact.id := by
      obtain ⟨x, hx, hspec⟩ := ih h
      exact ⟨x, .tail _ hx, hspec⟩
    unfold nearest at h
    split at h
    next => exact rest h
    next hm =>
      have hm : e.matched = false := Bool.eq_false_iff.2 hm
      split at h
      next =>
        cases h
        exact ⟨e, .head _, hm, rfl, rfl⟩
      next hrest =>
        split at h
        next =>
          cases h
          exact rest hrest
        next =>
          cases h
          exact ⟨e, .head _, hm, rfl, rfl⟩

/-- An unmatched record with no nearer one behind it is the nearest from there on. -/
theorem nearest_cons_eq {k : Peak} {e : Tracked} {after : List Tracked} (he : e.matched = false)
    (hafter : ∀ x ∈ after, x.matched = false → k.distance e.contact ≤ k.distance x.contact) :
    nearest k (e :: after) = some (k.distance e.contact, e.contact.id) := by
  rw [nearest, he, if_neg Bool.false_ne_true]
  split
  next => rfl
  next d i hrest =>
    obtain ⟨x, hx, hm, rfl, -⟩ := mem_of_nearest hrest
    exact if_neg (Nat.not_lt.2 (hafter x hx hm))

/-- The nearest record, the first of those at the least distance (R152). -/
theorem nearest_eq {k : Peak} {before after : List Tracked} {e : Tracked} (he : e.matched = false)
    (hbefore : ∀ x ∈ before, x.matched = false → k.distance e.contact < k.distance x.contact)
    (hafter : ∀ x ∈ after, x.matched = false → k.distance e.contact ≤ k.distance x.contact) :
    nearest k (before ++ e :: after) = some (k.distance e.contact, e.contact.id) := by
  induction before with
  | nil => exact nearest_cons_eq he hafter
  | cons x before ih =>
    have ih := ih fun y hy => hbefore y (.tail _ hy)
    rw [List.cons_append, nearest, ih]
    by_cases hx : x.matched = true
    · rw [if_pos hx]
    · rw [if_neg hx]
      exact if_pos (hbefore x (.head _) (Bool.eq_false_iff.2 hx))

/-- A peak without an unmatched record within 160 waits (R152). -/
theorem matchPeaks_waits {k : Peak} {es : List Tracked} (ks : List Peak)
    (h : ∀ x ∈ es, x.matched = true ∨ 160 < k.distance x.contact) :
    matchPeaks (k :: ks) es = ((matchPeaks ks es).1, k :: (matchPeaks ks es).2) := by
  rw [matchPeaks]
  split
  next d i hnear =>
    obtain ⟨x, hx, hm, rfl, -⟩ := mem_of_nearest hnear
    have hfar : 160 < k.distance x.contact := (h x hx).resolve_left (by simp [hm])
    rw [if_neg (Nat.not_le.2 hfar)]
  next => rfl

/-- A change of the records of one id is a change of the one that bears it. -/
theorem map_of_id {before after : List Tracked} {e : Tracked} (f : Tracked → Tracked)
    (h : ((before ++ e :: after).map fun x => x.contact.id).Nodup) :
    (before ++ e :: after).map (fun x => if x.contact.id = e.contact.id then f x else x) =
      before ++ f e :: after := by
  rw [List.map_append, List.map_cons, List.nodup_append, List.nodup_cons] at h
  obtain ⟨-, ⟨hafter, -⟩, hbefore⟩ := h
  have same (xs : List Tracked) (hne : ∀ x ∈ xs, x.contact.id ≠ e.contact.id) :
      xs.map (fun x => if x.contact.id = e.contact.id then f x else x) = xs :=
    (List.map_congr_left fun x hx => if_neg (hne x hx)).trans xs.map_id'
  rw [List.map_append, List.map_cons, if_pos rfl,
    same before fun x hx => hbefore _ (List.mem_map_of_mem hx) _ (.head _),
    same after fun x hx heq => hafter (heq ▸ List.mem_map_of_mem hx)]

/-- A peak matches the nearest unmatched record within 160 (R152). -/
theorem matchPeaks_matches {k : Peak} {before after : List Tracked} {e : Tracked} (ks : List Peak)
    (hids : ((before ++ e :: after).map fun x => x.contact.id).Nodup) (he : e.matched = false)
    (hnear : k.distance e.contact ≤ 160)
    (hbefore : ∀ x ∈ before, x.matched = false → k.distance e.contact < k.distance x.contact)
    (hafter : ∀ x ∈ after, x.matched = false → k.distance e.contact ≤ k.distance x.contact) :
    matchPeaks (k :: ks) (before ++ e :: after) =
      matchPeaks ks (before ++ { contact := e.contact.matchWith k, matched := true } :: after) := by
  rw [matchPeaks, nearest_eq he hbefore hafter]
  dsimp only
  rw [if_pos hnear, map_of_id (fun x => { contact := x.contact.matchWith k, matched := true }) hids]

/-! ### Touchdown (R153) -/

/-- The free id is at most each id that no record carries. -/
theorem freeId_le {cs : List Contact} {i : Nat} (hi : i ≤ 15) (hfree : ∀ c ∈ cs, c.id ≠ i) : freeId cs ≤ i := by
  have hmem : i ∈ (List.range 16).filter fun j => cs.all fun c => c.id != j := by
    rw [List.mem_filter, List.mem_range, List.all_eq_true]
    exact ⟨by omega, fun c hc => bne_iff_ne.2 (hfree c hc)⟩
  have hsorted : ((List.range 16).filter fun j => cs.all fun c => c.id != j).Pairwise (· < ·) :=
    List.pairwise_lt_range.filter _
  unfold freeId
  cases hlist : (List.range 16).filter fun j => cs.all fun c => c.id != j with
  | nil => exact Nat.zero_le i
  | cons j js =>
    rw [hlist] at hmem hsorted
    rcases List.mem_cons.1 hmem with rfl | hmem
    · exact Nat.le_refl i
    · exact (List.rel_of_pairwise_cons hsorted hmem).le

/-- The free id is the lowest that no record carries, while the table has room (R153). -/
theorem freeId_eq {cs : List Contact} {i : Nat} (hroom : cs.length < 10) (hi : i ≤ 15) (hfree : ∀ c ∈ cs, c.id ≠ i)
    (htaken : ∀ m, m < i → ∃ c ∈ cs, c.id = m) : freeId cs = i := by
  refine Nat.le_antisymm (freeId_le hi hfree) (Nat.not_lt.1 fun hlt => ?_)
  obtain ⟨c, hc, hid⟩ := htaken _ hlt
  exact (freeId_spec cs hroom).2 c hc hid

/-- Insertion between what comes before an element and what does not. -/
theorem insertBy_append {α : Type} {before : α → α → Bool} {x : α} {front back : List α}
    (hfront : ∀ y ∈ front, before y x = true) (hback : ∀ y ∈ back, before y x = false) :
    insertBy before x (front ++ back) = front ++ x :: back := by
  induction front with
  | nil =>
    cases back with
    | nil => rfl
    | cons y back => exact if_neg (by simp [hback y (.head _)])
  | cons y front ih =>
    rw [List.cons_append, insertBy, if_pos (hfront y (.head _)), ih fun z hz => hfront z (.tail _ hz), List.cons_append]

/-- A peak finds no room in a full table (R153). -/
theorem touchDown_drops {cs : List Contact} (k : Peak) (ks : List Peak) (h : 10 ≤ cs.length) :
    touchDown cs (k :: ks) = ((touchDown cs ks).1, k :: (touchDown cs ks).2) := by
  rw [touchDown, if_neg (Nat.not_lt.2 h)]

/-- A peak touches down under the lowest free id, at that id's place (R153). -/
theorem touchDown_lands {front back : List Contact} {i : Nat} (k : Peak) (ks : List Peak)
    (hroom : (front ++ back).length < 10) (hfront : ∀ x ∈ front, x.id < i) (hback : ∀ x ∈ back, i < x.id) (hi : i ≤ 15)
    (htaken : ∀ m, m < i → ∃ c ∈ front ++ back, c.id = m) :
    touchDown (front ++ back) (k :: ks) = touchDown (front ++ Contact.ofPeak i k :: back) ks := by
  have hfree : ∀ c ∈ front ++ back, c.id ≠ i := fun c hc =>
    (List.mem_append.1 hc).elim (fun h => (hfront c h).ne) fun h => (hback c h).ne'
  rw [touchDown, if_pos hroom, freeId_eq hroom hi hfree htaken, insertBy_append]
  · exact fun y hy => decide_eq_true (hfront y hy)
  · exact fun y hy => decide_eq_false (Nat.not_lt.2 (hback y hy).le)

/-! ### Steps 1 and 2 on the part (R148, R154) -/

/-- The contact table and the peaks dropped, from what matching and touchdown give (R152, R153). -/
theorem updateContacts_eq {ps rest dropped : List Peak} {cs cs' : List Contact} {ms : List Tracked}
    (hmatch : matchPeaks ps ((cs.filter fun c => c.state != .lifted).map fun c =>
      { contact := c, matched := false }) = (ms, rest))
    (hland : touchDown (ms.map Tracked.settle) rest = (cs', dropped)) : updateContacts ps cs = (cs', dropped) := by
  simp only [updateContacts, hmatch, hland]

theorem Part.takePeaks_eq {h : HandOver} {b : Part} {cs : List Contact} {dropped : List Peak}
    (hup : updateContacts h.orderedPeaks b.touch.contacts = (cs, dropped)) :
    b.takePeaks h =
      dropped.foldl (fun b k => b.claim .touch (overflowClaim k)) (b.modTouch (Touch.setContacts cs)) := by
  simp only [Part.takePeaks, hup]

/-- Settles O43: peaks by their neighbours, matching by the nearest record, touchdown by the lowest free id. -/
theorem peaksBecomeContacts : Obligations.PeaksBecomeContacts := by
  unfold Obligations.PeaksBecomeContacts
  refine ⟨fun h t c => ⟨h.delta_eq t c, h.isPeak_iff, fun l r u d => h.peak_eq⟩,
    fun h => ⟨rfl, h.orderedPeaks_sorted, h.orderedPeaks_stable⟩, ?_, ?_, ?_⟩
  · intro k ks es before after e far hfar
    obtain rfl : far = fun x => k.distance x.contact := funext hfar
    refine ⟨rfl, matchPeaks_waits ks, ?_⟩
    rintro rfl hids he hnear hbefore hafter
    exact matchPeaks_matches ks hids he hnear hbefore hafter
  · intro k ks cs before after i
    refine ⟨rfl, touchDown_drops k ks, ?_⟩
    rintro hroom rfl hbefore hafter hi htaken
    exact touchDown_lands k ks hroom hbefore hafter hi htaken
  · intro h b ms rest dropped cs hmatch hland
    exact Part.takePeaks_eq (updateContacts_eq hmatch hland)

end Sys2Proof.Machine

/-! # Zones follow contacts (R155 to R160): O44 -/

namespace Sys2Proof.Machine
open Sys2Proof.Machine.Part

/-! ### The head of a stable sort -/

section
variable {α : Type} {before : α → α → Bool} {R : α → α → Prop}

theorem insertBy_pairwise_or {x : α} {xs : List α} (hx : ∀ y ∈ xs, R x y)
    (hs : xs.Pairwise fun a b => before a b = true ∨ R a b) :
    (insertBy before x xs).Pairwise fun a b => before a b = true ∨ R a b := by
  induction xs with
  | nil => simp [insertBy]
  | cons y ys ih =>
    obtain ⟨hy, hys⟩ := List.pairwise_cons.1 hs
    unfold insertBy
    split
    next hyx =>
      refine List.pairwise_cons.2 ⟨fun z hz => ?_, ih (fun z hz => hx z (.tail _ hz)) hys⟩
      rcases List.mem_cons.1 ((insertBy_perm before x ys).mem_iff.1 hz) with rfl | hz
      · exact .inl hyx
      · exact hy z hz
    next => exact List.pairwise_cons.2 ⟨fun z hz => .inr (hx z hz), hs⟩

/-- Of two elements of a sorted list, the first comes before the second, or stood first already. -/
theorem sortBy_pairwise_or {xs : List α} (h : xs.Pairwise R) :
    (sortBy before xs).Pairwise fun a b => before a b = true ∨ R a b := by
  induction xs with
  | nil => exact .nil
  | cons x xs ih =>
    obtain ⟨hx, hxs⟩ := List.pairwise_cons.1 h
    exact insertBy_pairwise_or (fun y hy => hx y ((sortBy_perm before xs).mem_iff.1 hy)) (ih hxs)

theorem sortBy_head?_eq_none {xs : List α} : (sortBy before xs).head? = none ↔ xs = [] := by
  rw [List.head?_eq_none_iff]
  refine ⟨fun h => (h ▸ sortBy_perm before xs).symm.eq_nil, ?_⟩
  rintro rfl
  rfl

/-- The head of a sorted list comes before every other element, or stood before those equal to it. -/
theorem sortBy_head?_spec (hw : IsWeakOrder before) {xs : List α} (hR : xs.Pairwise R) {x : α}
    (h : (sortBy before xs).head? = some x) :
    x ∈ xs ∧ ∀ y ∈ xs, y = x ∨ (before y x = false ∧ (before x y = true ∨ R x y)) := by
  obtain ⟨rest, hrest⟩ := List.head?_eq_some_iff.1 h
  have hmem (y : α) : y ∈ xs ↔ y ∈ x :: rest := hrest ▸ (sortBy_perm before xs).mem_iff.symm
  have hsorted := sortBy_pairwise hw xs
  have hstable := sortBy_pairwise_or (before := before) hR
  rw [hrest] at hsorted hstable
  refine ⟨(hmem x).2 (.head _), fun y hy => ?_⟩
  rcases List.mem_cons.1 ((hmem y).1 hy) with rfl | hy
  · exact .inl rfl
  · exact .inr ⟨List.rel_of_pairwise_cons hsorted hy, List.rel_of_pairwise_cons hstable hy⟩

end

/-! ### Zone contracts and the zone that holds a pixel (R155, R156) -/

theorem Record.isZoneContract_iff (r : Record) :
    r.isZoneContract = true ↔ r.state ≠ .free ∧ r.panel = .centre ∧ r.params.zone ≠ none := by
  simp [Record.isZoneContract, Option.isSome_iff_ne_none, and_assoc]

theorem Record.isCandidateZone_iff (r : Record) : r.isCandidateZone = true ↔
    r.panel = .centre ∧ (r.state = .live ∨ r.state = .stale ∨ r.state = .retiring) ∧ r.params.zone ≠ none := by
  have hfree (h : r.state = .live ∨ r.state = .stale ∨ r.state = .retiring) : r.state ≠ .free := by
    rcases h with h | h | h <;> simp [h]
  simp only [Record.isCandidateZone, Bool.and_eq_true, r.isZoneContract_iff, Bool.or_eq_true, beq_iff_eq, or_assoc]
  exact ⟨fun ⟨⟨_, hp, hz⟩, hs⟩ => ⟨hp, hs, hz⟩, fun ⟨hp, hs, hz⟩ => ⟨⟨hfree hs, hp, hz⟩, hs⟩⟩

theorem Record.isCandidateZone_eq_false {r : Record} (h : r.isZoneContract = false) : r.isCandidateZone = false := by
  rw [Record.isCandidateZone, h, Bool.false_and]

/-- The zone's rectangle: its columns, and the pixel rows of the band (R155). -/
theorem Record.zoneHolds_iff (r : Record) (x y : Nat) : r.zoneHolds x y = true ↔
    ∃ z, r.params.zone = some z ∧ z.firstCol ≤ x ∧ x ≤ z.lastCol ∧ 8 * r.params.band.first ≤ y ∧
      y ≤ 8 * r.params.band.last + 7 := by
  unfold Record.zoneHolds
  cases r.params.zone <;> simp [and_assoc]

/-- A candidate zone whose rectangle holds a pixel (R155). -/
theorem Record.holdsPixel_iff (r : Record) (x y : Nat) : (r.isCandidateZone && r.zoneHolds x y) = true ↔
    r.panel = .centre ∧ (r.state = .live ∨ r.state = .stale ∨ r.state = .retiring) ∧
      ∃ z, r.params.zone = some z ∧ z.firstCol ≤ x ∧ x ≤ z.lastCol ∧ 8 * r.params.band.first ≤ y ∧
        y ≤ 8 * r.params.band.last + 7 := by
  rw [Bool.and_eq_true, r.isCandidateZone_iff, r.zoneHolds_iff]
  constructor
  · rintro ⟨⟨hp, hs, -⟩, hz⟩
    exact ⟨hp, hs, hz⟩
  · rintro ⟨hp, hs, z, hz, hin⟩
    exact ⟨⟨hp, hs, by simp [hz]⟩, z, hz, hin⟩

section
variable {table : List Record} {x y : Nat}

theorem zoneAt_eq_none (hlen : table.length = 64)
    (h : ∀ r ∈ table, ¬(r.isCandidateZone && r.zoneHolds x y) = true) : zoneAt table x y = none := by
  rw [zoneAt, List.head?_map, sortBy_head?_eq_none.2, Option.map_none]
  refine List.filter_eq_nil_iff.2 fun ⟨n, r⟩ hmem => h r ?_
  exact List.mem_of_getElem? ((mem_numbered hlen n r).1 hmem)

/-- Of the zones that hold a pixel, the one of best class, then lowest number (R156). -/
theorem zoneAt_eq_some {n : Nat} {r : Record} (hlen : table.length = 64) (hn : table[n]? = some r)
    (hr : (r.isCandidateZone && r.zoneHolds x y) = true)
    (hbest : ∀ m r', table[m]? = some r' → (r'.isCandidateZone && r'.zoneHolds x y) = true →
      r.params.cls.rank < r'.params.cls.rank ∨ (r.params.cls = r'.params.cls ∧ n ≤ m)) :
    zoneAt table x y = some (r.handle n) := by
  have hmem : (n, r) ∈ (numbered table).filter fun nr => nr.2.isCandidateZone && nr.2.zoneHolds x y :=
    List.mem_filter.2 ⟨(mem_numbered hlen n r).2 hn, hr⟩
  rw [zoneAt, List.head?_map]
  cases hhead : (sortBy (fun a b => decide (a.2.params.cls.rank < b.2.params.cls.rank))
      ((numbered table).filter fun nr => nr.2.isCandidateZone && nr.2.zoneHolds x y)).head? with
  | none => exact absurd hmem (by simp [sortBy_head?_eq_none.1 hhead])
  | some best =>
    obtain ⟨m, r'⟩ := best
    obtain ⟨hin, hfirst⟩ := sortBy_head?_spec (isWeakOrder_lt fun nr : Nat × Record => nr.2.params.cls.rank)
      ((numbered_sorted table).filter _) hhead
    obtain ⟨hin, hr'⟩ := List.mem_filter.1 hin
    have hle := hbest m r' ((mem_numbered hlen m r').1 hin) hr'
    rw [← ContractClass.rank_inj] at hle
    have heq : (n, r) = (m, r') := (hfirst (n, r) hmem).resolve_right fun ⟨hnot, hlt⟩ => by
      simp only [decide_eq_false_iff_not, decide_eq_true_eq] at hnot hlt
      omega
    rw [← heq]
    rfl

end

/-! ### The leading contact (R157) -/

/-- The leading contact is one of the contacts, of the greatest strength, then the lowest id (R157). -/
theorem leading_spec {cs : List Contact} {l : Contact} (hs : cs.Pairwise fun x y => x.id < y.id)
    (h : leading cs = some l) :
    l ∈ cs ∧ ∀ x ∈ cs, x.strength < l.strength ∨ (x.strength = l.strength ∧ l.id ≤ x.id) := by
  obtain ⟨hl, hfirst⟩ := sortBy_head?_spec (isWeakOrder_gt Contact.strength) hs h
  refine ⟨hl, fun x hx => ?_⟩
  rcases hfirst x hx with rfl | ⟨hnot, hlt⟩
  · exact .inr ⟨rfl, Nat.le_refl _⟩
  · simp only [decide_eq_false_iff_not, decide_eq_true_eq] at hnot hlt
    omega

theorem leading_eq_none {cs : List Contact} : leading cs = none ↔ cs = [] := sortBy_head?_eq_none

theorem associated_sorted {cs : List Contact} (h : contactsLawful cs) (handle : Nat) :
    (associated handle cs).Pairwise fun x y => x.id < y.id := by
  obtain ⟨-, hsorted, -⟩ := h
  exact hsorted.filter _

/-! ### The press candidate (R157) -/

theorem any_id_iff {cs : List Contact} {i : Nat} : (cs.any fun c => c.id == i) = true ↔ ∃ c ∈ cs, c.id = i := by
  simp

theorem any_id_eq_false {cs : List Contact} {i : Nat} : (cs.any fun c => c.id == i) = false ↔ ∀ c ∈ cs, c.id ≠ i := by
  simp

section
variable {handle : Nat} {cs : List Contact} {l : Contact}

theorem PressCandidate.next_alone (k : Option PressCandidate) : PressCandidate.next handle [] k = none := rfl

theorem PressCandidate.next_first (hl : leading cs = some l) :
    PressCandidate.next handle cs none = some { handle := handle, contact := l.id, run := 1 } := by
  rw [PressCandidate.next, hl]

theorem PressCandidate.next_goesOn {k : PressCandidate} (hl : leading cs = some l) (hk : ∃ c ∈ cs, c.id = k.contact) :
    PressCandidate.next handle cs (some k) = some { k with run := satInc 7 k.run } := by
  rw [PressCandidate.next, hl]
  exact if_pos (any_id_iff.2 hk)

theorem PressCandidate.next_restarts {k : PressCandidate} (hl : leading cs = some l)
    (hk : ∀ c ∈ cs, c.id ≠ k.contact) :
    PressCandidate.next handle cs (some k) = some { handle := handle, contact := l.id, run := 1 } := by
  rw [PressCandidate.next, hl]
  exact if_neg (by rw [any_id_eq_false.2 hk]; exact Bool.false_ne_true)

/-- There is a candidate after step 4 exactly where a contact is associated (R157). -/
theorem PressCandidate.next_ne_none (k : Option PressCandidate) (hcs : cs ≠ []) :
    PressCandidate.next handle cs k ≠ none := by
  cases hl : leading cs with
  | none => exact absurd (leading_eq_none.1 hl) hcs
  | some l =>
    rw [PressCandidate.next, hl]
    cases k with
    | none => simp
    | some k =>
      dsimp only
      split <;> simp

/-- The rules of R157 determine the press candidate. -/
theorem PressCandidate.eq_next {k k' : Option PressCandidate} (hs : cs.Pairwise fun x y => x.id < y.id)
    (halone : cs = [] → k' = none)
    (hled : ∀ l ∈ cs, (∀ x ∈ cs, x.strength < l.strength ∨ (x.strength = l.strength ∧ l.id ≤ x.id)) →
      (∀ x, k = some x → (∃ c ∈ cs, c.id = x.contact) → k' = some { x with run := satInc 7 x.run }) ∧
        ((∀ x, k = some x → ∀ c ∈ cs, c.id ≠ x.contact) →
          k' = some { handle := handle, contact := l.id, run := 1 })) :
    k' = PressCandidate.next handle cs k := by
  cases hl : leading cs with
  | none =>
    obtain rfl := leading_eq_none.1 hl
    exact halone rfl
  | some l =>
    obtain ⟨hmem, hlead⟩ := leading_spec hs hl
    obtain ⟨hgoesOn, hstarts⟩ := hled l hmem hlead
    cases k with
    | none => rw [PressCandidate.next_first hl, hstarts (by simp)]
    | some x =>
      by_cases hx : ∃ c ∈ cs, c.id = x.contact
      · rw [PressCandidate.next_goesOn hl hx, hgoesOn x rfl hx]
      · have hx : ∀ c ∈ cs, c.id ≠ x.contact := fun c hc heq => hx ⟨c, hc, heq⟩
        rw [PressCandidate.next_restarts hl hx, hstarts fun y hy => Option.some.inj hy ▸ hx]

theorem PressCandidate.current_eq (k : Option PressCandidate) : PressCandidate.current handle k =
    match k with
    | some x => if x.handle = handle then some x else none
    | none => none := by
  cases k <;> rfl

end

/-! ### The zone state (R157, R158) -/

theorem ZoneState.isPressed_iff {z : Option ZoneState} : ZoneState.isPressed z = true ↔ ∃ i, z = some (.pressed i) := by
  rcases z with _ | _ | i <;> simp [ZoneState.isPressed]

section
variable {debounce : Nat} {cs : List Contact} {k : Option PressCandidate}

/-- A PRESSED zone without a contact is released (R158). -/
theorem ZoneState.next_released (i : Nat) : ZoneState.next debounce [] k (some (.pressed i)) = some .idle := rfl

/-- A PRESSED zone stays pressed by a contact still associated (R158). -/
theorem ZoneState.next_stays {i : Nat} (h : ∃ c ∈ cs, c.id = i) :
    ZoneState.next debounce cs k (some (.pressed i)) = some (.pressed i) := by
  obtain ⟨c, hc, -⟩ := id h
  have hne : ¬cs.isEmpty = true := by
    rw [List.isEmpty_iff]
    exact List.ne_nil_of_mem hc
  simp only [ZoneState.next, if_neg hne, if_pos (any_id_iff.2 h)]

/-- A PRESSED zone whose contact left it passes to the candidate's contact (R158). -/
theorem ZoneState.next_passes {i : Nat} {x : PressCandidate} (hcs : cs ≠ []) (h : ∀ c ∈ cs, c.id ≠ i) :
    ZoneState.next debounce cs (some x) (some (.pressed i)) = some (.pressed x.contact) := by
  have hne : ¬cs.isEmpty = true := by rwa [List.isEmpty_iff]
  simp only [ZoneState.next, if_neg hne, any_id_eq_false.2 h, if_neg Bool.false_ne_true]

/-- A zone not PRESSED is pressed once the candidate's run reaches the debounce (R157). -/
theorem ZoneState.next_unpressed {z : Option ZoneState} (h : ∀ i, z ≠ some (.pressed i)) :
    ZoneState.next debounce cs k z = match k with
      | some x => if debounce ≤ x.run then some (.pressed x.contact) else z
      | none => z := by
  rcases z with _ | _ | i
  · rfl
  · rfl
  · exact absurd rfl (h i)

/-- The rules of R157 and R158 determine the zone state. -/
theorem ZoneState.eq_next {z before : Option ZoneState} (hk : cs ≠ [] → k ≠ none)
    (hpressed : ∀ i, before = some (.pressed i) →
      (cs = [] → z = some .idle) ∧ ((∃ c ∈ cs, c.id = i) → z = some (.pressed i)) ∧
        (∀ x, cs ≠ [] → (∀ c ∈ cs, c.id ≠ i) → k = some x → z = some (.pressed x.contact)))
    (hunpressed : (∀ i, before ≠ some (.pressed i)) →
      (k = none → z = before) ∧
        ∀ x, k = some x → z = if debounce ≤ x.run then some (.pressed x.contact) else before) :
    z = ZoneState.next debounce cs k before := by
  by_cases hb : ∃ i, before = some (.pressed i)
  · obtain ⟨i, rfl⟩ := hb
    obtain ⟨hreleased, hstays, hpasses⟩ := hpressed i rfl
    by_cases hcs : cs = []
    · subst hcs
      exact hreleased rfl
    by_cases hi : ∃ c ∈ cs, c.id = i
    · rw [ZoneState.next_stays hi, hstays hi]
    · have hi : ∀ c ∈ cs, c.id ≠ i := fun c hc heq => hi ⟨c, hc, heq⟩
      obtain ⟨x, rfl⟩ := Option.ne_none_iff_exists'.1 (hk hcs)
      rw [ZoneState.next_passes hcs hi, hpasses x hcs hi rfl]
  · have hb : ∀ i, before ≠ some (.pressed i) := fun i hi => hb ⟨i, hi⟩
    obtain ⟨hnone, hsome⟩ := hunpressed hb
    rw [ZoneState.next_unpressed hb]
    cases k with
    | none => exact hnone rfl
    | some x => exact hsome x rfl

end

/-! ### Step 4 for one contract number (R157 to R160) -/

section
variable {b : Part} {n : Nat} {r : Record}

/-- A number without a zone contract keeps a candidate of its own handle alone (R157). -/
theorem Part.pressOne_noZone (hr : r = b.record n) (hz : r.isZoneContract = false) :
    b.pressOne n =
      b.modTouch (Touch.setCandidate n (PressCandidate.current (r.handle n) (b.touch.candidate n))) := by
  subst hr
  simp only [Part.pressOne, Record.isCandidateZone_eq_false hz, hz, Bool.false_eq_true, if_false]

/-- A zone contract that is no candidate zone loses candidate and press without notice (R159). -/
theorem Part.pressOne_resting (hr : r = b.record n) (hz : r.isZoneContract = true) (hc : r.isCandidateZone = false) :
    b.pressOne n =
      if ZoneState.isPressed r.zoneState then (b.modTouch (Touch.setCandidate n none)).setRecord n r.releaseQuietly
      else b.modTouch (Touch.setCandidate n none) := by
  subst hr
  simp only [Part.pressOne, hc, hz, Bool.false_eq_true, if_false, if_true]

/-- A candidate zone takes the next candidate and the next zone state, a changed one with a ZONE notice (R157, R158,
R160). -/
theorem Part.pressOne_candidateZone {k' : Option PressCandidate} {z : Option ZoneState} (hr : r = b.record n)
    (hc : r.isCandidateZone = true)
    (hk' : k' = PressCandidate.next (r.handle n) (associated (r.handle n) b.touch.contacts)
      (PressCandidate.current (r.handle n) (b.touch.candidate n)))
    (hz : z = ZoneState.next r.debounce (associated (r.handle n) b.touch.contacts) k' r.zoneState) :
    b.pressOne n =
      if z = r.zoneState then b.modTouch (Touch.setCandidate n k')
      else ((b.modTouch (Touch.setCandidate n k')).setRecord n { r with zoneState := z }).raiseWhere
        (fun p => p.bits == r.owner) (.zone n) := by
  subst hz hk' hr
  simp only [Part.pressOne, hc, if_true]

end

theorem Record.releaseQuietly_pressed {r : Record} {i : Nat} (h : r.zoneState = some (.pressed i)) :
    r.releaseQuietly = { r with zoneState := some .idle } := if_pos (ZoneState.isPressed_iff.2 ⟨i, h⟩)

/-! ### The tracking event (R148, R160) -/

theorem Part.track_eq (b : Part) (h : HandOver) :
    b.track h = Part.noticeContacts b.touch.contacts
      ((List.range 64).foldl (fun b n => b.pressOne n) ((b.takePeaks h).associateContacts)) := rfl

/-- Step 3 on good records (R26, R156). -/
theorem Part.associateContacts_good {b : Part} (h : b.allGood = true) :
    b.associateContacts = b.modTouch (Touch.associate b.table) := by
  rw [Part.associateContacts, Part.verifyAll_good .tracker h]
  rfl

theorem ownsZone_eq (table : List Record) (p : Port) : ownsZone table p = table.any fun r =>
    r.state != .free && r.panel == .centre && r.params.zone.isSome && r.owner == p.bits := rfl

theorem Contact.associate_lifted {table : List Record} {c : Contact} (h : c.state = .lifted) : c.associate table = c :=
  if_pos h

theorem Contact.associate_standing {table : List Record} {c : Contact} (h : c.state ≠ .lifted) :
    c.associate table = { c with zone := zoneAt table c.x c.y } := if_neg h

/-- Settles O44: the best zone is the head of a stable sort, and the rules of press and release determine candidate and
zone state. -/
theorem zonesFollowContacts : Obligations.ZonesFollowContacts := by
  unfold Obligations.ZonesFollowContacts
  refine ⟨fun b h => ⟨b.track_eq h, Part.associateContacts_good⟩, ?_, ?_, ?_⟩
  · intro table c holds hlen hholds
    have hholds (r : Record) : holds r ↔ (r.isCandidateZone && r.zoneHolds c.x c.y) = true :=
      (hholds r).trans (r.holdsPixel_iff c.x c.y).symm
    simp only [hholds]
    refine ⟨Contact.associate_lifted, fun hs hnone => ?_, fun n r hs hn hr hbest => ?_⟩
    · rw [Contact.associate_standing hs, zoneAt_eq_none hlen hnone]
    · rw [Contact.associate_standing hs, zoneAt_eq_some hlen hn hr hbest]
  · intro b n r mine k k' z hr hlaw hmine hk
    have hk : k = PressCandidate.current (r.handle n) (b.touch.candidate n) :=
      hk.trans (PressCandidate.current_eq _).symm
    refine ⟨fun hno => ?_, fun hp hz hs => ?_, fun y hp hy hs halone hled hpressed hunpressed => ?_⟩
    · have hno : r.isZoneContract = false := by
        rw [← Bool.not_eq_true, r.isZoneContract_iff]
        tauto
      rw [hk]
      exact Part.pressOne_noZone hr hno
    · have hzone : r.isZoneContract = true :=
        r.isZoneContract_iff.2 ⟨by rcases hs with h | h <;> simp [h], hp, hz⟩
      have hcand : r.isCandidateZone = false := by
        rw [← Bool.not_eq_true, r.isCandidateZone_iff]
        rcases hs with h | h <;> simp [h]
      rw [Part.pressOne_resting hr hzone hcand]
      refine ⟨fun hun => ?_, fun i hi => ?_⟩
      · exact if_neg fun h => (ZoneState.isPressed_iff.1 h).elim hun
      · rw [if_pos (ZoneState.isPressed_iff.2 ⟨i, hi⟩), Record.releaseQuietly_pressed hi]
        rfl
    · have hcand : r.isCandidateZone = true := r.isCandidateZone_iff.2 ⟨hp, hs, by simp [hy]⟩
      have hmine : mine = associated (r.handle n) b.touch.contacts := hmine
      have hdebounce : r.debounce = y.debounce := by simp [Record.debounce, hy]
      have hsorted := associated_sorted hlaw (r.handle n)
      rw [← hmine] at hsorted
      have hnext : k' = PressCandidate.next (r.handle n) mine k := PressCandidate.eq_next hsorted halone hled
      have hznext : z = ZoneState.next y.debounce mine k' r.zoneState :=
        ZoneState.eq_next (fun hne => hnext ▸ PressCandidate.next_ne_none k hne) hpressed hunpressed
      rw [hmine, hk] at hnext
      rw [hmine, ← hdebounce] at hznext
      exact Part.pressOne_candidateZone hr hcand hnext hznext
  · intro b before changed hchanged
    refine ⟨fun h => if_pos ?_, fun h => (if_neg (hchanged.1 h)).trans rfl⟩
    exact not_not.1 fun hne => h (hchanged.2 hne)

end Sys2Proof.Machine

/-!
# The family of the fault monitor: the count law at every step, the requests of a bank, injected and genuine claims,
escalation
-/

/-! # The count law at every step (R169) -/

namespace Sys2Proof.Machine

/-- Settles O56: every step upholds the law of the corrected counts. -/
theorem countsStayBelow : Obligations.CountsStayBelow := by
  unfold Obligations.CountsStayBelow
  exact fun s t hs h => (step_upholds h).counts hs

end Sys2Proof.Machine

/-! # The requests of a bank and of a panel's flag (R176 to R179) -/

namespace Sys2Proof.Machine

/-! ### The bytes of FAULT_READ (Table 11-7) -/

/-- The record flags as the sum of their bits (Table 11-7). -/
theorem FaultRecord.flagByte_eq (r : FaultRecord) :
    [flagByte [true, r.overflow, r.injected, r.panel.isSome, r.handle.isSome]] =
      byte1 (1 + 2 * r.overflow.toNat + 4 * r.injected.toNat + 8 * r.panel.isSome.toNat + 16 * r.handle.isSome.toNat) := by
  simp only [flagByte, byte1, bitsToNat, Bool.toNat_true]
  congr 2
  omega

section
variable {k : FaultBank}

/-- Offsets 0 to 11 for an empty slot: zeros and an absent handle (Table 11-7). -/
theorem FaultBank.recordHead_empty (h : k.record = none) :
    [k.recordFlags] ++ k.recordBytes = [0, 0, 0, 0, 0, 0xFF, 0xFF, 0, 0, 0, 0, 0] := by
  rw [FaultBank.recordFlags, FaultBank.recordBytes, h]
  rfl

/-- Offsets 0 to 11 for a record, field by field (Table 11-7). -/
theorem FaultBank.recordHead_held {r : FaultRecord} (h : k.record = some r) :
    [k.recordFlags] ++ k.recordBytes =
      byte1 (1 + 2 * r.overflow.toNat + 4 * r.injected.toNat + 8 * r.panel.isSome.toNat + 16 * r.handle.isSome.toNat) ++
        byte1 r.cls.rank ++ byte1 r.code.code ++ byte1 r.scope.code ++ byte1 ((r.panel.map Panel.num).getD 0) ++
        byte2 (r.handle.getD 0xFFFF) ++ [r.detail] ++ byte4 r.frame.toNat := by
  rw [← r.flagByte_eq, FaultBank.recordFlags, FaultBank.recordBytes, h]
  rfl

end

theorem FaultBank.recordBytes_length (k : FaultBank) : k.recordBytes.length = 11 := by
  unfold FaultBank.recordBytes
  cases k.record <;> rfl

theorem FaultBank.readBytes_length (k : FaultBank) (injectEnable : Bool) : (k.readBytes injectEnable).length = 17 := by
  simp only [FaultBank.readBytes, List.length_append, byte1_length, k.recordBytes_length, List.length_singleton]

/-! ### FAULT_READ, FAULT_CLEAR and ACK_CRITICAL (R176 to R178) -/

section
variable {b : Part} {ps : List Byte} {k : Bank} {q : Panel}

theorem Part.faultRead_badArg (h : bankArg ps = none) : b.faultRead ps = (b, Reply.bare .badArg) := by
  simp [Part.faultRead, h]

theorem Part.faultRead_eq (h : bankArg ps = some k) :
    b.faultRead ps = (b, { status := .ok, payload := (b.bank k).readBytes b.faults.injectEnable }) := by
  simp [Part.faultRead, h]

theorem Part.faultClear_badArg (h : bankArg ps = none) : b.faultClear ps = (b, Reply.bare .badArg) := by
  simp [Part.faultClear, h]

theorem Part.faultClear_eq (h : bankArg ps = some k) :
    b.faultClear ps = (b.setBank k { b.bank k with record := none }, Reply.bare .ok) := by
  simp [Part.faultClear, h, FaultBank.cleared]

theorem Part.ackCritical_badArg (h : panelArg ps = none) : b.ackCritical ps = (b, Reply.bare .badArg) := by
  simp [Part.ackCritical, h]

theorem Part.ackCritical_set (h : panelArg ps = some q) (hc : (b.engine q).critical = true) :
    b.ackCritical ps = (b.modEngine q fun e => { e with critical := false }, Reply.bare .ok) := by
  simp [Part.ackCritical, h, hc]

theorem Part.ackCritical_clear (h : panelArg ps = some q) (hc : (b.engine q).critical = false) :
    b.ackCritical ps = (b, Reply.bare .nothingPending) := by
  simp [Part.ackCritical, h, hc]

end

/-- Settles O46: the bytes written out are those of the model's FAULT_READ payload, and each request acts by its one
argument. -/
theorem faultReadClearAck : Obligations.FaultReadClearAck := by
  unfold Obligations.FaultReadClearAck
  refine fun p ps s => ⟨fun h => ⟨fun ha => State.take_serve_eq h (Part.faultRead_badArg ha), ?_⟩,
    fun h => ⟨fun ha => State.take_serve_eq h (Part.faultClear_badArg ha),
      fun k ha => State.take_serve_eq h (Part.faultClear_eq ha)⟩,
    fun h => ⟨fun ha => State.take_serve_eq h (Part.ackCritical_badArg ha),
      fun q ha => ⟨fun hc => State.take_serve_eq h (Part.ackCritical_set (b := s.fresh) ha hc),
        fun hc => State.take_serve_eq h (Part.ackCritical_clear (b := s.fresh) ha hc)⟩⟩⟩
  rintro k head bytes ha hempty hheld rfl
  have hhead : head = [(s.part.bank k).recordFlags] ++ (s.part.bank k).recordBytes := by
    cases hr : (s.part.bank k).record with
    | none => rw [hempty hr, FaultBank.recordHead_empty hr]
    | some r =>
      rw [hheld r hr, FaultBank.recordHead_held hr]
      iterate 7 refine congrArg₂ (· ++ ·) ?_ ?_
      · rfl
      · cases r.cls <;> rfl
      · cases r.code <;> rfl
      · cases r.scope <;> rfl
      · rcases r.panel with _ | _ | _ <;> rfl
      · rfl
      · rfl
      · rfl
  rw [hhead]
  exact ⟨(s.part.bank k).readBytes_length s.part.faults.injectEnable, State.take_serve_eq h (Part.faultRead_eq ha)⟩

/-! ### The bytes of FAULT_CONTROL (R179, R196) -/

theorem boolOf?_eq_none {x : Byte} (h : 1 < x.toNat) : boolOf? x = none := by
  unfold boolOf?
  split
  · omega
  · omega
  · rfl

theorem boolOf?_of_le {x : Byte} (h : x.toNat ≤ 1) : boolOf? x = some (decide (x.toNat = 1)) := by
  obtain hx | hx : x.toNat = 0 ∨ x.toNat = 1 := by omega
  all_goals simp [boolOf?, hx]

section
variable {kn en mask th inj : Byte}

theorem faultControlArgs_bytes : faultControlArgs [kn, en, mask, th, inj] =
    (Bank.ofNat? kn.toNat).bind fun k => (boolOf? en).bind fun e => (boolOf? inj).bind fun i =>
      if mask.toNat < 8 ∧ 1 ≤ th.toNat then
        some { bank := k, enable := e, mask := BitVec.ofNat 3 mask.toNat, threshold := th.toNat, injectEnable := i }
      else none := by
  dsimp only [faultControlArgs]
  cases Bank.ofNat? kn.toNat with
  | none => rfl
  | some k =>
    cases boolOf? en with
    | none => rfl
    | some e => cases boolOf? inj <;> rfl

theorem one_le_toNat_iff {x : Byte} : 1 ≤ x.toNat ↔ x ≠ 0 := by
  bv_omega

theorem faultControlArgs_eq_none
    (h : Bank.ofNat? kn.toNat = none ∨ 1 < en.toNat ∨ 8 ≤ mask.toNat ∨ th = 0 ∨ 1 < inj.toNat) :
    faultControlArgs [kn, en, mask, th, inj] = none := by
  rw [faultControlArgs_bytes]
  rcases h with h | h | h | h | h
  · rw [h]; rfl
  · simp [boolOf?_eq_none h]
  · simp [Nat.not_lt.2 h]
  · simp [h]
  · simp [boolOf?_eq_none h]

theorem faultControlArgs_eq_some {k : Bank} (hk : Bank.ofNat? kn.toNat = some k) (hen : en.toNat ≤ 1)
    (hmask : mask.toNat < 8) (hth : th ≠ 0) (hinj : inj.toNat ≤ 1) :
    faultControlArgs [kn, en, mask, th, inj] = some
      { bank := k, enable := decide (en.toNat = 1), mask := BitVec.ofNat 3 mask.toNat, threshold := th.toNat,
        injectEnable := decide (inj.toNat = 1) } := by
  rw [faultControlArgs_bytes, hk, boolOf?_of_le hen, boolOf?_of_le hinj]
  exact if_pos ⟨hmask, one_le_toNat_iff.2 hth⟩

end

/-! ### FAULT_CONTROL (R179) -/

/-- The part after an accepted FAULT_CONTROL: the bank's controls and the inject enable are replaced (R179). -/
def Part.withControls (a : FaultControlArgs) (b : Part) : Part :=
  { b with faults := { banks := b.faults.banks.set a.bank ((b.bank a.bank).controlled a), injectEnable := a.injectEnable } }

section
variable {b : Part} {ps : List Byte} {a : FaultControlArgs}

theorem Part.faultControl_badArg (h : faultControlArgs ps = none) : b.faultControl ps = (b, Reply.bare .badArg) := by
  simp [Part.faultControl, h]

theorem Part.faultControl_taken (h : faultControlArgs ps = some a) :
    b.faultControl ps = (b.withControls a, Reply.bare .ok) := by
  simp [Part.faultControl, h, Part.withControls]

theorem Part.withControls_bank (k : Bank) :
    (b.withControls a).bank k = if k = a.bank then (b.bank a.bank).controlled a else b.bank k := PerBank.get_set _ _ _ _

/-- The count is kept where it is below the new threshold (R179). -/
theorem FaultBank.controlled_eq (a : FaultControlArgs) (k : FaultBank) : k.controlled a =
    { k with
      enabled := a.enable, mask := a.mask, threshold := a.threshold
      count := if k.count < a.threshold then k.count else 0 } := by
  unfold FaultBank.controlled
  congr 1
  split <;> split <;> omega

end

/-- Settles O47: the ranges over the five bytes, and the bank's controls replaced. -/
theorem faultControlReplaces : Obligations.FaultControlReplaces := by
  unfold Obligations.FaultControlReplaces
  refine fun p kn en mask th inj s h => ⟨fun hbad =>
    State.take_serve_eq h (Part.faultControl_badArg (faultControlArgs_eq_none hbad)), fun k hk hen hmask hth hinj => ?_⟩
  have ha := faultControlArgs_eq_some hk hen hmask hth hinj
  refine ⟨_, State.take_serve_eq h (Part.faultControl_taken ha), rfl, ?_, fun k' hk' => ?_, rfl⟩
  · rw [Part.withControls_bank, if_pos rfl, FaultBank.controlled_eq]
    rfl
  · rw [Part.withControls_bank, if_neg hk']
    rfl

end Sys2Proof.Machine

/-! # Claims, injected and genuine (R167 to R171, R180) -/

namespace Sys2Proof.Machine

/-! ### The numbers of an INJECT (Tables 11-1 and 11-4) -/

theorem Bank.num_of_ofNat? {n : Nat} {k : Bank} (h : Bank.ofNat? n = some k) : k.num = n := by
  unfold Bank.ofNat? at h
  split at h <;> cases h <;> rfl

theorem FaultClass.rank_of_ofNat? {n : Nat} {c : FaultClass} (h : FaultClass.ofNat? n = some c) : c.rank = n := by
  unfold FaultClass.ofNat? at h
  split at h <;> cases h <;> rfl

theorem FaultCode.code_of_ofNat? {n : Nat} {c : FaultCode} (h : FaultCode.ofNat? n = some c) : c.code = n := by
  unfold FaultCode.ofNat? at h
  split at h <;> cases h <;> rfl

theorem FaultScope.code_of_ofNat? {n : Nat} {c : FaultScope} (h : FaultScope.ofNat? n = some c) : c.code = n := by
  unfold FaultScope.ofNat? at h
  split at h <;> cases h <;> rfl

theorem Bank.ofNat?_isSome (n : Nat) : (Bank.ofNat? n).isSome = true ↔ n ≤ 3 := by
  match n with
  | 0 | 1 | 2 | 3 => simp [Bank.ofNat?]
  | n + 4 => simp [Bank.ofNat?]

theorem FaultClass.ofNat?_isSome (n : Nat) : (FaultClass.ofNat? n).isSome = true ↔ n ≤ 2 := by
  match n with
  | 0 | 1 | 2 => simp [FaultClass.ofNat?]
  | n + 3 => simp [FaultClass.ofNat?]

theorem FaultCode.ofNat?_isSome (n : Nat) : (FaultCode.ofNat? n).isSome = true ↔ 1 ≤ n ∧ n ≤ 16 := by
  match n with
  | 0 => simp [FaultCode.ofNat?]
  | 1 | 2 | 3 | 4 | 5 | 6 | 7 | 8 | 9 | 10 | 11 | 12 | 13 | 14 | 15 | 16 => simp [FaultCode.ofNat?]
  | n + 17 => simp [FaultCode.ofNat?]

theorem FaultScope.ofNat?_isSome (n : Nat) : (FaultScope.ofNat? n).isSome = true ↔ n ≤ 2 := by
  match n with
  | 0 | 1 | 2 => simp [FaultScope.ofNat?]
  | n + 3 => simp [FaultScope.ofNat?]

section
variable {kn cn code scope detail : Byte}

theorem injectArgs_bytes : injectArgs [kn, cn, code, scope, detail] =
    (Bank.ofNat? kn.toNat).bind fun k => (FaultClass.ofNat? cn.toNat).bind fun cls =>
      (FaultCode.ofNat? code.toNat).bind fun cd => (FaultScope.ofNat? scope.toNat).map fun sc =>
        (k, { code := cd, cls := cls, scope := sc, panel := none, handle := none, detail := detail }) := by
  dsimp only [injectArgs]
  cases Bank.ofNat? kn.toNat with
  | none => rfl
  | some k =>
    cases FaultClass.ofNat? cn.toNat with
    | none => rfl
    | some cls =>
      cases FaultCode.ofNat? code.toNat with
      | none => rfl
      | some cd => cases FaultScope.ofNat? scope.toNat <;> rfl

/-- The five bytes of an accepted INJECT are the numbers of its bank and claim, in their ranges (R180, Table 11-4). -/
theorem injectArgs_ranges {x : Bank × Claim} (h : injectArgs [kn, cn, code, scope, detail] = some x) :
    kn.toNat ≤ 3 ∧ cn.toNat ≤ 2 ∧ (1 ≤ code.toNat ∧ code.toNat ≤ 16) ∧ scope.toNat ≤ 2 := by
  simp only [injectArgs_bytes, Option.bind_eq_some_iff, Option.map_eq_some_iff] at h
  obtain ⟨k, hk, cls, hcls, cd, hcd, sc, hsc, -⟩ := h
  rw [← Bank.ofNat?_isSome, ← FaultClass.ofNat?_isSome, ← FaultCode.ofNat?_isSome, ← FaultScope.ofNat?_isSome, hk, hcls,
    hcd, hsc]
  exact ⟨rfl, rfl, rfl, rfl⟩

theorem injectArgs_eq_some (hk : kn.toNat ≤ 3) (hcls : cn.toNat ≤ 2) (hcd : 1 ≤ code.toNat ∧ code.toNat ≤ 16)
    (hsc : scope.toNat ≤ 2) : ∃ k c, injectArgs [kn, cn, code, scope, detail] = some (k, c) ∧ k.num = kn.toNat ∧
      c.detail = detail ∧ c.cls.rank = cn.toNat ∧ c.scope.code = scope.toNat ∧ c.code.code = code.toNat := by
  obtain ⟨k, hk⟩ := Option.isSome_iff_exists.1 ((Bank.ofNat?_isSome _).2 hk)
  obtain ⟨cls, hcls⟩ := Option.isSome_iff_exists.1 ((FaultClass.ofNat?_isSome _).2 hcls)
  obtain ⟨cd, hcd⟩ := Option.isSome_iff_exists.1 ((FaultCode.ofNat?_isSome _).2 hcd)
  obtain ⟨sc, hsc⟩ := Option.isSome_iff_exists.1 ((FaultScope.ofNat?_isSome _).2 hsc)
  refine ⟨k, { code := cd, cls := cls, scope := sc, panel := none, handle := none, detail := detail }, ?_,
    Bank.num_of_ofNat? hk, rfl, FaultClass.rank_of_ofNat? hcls, FaultScope.code_of_ofNat? hsc,
    FaultCode.code_of_ofNat? hcd⟩
  rw [injectArgs_bytes, hk, hcls, hcd, hsc]
  rfl

end

/-- An injected claim names neither panel nor handle (R180). -/
theorem injectArgs_absent {ps : List Byte} {k : Bank} {c : Claim} (h : injectArgs ps = some (k, c)) :
    c.panel = none ∧ c.handle = none := by
  unfold injectArgs at h
  split at h
  · split at h
    · cases h; exact ⟨rfl, rfl⟩
    · cases h
  · cases h

/-! ### The notices of a claim (R169, R171, R172) -/

/-- A bank raises THRESHOLD where a CORRECTED claim fills its count and its mask names CORRECTED (R169). -/
theorem FaultBank.raises_threshold_iff (bank : FaultBank) (c : FaultClass) (takes : Bool) :
    (takes && bank.reachesThreshold c && bank.reports c) = true ↔
      takes = true ∧ (c = .corrected ∧ bank.count + 1 = bank.threshold) ∧ bank.reports .corrected = true := by
  simp only [FaultBank.reachesThreshold, Bool.and_eq_true, beq_iff_eq, and_assoc]
  exact and_congr_right fun _ => and_congr_right fun hc => by rw [hc]

section
variable (x : ClientPort) (r : Bool)

theorem ClientPort.raiseIf_threshold (k : Bank) : x.raiseIf r (.threshold k) = { x with noticeSet := { x.noticeSet with
    threshold := if r then x.noticeSet.threshold ||| bitOf 4 k.num else x.noticeSet.threshold } } := by cases r <;> rfl

theorem ClientPort.raiseIf_fault (k : Bank) : x.raiseIf r (.fault k) = { x with noticeSet := { x.noticeSet with
    fault := if r then x.noticeSet.fault ||| bitOf 4 k.num else x.noticeSet.fault } } := by cases r <;> rfl

theorem ClientPort.raiseIf_critical (p : Panel) : x.raiseIf r (.critical p) = { x with noticeSet := { x.noticeSet with
    critical := if r then x.noticeSet.critical ||| bitOf 2 p.num else x.noticeSet.critical } } := by cases r <;> rfl

end

section
variable (c : Claim) (k : Bank) (bank : FaultBank) (takes injected : Bool) (x : ClientPort)

/-- A claim raises no notice but THRESHOLD, FAULT and CRITICAL (R171). -/
theorem Claim.notify_sets : c.notify k bank takes injected x = { x with noticeSet := { x.noticeSet with
    threshold := (c.notify k bank takes injected x).noticeSet.threshold
    fault := (c.notify k bank takes injected x).noticeSet.fault
    critical := (c.notify k bank takes injected x).noticeSet.critical } } := by
  simp only [Claim.notify, ClientPort.raiseIf_threshold, ClientPort.raiseIf_fault, ClientPort.raiseIf_critical]

/-- The THRESHOLD notice of a claim (R169). -/
theorem Claim.notify_threshold : (c.notify k bank takes injected x).noticeSet.threshold =
    if takes = true ∧ (c.cls = .corrected ∧ bank.count + 1 = bank.threshold) ∧ bank.reports .corrected = true then
      x.noticeSet.threshold ||| bitOf 4 k.num
    else x.noticeSet.threshold := by
  simp only [Claim.notify, ClientPort.raiseIf_threshold, ClientPort.raiseIf_fault, ClientPort.raiseIf_critical,
    bank.raises_threshold_iff]

/-- The FAULT notice of a claim (R171). -/
theorem Claim.notify_fault : (c.notify k bank takes injected x).noticeSet.fault =
    if takes = true ∧ bank.reports c.cls = true then x.noticeSet.fault ||| bitOf 4 k.num else x.noticeSet.fault := by
  simp only [Claim.notify, ClientPort.raiseIf_threshold, ClientPort.raiseIf_fault, ClientPort.raiseIf_critical,
    Bool.and_eq_true]

variable {c injected}

/-- A claim that is not escalated raises no CRITICAL notice (R172). -/
theorem Claim.notify_critical_not (h : c.escalates injected = false) :
    (c.notify k bank takes injected x).noticeSet.critical = x.noticeSet.critical := by
  simp [Claim.notify, ClientPort.raiseIf_threshold, ClientPort.raiseIf_fault, ClientPort.raiseIf_critical, h]

end

/-! ### The bank a claim is taken at (R168 to R170) -/

theorem FaultClass.rank_lt_iff (c d : FaultClass) :
    c.rank < d.rank ↔ (c = .corrected ∧ d ≠ .corrected) ∨ (c = .contained ∧ d = .critical) := by
  cases c <;> cases d <;> decide

section
variable {bank : FaultBank}

theorem FaultBank.countAfter_full {c : FaultClass} (h : c = .corrected ∧ bank.count + 1 = bank.threshold) :
    bank.countAfter c = 0 := by simp [FaultBank.countAfter, h]

theorem FaultBank.countAfter_not_full {c : FaultClass} (h : ¬(c = .corrected ∧ bank.count + 1 = bank.threshold)) :
    bank.countAfter c = if c = .corrected then bank.count + 1 else bank.count := by
  unfold FaultBank.countAfter
  split
  · rename_i hc
    exact if_neg fun hfull => h ⟨hc, hfull⟩
  · rfl

variable {r : FaultRecord} {c : Claim} (frame : FrameNo) (injected : Bool)

/-- A bank that takes a claim: the count after it and the record placed, its controls as they were (R169, R170). -/
theorem FaultBank.take_of_placed (h : bank.placed c frame injected = r) : bank.take c frame injected =
    { bank with
      count := if c.cls = .corrected then (if bank.count + 1 = bank.threshold then 0 else bank.count + 1) else bank.count
      record := some r } := by
  rw [FaultBank.take, h, FaultBank.countAfter]

theorem FaultRecord.ofClaim_unnamed (hpanel : c.panel = none) (hhandle : c.handle = none) {frame : FrameNo}
    {overflow injected : Bool} : FaultRecord.ofClaim c frame overflow injected =
      { cls := c.cls, code := c.code, scope := c.scope, panel := none, handle := none, detail := c.detail, frame := frame,
        overflow := overflow, injected := injected } := by
  rw [FaultRecord.ofClaim, hpanel, hhandle]

theorem FaultBank.placed_empty (h : bank.record = none) :
    bank.placed c frame injected = FaultRecord.ofClaim c frame false injected := by rw [FaultBank.placed, h]

theorem FaultBank.placed_higher (h : bank.record = some r) (hrank : r.cls.rank < c.cls.rank) :
    bank.placed c frame injected = FaultRecord.ofClaim c frame true injected := by
  rw [FaultBank.placed, h]
  exact if_pos hrank

theorem FaultBank.placed_kept (h : bank.record = some r) (hrank : ¬r.cls.rank < c.cls.rank) :
    bank.placed c frame injected = { r with overflow := true } := by
  rw [FaultBank.placed, h]
  exact if_neg hrank

end

section
variable {b : Part} {k : Bank} {c : Claim} {injected : Bool}

theorem Part.claimAs_bank_ne {k' : Bank} (h : k' ≠ k) : (b.claimAs injected k c).bank k' = b.bank k' := by
  rw [Part.claimAs_bank, if_neg fun hk => h hk.1]

theorem Part.claimAs_bank_taken (h : ((b.bank k).enabled || injected) = true) :
    (b.claimAs injected k c).bank k = (b.bank k).take c (b.engine (c.panel.getD .cluster)).frame injected := by
  rw [Part.claimAs_bank, if_pos ⟨rfl, h⟩]

/-- A claim that is not escalated changes no timeline engine (R172). -/
theorem Part.claimAs_engines_not (h : c.escalates injected = false) : (b.claimAs injected k c).engines = b.engines := by
  simp [Part.claimAs, h]

/-- A claim not escalated leaves everything but the fault monitor and the ports (R167). -/
theorem Part.claimAs_rest (h : c.escalates injected = false) : b.claimAs injected k c =
    { b with faults := (b.claimAs injected k c).faults, ports := (b.claimAs injected k c).ports } := by
  have hengines := Part.claimAs_engines_not (b := b) (k := k) h
  calc b.claimAs injected k c
      = { b with
          faults := (b.claimAs injected k c).faults, ports := (b.claimAs injected k c).ports
          engines := (b.claimAs injected k c).engines } := rfl
    _ = _ := by rw [hengines]

theorem Part.claimAs_port_ne {p : Port} (h : p ≠ b.strap) : (b.claimAs injected k c).port p = b.port p := by
  rw [Part.claimAs_port, if_neg h]

theorem Part.claimAs_port_strap : (b.claimAs injected k c).port b.strap =
    c.notify k (b.bank k) ((b.bank k).enabled || injected) injected (b.port b.strap) := by
  rw [Part.claimAs_port, if_pos rfl]

end

/-- An injected claim is never escalated (R180). -/
theorem Claim.escalates_injected (c : Claim) : c.escalates true = false := by simp [Claim.escalates]

theorem Claim.escalates_below {c : Claim} (h : c.cls ≠ .critical) (injected : Bool) : c.escalates injected = false := by
  simp [Claim.escalates, h]

theorem Claim.escalates_critical {c : Claim} (h : c.cls = .critical) : c.escalates false = true := by
  simp [Claim.escalates, h]

/-! ### INJECT (R180) -/

section
variable {b : Part} {ps : List Byte} {k : Bank} {c : Claim}

theorem Part.inject_badArg (h : injectArgs ps = none) : b.inject ps = (b, Reply.bare .badArg) := by
  simp [Part.inject, h]

theorem Part.inject_noAuthority (h : injectArgs ps = some (k, c)) (hi : b.faults.injectEnable = false) :
    b.inject ps = (b, Reply.bare .noAuthority) := by
  simp [Part.inject, h, hi]

theorem Part.inject_taken (h : injectArgs ps = some (k, c)) (hi : b.faults.injectEnable = true) :
    b.inject ps = (b.claimAs true k c, Reply.bare .ok) := by
  simp [Part.inject, h, hi]

end

/-- Settles O48: the ranges of the five bytes, and an accepted claim read off the claim's rules, the bank taking part and
nothing escalated. -/
theorem injectTakesClaim : Obligations.InjectTakesClaim := by
  unfold Obligations.InjectTakesClaim
  refine fun p ps s h => ⟨fun ha => State.take_serve_eq h (Part.inject_badArg ha), ?_,
    fun k c ha => ⟨fun hi => State.take_serve_eq h (Part.inject_noAuthority (b := s.fresh) ha hi), fun hi => ?_⟩⟩
  · rintro kn cn code scope detail rfl
    refine ⟨fun hout => ?_, fun hk hcls hcd₁ hcd₂ hsc => ?_⟩
    · have hnone : injectArgs [kn, cn, code, scope, detail] = none := Option.eq_none_iff_forall_ne_some.2 fun x hx => by
        have := injectArgs_ranges hx
        omega
      exact State.take_serve_eq h (Part.inject_badArg hnone)
    · obtain ⟨k, c, ha, hnum, hdetail, hrank, hscope, hcode⟩ :=
        injectArgs_eq_some (detail := detail) hk hcls ⟨hcd₁, hcd₂⟩ hsc
      refine ⟨k, c, ha, hnum, hdetail, ?_, ?_, ?_⟩
      · rw [← hrank]; cases c.cls <;> rfl
      · rw [← hscope]; cases c.scope <;> rfl
      · rw [← hcode]; cases c.code <;> rfl
  · obtain ⟨hpanel, hhandle⟩ := injectArgs_absent ha
    have hnot := c.escalates_injected
    refine ⟨_, State.take_serve_eq h (Part.inject_taken (b := s.fresh) ha hi), Part.claimAs_rest hnot, hpanel, hhandle,
      fun k' hk' => Part.claimAs_bank_ne hk', (Part.claimAs_injectEnable _ _ _ _).trans hi, ?_,
      fun q hq => Part.claimAs_port_ne hq, ?_⟩
    · rw [Part.claimAs_bank_taken (b := s.fresh) (Bool.or_true _), hpanel]
      refine FaultBank.take_of_placed _ _ ?_
      cases hr : (s.part.bank k).record with
      | none =>
        exact (FaultBank.placed_empty (bank := s.part.bank k) _ _ hr).trans (FaultRecord.ofClaim_unnamed hpanel hhandle)
      | some old =>
        dsimp only
        split
        · rename_i hrank
          exact (FaultBank.placed_higher (bank := s.part.bank k) _ _ hr hrank).trans
            (FaultRecord.ofClaim_unnamed hpanel hhandle)
        · rename_i hrank
          exact FaultBank.placed_kept (bank := s.part.bank k) _ _ hr hrank
    · refine (Part.claimAs_port_strap (b := s.fresh)).trans ?_
      rw [Claim.notify_sets, Claim.notify_threshold, Claim.notify_fault, Claim.notify_critical_not _ _ _ _ hnot,
        Bool.or_true]
      simp only [true_and, and_assoc]
      rfl

/-! ### A claim of a block (R167 to R171) -/

section
variable {b : Part} {k : Bank} {c : Claim}

theorem Part.claim_bank_taken (h : (b.bank k).enabled = true) :
    (b.claim k c).bank k = (b.bank k).take c (b.engine (c.panel.getD .cluster)).frame false :=
  Part.claimAs_bank_taken (by rw [h]; rfl)

theorem Part.claim_port_strap : (b.claim k c).port b.strap =
    c.notify k (b.bank k) (b.bank k).enabled false (b.port b.strap) := by
  rw [Part.claim, Part.claimAs_port_strap, Bool.or_false]

/-- The frame number kept for a claim: of the panel named, else of the cluster panel (R167). -/
theorem Part.claimFrame_eq (b : Part) (c : Claim) : (b.engine (c.panel.getD .cluster)).frame =
    match c.panel with
    | some .centre => (b.engine .centre).frame
    | _ => (b.engine .cluster).frame := by
  rcases c.panel with _ | _ | _ <;> rfl

/-- The record a block's claim leaves at an enabled bank: stored, replaced or marked (R170). -/
theorem Part.claim_bank_record (h : (b.bank k).enabled = true) : ((b.claim k c).bank k).record =
    some ((b.bank k).placed c (b.engine (c.panel.getD .cluster)).frame false) := by
  rw [Part.claim_bank_taken h, FaultBank.take_record]

theorem Part.claim_bank_count (h : (b.bank k).enabled = true) :
    ((b.claim k c).bank k).count = (b.bank k).countAfter c.cls := by
  rw [Part.claim_bank_taken h, FaultBank.take_count]

end

/-- Settles O49: a disabled bank is passed by, an enabled one takes, and the notices are the claim's rules read with the
bank's enable. -/
theorem claimTakenAtBank : Obligations.ClaimTakenAtBank := by
  unfold Obligations.ClaimTakenAtBank
  intro b k c full hfull
  obtain rfl := propext hfull
  have hport := Part.claim_port_strap (b := b) (k := k) (c := c)
  have hsets := c.notify_sets k (b.bank k) (b.bank k).enabled false (b.port b.strap)
  have hthreshold := c.notify_threshold k (b.bank k) (b.bank k).enabled false (b.port b.strap)
  have hfault := c.notify_fault k (b.bank k) (b.bank k).enabled false (b.port b.strap)
  rw [← hport] at hsets hthreshold hfault
  refine ⟨rfl, fun hc => Part.claimAs_engines_not (Claim.escalates_below hc false), fun k' hk' => Part.claimAs_bank_ne hk',
    Part.claimAs_injectEnable _ _ _ _, fun p hp => Part.claimAs_port_ne hp,
    fun hoff => ⟨Part.claim_faults_disabled b k hoff c, ?_⟩, fun hc => ?_, fun hon => ?_⟩
  · rw [if_neg (by simp [hoff])] at hthreshold hfault
    rw [hthreshold, hfault] at hsets
    exact hsets
  · rw [hport]
    exact Claim.notify_critical_not _ _ _ _ (Claim.escalates_below hc false)
  · rw [Part.claim_bank_count hon, Part.claim_bank_record hon]
    refine ⟨fun h => FaultBank.countAfter_full h, fun h => FaultBank.countAfter_not_full h,
      Part.claim_bank_taken hon, fun hnone => ?_, fun r hr => ⟨fun hlt => ?_, fun hge => ?_⟩, hsets,
      fun h => hthreshold.trans (if_pos ⟨hon, h⟩), fun h => hthreshold.trans (if_neg fun hall => h hall.2),
      fun h => hfault.trans (if_pos ⟨hon, h⟩), fun h => hfault.trans (if_neg (by simp [h]))⟩
    · rw [FaultBank.placed_empty _ _ hnone, Part.claimFrame_eq]
      rfl
    · rw [FaultBank.placed_higher _ _ hr ((FaultClass.rank_lt_iff _ _).2 hlt), Part.claimFrame_eq]
      rfl
    · rw [FaultBank.placed_kept _ _ hr (mt (FaultClass.rank_lt_iff _ _).1 hge)]

end Sys2Proof.Machine

/-! # Critical escalation by scope (R172 to R175) -/

namespace Sys2Proof.Machine

/-- The escalation of scope CONTRACT on an engine, by its state and flag (R174). -/
theorem Engine.escalateContract_eq (e : Engine) : e.escalateContract =
    if e.state = .running ∧ e.critical = false then { e with critical := true }
    else if e.state = .running then { e with haltHanded := true }
    else e := by
  by_cases hs : e.state = .running
  · cases hc : e.critical <;> simp [Engine.escalateContract, hs, hc]
  · have hstopped : (e.state == .running) = false := beq_eq_false_iff_ne.2 hs
    simp [Engine.escalateContract, hs, hstopped]

section
variable (b : Part) (injected : Bool) (k : Bank) {c : Claim}

/-- An escalated claim of scope CONTRACT reaches the engine of the panel it names and leaves the other (R174). -/
theorem Part.claimAs_engine_contract {q : Panel} (he : c.escalates injected = true) (hs : c.scope = .contract)
    (hq : c.panel = some q) (p : Panel) :
    (b.claimAs injected k c).engine p = if p = q then (b.engine q).escalateContract else b.engine p := by
  have hengines : (b.claimAs injected k c).engines = b.engines.modify q Engine.escalateContract := by
    simp only [Part.claimAs, he, if_true, escalate, hs, hq]
  rw [Part.engine, hengines, PerPanel.get_modify]
  rfl

/-- An escalated claim of scope PART hands both engines a halt, whatever panel it names (R175). -/
theorem Part.claimAs_engine_part (he : c.escalates injected = true) (hs : c.scope = .part) (p : Panel) :
    (b.claimAs injected k c).engine p = (b.engine p).handHalt := by
  have hengines : (b.claimAs injected k c).engines = b.engines.map Engine.handHalt := by
    simp only [Part.claimAs, he, if_true, escalate, hs]
  rw [Part.engine, hengines, PerPanel.get_map]
  rfl

end

/-- An escalated claim of scope PART names both panels in the CRITICAL notice (R175). -/
theorem Claim.notify_critical_part {c : Claim} {injected : Bool} (he : c.escalates injected = true) (hs : c.scope = .part)
    (k : Bank) (bank : FaultBank) (takes : Bool) (x : ClientPort) :
    (c.notify k bank takes injected x).noticeSet.critical = 3 := by
  have hconcerns (p : Panel) : c.concerns p = true := by simp [Claim.concerns, hs]
  rw [Claim.notify_critical he, hconcerns, hconcerns, if_pos rfl, if_pos rfl, BitVec.or_assoc]
  exact BitVec.or_allOnes

/-- Settles O50: by the scope, the engines and the CRITICAL notice are those of the escalation's rules, and the bank's enable
is in none of them. -/
theorem escalationActsByScope : Obligations.EscalationActsByScope := by
  unfold Obligations.EscalationActsByScope
  intro b k c hcls
  have he := Claim.escalates_critical hcls
  have hport := congrArg (fun x => x.noticeSet.critical) (Part.claim_port_strap (b := b) (k := k) (c := c))
  refine ⟨fun q hs hq => ?_, fun q hs hq => ?_, fun hs => ?_, fun p hp => Part.claimAs_port_ne hp, b.claim_table k c⟩
  · have hengine := Part.claimAs_engine_contract b false k he hs hq
    exact ⟨fun p hp => (hengine p).trans (if_neg hp),
      (hengine q).trans ((if_pos rfl).trans (b.engine q).escalateContract_eq),
      hport.trans (Claim.notify_critical_panel he (by simp [hs]) hq _ _ _ _)⟩
  · have hengine := Part.claimAs_engine_panel b false k he hs hq
    exact ⟨fun p hp => (hengine p).trans (if_neg hp), (hengine q).trans (if_pos rfl),
      hport.trans (Claim.notify_critical_panel he (by simp [hs]) hq _ _ _ _)⟩
  · exact ⟨Part.claimAs_engine_part b false k he hs, hport.trans (Claim.notify_critical_part he hs _ _ _ _)⟩

end Sys2Proof.Machine

/-!
# The family of the client ports: coherence at every step, transactions, request rows, the requests a port owns
-/

/-! # The port law at every step (R182, R185); the front of the queue -/

namespace Sys2Proof.Machine

/-- Settles O55: every step upholds the law of the ports. -/
theorem portsStayCoherent : Obligations.PortsStayCoherent := by
  unfold Obligations.PortsStayCoherent
  exact fun s t hs h => (step_upholds h).ports hs

/-- Settles O1: the queue's front and rest are what the step matches on. -/
theorem stepRunsFrontCommand : Obligations.StepRunsFrontCommand := by
  unfold Obligations.StepRunsFrontCommand
  exact fun _ _ _ => rfl

end Sys2Proof.Machine

/-! # Transactions (R182 to R186, R188, R195) -/

namespace Sys2Proof.Machine

/-! ### A frame judged (R183, R188) -/

/-- What a verdict on a frame makes of the port (R183). -/
def FrameVerdict.act : FrameVerdict → ClientPort → ClientPort
  | .answer st => ClientPort.answerSelf st
  | .hand rq => ClientPort.hand rq

theorem Part.role_eq_display_iff (b : Part) (p : Port) : b.role p = .display ↔ p ≠ b.strap := by
  rw [Ne, ← Part.role_eq_safety_iff b p]
  cases b.role p <;> simp

section
variable {b : Part} {p : Port} {code : Byte} {ps : List Byte} {frame : List Byte}

/-- Past framing, a frame is judged by its code and its parameters (R183, R195). -/
theorem judgeFrame_requestFrame (role : Role) (h : ps.length ≤ 61) :
    judgeFrame role (requestFrame code ps) = judgeRequest role code ps := by
  have hframed : wellFramed (requestFrame code ps) = true := (wellFramed_iff _).2 ⟨code, ps, h, rfl⟩
  rw [judgeFrame, if_pos hframed, firstByte_requestFrame, frameParams_requestFrame]

/-- Checks 2 to 4 never answer BAD_FRAME (R183). -/
theorem judgeRequest_ne_badFrame (role : Role) : judgeRequest role code ps ≠ .answer .badFrame := by
  unfold judgeRequest
  split
  · simp
  · split
    · simp
    · split <;> simp

/-- A frame that fails framing leaves BAD_FRAME and is claimed (R183). -/
theorem Part.acceptFrame_misframed (h : wellFramed frame ≠ true) : b.acceptFrame p frame =
    (b.modPort p (ClientPort.answerSelf .badFrame)).claim .core (frameCheckClaim (firstByte frame)) := by
  have hjudged : judgeFrame (b.role p) frame = .answer .badFrame := if_neg h
  rw [Part.acceptFrame, hjudged]

/-- A frame that passes framing changes the port alone, as checks 2 to 4 say (R183). -/
theorem Part.acceptFrame_requestFrame (h : ps.length ≤ 61) :
    b.acceptFrame p (requestFrame code ps) = b.modPort p (judgeRequest (b.role p) code ps).act := by
  rw [Part.acceptFrame, judgeFrame_requestFrame _ h]
  split
  · rename_i rq hv
    rw [hv]
    rfl
  · rename_i hv
    exact absurd hv (judgeRequest_ne_badFrame _)
  · rename_i st _ hv
    rw [hv]
    rfl

/-- The port after checks 2 to 4 on a code that names no request (R183). -/
theorem judgeRequest_act_unknown (role : Role) (h : RequestName.ofCode? code = none) :
    (judgeRequest role code ps).act = ClientPort.answerSelf .unknownRequest := by
  rw [judgeRequest, h]
  rfl

/-- The port after checks 2 to 4 on a code that names a request (R183, R188). -/
theorem judgeRequest_act_named {name : RequestName} (h : RequestName.ofCode? code = some name) :
    (judgeRequest (b.role p) code ps).act =
      if ps.length ≠ name.length then ClientPort.answerSelf .badArg
      else if name.safetyOnly = true ∧ p ≠ b.strap then ClientPort.answerSelf .noAuthority
      else ClientPort.hand { name := name, params := ps } := by
  rw [judgeRequest, h]
  simp only [Part.role_eq_display_iff, apply_ite FrameVerdict.act]
  rfl

/-! ### A request transaction (R183, R184) -/

theorem Part.requestTransaction_working (h : (b.port p).state = .working) :
    b.requestTransaction p frame = (b.sendBytes p (fillBytes (frame.length + 1))).refuseFrame p frame := if_pos h

theorem Part.requestTransaction_ready (h : (b.port p).state ≠ .working) :
    b.requestTransaction p frame = (b.sendBytes p (fillBytes (frame.length + 1))).acceptFrame p frame := if_neg h

end

/-- A command that takes an update of the part, where that update is known on the part it finds. -/
theorem State.take_of_eq {s : State} {f : Part → Part} {b : Part} (h : f s.fresh = b) :
    s.take f = .next { s with part := b } := by
  rw [State.take_eq, h]

/-- Settles O5: at a WORKING port the frame is refused, with no look at it but for its first byte. -/
theorem requestRefusedWhileWorking : Obligations.RequestRefusedWhileWorking := by
  unfold Obligations.RequestRefusedWhileWorking
  exact fun s p frame h => State.take_of_eq (Part.requestTransaction_working (b := s.fresh) h)

/-- Settles O6: a frame fails framing exactly where no code and at most 61 parameter bytes make it; past framing the port's
change is that of checks 2 to 4. -/
theorem requestJudged : Obligations.RequestJudged := by
  unfold Obligations.RequestJudged
  intro s p frame hs
  have hready := Part.requestTransaction_ready (b := s.fresh) (frame := frame) hs
  refine ⟨fun hnot => ?_, ?_⟩
  · have hmisframed : wellFramed frame ≠ true := fun hw => by
      obtain ⟨code, ps, hps, heq⟩ := (wellFramed_iff frame).1 hw
      exact hnot code ps hps heq
    exact State.take_of_eq (hready.trans (Part.acceptFrame_misframed hmisframed))
  · rintro code ps hps rfl
    refine State.take_of_eq (hready.trans ((Part.acceptFrame_requestFrame hps).trans (congrArg (Part.modPort p · _) ?_)))
    cases hname : RequestName.ofCode? code with
    | none => exact judgeRequest_act_unknown _ hname
    | some name => exact judgeRequest_act_named (b := s.fresh) hname

/-! ### An answer transaction (R186, R195) -/

theorem byteSum_toNat (bs : List Byte) : (byteSum bs).toNat = (bs.map BitVec.toNat).sum % 256 := by
  have hfold : ∀ (bs : List Byte) (k : Byte), (bs.foldl (· + ·) k).toNat = (k.toNat + (bs.map BitVec.toNat).sum) % 256 := by
    intro bs
    induction bs with
    | nil => exact fun k => (Nat.mod_eq_of_lt k.isLt).symm
    | cons x xs ih =>
      intro k
      rw [List.foldl_cons, ih, BitVec.toNat_add, List.map_cons, List.sum_cons]
      omega
  exact (hfold bs 0).trans (by simp)

/-- The bytes of a frame with its check byte sum to 0 modulo 256 (R195). -/
theorem withCheck_sum (bs : List Byte) : ((withCheck bs).map BitVec.toNat).sum % 256 = 0 := by
  rw [← byteSum_toNat, byteSum_withCheck]
  rfl

section
variable {q : ClientPort}

theorem ClientPort.answer_idle (h : q.state = .idle) : q.answer.frame = [0x03, 0, 0, 0xFD] := by
  rw [ClientPort.answer, h]
  rfl

theorem ClientPort.answer_working (h : q.state = .working) :
    q.answer.frame = if q.dropped = true then [0x02, 1, 0, 0xFD] else [0x02, 0, 0, 0xFE] := by
  rw [ClientPort.answer, h]
  cases q.dropped <;> rfl

theorem ClientPort.answer_answered {a : Answer} (h : q.state = .answered) (ha : q.held = some a) : q.answer = a := by
  rw [ClientPort.answer, h, ha]
  rfl

end

/-- The flags byte of an answer is its dropped flag (R195). -/
theorem flagByte_singleton (d : Bool) : [flagByte [d]] = byte1 d.toNat := by cases d <;> rfl

/-- Settles O7: the bytes clocked are those of the frame of the port's answer, written out by the port state. -/
theorem answerTransactionReturnsFrame : Obligations.AnswerTransactionReturnsFrame := by
  unfold Obligations.AnswerTransactionReturnsFrame
  intro s p clocked answers hanswers
  have hsent : answers (s.part.port p).answer.frame := (hanswers _).2 rfl
  refine ⟨fun hs => ClientPort.answer_idle hs ▸ hsent, fun hs => ClientPort.answer_working hs ▸ hsent,
    fun a hs ha => ?_⟩
  rw [ClientPort.answer_answered hs ha] at hsent
  obtain ⟨check, hcheck⟩ : ∃ check, a.frame =
      [a.status.code] ++ [flagByte [a.dropped]] ++ byte1 a.payload.length ++ a.payload ++ [check] := ⟨_, rfl⟩
  refine ⟨a.frame, check, withCheck_sum _, hsent, ?_⟩
  rw [hcheck, flagByte_singleton]
  cases a.status <;> rfl

/-! ### A transaction of neither kind (R182) -/

theorem Part.unknownTransaction_cons {b : Part} {p : Port} {k : Byte} {rest : List Byte} (hreq : k ≠ Config.requestKind)
    (hans : k ≠ Config.answerKind) : b.unknownTransaction p (k :: rest) =
      (b.sendBytes p (fillBytes (rest.length + 1))).claim .core (frameCheckClaim k) :=
  (if_neg hreq).trans (if_neg hans)

/-- Settles O8: a first byte of neither kind is claimed, and no byte does nothing. -/
theorem unknownKindIgnored : Obligations.UnknownKindIgnored := by
  unfold Obligations.UnknownKindIgnored
  exact fun s p k rest => ⟨fun hreq hans => State.take_of_eq (Part.unknownTransaction_cons (b := s.fresh) hreq hans), rfl⟩

end Sys2Proof.Machine

/-! # Request rows and the other ports (R182, R183, R185) -/

namespace Sys2Proof.Machine
open Sys2Proof.Machine.Part

/-! ### What a port's work leaves of the ports -/

/-- Work on behalf of port p: the strap stands, and every other port changes in its notice set alone (R182). -/
structure Part.LeavesOthers (p : Port) (b b' : Part) : Prop where
  strap : b'.strap = b.strap
  others : ∀ q, q ≠ p → (b'.port q).SameButNotices (b.port q)

/-- The work of a request of port p also leaves the port's own dropped mark, which the answer is to carry (R185). -/
structure Part.KeepsMark (p : Port) (b b' : Part) : Prop extends LeavesOthers p b b' where
  dropped : (b'.port p).dropped = (b.port p).dropped

namespace Part.LeavesOthers
variable {p : Port} {b b' : Part}

theorem refl (p : Port) (b : Part) : LeavesOthers p b b := ⟨rfl, fun _ _ => .refl _⟩

theorem trans {a : Part} (h : LeavesOthers p a b) (k : LeavesOthers p b b') : LeavesOthers p a b' :=
  ⟨k.strap.trans h.strap, fun q hq => (h.others q hq).trans (k.others q hq)⟩

theorem modPort (b : Part) (p : Port) (f : ClientPort → ClientPort) : LeavesOthers p b (b.modPort p f) :=
  ⟨rfl, fun q hq => by rw [Part.modPort_port, if_neg hq]; exact .refl _⟩

end Part.LeavesOthers

namespace Part.KeepsMark
variable {p : Port} {b b' : Part}

theorem of_calm (h : Calm b b') : KeepsMark p b b' :=
  ⟨⟨h.strap, fun q _ => h.ports q⟩, by rw [h.ports p]⟩

theorem of_quiet (h : Quiet b b') : KeepsMark p b b' := .of_calm h.calm

theorem refl (b : Part) : KeepsMark p b b := .of_calm (.refl b)

/-- What writes neither ports nor strap. -/
theorem of_eq (hp : b'.ports = b.ports) (hs : b'.strap = b.strap) : KeepsMark p b b' := by
  have hport (q : Port) : b'.port q = b.port q := by simp [Part.port, hp]
  exact ⟨⟨hs, fun q _ => by rw [hport]; exact .refl _⟩, by rw [hport]⟩

/-- A change of the port's own notices and mask. -/
theorem modPort (b : Part) (p : Port) (f : ClientPort → ClientPort) (h : (f (b.port p)).dropped = (b.port p).dropped) :
    KeepsMark p b (b.modPort p f) :=
  ⟨.modPort b p f, by rw [Part.modPort_port, if_pos rfl]; exact h⟩

end Part.KeepsMark

section
variable (b : Part)

/-! ### Transactions (R183, R184, R186) -/

theorem Part.claim_leavesOthers (p : Port) (k : Bank) (c : Claim) : LeavesOthers p b (b.claim k c) :=
  (KeepsMark.of_quiet (b.claim_quiet k c)).toLeavesOthers

theorem Part.sendBytes_leavesOthers (p : Port) (bs : List Byte) : LeavesOthers p b (b.sendBytes p bs) :=
  ⟨rfl, fun _ _ => .refl _⟩

theorem Part.acceptFrame_leavesOthers (p : Port) (frame : List Byte) : LeavesOthers p b (b.acceptFrame p frame) := by
  unfold Part.acceptFrame
  split
  · exact .modPort b p _
  · exact (LeavesOthers.modPort b p _).trans (Part.claim_leavesOthers _ _ _ _)
  · exact .modPort b p _

theorem Part.requestTransaction_leavesOthers (p : Port) (frame : List Byte) :
    LeavesOthers p b (b.requestTransaction p frame) := by
  refine (b.sendBytes_leavesOthers p (fillBytes (frame.length + 1))).trans ?_
  by_cases hs : (b.port p).state = .working
  · rw [Part.requestTransaction_working hs]
    exact (LeavesOthers.modPort _ p _).trans (Part.claim_leavesOthers _ _ _ _)
  · rw [Part.requestTransaction_ready hs]
    exact Part.acceptFrame_leavesOthers _ p frame

theorem Part.unknownTransaction_leavesOthers (p : Port) (bytes : List Byte) :
    LeavesOthers p b (b.unknownTransaction p bytes) := by
  unfold Part.unknownTransaction
  split
  · exact .refl p b
  · split
    · exact b.requestTransaction_leavesOthers p _
    · split
      · exact b.sendBytes_leavesOthers p _
      · exact (b.sendBytes_leavesOthers p _).trans (Part.claim_leavesOthers _ _ _ _)

/-! ### The contract manager's requests are quiet (R4, R9 to R16, R24, R25, R105) -/

theorem Part.onHandle_quiet (ps : List Byte) {f : Nat → Part → Part × Reply} (h : ∀ n b, Quiet b (f n b).1) :
    Quiet b (b.onHandle ps f).1 := by
  refine Quiet.trans (b := b.readHandle (handleOf ps)) (.ite (b.verify_quiet _ _) (.refl b)) ?_
  unfold Part.onHandle
  dsimp only
  split
  · exact h _ _
  · exact .refl _

theorem Part.admitOpen_quiet (p : Port) (n : Nat) (a : OpenArgs) : Quiet b (b.admitOpen p n a).1 := by
  unfold Part.admitOpen
  dsimp only
  split
  · exact .refl b
  · exact (b.setRecord_quiet n _).trans ((Part.emptyCandidateIf_quiet _ _ _).trans (Part.contractNotice_quiet _ _ _ _))

theorem Part.open_quiet (p : Port) (ps : List Byte) : Quiet b (b.open p ps).1 := by
  unfold Part.open
  split
  · exact .refl b
  · split
    · exact .refl b
    · refine (b.verifyAll_quiet .request).trans ?_
      dsimp only
      split
      · dsimp only
        exact .refl _
      · exact Part.admitOpen_quiet _ p _ _

theorem Part.admitAmend_quiet (n : Nat) (a : Params) : Quiet b (b.admitAmend n a).1 := by
  unfold Part.admitAmend
  dsimp only
  split
  · exact .refl b
  · exact (b.setRecord_quiet n _).trans (Part.emptyCandidateIf_quiet _ _ _)

theorem Part.amendAt_quiet (p : Port) (ps : List Byte) (n : Nat) : Quiet b (b.amendAt p ps n).1 := by
  unfold Part.amendAt
  dsimp only
  split
  · exact .refl b
  · split
    · exact .refl b
    · split
      · exact .refl b
      · split
        · exact .refl b
        · exact (b.verifyAll_quiet .request).trans (Part.admitAmend_quiet _ n _)

theorem Part.suspendAt_quiet (p : Port) (n : Nat) : Quiet b (b.suspendAt p n).1 := by
  unfold Part.suspendAt
  dsimp only
  split
  · exact .refl b
  · split
    · exact b.setRecord_quiet n _
    · split
      · exact b.setRecord_quiet n _
      · exact .refl b

theorem Part.resumeAt_quiet (p : Port) (n : Nat) : Quiet b (b.resumeAt p n).1 := by
  unfold Part.resumeAt
  dsimp only
  split
  · exact .refl b
  · split
    · exact b.setRecord_quiet n _
    · split
      · exact b.setRecord_quiet n _
      · exact .refl b

theorem Part.retireAt_quiet (p : Port) (n : Nat) : Quiet b (b.retireAt p n).1 := by
  unfold Part.retireAt
  dsimp only
  split
  · exact .refl b
  · split
    · exact .refl b
    · split
      · exact (b.setRecord_quiet n _).trans (Part.contractNotice_quiet _ _ _ _)
      · exact b.freeContract_quiet n _

theorem Part.updateAt_quiet (p : Port) (ps : List Byte) (n : Nat) : Quiet b (b.updateAt p ps n).1 := by
  unfold Part.updateAt
  dsimp only
  split
  · exact .refl b
  · split
    · exact .refl b
    · split
      · exact .refl b
      · split
        · exact .refl b
        · exact b.setRecord_quiet n _

theorem Part.find_quiet (ps : List Byte) : Quiet b (b.find ps).1 := by
  unfold Part.find
  split
  · exact .refl b
  · dsimp only
    exact b.verifyAll_quiet .request

theorem Part.list_quiet (ps : List Byte) : Quiet b (b.list ps).1 := by
  unfold Part.list
  split
  · exact .refl b
  · dsimp only
    exact b.verifyAll_quiet .request

/-! ### The requests of panels and touch are calm (R44, R47, R50, R62, R64, R141, R142) -/

theorem Part.panelUp_calm (ps : List Byte) : Calm b (b.panelUp ps).1 := by
  unfold Part.panelUp
  split
  · exact .refl b
  · split
    · exact .refl b
    · exact b.bringUp_calm _

theorem Part.panelDown_calm (ps : List Byte) : Calm b (b.panelDown ps).1 := by
  unfold Part.panelDown
  split
  · exact .refl b
  · exact b.takeDown_calm _

theorem Part.panelConfig_calm (ps : List Byte) : Calm b (b.panelConfig ps).1 := by
  unfold Part.panelConfig
  split
  · exact .refl b
  · split
    · exact .refl b
    · refine (b.verifyAll_quiet .request).calm.trans ?_
      dsimp only
      split
      · dsimp only
        exact .refl _
      · exact Part.modEngine_calm _ _ _

theorem Part.panelStatus_calm (ps : List Byte) : Calm b (b.panelStatus ps).1 := by
  unfold Part.panelStatus
  split <;> exact .refl b

theorem Part.backlight_calm (ps : List Byte) : Calm b (b.backlight ps).1 := by
  unfold Part.backlight
  split
  · exact .refl b
  · split
    · exact .refl b
    · exact b.modEngine_calm _ _

theorem Part.touchConfig_calm (ps : List Byte) : Calm b (b.touchConfig ps).1 := by
  unfold Part.touchConfig
  split
  · exact .refl b
  · rename_i c _
    exact .modTouch b (fun t => { t with cfg := c }) fun _ h => h

theorem Part.recalibrate_calm (p : Port) : Calm b (b.recalibrate p).1 := by
  refine Calm.trans (b := b.readZones p) (.ite (.refl b) (b.verifyAll_quiet .request).calm) ?_
  unfold Part.recalibrate
  dsimp only
  split
  · exact .modTouch _ _ fun t h => by rw [Touch.recalibrate_contacts]; exact h
  · exact .refl _

/-! ### The fault monitor's requests (R176 to R180) -/

section
variable {p : Port}

theorem Part.faultRead_keepsMark (ps : List Byte) : KeepsMark p b (b.faultRead ps).1 := by
  unfold Part.faultRead
  split <;> exact .refl b

theorem Part.faultClear_keepsMark (ps : List Byte) : KeepsMark p b (b.faultClear ps).1 := by
  unfold Part.faultClear
  split
  · exact .refl b
  · exact .of_eq rfl rfl

theorem Part.faultControl_keepsMark (ps : List Byte) : KeepsMark p b (b.faultControl ps).1 := by
  unfold Part.faultControl
  split
  · exact .refl b
  · exact .of_eq rfl rfl

theorem Part.ackCritical_keepsMark (ps : List Byte) : KeepsMark p b (b.ackCritical ps).1 := by
  unfold Part.ackCritical
  split
  · exact .refl b
  · split
    · exact .of_eq rfl rfl
    · exact .refl b

theorem Part.inject_keepsMark (ps : List Byte) : KeepsMark p b (b.inject ps).1 := by
  unfold Part.inject
  split
  · exact .refl b
  · split
    · exact .of_quiet (b.claimAs_quiet true _ _)
    · exact .refl b

end

/-! ### The port's own requests (R190, R191) -/

theorem Part.notices_keepsMark (p : Port) : KeepsMark p b (b.notices p).1 := .modPort b p _ rfl

theorem Part.setAttention_keepsMark (p : Port) (ps : List Byte) : KeepsMark p b (b.setAttention p ps).1 := by
  unfold Part.setAttention
  split
  · exact .refl b
  · exact .modPort b p _ rfl

/-- A request row leaves the other ports as the work of its request does (R182). -/
theorem Part.serve_leavesOthers (name : RequestName) (p : Port) (f : List Byte → Part → Part × Reply)
    (h : ∀ ps, LeavesOthers p b (f ps b).1) : LeavesOthers p b (b.serve name p f) := by
  unfold Part.serve
  split
  · split
    · exact (h _).trans (.modPort _ p _)
    · exact .refl p b
  · exact .refl p b

end

/-! ### Every request row (R183) -/

/-- Each row serves its own request at its port, by work that keeps the port's dropped mark and the other ports. -/
theorem exec_row (name : RequestName) (p : Port) : ∃ f : List Byte → Part → Part × Reply,
    (∀ s, exec (name.row p) s = s.take (Part.serve name p f)) ∧ ∀ ps b, KeepsMark p b (f ps b).1 := by
  cases name with
  | openContract => exact ⟨_, fun _ => rfl, fun ps b => .of_quiet (b.open_quiet p ps)⟩
  | amend =>
    exact ⟨_, fun _ => rfl, fun ps b => .of_quiet (b.onHandle_quiet ps fun n b => b.amendAt_quiet p ps n)⟩
  | suspend => exact ⟨_, fun _ => rfl, fun ps b => .of_quiet (b.onHandle_quiet ps fun n b => b.suspendAt_quiet p n)⟩
  | resume => exact ⟨_, fun _ => rfl, fun ps b => .of_quiet (b.onHandle_quiet ps fun n b => b.resumeAt_quiet p n)⟩
  | retire => exact ⟨_, fun _ => rfl, fun ps b => .of_quiet (b.onHandle_quiet ps fun n b => b.retireAt_quiet p n)⟩
  | lookup => exact ⟨_, fun _ => rfl, fun ps b => .of_quiet (b.onHandle_quiet ps fun _ b => .refl b)⟩
  | find => exact ⟨_, fun _ => rfl, fun ps b => .of_quiet (b.find_quiet ps)⟩
  | list => exact ⟨_, fun _ => rfl, fun ps b => .of_quiet (b.list_quiet ps)⟩
  | update =>
    exact ⟨_, fun _ => rfl, fun ps b => .of_quiet (b.onHandle_quiet ps fun n b => b.updateAt_quiet p ps n)⟩
  | panelUp => exact ⟨_, fun _ => rfl, fun ps b => .of_calm (b.panelUp_calm ps)⟩
  | panelDown => exact ⟨_, fun _ => rfl, fun ps b => .of_calm (b.panelDown_calm ps)⟩
  | panelConfig => exact ⟨_, fun _ => rfl, fun ps b => .of_calm (b.panelConfig_calm ps)⟩
  | panelStatus => exact ⟨_, fun _ => rfl, fun ps b => .of_calm (b.panelStatus_calm ps)⟩
  | backlight => exact ⟨_, fun _ => rfl, fun ps b => .of_calm (b.backlight_calm ps)⟩
  | touchConfig => exact ⟨_, fun _ => rfl, fun ps b => .of_calm (b.touchConfig_calm ps)⟩
  | recalibrate => exact ⟨_, fun _ => rfl, fun _ b => .of_calm (b.recalibrate_calm p)⟩
  | contacts => exact ⟨_, fun _ => rfl, fun _ b => .refl b⟩
  | faultRead => exact ⟨_, fun _ => rfl, fun ps b => b.faultRead_keepsMark ps⟩
  | faultClear => exact ⟨_, fun _ => rfl, fun ps b => b.faultClear_keepsMark ps⟩
  | faultControl => exact ⟨_, fun _ => rfl, fun ps b => b.faultControl_keepsMark ps⟩
  | ackCritical => exact ⟨_, fun _ => rfl, fun ps b => b.ackCritical_keepsMark ps⟩
  | inject => exact ⟨_, fun _ => rfl, fun ps b => b.inject_keepsMark ps⟩
  | identify => exact ⟨_, fun _ => rfl, fun _ b => .refl b⟩
  | notices => exact ⟨_, fun _ => rfl, fun _ b => b.notices_keepsMark p⟩
  | setAttention => exact ⟨_, fun _ => rfl, fun ps b => b.setAttention_keepsMark p ps⟩
  | warmReset => exact ⟨_, fun _ => rfl, fun _ b => .of_calm b.warmReset_calm⟩

/-- Settles O9: the answer placed carries the dropped mark that the request's work has kept. -/
theorem requestRowTakesRequest : Obligations.RequestRowTakesRequest := by
  unfold Obligations.RequestRowTakesRequest
  intro name p s
  obtain ⟨f, hrow, hkeeps⟩ := exec_row name p
  refine ⟨fun ps h => ?_, fun h => (hrow s).trans (State.take_of_eq (Part.serve_not h f))⟩
  obtain ⟨hstate, hhand, hmark, hheld⟩ := Part.place_answered (f ps s.fresh).1 p (f ps s.fresh).2
  exact ⟨_, (hrow s).trans (State.take_serve h f), hstate, hhand, hmark, _, hheld, (hkeeps ps s.fresh).dropped⟩

/-- What a client does at port p, and the rows that serve it there, leave the other ports (R182). -/
theorem exec_leavesOthers {c : Instr} {p : Port}
    (h : (∃ frame, c = .requestTransaction p frame) ∨ (∃ n, c = .answerTransaction p n) ∨
      (∃ bs, c = .unknownKindTransaction p bs) ∨ ∃ name : RequestName, c = name.row p) :
    ∃ f, (∀ s, exec c s = s.take f) ∧ ∀ b, LeavesOthers p b (f b) := by
  rcases h with ⟨frame, rfl⟩ | ⟨n, rfl⟩ | ⟨bs, rfl⟩ | ⟨name, rfl⟩
  · exact ⟨_, fun _ => rfl, fun b => b.requestTransaction_leavesOthers p frame⟩
  · exact ⟨_, fun _ => rfl, fun b => b.sendBytes_leavesOthers p _⟩
  · exact ⟨_, fun _ => rfl, fun b => b.unknownTransaction_leavesOthers p bs⟩
  · obtain ⟨f, hrow, hkeeps⟩ := exec_row name p
    exact ⟨_, hrow, fun b => b.serve_leavesOthers name p f fun ps => (hkeeps ps b).toLeavesOthers⟩

/-- Settles O10: notices alone reach the other ports. -/
theorem portsAreIndependent : Obligations.PortsAreIndependent := by
  unfold Obligations.PortsAreIndependent
  intro c p q s t hc hq ht
  obtain ⟨f, hf, hleaves⟩ := exec_leavesOthers hc
  rw [hf, State.take_eq] at ht
  cases ht
  exact ⟨(hleaves s.fresh).others q hq, (hleaves s.fresh).strap⟩

end Sys2Proof.Machine

/-! # IDENTIFY, NOTICES and SET_ATTENTION (R189 to R192, Table 11-8) -/

namespace Sys2Proof.Machine

/-! ### The bytes of NOTICES (Table 11-8) -/

/-- The pending kinds as the sum of their bits (R189, Table 11-8). -/
theorem NoticeSet.pendingKinds_toNat (m : NoticeSet) : m.pendingKinds.toNat =
    (m.contract != 0).toNat + 2 * (m.zone != 0).toNat + 4 * m.contacts.toNat + 8 * (m.panel != 0).toNat +
      16 * (m.fault != 0).toNat + 32 * (m.threshold != 0).toNat + 64 * (m.critical != 0).toNat := by
  have hbits (c z t p f h k : Bool) : (BitVec.ofNat 7 (bitsToNat [c, z, t, p, f, h, k])).toNat =
      c.toNat + 2 * z.toNat + 4 * t.toNat + 8 * p.toNat + 16 * f.toNat + 32 * h.toNat + 64 * k.toNat := by
    revert c z t p f h k
    decide
  exact hbits _ _ _ _ _ _ _

/-- Bit n mod 8 of byte n / 8 is the member n (Table 11-8). -/
theorem memberBytes_getLsbD (v : BitVec 64) {i j : Nat} (hi : i < (memberBytes v).length) (hj : j < 8) :
    (memberBytes v)[i].getLsbD j = v.getLsbD (8 * i + j) := by
  have hbyte : (memberBytes v)[i] = BitVec.ofNat 8 (v.toNat / 2 ^ (8 * i)) := by simp [memberBytes]
  rw [hbyte, BitVec.getLsbD_ofNat, Nat.testBit_div_two_pow, decide_eq_true hj, Bool.true_and, BitVec.testBit_toNat,
    Nat.add_comm]

/-- Eight bytes with the members of a set at their bits are the set's bytes (Table 11-8). -/
theorem eq_memberBytes {bytes : List Byte} {v : BitVec 64} (hlen : bytes.length = 8)
    (h : ∀ n, n < 64 → (bytes.getD (n / 8) 0).getLsbD (n % 8) = v.getLsbD n) : bytes = memberBytes v := by
  refine List.ext_getElem hlen fun i hi hi' => BitVec.eq_of_getLsbD_eq fun j hj => ?_
  have hbit := h (8 * i + j) (by omega)
  rw [show (8 * i + j) / 8 = i by omega, show (8 * i + j) % 8 = j by omega, List.getD_eq_getElem _ _ hi] at hbit
  rw [hbit, memberBytes_getLsbD v hi' hj]

/-! ### The byte of SET_ATTENTION (R190) -/

theorem Part.setAttention_badArg {b : Part} {p : Port} {ks : Byte} (h : 128 ≤ ks.toNat) :
    b.setAttention p [ks] = (b, Reply.bare .badArg) := by
  simp [Part.setAttention, attentionArgs, Nat.not_lt.2 h]

theorem Part.setAttention_taken {b : Part} {p : Port} {ks : Byte} (h : ks.toNat < 128) :
    b.setAttention p [ks] = (b.modPort p fun q => { q with mask := BitVec.ofNat 7 ks.toNat }, Reply.bare .ok) := by
  simp [Part.setAttention, attentionArgs, h]

/-- Settles O51: the bytes written out are those of the two payloads, and the attention byte is judged by its bit 7. -/
theorem portRequestsAct : Obligations.PortRequestsAct := by
  unfold Obligations.PortRequestsAct
  refine fun p s => ⟨fun ps h => State.take_serve_eq h rfl, ?_, fun ks h =>
    ⟨fun hout => State.take_serve_eq h (Part.setAttention_badArg hout),
      fun hin => State.take_serve_eq h (Part.setAttention_taken hin)⟩⟩
  rintro ps contracts zones m h rfl hcontracts hzones hmembers hzoneMembers
  rw [eq_memberBytes hcontracts hmembers, eq_memberBytes hzones hzoneMembers, ← NoticeSet.pendingKinds_toNat]
  exact State.take_serve_eq h rfl

end Sys2Proof.Machine
